-- ==== Sys2Proof/Word.lean ====
section
/-! DEFINITION. The word types of the block (spec/00_scope.md R10, R12, R20): every register is 32 bits, a symbol 16,
a frequency count or weight 64, a node index 17; a bit string is a list, first bit first (R21). -/

namespace Sys2Proof

/-- A register value or a command word: 32 bits, unsigned (00_scope.md R20; 10_state.md R102). -/
abbrev Word := BitVec 32

/-- An entry of BYTEMEM (10_state.md R132). -/
abbrev Byte := BitVec 8

/-- A symbol: "16-bit unsigned, in [0, 65535]" (00_scope.md R10). -/
abbrev Symbol := BitVec 16

/-- A frequency count or a node weight: 64 bits, unsigned (00_scope.md R10; 10_state.md R140). -/
abbrev Weight := BitVec 64

/-- An index into the NODE arena: 17 bits (10_state.md R140). -/
abbrev NodeIndex := BitVec 17

/-- A bit string, first bit on the left (00_scope.md R21). -/
abbrev Bits := List Bool

end Sys2Proof
end

