-- ==== Sys2Proof/Syntax.lean ====
section
/-! DEFINITION. The commands of the block: one constructor per row of spec/opcode_table.json
(spec/30_encoding.md R303). The other half of the command's meaning, the register operands, is in State. -/

namespace Sys2Proof

/-- A command with the operands its word carries (30_encoding.md R301: W, 6 bits, and B, 1 bit). -/
inductive Instr
  /-- NOP (40_control.md R410). -/
  | nop
  /-- BW_INIT (41_bitio.md R425). -/
  | bwInit
  /-- BW_PUT1 B (41_bitio.md R426). -/
  | bwPut1 (b : Bool)
  /-- BW_PUTN W (41_bitio.md R427); legal for W <= 32 (30_encoding.md R304). -/
  | bwPutN (w : BitVec 6)
  /-- BW_FINAL (41_bitio.md R428). -/
  | bwFinal
  /-- BR_INIT (41_bitio.md R431). -/
  | brInit
  /-- BR_GET1 (41_bitio.md R432). -/
  | brGet1
  /-- BR_GETN W (41_bitio.md R433); legal for W <= 32 (30_encoding.md R304). -/
  | brGetN (w : BitVec 6)
  /-- FREQ_CLR (42_freq.md R460). -/
  | freqClr
  /-- FREQ_COUNT (42_freq.md R461). -/
  | freqCount
  /-- TREE_BUILD (43_tree.md R481). -/
  | treeBuild
  /-- TREE_SER (45_serdes.md R552). -/
  | treeSer
  /-- TREE_DESER (45_serdes.md R555). -/
  | treeDeser
  /-- CODE_GEN (44_codetable.md R521). -/
  | codeGen
  /-- ENCODE (46_codec.md R580). -/
  | encode
  /-- DECODE (46_codec.md R600). -/
  | decode
  /-- ENC_ALL (46_codec.md R615). -/
  | encAll
  deriving DecidableEq, Repr

end Sys2Proof
end

