-- ==== Sys2Proof/WellFormed.lean ====
section
/-! DEFINITION. Which command terms have a legal command word (spec/30_encoding.md R304): the one check that the types of
Instr leave open is the width operand, "W > 32" being illegal. -/

namespace Sys2Proof

/-- A width operand is legal up to 32 (30_encoding.md R300, R304). -/
def legalWidth (w : BitVec 6) : Bool := w.toNat ≤ 32

/-- A command term has a legal command word. -/
def Instr.wf : Instr → Bool
  | .bwPutN w => legalWidth w
  | .brGetN w => legalWidth w
  | .nop | .bwInit | .bwPut1 _ | .bwFinal | .brInit | .brGet1 | .freqClr | .freqCount | .treeBuild | .treeSer
  | .treeDeser | .codeGen | .encode | .decode | .encAll => true

end Sys2Proof
end

