-- ==== Sys2Proof/Decode.lean ====
section
/-! DEFINITION. The command word (spec/30_encoding.md R300 to R306): its fields, decoding (total, every illegal word
rejected by name), the encoder, and the opcode table as data. -/

namespace Sys2Proof

/-- OP, bits 7:0 (30_encoding.md R300). -/
def opField (x : Word) : BitVec 8 := x.extractLsb' 0 8

/-- W, bits 13:8 (30_encoding.md R300). -/
def wField (x : Word) : BitVec 6 := x.extractLsb' 8 6

/-- B, bit 14 (30_encoding.md R300). -/
def bField (x : Word) : Bool := x.getLsbD 14

/-- Bits 31:15, reserved, must be 0 (30_encoding.md R300). -/
def reservedField (x : Word) : BitVec 17 := x.extractLsb' 15 17

/-- Why a command word is illegal: one name for each clause of 30_encoding.md R304. Each of them is the outcome
ILLEGAL_COMMAND; the names are the model's. -/
inductive DecodeError
  /-- OP is reserved (30_encoding.md R303). -/
  | reservedOpcode
  /-- Bits 31:15 are not 0. -/
  | reservedBits
  /-- W is not 0 and the command does not use W. -/
  | unusedWidth
  /-- B is not 0 and the command does not use B. -/
  | unusedBit
  /-- The command uses W and W > 32. -/
  | widthTooLarge
  deriving DecidableEq, Repr

/-- A command that uses neither W nor B. -/
def decodePlain (x : Word) (i : Instr) : Except DecodeError Instr :=
  if wField x ≠ 0 then .error .unusedWidth else if bField x then .error .unusedBit else .ok i

/-- A command that uses B and not W. -/
def decodeWithB (x : Word) (i : Bool → Instr) : Except DecodeError Instr :=
  if wField x ≠ 0 then .error .unusedWidth else .ok (i (bField x))

/-- A command that uses W and not B. -/
def decodeWithW (x : Word) (i : BitVec 6 → Instr) : Except DecodeError Instr :=
  if bField x then .error .unusedBit
  else if legalWidth (wField x) then .ok (i (wField x)) else .error .widthTooLarge

/-- The opcode map (30_encoding.md R303), bits 31:15 already known to be 0. -/
def decodeOpcode (x : Word) : Except DecodeError Instr :=
  match (opField x).toNat with
  | 0x00 => decodePlain x .nop
  | 0x10 => decodePlain x .bwInit
  | 0x11 => decodeWithB x .bwPut1
  | 0x12 => decodeWithW x .bwPutN
  | 0x13 => decodePlain x .bwFinal
  | 0x20 => decodePlain x .brInit
  | 0x21 => decodePlain x .brGet1
  | 0x22 => decodeWithW x .brGetN
  | 0x30 => decodePlain x .freqClr
  | 0x31 => decodePlain x .freqCount
  | 0x40 => decodePlain x .treeBuild
  | 0x41 => decodePlain x .treeSer
  | 0x42 => decodePlain x .treeDeser
  | 0x50 => decodePlain x .codeGen
  | 0x60 => decodePlain x .encode
  | 0x61 => decodePlain x .decode
  | 0x70 => decodePlain x .encAll
  | _ => .error .reservedOpcode

/-- Decoding is total: every word is one command or illegal (30_encoding.md R304, R306). -/
def decode (x : Word) : Except DecodeError Instr :=
  if reservedField x ≠ 0 then .error .reservedBits else decodeOpcode x

/-- The encoding function enc(OP, W, B) = OP | (W << 8) | (B << 14) (30_encoding.md R302). -/
def enc (op : BitVec 8) (w : BitVec 6) (b : Bool) : Word :=
  op.setWidth 32 ||| (w.setWidth 32 <<< 8) ||| ((BitVec.ofBool b).setWidth 32 <<< 14)

/-- The command word of a command (30_encoding.md R302, R303). -/
def encode : Instr → Word
  | .nop => enc 0x00 0 false
  | .bwInit => enc 0x10 0 false
  | .bwPut1 b => enc 0x11 0 b
  | .bwPutN w => enc 0x12 w false
  | .bwFinal => enc 0x13 0 false
  | .brInit => enc 0x20 0 false
  | .brGet1 => enc 0x21 0 false
  | .brGetN w => enc 0x22 w false
  | .freqClr => enc 0x30 0 false
  | .freqCount => enc 0x31 0 false
  | .treeBuild => enc 0x40 0 false
  | .treeSer => enc 0x41 0 false
  | .treeDeser => enc 0x42 0 false
  | .codeGen => enc 0x50 0 false
  | .encode => enc 0x60 0 false
  | .decode => enc 0x61 0 false
  | .encAll => enc 0x70 0 false

/-- One row of the opcode table: a word x selects it when x & mask = pattern (30_encoding.md R306). -/
structure OpcodeRow where
  mnemonic : String
  pattern : Word
  mask : Word
  usesW : Bool
  usesB : Bool
  deriving DecidableEq, Repr

/-- spec/opcode_table.json's match and mask, with the columns "uses W" and "uses B" of 30_encoding.md R303. -/
def opcodeTable : List OpcodeRow :=
  [⟨"NOP", 0x00000000, 0xFFFFFFFF, false, false⟩,
   ⟨"BW_INIT", 0x00000010, 0xFFFFFFFF, false, false⟩,
   ⟨"BW_PUT1", 0x00000011, 0xFFFFBFFF, false, true⟩,
   ⟨"BW_PUTN", 0x00000012, 0xFFFFC0FF, true, false⟩,
   ⟨"BW_FINAL", 0x00000013, 0xFFFFFFFF, false, false⟩,
   ⟨"BR_INIT", 0x00000020, 0xFFFFFFFF, false, false⟩,
   ⟨"BR_GET1", 0x00000021, 0xFFFFFFFF, false, false⟩,
   ⟨"BR_GETN", 0x00000022, 0xFFFFC0FF, true, false⟩] ++
  [⟨"FREQ_CLR", 0x00000030, 0xFFFFFFFF, false, false⟩,
   ⟨"FREQ_COUNT", 0x00000031, 0xFFFFFFFF, false, false⟩,
   ⟨"TREE_BUILD", 0x00000040, 0xFFFFFFFF, false, false⟩,
   ⟨"TREE_SER", 0x00000041, 0xFFFFFFFF, false, false⟩,
   ⟨"TREE_DESER", 0x00000042, 0xFFFFFFFF, false, false⟩,
   ⟨"CODE_GEN", 0x00000050, 0xFFFFFFFF, false, false⟩,
   ⟨"ENCODE", 0x00000060, 0xFFFFFFFF, false, false⟩,
   ⟨"DECODE", 0x00000061, 0xFFFFFFFF, false, false⟩,
   ⟨"ENC_ALL", 0x00000070, 0xFFFFFFFF, false, false⟩]

/-- A word selects a row of the table (30_encoding.md R306). -/
def OpcodeRow.selects (r : OpcodeRow) (x : Word) : Bool := x &&& r.mask = r.pattern

/-- The mnemonic of a command as the opcode table spells it (30_encoding.md R303). -/
def Instr.mnemonic : Instr → String
  | .nop => "NOP"
  | .bwInit => "BW_INIT"
  | .bwPut1 _ => "BW_PUT1"
  | .bwPutN _ => "BW_PUTN"
  | .bwFinal => "BW_FINAL"
  | .brInit => "BR_INIT"
  | .brGet1 => "BR_GET1"
  | .brGetN _ => "BR_GETN"
  | .freqClr => "FREQ_CLR"
  | .freqCount => "FREQ_COUNT"
  | .treeBuild => "TREE_BUILD"
  | .treeSer => "TREE_SER"
  | .treeDeser => "TREE_DESER"
  | .codeGen => "CODE_GEN"
  | .encode => "ENCODE"
  | .decode => "DECODE"
  | .encAll => "ENC_ALL"

/-- The command this decoder reads from a word numbered as the opcode table numbers it. The block has one word of 32 bits
(30_encoding.md R300): the bits from nbits up are 0, and a number beyond 32 bits is no command word. -/
def decodeTableWord (nbits w : Nat) : Option Instr :=
  let x := w % 2 ^ nbits
  if x < 2 ^ 32 then (decode (BitVec.ofNat 32 x)).toOption else none

end Sys2Proof
end

