-- ==== Sys2Proof/Machine/Bits.lean ====
section
/-! DEFINITION. Bit strings and bit fields (spec/00_scope.md R20, R21; 20_memory.md R224, R225). -/

namespace Sys2Proof.Machine

/-- u_w(v): the w-bit string of v, most significant bit first (00_scope.md R21). Only bits w-1 .. 0 of v are read. -/
def bitsOf : Nat → Nat → Bits
  | 0, _ => []
  | w + 1, v => v.testBit w :: bitsOf w v

/-- val(bs): the unsigned value of a bit string read most significant bit first (00_scope.md R21). -/
def valOf (bs : Bits) : Nat := bs.foldl (fun v b => 2 * v + b.toNat) 0

/-- Stream bit k of a byte memory whose byte k div 8 is b: bit 7 - (k mod 8) (20_memory.md R224). -/
def streamBit (b : Byte) (k : Nat) : Bool := b.getLsbD (7 - k % 8)

/-- A byte with its bit j set to v. -/
def setByteBit (b : Byte) (j : Nat) (v : Bool) : Byte :=
  if v then b ||| (1#8 <<< j) else b &&& ~~~(1#8 <<< j)

end Sys2Proof.Machine
end

