-- ==== Sys2Proof/Config.lean ====
section
/-! DEFINITION. What one implementation of the block fixes (spec/00_scope.md R11: SYM_CAP, BYTE_CAP) and the free values
(spec/93_implementation_defined.md section 2: "any value"). BASE_ADDR and BUS_PROTOCOL have no place here: no rule
depends on them (20_memory.md R205, R208). -/

namespace Sys2Proof

/-- The parameters of the model (00_scope.md R11). State holds them, no step changes them, and a statement about every
state is a statement about every legal value of them (log 1). -/
structure Params where
  /-- SYM_CAP: entries of SYMIN and of SYMOUT. -/
  symCap : Nat
  /-- BYTE_CAP: bytes of BYTEMEM. -/
  byteCap : Nat
  deriving DecidableEq, Repr

/-- The legal range of the parameters: 1 <= SYM_CAP <= 2^32 - 1 and 7 <= BYTE_CAP <= 2^29 - 1 (00_scope.md R11). -/
abbrev Params.legal (p : Params) : Prop :=
  (1 ≤ p.symCap ∧ p.symCap ≤ 4294967295) ∧ (7 ≤ p.byteCap ∧ p.byteCap ≤ 536870911)

namespace Config

/-- The n-th value drawn where the spec says "any value" (93_implementation_defined.md U1, U2, U3; log 2). It has no body:
nothing can be proved of it, so a theorem holds for every draw. A narrower draw is its low bits. -/
opaque freeValue : Nat → BitVec 64

/-- The parameters State.reset has: SYM_CAP = 64 and BYTE_CAP = 64, the values under which the spec's vectors start from
reset (95_test_vectors.md, preamble and section 3). DESIGN CHOICE (log 1): the spec leaves them OPEN. -/
def resetParams : Params := { symCap := 64, byteCap := 64 }

end Config

end Sys2Proof
end

