-- ==== Sys2Proof/Machine/State.lean ====
section
/-! DEFINITION. The state of the block (spec/10_state.md R100 to R190), the reasons a step can stop, and the state after
reset. Every field is plain data. -/

namespace Sys2Proof.Machine

/-- The error codes a command can raise (60_exceptions.md R701, R702). -/
inductive Err
  | emptyInput
  | malformedContainer
  | internalInvariant
  | illegalCommand
  | badArgument
  | noTree
  | noCodeTable
  | outputOverflow
  | weightOverflow
  deriving DecidableEq, Repr

/-- A node record of the arena (10_state.md R140). -/
structure NodeRec where
  leaf : Bool
  sym : Symbol
  w : Weight
  left : NodeIndex
  right : NodeIndex
  deriving DecidableEq, Repr

/-- A code table entry (10_state.md R150). -/
structure CodeEntry where
  valid : Bool
  len : BitVec 16
  bits : Bits
  deriving DecidableEq, Repr

/-- A block memory, indexed by entry from 0 (20_memory.md R201). `cells` lists (index, value) pairs, indexes strictly
rising, none equal to `rest`; `rest` is what every unlisted entry holds, `none` for an entry no write has set since
power-on (20_memory.md R223; log 2). For a byte memory a cell is a Host.Cell. -/
structure Memory (α : Type) where
  rest : Option α
  cells : List (Nat × α)
  deriving DecidableEq, Repr

/-- What a host transaction does (00_scope.md R15; 20_memory.md R207). -/
inductive HostOp
  | read
  | write (v : Word)
  deriving DecidableEq, Repr

/-- A host transaction: the byte offset from the block's base, the width in bytes, and what it does. Only width 4 at a
multiple of 4 inside the window is in the interface (20_memory.md R205, R207). -/
structure Access where
  offset : Nat
  bytes : Nat
  op : HostOp
  deriving DecidableEq, Repr

/-- What can happen next (00_scope.md R16; 70_reset_and_hazards.md R800): a host transaction, the engine's step, or the
power-on reset input. -/
inductive Event
  | host (a : Access)
  | engine
  | powerOn
  deriving DecidableEq, Repr

/-- The state of the block, and the model's own bookkeeping (`params`, `pending`, `rdata`, `draws`). -/
structure State where
  /-- CTRL.IE (10_state.md R104). -/
  ie : Bool
  /-- STATUS.BUSY (10_state.md R105, R106). -/
  busy : Bool
  /-- STATUS.DONE (10_state.md R105, R106). -/
  done : Bool
  /-- STATUS.HAZ (10_state.md R105). -/
  haz : Bool
  /-- STATUS.ECODE (10_state.md R105; 60_exceptions.md R702): `none` is code 0, OK. -/
  ecode : Option Err
  /-- STATUS.TREE_VALID (10_state.md R105, R107). -/
  treeValid : Bool
  /-- STATUS.CT_VALID (10_state.md R105, R107). -/
  ctValid : Bool
  /-- CMDL, the latched command word (10_state.md R125). -/
  cmdl : Word
  /-- ARG0 (10_state.md R110). -/
  arg0 : Word
  /-- NSYM (10_state.md R111). -/
  nsym : Word
  /-- BRLEN (10_state.md R112). -/
  brlen : Word
  /-- RES0 (10_state.md R113). -/
  res0 : Word
  /-- RES1 (10_state.md R113). -/
  res1 : Word
  /-- NLEAVES, bits 16:0 (10_state.md R114). -/
  nleaves : BitVec 17
  /-- NNODES, bits 16:0 (10_state.md R115). -/
  nnodes : BitVec 17
  /-- ROOT, bits 16:0 (10_state.md R116). -/
  root : NodeIndex
  /-- BW_NBITS (10_state.md R117). -/
  bwNbits : Word
  /-- bw_tail (10_state.md R118). -/
  bwTail : Byte
  /-- BR_POS (10_state.md R119). -/
  brPos : Word
  /-- BR_LIMIT (10_state.md R120). -/
  brLimit : Word
  /-- OUT_N (10_state.md R121). -/
  outN : Word
  /-- MSEL, bits 3:0 (10_state.md R122). -/
  msel : BitVec 4
  /-- MADDR (10_state.md R123). -/
  maddr : Word
  /-- SYMIN (10_state.md R130). -/
  symin : Memory Symbol
  /-- SYMOUT (10_state.md R131). -/
  symout : Memory Symbol
  /-- BYTEMEM (10_state.md R132). -/
  bytemem : Memory Byte
  /-- FREQ (10_state.md R133). -/
  freq : Memory Weight
  /-- NODE (10_state.md R140). -/
  node : Memory NodeRec
  /-- CODE (10_state.md R150). -/
  code : Memory CodeEntry
  /-- SYM_CAP and BYTE_CAP (00_scope.md R11, R17), the model's own field: no step changes it (log 1). -/
  params : Params
  /-- What happens next, oldest first, the model's own field (00_scope.md R16; log 4). -/
  pending : List Event
  /-- The word the last host read returned, the model's own field (log 5). -/
  rdata : Word
  /-- How many free values have been drawn, the model's own field (log 2). -/
  draws : Nat
  deriving DecidableEq, Repr

/-- Why the machine stops. -/
inductive Fault
  /-- TREE_SER, CODE_GEN, ENCODE or ENC_ALL met an arena whose walk from ROOT does not end within NODE_CAP nodes, so that
  NODE holds no tree although TREE_VALID = 1. No run reaches such a state (10_state.md R141, R142); there the spec's
  recursion would not end. Safe: the model stops (log 7). -/
  | arenaNotATree
  deriving DecidableEq, Repr

/-- Why a step has no meaning. -/
inductive Refusal
  /-- Raised by exec's arm of an instruction that has no meaning yet. Safe. -/
  | notModelled (mnemonic : String)
  /-- Raised by the register port for an access that is not 32 bits wide or not at a multiple of 4: "outside the interface:
  the model has no step for it (refuse)" (20_memory.md R207; 93_implementation_defined.md X1). Safe. -/
  | accessNotAlignedWord
  /-- Raised by the register port for an access outside the block's 128 bytes, which the platform decodes (20_memory.md
  R205; 93_implementation_defined.md X2). Safe. -/
  | accessOutsideWindow
  deriving DecidableEq, Repr

/-- What an arena entry that no command has written holds. Unspecified and unobservable (10_state.md R145, R190;
93_implementation_defined.md U4: "a model may hold anything there"). DESIGN CHOICE (log 6). -/
def NodeRec.zero : NodeRec := { leaf := false, sym := 0, w := 0, left := 0, right := 0 }

/-- The code table entry of an absent symbol (44_codetable.md R521: valid = 0, len = 0, bits = []). -/
def CodeEntry.absent : CodeEntry := { valid := false, len := 0, bits := [] }

namespace State

/-- The block after the power-on reset, for given parameters: every register at its value of 10_state.md R190, SYMIN,
SYMOUT, BYTEMEM and FREQ with no entry written (70_reset_and_hazards.md R801). NODE, CODE: log 6. The model's own fields:
logs 4, 5, 2. -/
def resetWith (p : Params) : State :=
  { ie := false, busy := false, done := false, haz := false, ecode := none, treeValid := false, ctValid := false
    cmdl := 0, arg0 := 0, nsym := 0, brlen := 0, res0 := 0, res1 := 0, nleaves := 0, nnodes := 0, root := 0
    bwNbits := 0, bwTail := 0, brPos := 0, brLimit := 0, outN := 0, msel := 0, maddr := 0
    symin := { rest := none, cells := [] }, symout := { rest := none, cells := [] }
    bytemem := { rest := none, cells := [] }, freq := { rest := none, cells := [] }
    node := { rest := some NodeRec.zero, cells := [] }, code := { rest := some CodeEntry.absent, cells := [] }
    params := p, pending := [], rdata := 0, draws := 0 }

/-- The machine right after reset. -/
def reset : State := resetWith Config.resetParams

end State

end Sys2Proof.Machine
end

