-- ==== Sys2Proof/Machine/Memory.lean ====
section
/-! DEFINITION. The block memories as plain data (spec/20_memory.md R201, R223): what an entry holds, writing an entry,
giving every entry one value, forgetting every entry; and the canonical form. -/

namespace Sys2Proof.Machine

variable {α : Type}

/-- What a list of cells holds at index i. -/
def lookupCell : List (Nat × α) → Nat → Option α
  | [], _ => none
  | (j, v) :: cells, i => if j = i then some v else lookupCell cells i

/-- A list of cells with index i set to v, at its place in the rising order. -/
def putCell (i : Nat) (v : α) : List (Nat × α) → List (Nat × α)
  | [] => [(i, v)]
  | (j, u) :: cells =>
    if i < j then (i, v) :: (j, u) :: cells
    else if i = j then (i, v) :: cells
    else (j, u) :: putCell i v cells

/-- A list of cells without index i. -/
def dropCell (i : Nat) (cells : List (Nat × α)) : List (Nat × α) := cells.filter (fun c => c.1 ≠ i)

namespace Memory

/-- What entry i holds: `none` where no write has set it since power-on (20_memory.md R223). -/
def get? (m : Memory α) (i : Nat) : Option α := (lookupCell m.cells i).or m.rest

/-- MemWrite(M, i, v) (00_scope.md R23), keeping the canonical form. -/
def write [DecidableEq α] (m : Memory α) (i : Nat) (v : α) : Memory α :=
  if m.rest = some v then { m with cells := dropCell i m.cells } else { m with cells := putCell i v m.cells }

/-- Every entry holds v. -/
def fill (v : α) : Memory α := { rest := some v, cells := [] }

/-- Every entry may hold any value (70_reset_and_hazards.md R801, R803; logs 2, 3). -/
def unknown : Memory α := { rest := none, cells := [] }

/-- The canonical form of a memory of `size` entries: indexes strictly rising and inside the memory, and no cell equal to
what an unlisted entry holds. -/
abbrev wf [DecidableEq α] (size : Nat) (m : Memory α) : Prop :=
  m.cells.Pairwise (fun c d => c.1 < d.1) ∧ (∀ c ∈ m.cells, c.1 < size) ∧ (∀ c ∈ m.cells, m.rest ≠ some c.2)

end Memory

end Sys2Proof.Machine
end

