-- ==== Sys2Proof/Machine/Ops.lean ====
section
/-! DEFINITION. The named operations over the state that the commands share: drawing any value, reading and writing memory
entries, completing a command, and taking an error (the block's exception) with the host's acknowledge, its return. -/

namespace Sys2Proof.Machine

/-- NODE_CAP = 131071 nodes, a strict binary tree with 65536 leaves (00_scope.md R12). -/
def nodeCap : Nat := 131071

/-- Entries of FREQ and of CODE: the alphabet size (00_scope.md R10, R12). -/
def alphabetSize : Nat := 65536

/-- The largest sum of weights TREE_BUILD admits, 2^63 - 1 (43_tree.md R481). -/
def maxTotalWeight : Nat := 2 ^ 63 - 1

namespace State

/-- Any value of w bits, a fresh draw (93_implementation_defined.md U1, U2; log 2). -/
def draw (w : Nat) (s : State) : BitVec w × State :=
  ((Config.freeValue s.draws).setWidth w, { s with draws := s.draws + 1 })

/-- What a read of a memory entry returns: its value, or any value where no write has set it since power-on
(20_memory.md R223). -/
def entry {w : Nat} (o : Option (BitVec w)) (s : State) : BitVec w × State :=
  match o with
  | some v => (v, s)
  | none => s.draw w

/-- MemRead(SYMIN, i). -/
def readSymin (i : Nat) (s : State) : Symbol × State := s.entry (s.symin.get? i)

/-- MemRead(SYMOUT, i). -/
def readSymout (i : Nat) (s : State) : Symbol × State := s.entry (s.symout.get? i)

/-- MemRead(BYTEMEM, i). -/
def readByte (i : Nat) (s : State) : Byte × State := s.entry (s.bytemem.get? i)

/-- MemRead(FREQ, i). -/
def readFreq (i : Nat) (s : State) : Weight × State := s.entry (s.freq.get? i)

/-- NODE[i]. An entry no command has written is unobservable (10_state.md R145; log 6). -/
def nodeAt (s : State) (i : Nat) : NodeRec := (s.node.get? i).getD NodeRec.zero

/-- CODE[i]. An entry no command has written is unobservable (10_state.md R150; log 6). -/
def codeAt (s : State) (i : Nat) : CodeEntry := (s.code.get? i).getD CodeEntry.absent

/-- MemWrite(SYMOUT, i, v). -/
def writeSymout (i : Nat) (v : Symbol) (s : State) : State := { s with symout := s.symout.write i v }

/-- MemWrite(BYTEMEM, i, v). -/
def writeByte (i : Nat) (v : Byte) (s : State) : State := { s with bytemem := s.bytemem.write i v }

/-- MemWrite(FREQ, i, v). -/
def writeFreq (i : Nat) (v : Weight) (s : State) : State := { s with freq := s.freq.write i v }

/-- NODE[i] <- r. -/
def writeNode (i : Nat) (r : NodeRec) (s : State) : State := { s with node := s.node.write i r }

/-- CODE[i] <- e. -/
def writeCode (i : Nat) (e : CodeEntry) (s : State) : State := { s with code := s.code.write i e }

/-- The completion step's own effect: BUSY <- 0, DONE <- 1, ECODE <- the outcome's code (40_control.md R403). -/
def complete (e : Option Err) (s : State) : State := { s with busy := false, done := true, ecode := e }

/-- TAKING AN ERROR, the block's exception: `raise E` ends the command, every change made so far stays, no result register
is written, and the completion records E (60_exceptions.md R710, R711, R713: nothing is saved, control goes nowhere). -/
def takeError (e : Err) (s : State) : State := s.complete (some e)

/-- THE RETURN from a completion, successful or not: the host's acknowledge clears DONE (60_exceptions.md R714). ECODE
keeps its value. -/
def acknowledge (s : State) : State := { s with done := false }

end State

/-- What a command's pseudocode comes to (40_control.md R403; 00_scope.md R23): it reaches its end with a value, or it
reaches `raise E`; the state is the one at that point. -/
inductive Res (α : Type) where
  | ok (a : α) (s : State)
  | raise (e : Err) (s : State)
  deriving DecidableEq, Repr

namespace Res

variable {α β : Type}

/-- Pseudocode in sequence: nothing after a `raise` is performed (60_exceptions.md R710). -/
def andThen (r : Res α) (k : α → State → Res β) : Res β :=
  match r with
  | .ok a s => k a s
  | .raise e s => .raise e s

/-- The state at the end. -/
def state : Res α → State
  | .ok _ s => s
  | .raise _ s => s

end Res

/-- The results a command's rule lists: `none` leaves the register unchanged (10_state.md R113; 92_eei_decisions.md D36). -/
structure Results where
  res0 : Option Word := none
  res1 : Option Word := none
  deriving DecidableEq, Repr

/-- A result value in a 32-bit register. -/
def word (n : Nat) : Word := BitVec.ofNat 32 n

namespace State

/-- RES0 and RES1 of a successful command (10_state.md R113). -/
def setResults (r : Results) (s : State) : State :=
  { s with res0 := r.res0.getD s.res0, res1 := r.res1.getD s.res1 }

end State

/-- The engine's completion step on a command's outcome (40_control.md R403): results are written only by a command that
reaches its end (R407). -/
def finish : Res Results → State
  | .ok r s => (s.setResults r).complete none
  | .raise e s => s.takeError e

/-- The step of a command that ends, in success or in an error. -/
def outcome (r : Res Results) : Host.Outcome State Fault Refusal := .next (finish r)

end Sys2Proof.Machine
end

