-- ==== Sys2Proof/Machine/Flags.lean ====
section
/-! DEFINITION. The flags: the STATUS word and its write-1-to-clear bits, the validity flags, and irq
(spec/10_state.md R105 to R108, R160; 60_exceptions.md R702, R720). -/

namespace Sys2Proof.Machine

/-- The number of an error code (60_exceptions.md R702). -/
def Err.code : Err → BitVec 4
  | .emptyInput => 1
  | .malformedContainer => 2
  | .internalInvariant => 3
  | .illegalCommand => 4
  | .badArgument => 5
  | .noTree => 6
  | .noCodeTable => 7
  | .outputOverflow => 8
  | .weightOverflow => 9

/-- ECODE: 0 for success (10_state.md R105; 60_exceptions.md R702). -/
def ecodeField : Option Err → BitVec 4
  | none => 0
  | some e => e.code

namespace State

/-- ERR: 1 exactly when ECODE is not 0 (10_state.md R105). -/
def err (s : State) : Bool := ecodeField s.ecode ≠ 0

/-- The word a read of STATUS returns (10_state.md R105), bits 31 down to 0. -/
def statusWord (s : State) : Word :=
  0#14 ++ BitVec.ofBool s.ctValid ++ BitVec.ofBool s.treeValid ++ 0#4 ++ ecodeField s.ecode ++ 0#4
    ++ BitVec.ofBool s.haz ++ BitVec.ofBool s.err ++ BitVec.ofBool s.done ++ BitVec.ofBool s.busy

/-- A write of v to STATUS: bit 1 acknowledges the completion, bit 3 clears HAZ, nothing else changes
(10_state.md R105). -/
def writeStatus (v : Word) (s : State) : State :=
  let s1 := if v.getLsbD 1 then s.acknowledge else s
  if v.getLsbD 3 then { s1 with haz := false } else s1

/-- The interrupt output: irq = CTRL.IE AND STATUS.DONE, a function of state (60_exceptions.md R720). -/
def irq (s : State) : Bool := s.ie && s.done

/-- A tree is in NODE: ROOT, NLEAVES and NNODES describe it, TREE_VALID <- 1, CT_VALID <- 0
(43_tree.md R481; 45_serdes.md R555). -/
def setTree (root nleaves nnodes : Nat) (s : State) : State :=
  { s with
    root := BitVec.ofNat 17 root, nleaves := BitVec.ofNat 17 nleaves, nnodes := BitVec.ofNat 17 nnodes
    treeValid := true, ctValid := false }

/-- No tree is in NODE (45_serdes.md R555): TREE_VALID, CT_VALID, NLEAVES, NNODES and ROOT are 0. -/
def clearTree (s : State) : State :=
  { s with root := 0, nleaves := 0, nnodes := 0, treeValid := false, ctValid := false }

/-- CT_VALID <- b (44_codetable.md R521). -/
def setCtValid (b : Bool) (s : State) : State := { s with ctValid := b }

end State

end Sys2Proof.Machine
end

