-- ==== Sys2Proof/Machine/Operands.lean ====
section
/-! DEFINITION. The operand forms (spec/30_encoding.md R301): the word's own W and B, and the registers ARG0, NSYM and
BRLEN, read when the engine performs the command (40_control.md R406). -/

namespace Sys2Proof.Machine

/-- W as a number, never sign-extended, scaled or shifted (30_encoding.md R301). -/
def widthOperand (w : BitVec 6) : Nat := w.toNat

/-- The bit string of BW_PUT1's operand B (41_bitio.md R426). -/
def bitOperand (b : Bool) : Bits := [b]

namespace State

/-- BW_PUTN's value operand u_W(ARG0[W-1:0]), the empty string for W = 0 (30_encoding.md R301; 41_bitio.md R427). -/
def putOperand (w : Nat) (s : State) : Bits := bitsOf w s.arg0.toNat

/-- N, the number of input symbols (10_state.md R111). -/
def symbolCount (s : State) : Nat := s.nsym.toNat

/-- The length in bytes of the reader's slice (10_state.md R112). -/
def sliceLength (s : State) : Nat := s.brlen.toNat

end State

end Sys2Proof.Machine
end

