-- ==== Sys2Proof/Machine/Control.lean ====
section
/-! DEFINITION. NOP, and the engine step on an illegal command word (spec/40_control.md R405, R410). -/

namespace Sys2Proof.Machine

/-- NOP: "Exec: return ok", no result (40_control.md R410). -/
def execNop (s : State) : Host.Outcome State Fault Refusal := outcome (.ok {} s)

/-- An illegal command word: raise ILLEGAL_COMMAND with no other effect (40_control.md R405; 30_encoding.md R304). -/
def illegalCommand (s : State) : Host.Outcome State Fault Refusal := outcome (.raise .illegalCommand s)

end Sys2Proof.Machine
end

