-- ==== Sys2Proof/Machine/BitIO.lean ====
section
/-! DEFINITION. The bit writer and the bit reader (spec/41_bitio.md R420 to R434): the primitives every family uses, and
the seven commands that drive them. -/

namespace Sys2Proof.Machine

namespace State

/-- The bits the writer's stream can hold, 8 * BYTE_CAP (41_bitio.md R420). -/
def writerCapacity (s : State) : Nat := 8 * s.params.byteCap

/-- One bit into the writer: bit 7 - c of bw_tail, and the flush of a byte whose 8th bit arrives (41_bitio.md R420). -/
def pushBit (s : State) (b : Bool) : State :=
  let c := s.bwNbits.toNat % 8
  let n := s.bwNbits.toNat + 1
  let tail := setByteBit s.bwTail (7 - c) b
  if c = 7 then ({ s with bwNbits := word n, bwTail := 0 }).writeByte (n / 8 - 1) tail
  else { s with bwNbits := word n, bwTail := tail }

/-- AppendBits(bs): whole or not at all, an exact integer compare (41_bitio.md R420). -/
def appendBits (bs : Bits) (s : State) : Res Unit :=
  if s.bwNbits.toNat + bs.length > s.writerCapacity then .raise .outputOverflow s
  else .ok () (bs.foldl pushBit s)

/-- Bit strings appended one after another, each whole or not at all; the fields before a failing one stay
(45_serdes.md R550; 92_eei_decisions.md D17). -/
def appendAll : List Bits → State → Res Unit
  | [], s => .ok () s
  | bs :: fields, s => (s.appendBits bs).andThen fun _ s1 => appendAll fields s1

/-- The padding that brings the stream to a byte boundary, 0 .. 7 (41_bitio.md R421). -/
def padding (s : State) : Nat := (8 - s.bwNbits.toNat % 8) % 8

/-- Finalize(): the byte count and the padding count, with the last byte flushed (41_bitio.md R421). -/
def finalize (s : State) : (Nat × Nat) × State :=
  let p := s.padding
  let n := s.bwNbits.toNat + p
  if p > 0 then ((n / 8, p), ({ s with bwNbits := word n, bwTail := 0 }).writeByte (s.bwNbits.toNat / 8) s.bwTail)
  else ((n / 8, p), s)

/-- BW_INIT's effect: an empty stream, BYTEMEM not touched (41_bitio.md R425). -/
def initWriter (s : State) : State := { s with bwNbits := 0, bwTail := 0 }

/-- BR_INIT's effect on the reader: a cursor at 0 over the slice of BRLEN bytes (41_bitio.md R431). -/
def initReader (s : State) : State := { s with brPos := 0, brLimit := word (8 * s.sliceLength) }

/-- ReadBit() (41_bitio.md R423): the byte is read from BYTEMEM at the time of the read. -/
def readBit (s : State) : Res Bool :=
  if s.brPos.toNat ≥ s.brLimit.toNat then .raise .malformedContainer s
  else
    let (b, s1) := s.readByte (s.brPos.toNat / 8)
    .ok (streamBit b s.brPos.toNat) { s1 with brPos := word (s.brPos.toNat + 1) }

/-- "repeat w times: v <- 2 * v + ReadBit()" (41_bitio.md R424). -/
def readBitsFrom : Nat → Nat → State → Res Nat
  | 0, v, s => .ok v s
  | w + 1, v, s => s.readBit.andThen fun b s1 => readBitsFrom w (2 * v + b.toNat) s1

/-- ReadBits(w): all w bits or none, an exact integer compare (41_bitio.md R424). -/
def readBits (w : Nat) (s : State) : Res Nat :=
  if s.brPos.toNat + w > s.brLimit.toNat then .raise .malformedContainer s else readBitsFrom w 0 s

end State

/-- BW_INIT (41_bitio.md R425). -/
def execBwInit (s : State) : Host.Outcome State Fault Refusal := outcome (.ok {} s.initWriter)

/-- BW_PUT1 B (41_bitio.md R426). -/
def execBwPut1 (b : Bool) (s : State) : Host.Outcome State Fault Refusal :=
  outcome ((s.appendBits (bitOperand b)).andThen fun _ s1 => .ok {} s1)

/-- BW_PUTN W (41_bitio.md R427): ILLEGAL_COMMAND if W > 32, then the append. -/
def execBwPutN (w : BitVec 6) (s : State) : Host.Outcome State Fault Refusal :=
  if legalWidth w then outcome ((s.appendBits (s.putOperand (widthOperand w))).andThen fun _ s1 => .ok {} s1)
  else illegalCommand s

/-- BW_FINAL (41_bitio.md R428): RES0 the bytes of the stream, RES1 the padding bits. -/
def execBwFinal (s : State) : Host.Outcome State Fault Refusal :=
  let ((n, p), s1) := s.finalize
  outcome (.ok { res0 := some (word n), res1 := some (word p) } s1)

/-- BR_INIT (41_bitio.md R431): BAD_ARGUMENT if BRLEN > BYTE_CAP. -/
def execBrInit (s : State) : Host.Outcome State Fault Refusal :=
  outcome (if s.sliceLength > s.params.byteCap then .raise .badArgument s else .ok {} s.initReader)

/-- BR_GET1 (41_bitio.md R432): RES0 the bit. -/
def execBrGet1 (s : State) : Host.Outcome State Fault Refusal :=
  outcome (s.readBit.andThen fun b s1 => .ok { res0 := some (word b.toNat) } s1)

/-- BR_GETN W (41_bitio.md R433): ILLEGAL_COMMAND if W > 32, then RES0 the value. -/
def execBrGetN (w : BitVec 6) (s : State) : Host.Outcome State Fault Refusal :=
  if legalWidth w then outcome ((s.readBits (widthOperand w)).andThen fun v s1 => .ok { res0 := some (word v) } s1)
  else illegalCommand s

end Sys2Proof.Machine
end

