-- ==== Sys2Proof/Machine/Arena.lean ====
section
/-! DEFINITION. The pre-order walk of the tree in NODE that the code table generator (spec/44_codetable.md R521, `Visit`)
and the serializer (spec/45_serdes.md R550, `Emit`) share, by an explicit work stack (92_eei_decisions.md D43). -/

namespace Sys2Proof.Machine

/-- A node met by the walk: its index, its path from ROOT (44_codetable.md R520) and its record. -/
structure Visited where
  index : Nat
  path : Bits
  node : NodeRec
  deriving DecidableEq, Repr

/-- The nodes of the subtrees on the work stack (index, path), in pre-order, left before right; `none` if more than
`fuel` nodes are met (log 7). -/
def walkFrom (node : Nat → NodeRec) : Nat → List (Nat × Bits) → Option (List Visited)
  | _, [] => some []
  | 0, _ :: _ => none
  | fuel + 1, (n, p) :: stack =>
    let r := node n
    let next := if r.leaf then stack else (r.left.toNat, p ++ [false]) :: (r.right.toNat, p ++ [true]) :: stack
    (walkFrom node fuel next).map (fun l => ⟨n, p, r⟩ :: l)

namespace State

/-- The nodes of the tree in NODE from ROOT, in pre-order. A tree has at most NODE_CAP nodes (00_scope.md R12), so the walk
of a tree ends; `none` is an arena that holds none (log 7). -/
def walk (s : State) : Option (List Visited) := walkFrom s.nodeAt nodeCap [(s.root.toNat, [])]

end State

end Sys2Proof.Machine
end

