-- ==== Sys2Proof/Machine/CodeTable.lean ====
section
/-! DEFINITION. The code table generator (spec/44_codetable.md R520 to R526). -/

namespace Sys2Proof.Machine

/-- "for s in 0 .. 65535: CODE[s] <- (valid = 0, len = 0, bits = [])" (44_codetable.md R521). -/
def State.clearCode (s : State) : State := { s with code := Memory.fill CodeEntry.absent }

/-- The code of a leaf: its path (44_codetable.md R520, R521). -/
def CodeEntry.ofPath (p : Bits) : CodeEntry := { valid := true, len := BitVec.ofNat 16 p.length, bits := p }

/-- `Visit` at each node of the walk in turn; the value is the longest code so far (44_codetable.md R521). -/
def visitNodes : List Visited → Nat → State → Res Nat
  | [], maxlen, s => .ok maxlen s
  | v :: vs, maxlen, s =>
    if v.node.leaf then
      if (s.codeAt v.node.sym.toNat).valid then .raise .internalInvariant s
      else visitNodes vs (max maxlen v.path.length) (s.writeCode v.node.sym.toNat (CodeEntry.ofPath v.path))
    else visitNodes vs maxlen s

namespace State

/-- CodeGenBody() past its TREE_VALID check, on the walk of the tree (44_codetable.md R521): the pair (K, longest). -/
def codeGen (nodes : List Visited) (s : State) : Res (Nat × Nat) :=
  (visitNodes nodes 0 (s.setCtValid false).clearCode).andThen fun maxlen s1 =>
    .ok (s1.nleaves.toNat, maxlen) (s1.setCtValid true)

end State

/-- CODE_GEN (44_codetable.md R521): NO_TREE, or the table with RES0 = K, RES1 = the longest code length. -/
def execCodeGen (s : State) : Host.Outcome State Fault Refusal :=
  if s.treeValid = false then outcome (.raise .noTree s)
  else
    match s.walk with
    | none => .fault .arenaNotATree
    | some nodes =>
      outcome ((s.codeGen nodes).andThen fun km s1 => .ok { res0 := some (word km.1), res1 := some (word km.2) } s1)

end Sys2Proof.Machine
end

