-- ==== Sys2Proof/Machine/Freq.lean ====
section
/-! DEFINITION. The frequency counter (spec/42_freq.md R460 to R462). -/

namespace Sys2Proof.Machine

namespace State

/-- FreqClrBody(): every FREQ entry is 0 (42_freq.md R460). -/
def clearFreq (s : State) : State := { s with freq := Memory.fill 0 }

/-- "for i in ..: s <- MemRead(SYMIN, i); FREQ[s] <- FREQ[s] + 1", n symbols from index i on (42_freq.md R461). -/
def countSymbols : Nat → Nat → State → State
  | 0, _, s => s
  | n + 1, i, s =>
    let (sym, s1) := s.readSymin i
    let (k, s2) := s1.readFreq sym.toNat
    countSymbols n (i + 1) (s2.writeFreq sym.toNat (k + 1))

/-- The entries s, s + 1, .. of FREQ, n of them, each read once, in ascending order: those that are not 0, with the state
after the reads (43_tree.md R481). -/
def scanFreq : Nat → Nat → State → List (Nat × Weight) × State
  | 0, _, s => ([], s)
  | n + 1, i, s =>
    let (v, s1) := s.readFreq i
    let (l, s2) := scanFreq n (i + 1) s1
    (if v = 0 then l else (i, v) :: l, s2)

/-- The symbols s with FREQ[s] != 0, ascending, with their counts (42_freq.md R461, 43_tree.md R481). Where the unlisted
entries of FREQ hold 0 these are listed entries only; else every entry is read (`nonzeroFreq_eq_scan` says that the two
agree). -/
def nonzeroFreq (s : State) : List (Nat × Weight) × State :=
  if s.freq.rest = some 0 then (s.freq.cells.filter (fun c => c.1 < alphabetSize ∧ c.2 ≠ 0), s)
  else s.scanFreq alphabetSize 0

/-- FreqCountBody() (42_freq.md R461): the pair (K, N). -/
def freqCount (s : State) : Res (Nat × Nat) :=
  if s.symbolCount > s.params.symCap then .raise .badArgument s
  else
    let (present, s1) := (s.clearFreq.countSymbols s.symbolCount 0).nonzeroFreq
    .ok (present.length, s.symbolCount) s1

end State

/-- FREQ_CLR (42_freq.md R460). -/
def execFreqClr (s : State) : Host.Outcome State Fault Refusal := outcome (.ok {} s.clearFreq)

/-- FREQ_COUNT (42_freq.md R461): RES0 = K, RES1 = N. -/
def execFreqCount (s : State) : Host.Outcome State Fault Refusal :=
  outcome (s.freqCount.andThen fun kn s1 => .ok { res0 := some (word kn.1), res1 := some (word kn.2) } s1)

end Sys2Proof.Machine
end

