-- ==== Sys2Proof/Machine/Tree.lean ====
section
/-! DEFINITION. The tree builder (spec/43_tree.md R480 to R486). -/

namespace Sys2Proof.Machine

/-- A leaf node (43_tree.md R481; 10_state.md R140: left and right are 0). -/
def NodeRec.mkLeaf (sym : Symbol) (w : Weight) : NodeRec := { leaf := true, sym := sym, w := w, left := 0, right := 0 }

/-- An internal node (43_tree.md R481; 10_state.md R140: sym is 0). -/
def NodeRec.mkInternal (w : Weight) (left right : Nat) : NodeRec :=
  { leaf := false, sym := 0, w := w, left := BitVec.ofNat 17 left, right := BitVec.ofNat 17 right }

/-- A node in the priority queue: its key (NODE[x].w, x) (43_tree.md R482). -/
structure QueueNode where
  w : Weight
  index : Nat
  deriving DecidableEq, Repr

/-- Node x is removed before node y: the smaller weight, and among equal weights the smaller index; unsigned, by order
(43_tree.md R482). -/
def QueueNode.before (x y : QueueNode) : Bool := x.w < y.w ∨ (x.w = y.w ∧ x.index < y.index)

/-- The node with the smallest key among x and xs, and the others (43_tree.md R481). -/
def takeMin : QueueNode → List QueueNode → QueueNode × List QueueNode
  | x, [] => (x, [])
  | x, y :: ys =>
    let (m, others) := takeMin y ys
    if x.before m then (x, m :: others) else (m, x :: others)

/-- "while |Q| >= 2", at most n rounds: remove the two smallest, first a (left) then b (right), and put back their parent
at index `next` (43_tree.md R481). The arena and the one node left. -/
def mergeNodes : Nat → Memory NodeRec → Nat → QueueNode → List QueueNode → Memory NodeRec × QueueNode
  | 0, arena, _, x, _ => (arena, x)
  | _ + 1, arena, _, x, [] => (arena, x)
  | n + 1, arena, next, x, y :: ys =>
    match takeMin x (y :: ys) with
    | (a, []) => (arena, a)
    | (a, z :: zs) =>
      let (b, q) := takeMin z zs
      let w := a.w + b.w
      mergeNodes n (arena.write next (NodeRec.mkInternal w a.index b.index)) (next + 1) ⟨w, next⟩ q

/-- "for j in 0 .. K-1: NODE[j] <- Leaf(S[j], F[S[j]])", from index j on (43_tree.md R481). -/
def writeLeaves : Memory NodeRec → Nat → List (Nat × Weight) → Memory NodeRec
  | arena, _, [] => arena
  | arena, j, (sym, w) :: leaves => writeLeaves (arena.write j (NodeRec.mkLeaf (BitVec.ofNat 16 sym) w)) (j + 1) leaves

/-- The queue {0, .., K-1} of the leaves, from index j on (43_tree.md R481). -/
def leafQueue : Nat → List (Nat × Weight) → List QueueNode
  | _, [] => []
  | j, (_, w) :: leaves => ⟨w, j⟩ :: leafQueue (j + 1) leaves

/-- The sum of the weights, exact (43_tree.md R481). -/
def totalWeight (leaves : List (Nat × Weight)) : Nat := (leaves.map (fun c => c.2.toNat)).sum

namespace State

/-- The part of TreeBuildBody() that cannot fail: the arena of the leaves' tree and the registers that describe it
(43_tree.md R481). -/
def buildTree (leaves : List (Nat × Weight)) (s : State) : State :=
  let k := leaves.length
  match leafQueue 0 leaves with
  | [] => s
  | x :: xs =>
    let (arena, root) := mergeNodes k (writeLeaves s.node 0 leaves) k x xs
    ({ s with node := arena }).setTree root.index k (2 * k - 1)

/-- TreeBuildBody() (43_tree.md R481): the pair (K, 2K - 1), or EMPTY_INPUT, or WEIGHT_OVERFLOW. -/
def treeBuild (s : State) : Res (Nat × Nat) :=
  let (leaves, s1) := s.nonzeroFreq
  if leaves.length = 0 then .raise .emptyInput s1
  else if totalWeight leaves > maxTotalWeight then .raise .weightOverflow s1
  else .ok (leaves.length, 2 * leaves.length - 1) (s1.buildTree leaves)

end State

/-- TREE_BUILD (43_tree.md R481): RES0 = K, RES1 = 2K - 1. -/
def execTreeBuild (s : State) : Host.Outcome State Fault Refusal :=
  outcome (s.treeBuild.andThen fun km s1 => .ok { res0 := some (word km.1), res1 := some (word km.2) } s1)

end Sys2Proof.Machine
end

