-- ==== Sys2Proof/Machine/SerDes.lean ====
section
/-! DEFINITION. The tree serializer and deserializer (spec/45_serdes.md R550 to R556). -/

namespace Sys2Proof.Machine

/-- The field Emit appends for a node: a leaf's 17-bit record or an internal node's tag (45_serdes.md R550). -/
def emitField (r : NodeRec) : Bits := if r.leaf then true :: bitsOf 16 r.sym.toNat else [false]

namespace State

/-- Emit(ROOT), on the walk of the tree (45_serdes.md R550). -/
def emit (nodes : List Visited) (s : State) : Res Unit := s.appendAll (nodes.map (fun v => emitField v.node))

end State

/-- TREE_SER (45_serdes.md R552): NO_TREE, or the fields appended with RES0 = the bits appended. -/
def execTreeSer (s : State) : Host.Outcome State Fault Refusal :=
  if s.treeValid = false then outcome (.raise .noTree s)
  else
    match s.walk with
    | none => .fault .arenaNotATree
    | some nodes =>
      outcome ((s.emit nodes).andThen fun _ s1 =>
        .ok { res0 := some (word (s1.bwNbits.toNat - s.bwNbits.toNat)) } s1)

/-- A Parse() that waits for a child (45_serdes.md R553): the node's index, and its left child once built. -/
inductive Frame
  | left (i : Nat)
  | right (i l : Nat)
  deriving DecidableEq, Repr

/-- Return index i to the waiting Parse() calls: each one whose right child it is writes its node and returns in turn; the
first one whose left child it is goes on to its right child. The frames still waiting, and the last index returned
(45_serdes.md R553). -/
def returnIndex : Nat → List Frame → State → Nat × List Frame × State
  | i, [], s => (i, [], s)
  | i, .left j :: frames, s => (i, .right j i :: frames, s)
  | i, .right j l :: frames, s => returnIndex j frames (s.writeNode j (NodeRec.mkInternal 0 l i))

/-- Parse() by an explicit work stack (45_serdes.md R553; 92_eei_decisions.md D43). `room` is how many nodes NODE can still
take, `next` and `k` the counters of nodes allocated and of leaves; the value is (root index, next, k). -/
def parse : Nat → Nat → Nat → List Frame → State → Res (Nat × Nat × Nat)
  | 0, _, _, _, s => s.readBit.andThen fun _ s1 => .raise .malformedContainer s1
  | room + 1, next, k, frames, s =>
    s.readBit.andThen fun b s1 =>
      if b then
        (s1.readBits 16).andThen fun sym s2 =>
          match returnIndex next frames (s2.writeNode next (NodeRec.mkLeaf (BitVec.ofNat 16 sym) 0)) with
          | (root, [], s3) => .ok (root, next + 1, k + 1) s3
          | (_, f :: fs, s3) => parse room (next + 1) (k + 1) (f :: fs) s3
      else parse room (next + 1) k (.left next :: frames) s1

namespace State

/-- TreeDeserBody() (45_serdes.md R555): the pair (bits consumed, K). -/
def treeDeser (s : State) : Res (Nat × Nat) :=
  (parse nodeCap 0 0 [] s.clearTree).andThen fun rnk s1 =>
    .ok (s1.brPos.toNat - s.brPos.toNat, rnk.2.2) (s1.setTree rnk.1 rnk.2.2 rnk.2.1)

end State

/-- TREE_DESER (45_serdes.md R555): RES0 = the bits consumed, RES1 = K. -/
def execTreeDeser (s : State) : Host.Outcome State Fault Refusal :=
  outcome (s.treeDeser.andThen fun tk s1 => .ok { res0 := some (word tk.1), res1 := some (word tk.2) } s1)

end Sys2Proof.Machine
end

