-- ==== Sys2Proof/Machine/Codec.lean ====
section
/-! DEFINITION. The encoder, the decoder and the container driver (spec/46_codec.md R580 to R622). -/

namespace Sys2Proof.Machine

namespace State

/-- The checks ENC_ALL makes, first to last (46_codec.md R615; 60_exceptions.md R712). -/
def encAllCheck (s : State) : Option Err :=
  if s.symbolCount = 0 then some .emptyInput
  else if s.symbolCount > s.params.symCap then some .badArgument
  else none

/-- The checks ENCODE makes before it writes, first to last (46_codec.md R580; 60_exceptions.md R712). -/
def encodeCheck (s : State) : Option Err :=
  match s.encAllCheck with
  | some e => some e
  | none =>
    if s.treeValid = false then some .noTree
    else if s.ctValid = false then some .noCodeTable
    else none

/-- "for i in ..: s <- MemRead(SYMIN, i); ..; AppendBits(CODE[s].bits)", n symbols from index i on (46_codec.md R580). -/
def encodeSymbols : Nat → Nat → State → Res Unit
  | 0, _, s => .ok () s
  | n + 1, i, s =>
    let (sym, s1) := s.readSymin i
    let c := s1.codeAt sym.toNat
    if c.valid then (s1.appendBits c.bits).andThen fun _ s2 => encodeSymbols n (i + 1) s2
    else .raise .internalInvariant s1

/-- EncodeBody() past its checks, on the walk of the tree (46_codec.md R580): the pair (bytes, padding). -/
def encodeBody (nodes : List Visited) (s : State) : Res (Nat × Nat) :=
  (s.initWriter.emit nodes).andThen fun _ s1 =>
    (s1.appendBits (bitsOf 32 s.symbolCount)).andThen fun _ s2 =>
      (s2.encodeSymbols s.symbolCount 0).andThen fun _ s3 =>
        let (np, s4) := s3.finalize
        .ok np s4

end State

/-- The results of ENCODE and of ENC_ALL: RES0 = bytes, RES1 = padding bits (46_codec.md R580, R615). -/
def containerResults (r : Res (Nat × Nat)) : Res Results :=
  r.andThen fun np s1 => .ok { res0 := some (word np.1), res1 := some (word np.2) } s1

/-- ENCODE (46_codec.md R580). -/
def execEncode (s : State) : Host.Outcome State Fault Refusal :=
  match s.encodeCheck with
  | some e => outcome (.raise e s)
  | none =>
    match s.walk with
    | none => .fault .arenaNotATree
    | some nodes => outcome (containerResults (s.encodeBody nodes))

namespace State

/-- "n <- ROOT; while NODE[n].leaf = 0: ..", from node n on, with `left` bits of the slice unread: the symbol of the leaf
reached (46_codec.md R600). With no bit left, ReadBit() raises (41_bitio.md R423). -/
def decodeSymbol : Nat → Nat → State → Res Symbol
  | 0, n, s => if (s.nodeAt n).leaf then .ok (s.nodeAt n).sym s else .raise .malformedContainer s
  | left + 1, n, s =>
    let r := s.nodeAt n
    if r.leaf then .ok r.sym s
    else s.readBit.andThen fun b s1 => decodeSymbol left (if b then r.right else r.left).toNat s1

/-- The bits of the reader's slice that are not read yet. -/
def bitsLeft (s : State) : Nat := s.brLimit.toNat - s.brPos.toNat

/-- "for i in ..: ..; MemWrite(SYMOUT, i, NODE[n].sym)", n symbols from index i on (46_codec.md R600). -/
def decodeSymbols : Nat → Nat → State → Res Unit
  | 0, _, s => .ok () s
  | n + 1, i, s =>
    (s.decodeSymbol s.bitsLeft s.root.toNat).andThen fun sym s1 => decodeSymbols n (i + 1) (s1.writeSymout i sym)

/-- OUT_N <- v (46_codec.md R600). -/
def setOutN (v : Nat) (s : State) : State := { s with outN := word v }

/-- DecodeBody() (46_codec.md R600): the pair (N, BR_POS). -/
def decodeBody (s : State) : Res (Nat × Nat) :=
  let s0 := s.setOutN 0
  if s0.sliceLength > s0.params.byteCap then .raise .badArgument s0
  else
    s0.initReader.treeDeser.andThen fun _ s1 =>
      (s1.readBits 32).andThen fun n s2 =>
        if n > s2.params.symCap then .raise .outputOverflow s2
        else (s2.decodeSymbols n 0).andThen fun _ s3 => .ok (n, s3.brPos.toNat) (s3.setOutN n)

end State

/-- DECODE (46_codec.md R600): RES0 = N, RES1 = the bits consumed. -/
def execDecode (s : State) : Host.Outcome State Fault Refusal :=
  outcome (s.decodeBody.andThen fun nq s1 => .ok { res0 := some (word nq.1), res1 := some (word nq.2) } s1)

/-- ENC_ALL past its checks and its frequency count and tree: CodeGenBody() and EncodeBody() (46_codec.md R615). The bodies'
own results are not written. -/
def encAllRest (s : State) : Host.Outcome State Fault Refusal :=
  match s.walk with
  | none => .fault .arenaNotATree
  | some nodes => outcome (containerResults ((s.codeGen nodes).andThen fun _ s1 => s1.encodeBody nodes))

/-- ENC_ALL (46_codec.md R615): EMPTY_INPUT, BAD_ARGUMENT, then FreqCountBody, TreeBuildBody, CodeGenBody, EncodeBody. -/
def execEncAll (s : State) : Host.Outcome State Fault Refusal :=
  match s.encAllCheck with
  | some e => outcome (.raise e s)
  | none =>
    match s.freqCount.andThen fun _ s1 => s1.treeBuild with
    | .raise e s1 => outcome (.raise e s1)
    | .ok _ s1 => encAllRest s1

end Sys2Proof.Machine
end

