-- ==== Sys2Proof/Machine/Dispatch.lean ====
section
/-! DEFINITION. The engine's Exec: one arm per command, one direct call of its meaning (spec/40_control.md R405). -/

namespace Sys2Proof.Machine

def exec (i : Instr) (s : State) : Host.Outcome State Fault Refusal :=
  match i with
  -- Control (40_control.md)
  | .nop => Sys2Proof.Machine.execNop s
  -- Bit writer and bit reader (41_bitio.md)
  | .bwInit => Sys2Proof.Machine.execBwInit s
  | .bwPut1 b => Sys2Proof.Machine.execBwPut1 b s
  | .bwPutN w => Sys2Proof.Machine.execBwPutN w s
  | .bwFinal => Sys2Proof.Machine.execBwFinal s
  | .brInit => Sys2Proof.Machine.execBrInit s
  | .brGet1 => Sys2Proof.Machine.execBrGet1 s
  | .brGetN w => Sys2Proof.Machine.execBrGetN w s
  -- Frequency counter (42_freq.md)
  | .freqClr => Sys2Proof.Machine.execFreqClr s
  | .freqCount => Sys2Proof.Machine.execFreqCount s
  -- Tree builder, serializer, deserializer (43_tree.md, 45_serdes.md)
  | .treeBuild => Sys2Proof.Machine.execTreeBuild s
  | .treeSer => Sys2Proof.Machine.execTreeSer s
  | .treeDeser => Sys2Proof.Machine.execTreeDeser s
  -- Code table generator (44_codetable.md)
  | .codeGen => Sys2Proof.Machine.execCodeGen s
  -- Encoder, decoder, container driver (46_codec.md)
  | .encode => Sys2Proof.Machine.execEncode s
  | .decode => Sys2Proof.Machine.execDecode s
  | .encAll => Sys2Proof.Machine.execEncAll s

end Sys2Proof.Machine
end

