-- ==== Sys2Proof/Machine/Resets.lean ====
section
/-! DEFINITION. The two resets (spec/70_reset_and_hazards.md R800 to R805). -/

namespace Sys2Proof.Machine

/-- Which memories an aborted command may have been part way through writing (70_reset_and_hazards.md R803). -/
structure Spoiled where
  symout : Bool := false
  bytemem : Bool := false
  freq : Bool := false
  deriving DecidableEq, Repr

/-- The table of 70_reset_and_hazards.md R803, for a command. -/
def spoiledBy : Instr → Spoiled
  | .nop | .bwInit | .brInit | .brGet1 | .brGetN _ | .treeBuild | .codeGen | .treeDeser => {}
  | .bwPut1 _ | .bwPutN _ | .bwFinal | .treeSer | .encode => { bytemem := true }
  | .freqClr | .freqCount => { freq := true }
  | .encAll => { freq := true, bytemem := true }
  | .decode => { symout := true }

namespace State

/-- The memories the command in CMDL spoils when a soft reset aborts it: none when no command is running, and none for an
illegal word (70_reset_and_hazards.md R803). -/
def spoiled (s : State) : Spoiled :=
  if s.busy = false then {}
  else
    match decode s.cmdl with
    | .ok i => spoiledBy i
    | .error _ => {}

/-- The soft reset (70_reset_and_hazards.md R802, R803): a running command is aborted, every register is at its reset
value, the memories keep their contents but for the ones the aborted command spoils (log 3). NODE and CODE are unobservable
after it (log 6). The model's own fields stay. -/
def softReset (s : State) : State :=
  { resetWith s.params with
    symin := s.symin
    symout := if s.spoiled.symout then Memory.unknown else s.symout
    bytemem := if s.spoiled.bytemem then Memory.unknown else s.bytemem
    freq := if s.spoiled.freq then Memory.unknown else s.freq
    node := s.node, code := s.code
    pending := s.pending, rdata := s.rdata, draws := s.draws }

/-- The power-on reset (70_reset_and_hazards.md R801): the state after reset, the model's own fields kept (log 12). -/
def powerOnReset (s : State) : State :=
  { resetWith s.params with pending := s.pending, rdata := s.rdata, draws := s.draws }

end State

end Sys2Proof.Machine
end

