-- ==== Sys2Proof/Machine/Window.lean ====
section
/-! DEFINITION. The memory window: MSEL's views, their index ranges and data words, and the MDATA access
(spec/20_memory.md R210 to R222). -/

namespace Sys2Proof.Machine

/-- The views MSEL selects (20_memory.md R210). -/
inductive View
  | symin
  | symout
  | bytemem
  | freqLo
  | freqHi
  | nodeInfo
  | nodeLeft
  | nodeRight
  | nodeWlo
  | nodeWhi
  | codeLen
  | codeBits
  | reserved
  deriving DecidableEq, Repr

/-- The view of an MSEL value; 12 to 15 are reserved (20_memory.md R210). -/
def View.ofMsel (m : BitVec 4) : View :=
  match m.toNat with
  | 0 => .symin
  | 1 => .symout
  | 2 => .bytemem
  | 3 => .freqLo
  | 4 => .freqHi
  | 5 => .nodeInfo
  | 6 => .nodeLeft
  | 7 => .nodeRight
  | 8 => .nodeWlo
  | 9 => .nodeWhi
  | 10 => .codeLen
  | 11 => .codeBits
  | _ => .reserved

/-- How many indexes a view has, 0 for a reserved one (20_memory.md R210, R222). -/
def View.size (p : Params) : View → Nat
  | .symin | .symout => p.symCap
  | .bytemem => p.byteCap
  | .freqLo | .freqHi | .codeLen => alphabetSize
  | .nodeInfo | .nodeLeft | .nodeRight | .nodeWlo | .nodeWhi => nodeCap
  | .codeBits => 2 ^ 27
  | .reserved => 0

/-- Word j of a code: bit 31 - t is code bit 32 j + t, and 0 from bit L on (20_memory.md R221). -/
def codeWord (c : CodeEntry) (j : Nat) : Word :=
  word (valOf ((List.range 32).map fun t => if 32 * j + t < c.len.toNat then c.bits.getD (32 * j + t) false else false))

namespace State

/-- A node view: 0 while TREE_VALID = 0 and from NNODES on (20_memory.md R218, R219). -/
def nodeView (s : State) (i : Nat) (f : NodeRec → Word) : Word :=
  if s.treeValid = false ∨ s.nnodes.toNat ≤ i then 0 else f (s.nodeAt i)

/-- A code view: 0 while CT_VALID = 0 and for an absent symbol (20_memory.md R220, R221). -/
def codeView (s : State) (sym : Nat) (f : CodeEntry → Word) : Word :=
  if s.ctValid = false ∨ (s.codeAt sym).valid = false then 0 else f (s.codeAt sym)

/-- view(MSEL).read(i), 0 outside the view's range (20_memory.md R211, R213 to R221). -/
def viewRead (v : View) (i : Nat) (s : State) : Word × State :=
  if v.size s.params ≤ i then (0, s)
  else
    match v with
    | .symin => let (x, s1) := s.readSymin i; (x.setWidth 32, s1)
    | .symout => let (x, s1) := s.readSymout i; (x.setWidth 32, s1)
    | .bytemem => let (x, s1) := s.readByte i; (x.setWidth 32, s1)
    | .freqLo => let (x, s1) := s.readFreq i; (x.extractLsb' 0 32, s1)
    | .freqHi => let (x, s1) := s.readFreq i; (x.extractLsb' 32 32, s1)
    | .nodeInfo => (s.nodeView i fun r => BitVec.ofBool r.leaf ++ 0#15 ++ r.sym, s)
    | .nodeLeft => (s.nodeView i fun r => r.left.setWidth 32, s)
    | .nodeRight => (s.nodeView i fun r => r.right.setWidth 32, s)
    | .nodeWlo => (s.nodeView i fun r => r.w.extractLsb' 0 32, s)
    | .nodeWhi => (s.nodeView i fun r => r.w.extractLsb' 32 32, s)
    | .codeLen => (s.codeView i fun c => BitVec.ofBool true ++ 0#15 ++ c.len, s)
    | .codeBits => (s.codeView (i / 2 ^ 11) fun c => codeWord c (i % 2 ^ 11), s)
    | .reserved => (0, s)

/-- view(MSEL).write(i, x): ignored outside the view's range and by a read-only view (20_memory.md R211, R213 to R217). A
half of a FREQ entry keeps the other half as it reads (R216, R217; log 8). -/
def viewWrite (v : View) (i : Nat) (x : Word) (s : State) : State :=
  if v.size s.params ≤ i then s
  else
    match v with
    | .symin => { s with symin := s.symin.write i (x.extractLsb' 0 16) }
    | .symout => s.writeSymout i (x.extractLsb' 0 16)
    | .bytemem => s.writeByte i (x.extractLsb' 0 8)
    | .freqLo => let (old, s1) := s.readFreq i; s1.writeFreq i (old.extractLsb' 32 32 ++ x)
    | .freqHi => let (old, s1) := s.readFreq i; s1.writeFreq i (x ++ old.extractLsb' 0 32)
    | .nodeInfo | .nodeLeft | .nodeRight | .nodeWlo | .nodeWhi | .codeLen | .codeBits | .reserved => s

/-- MADDR <- (MADDR + 1) mod 2^32 (20_memory.md R212). -/
def stepMaddr (s : State) : State := { s with maddr := s.maddr + 1 }

/-- An MDATA read while BUSY = 0 (20_memory.md R212). -/
def mdataRead (s : State) : Word × State :=
  let (x, s1) := s.viewRead (View.ofMsel s.msel) s.maddr.toNat
  (x, s1.stepMaddr)

/-- An MDATA write while BUSY = 0 (20_memory.md R212). -/
def mdataWrite (x : Word) (s : State) : State := (s.viewWrite (View.ofMsel s.msel) s.maddr.toNat x).stepMaddr

end State

end Sys2Proof.Machine
end

