-- ==== Sys2Proof/Machine/HostPort.lean ====
section
/-! DEFINITION. The register port: the register map, what a read and a write of each register does, and the hazard rule
(spec/10_state.md R102 to R127; 20_memory.md R200 to R209; 40_control.md R401; 70_reset_and_hazards.md R830). -/

namespace Sys2Proof.Machine

/-- The registers of the map (10_state.md R102); `reserved` is any of the offsets 0x58 to 0x7C (R127). -/
inductive Reg
  | id
  | ctrl
  | status
  | cmd
  | arg0
  | nsym
  | brlen
  | res0
  | res1
  | nleaves
  | nnodes
  | root
  | bwNbits
  | bwTail
  | brPos
  | brLimit
  | outN
  | msel
  | maddr
  | mdata
  | symcap
  | bytecap
  | reserved
  deriving DecidableEq, Repr

/-- The register at a byte offset; `none` outside the window or off a multiple of 4 (10_state.md R102; 20_memory.md
R200). -/
def Reg.ofOffset (off : Nat) : Option Reg :=
  match off with
  | 0x00 => some .id
  | 0x04 => some .ctrl
  | 0x08 => some .status
  | 0x0C => some .cmd
  | 0x10 => some .arg0
  | 0x14 => some .nsym
  | 0x18 => some .brlen
  | 0x1C => some .res0
  | 0x20 => some .res1
  | 0x24 => some .nleaves
  | 0x28 => some .nnodes
  | 0x2C => some .root
  | 0x30 => some .bwNbits
  | 0x34 => some .bwTail
  | 0x38 => some .brPos
  | 0x3C => some .brLimit
  | 0x40 => some .outN
  | 0x44 => some .msel
  | 0x48 => some .maddr
  | 0x4C => some .mdata
  | 0x50 => some .symcap
  | 0x54 => some .bytecap
  | off => if off % 4 = 0 ∧ 0x58 ≤ off ∧ off ≤ 0x7C then some .reserved else none

/-- The registers of the offsets 0x0C to 0x54, whose accesses are hazards while BUSY = 1
(70_reset_and_hazards.md R830). -/
def Reg.hazardous : Reg → Bool
  | .id | .ctrl | .status | .reserved => false
  | .cmd | .arg0 | .nsym | .brlen | .res0 | .res1 | .nleaves | .nnodes | .root | .bwNbits | .bwTail | .brPos
  | .brLimit | .outN | .msel | .maddr | .mdata | .symcap | .bytecap => true

/-- ID's constant (10_state.md R103). -/
def idWord : Word := 0x48434331

namespace State

/-- BW_TAIL: bits 2:0 the pending count, bits 15:8 bw_tail (10_state.md R118). -/
def bwTailWord (s : State) : Word := 0#16 ++ s.bwTail ++ 0#5 ++ s.bwNbits.extractLsb' 0 3

/-- A read of a register by its own rule (10_state.md R102 to R127): the word, and the state after it (only MDATA's read
changes it, 20_memory.md R209). -/
def readReg (r : Reg) (s : State) : Word × State :=
  match r with
  | .id => (idWord, s)
  | .ctrl => (0#30 ++ BitVec.ofBool s.ie ++ 0#1, s)
  | .status => (s.statusWord, s)
  | .cmd => (0, s)
  | .arg0 => (s.arg0, s)
  | .nsym => (s.nsym, s)
  | .brlen => (s.brlen, s)
  | .res0 => (s.res0, s)
  | .res1 => (s.res1, s)
  | .nleaves => (s.nleaves.setWidth 32, s)
  | .nnodes => (s.nnodes.setWidth 32, s)
  | .root => (s.root.setWidth 32, s)
  | .bwNbits => (s.bwNbits, s)
  | .bwTail => (s.bwTailWord, s)
  | .brPos => (s.brPos, s)
  | .brLimit => (s.brLimit, s)
  | .outN => (s.outN, s)
  | .msel => (s.msel.setWidth 32, s)
  | .maddr => (s.maddr, s)
  | .mdata => s.mdataRead
  | .symcap => (word s.params.symCap, s)
  | .bytecap => ((BitVec.ofNat 29 s.params.byteCap).setWidth 32, s)
  | .reserved => (0, s)

/-- Issue: a write of v to CMD while BUSY = 0 (40_control.md R401). -/
def issue (v : Word) (s : State) : State := { s with cmdl := v, busy := true, done := false }

/-- A write of v to CTRL (10_state.md R104). -/
def writeCtrl (v : Word) (s : State) : State :=
  if v.getLsbD 0 then s.softReset else { s with ie := v.getLsbD 1 }

/-- A write of v to a register by its own rule; read-only registers and reserved offsets ignore it (10_state.md R102 to
R127). -/
def writeReg (r : Reg) (v : Word) (s : State) : State :=
  match r with
  | .ctrl => s.writeCtrl v
  | .status => s.writeStatus v
  | .cmd => s.issue v
  | .arg0 => { s with arg0 := v }
  | .nsym => { s with nsym := v }
  | .brlen => { s with brlen := v }
  | .msel => { s with msel := v.extractLsb' 0 4 }
  | .maddr => { s with maddr := v }
  | .mdata => s.mdataWrite v
  | .id | .res0 | .res1 | .nleaves | .nnodes | .root | .bwNbits | .bwTail | .brPos | .brLimit | .outN | .symcap
  | .bytecap | .reserved => s

/-- HAZ <- 1 (70_reset_and_hazards.md R830). -/
def setHaz (s : State) : State := { s with haz := true }

/-- The word of a host read, as the model's own field `rdata` keeps it (log 5). -/
def returned (r : Word × State) : State := { r.2 with rdata := r.1 }

/-- A host read of a register: a hazard read while BUSY = 1 returns any value and sets HAZ (70_reset_and_hazards.md R830;
log 9), any other read follows the register's rule. -/
def hostRead (r : Reg) (s : State) : State :=
  if s.busy ∧ r.hazardous then returned (s.setHaz.draw 32) else returned (s.readReg r)

/-- A host write of a register: a hazard write while BUSY = 1 is dropped and sets HAZ (70_reset_and_hazards.md R830), any
other write follows the register's rule. -/
def hostWrite (r : Reg) (v : Word) (s : State) : State :=
  if s.busy ∧ r.hazardous then s.setHaz else s.writeReg r v

end State

/-- One host transaction: refused outside the interface (20_memory.md R205, R207), else one atomic read or write of one
register (R209). -/
def hostAccess (a : Access) (s : State) : Host.Outcome State Fault Refusal :=
  if a.bytes ≠ 4 ∨ a.offset % 4 ≠ 0 then .refused .accessNotAlignedWord
  else
    match Reg.ofOffset a.offset with
    | none => .refused .accessOutsideWindow
    | some r =>
      match a.op with
      | .read => .next (s.hostRead r)
      | .write v => .next (s.hostWrite r v)

end Sys2Proof.Machine
end

