-- ==== Sys2Proof/Machine/Schedule.lean ====
section
/-! DEFINITION. Whose step comes next (spec/00_scope.md R16; 40_control.md R402; log 4). The interleaving of host and engine
is plain data: the list `pending`, over whose every value a statement about every state ranges. -/

namespace Sys2Proof.Machine

/-- The step that is taken. -/
inductive Move
  /-- The engine's step (40_control.md R403). -/
  | engine
  /-- A host transaction (00_scope.md R15). -/
  | host (a : Access)
  /-- The power-on reset input (70_reset_and_hazards.md R801). -/
  | powerOn
  /-- Nothing: the block is idle and holds its state (60_exceptions.md R745). -/
  | idle
  deriving DecidableEq, Repr

namespace State

/-- The engine's step when it is enabled, exactly while BUSY = 1, else nothing (40_control.md R402). -/
def engineMove (s : State) : Move := if s.busy then .engine else .idle

/-- The step that comes next, and the state with its event taken off `pending`. With no event pending a busy engine moves,
so that a command completes (40_control.md R402). -/
def nextMove (s : State) : Move × State :=
  match s.pending with
  | [] => (s.engineMove, s)
  | .engine :: rest => (s.engineMove, { s with pending := rest })
  | .host a :: rest => (.host a, { s with pending := rest })
  | .powerOn :: rest => (.powerOn, { s with pending := rest })

/-- The engine's step is scheduled next. -/
def scheduleEngine (s : State) : State := { s with pending := .engine :: s.pending }

end State

end Sys2Proof.Machine
end

