-- ==== Sys2Proof/Machine/Step.lean ====
section
/-! DEFINITION. One step of the block (spec/00_scope.md R16): the engine's step, a host transaction, a power-on reset, or
nothing. -/

namespace Sys2Proof.Machine

/-- The engine's step on the latched word (40_control.md R403, R405). -/
def engineStep (s : State) : Host.Outcome State Fault Refusal :=
  match decode s.cmdl with
  | .ok i => exec i s
  | .error _ => illegalCommand s

/-- One step: the move that comes next. -/
def step (s : State) : Host.Outcome State Fault Refusal :=
  match s.nextMove with
  | (.engine, s1) => engineStep s1
  | (.host a, s1) => hostAccess a s1
  | (.powerOn, s1) => .next s1.powerOnReset
  | (.idle, s1) => .next s1

/-- The state in which the command word w has just been issued and the engine's step is next, so that the very next step
runs it. The block fetches nothing (20_memory.md R202, R235): a word comes from the CMD write, which this stands for
(log 11). -/
def State.withFetchWord (s : State) (nbits w : Nat) : State :=
  { s with cmdl := BitVec.ofNat 32 (w % 2 ^ nbits), busy := true }.scheduleEngine

end Sys2Proof.Machine
end

