-- ==== Sys2Proof/Safety.lean ====
section
/-! DEFINITION. The terms claims are stated in: the bits of the writer's and the reader's stream, the trees an arena holds,
and the invariant of a safe run. Nothing here is read by `step`. -/

namespace Sys2Proof.Machine

/-! ## Streams (20_memory.md R224; 41_bitio.md R422, R434) -/

/-- Stream bit k as a byte memory holds it; `none` where no write has set its byte (20_memory.md R224). -/
def Memory.bit (m : Memory Byte) (k : Nat) : Option Bool := (m.get? (k / 8)).map (streamBit · k)

/-- The record an arena holds at an index (as `State.nodeAt`). -/
def Memory.nodeAt (m : Memory NodeRec) (i : Nat) : NodeRec := (m.get? i).getD NodeRec.zero

/-- The bits from stream bit k on are bs, all of them written. -/
def Memory.holds (m : Memory Byte) (k : Nat) (bs : Bits) : Prop := ∀ j, j < bs.length → m.bit (k + j) = bs[j]?

/-- Bit k of the writer's stream: in BYTEMEM up to the last complete byte, then in bw_tail (41_bitio.md R422). -/
def State.writerBit (s : State) (k : Nat) : Option Bool :=
  if k < 8 * (s.bwNbits.toNat / 8) then s.bytemem.bit k else some (streamBit s.bwTail k)

/-- t's writer stream is s's followed by bs (41_bitio.md R422). -/
def State.extendsBy (s t : State) (bs : Bits) : Prop :=
  t.bwNbits.toNat = s.bwNbits.toNat + bs.length ∧
  (∀ k, k < s.bwNbits.toNat → t.writerBit k = s.writerBit k) ∧
  (∀ j, j < bs.length → t.writerBit (s.bwNbits.toNat + j) = bs[j]?)

/-- bs is what is appended of `fields`, from a stream of `start` bits on, when the first field that does not fit `cap` bits
stops the appending (41_bitio.md R420; 45_serdes.md R550). -/
def stopsAfter (cap start : Nat) (fields : List Bits) (bs : Bits) : Prop :=
  ∃ before field after, fields = before ++ field :: after ∧ bs = before.flatten ∧ start + bs.length ≤ cap ∧
    cap < start + bs.length + field.length

/-- Every byte outside indexes lo .. hi - 1 is as before. -/
def Memory.sameOutside {α : Type} (m m' : Memory α) (lo hi : Nat) : Prop :=
  ∀ a, a < lo ∨ hi ≤ a → m'.get? a = m.get? a

/-! ## Trees (10_state.md R141; 30_encoding.md R321; 44_codetable.md R520) -/

/-- A strict binary tree of symbols. -/
inductive HTree
  | leaf (sym : Symbol)
  | node (l r : HTree)
  deriving DecidableEq, Repr

namespace HTree

/-- K, the number of leaves. -/
def leaves : HTree → Nat
  | leaf _ => 1
  | node l r => l.leaves + r.leaves

/-- Pre(n), the pre-order serialization (30_encoding.md R321). -/
def pre : HTree → Bits
  | leaf sym => true :: bitsOf 16 sym.toNat
  | node l r => false :: (l.pre ++ r.pre)

/-- The fields Emit appends, in pre-order: a tag of one bit or a leaf record of 17 (45_serdes.md R550). -/
def fields : HTree → List Bits
  | leaf sym => [true :: bitsOf 16 sym.toNat]
  | node l r => [false] :: (l.fields ++ r.fields)

/-- The reads Parse makes, in order: a tag of one bit, and after a leaf's tag the 16 bits of its symbol (45_serdes.md
R553). -/
def reads : HTree → List Bits
  | leaf sym => [[true], bitsOf 16 sym.toNat]
  | node l r => [false] :: (l.reads ++ r.reads)

/-- The leaves from left to right, each with its path: 0 = left, 1 = right (44_codetable.md R520). -/
def paths : HTree → List (Symbol × Bits)
  | leaf sym => [(sym, [])]
  | node l r => l.paths.map (fun c => (c.1, false :: c.2)) ++ r.paths.map (fun c => (c.1, true :: c.2))

/-- The length of the longest path (44_codetable.md R521: the longest code). -/
def depth : HTree → Nat
  | leaf _ => 0
  | node l r => max l.depth r.depth + 1

end HTree

/-- How many of Parse's reads are tags, each of which allocates a node (45_serdes.md R553). -/
def tagsIn (reads : List Bits) : Nat := (reads.filter (fun bs => bs.length = 1)).length

/-- The arena `node` holds the tree t at index n (10_state.md R140, R141). -/
def Holds (node : Nat → NodeRec) : Nat → HTree → Prop
  | n, .leaf sym => (node n).leaf = true ∧ (node n).sym = sym
  | n, .node l r => (node n).leaf = false ∧ Holds node (node n).left.toNat l ∧ Holds node (node n).right.toNat r

/-- The arena indexes of the tree t at index n, in pre-order. -/
def indexes (node : Nat → NodeRec) : Nat → HTree → List Nat
  | n, .leaf _ => [n]
  | n, .node l r => n :: (indexes node (node n).left.toNat l ++ indexes node (node n).right.toNat r)

/-- The current tree is t: NODE holds it at ROOT, its K leaves are counted by NLEAVES, its 2K - 1 nodes by NNODES, each node
is met once and lies below NNODES (10_state.md R114 to R116, R141). -/
structure State.TreeIs (s : State) (t : HTree) : Prop where
  holds : Holds s.nodeAt s.root.toNat t
  leaves : s.nleaves.toNat = t.leaves
  size : s.nnodes.toNat = 2 * t.leaves - 1
  once : (indexes s.nodeAt s.root.toNat t).Nodup
  below : ∀ i ∈ indexes s.nodeAt s.root.toNat t, i < s.nnodes.toNat

/-- CODE is the code table of t: a leaf's symbol has its path, every other symbol no code (44_codetable.md R521). -/
structure State.CodesAre (s : State) (t : HTree) : Prop where
  distinct : (t.paths.map Prod.fst).Nodup
  present : ∀ c ∈ t.paths, s.codeAt c.1.toNat = CodeEntry.ofPath c.2
  missing : ∀ sym : Symbol, sym ∉ t.paths.map Prod.fst → s.codeAt sym.toNat = CodeEntry.absent

/-! ## Frequencies (10_state.md R133) -/

/-- FREQ[i] of a FREQ whose entries are written. -/
def State.freqAt (s : State) (i : Nat) : Weight := (s.freq.get? i).getD 0

/-- Every FREQ entry is written. -/
def State.freqWritten (s : State) : Prop := ∀ i, i < alphabetSize → (s.freq.get? i).isSome

/-- S: the symbols with FREQ[s] != 0, ascending (43_tree.md R481). -/
def State.presentSymbols (s : State) : List Nat := (List.range alphabetSize).filter (fun i => s.freqAt i ≠ 0)

/-- The exact sum of the FREQ entries (43_tree.md R481). -/
def State.freqTotal (s : State) : Nat := ((List.range alphabetSize).map (fun i => (s.freqAt i).toNat)).sum

/-- The input SYMIN[0 .. N-1] is written and is syms. -/
def State.inputIs (s : State) (syms : List Symbol) : Prop :=
  s.nsym.toNat = syms.length ∧ ∀ i, i < syms.length → s.symin.get? i = syms[i]?

/-! ## The tree builder's merges (43_tree.md R481, R482) -/

/-- Node x has a smaller key than node y: the smaller weight, unsigned, and among equal weights the smaller index
(43_tree.md R482). -/
def keyLess (node : Nat → NodeRec) (x y : Nat) : Prop :=
  (node x).w.toNat < (node y).w.toNat ∨ ((node x).w = (node y).w ∧ x < y)

/-- When node m is made, node x is in the queue: made before m and no child of an internal node made before m
(43_tree.md R481; the internal nodes have indexes k, k + 1, ..). -/
def inQueue (node : Nat → NodeRec) (k m x : Nat) : Prop :=
  x < m ∧ ∀ m', k ≤ m' → m' < m → x ≠ (node m').left.toNat ∧ x ≠ (node m').right.toNat

/-- Node m merges the two nodes of smallest key in the queue, the smaller one on the left, and its weight is their exact sum
(43_tree.md R481, R482). -/
structure MergesSmallest (node : Nat → NodeRec) (k m : Nat) : Prop where
  isNode : (node m).leaf = false ∧ (node m).sym = 0
  left : inQueue node k m (node m).left.toNat
  right : inQueue node k m (node m).right.toNat
  distinct : (node m).left ≠ (node m).right
  weight : (node m).w.toNat = (node (node m).left.toNat).w.toNat + (node (node m).right.toNat).w.toNat
  leftFirst : ∀ x, inQueue node k m x → x ≠ (node m).left.toNat → keyLess node (node m).left.toNat x
  rightNext : ∀ x, inQueue node k m x → x ≠ (node m).left.toNat → x ≠ (node m).right.toNat →
    keyLess node (node m).right.toNat x

/-! ## The container (30_encoding.md R320) -/

/-- The padding that brings e bits to a byte boundary (30_encoding.md R320). -/
def padTo8 (e : Nat) : Nat := (8 - e % 8) % 8

/-- Pre(ROOT) ++ u_32(N) ++ code(s_0) ++ .. ++ code(s_{N-1}), the container without its padding (30_encoding.md R320). -/
def containerBits (t : HTree) (codes : List Bits) : Bits := t.pre ++ bitsOf 32 codes.length ++ codes.flatten

/-- The fields ENCODE appends: the tree's, the length, the codes (46_codec.md R580). -/
def containerFields (t : HTree) (codes : List Bits) : List Bits := t.fields ++ [bitsOf 32 codes.length] ++ codes

/-! ## The invariant -/

/-- The writer (10_state.md R117, R118): the stream fits BYTEMEM, and the bits of bw_tail below the pending ones are 0. -/
structure State.WriterOk (s : State) : Prop where
  fits : s.bwNbits.toNat ≤ 8 * s.params.byteCap
  tail : ∀ j, j < 8 - s.bwNbits.toNat % 8 → s.bwTail.getLsbD j = false

/-- The reader (10_state.md R119, R120). -/
structure State.ReaderOk (s : State) : Prop where
  pos : s.brPos.toNat ≤ s.brLimit.toNat
  limit : s.brLimit.toNat ≤ 8 * s.params.byteCap
  whole : s.brLimit.toNat % 8 = 0

/-- The tree and the code table (10_state.md R108, R114 to R116, R141): without a tree the registers that describe it are 0
and there is no table; with TREE_VALID = 1 NODE holds a tree of at most 65536 leaves, and with CT_VALID = 1 CODE is its
table. -/
structure State.TreeOk (s : State) : Prop where
  noTree : s.treeValid = false → s.nleaves = 0 ∧ s.nnodes = 0 ∧ s.root = 0 ∧ s.ctValid = false
  tree : s.treeValid = true →
    ∃ t : HTree, t.leaves ≤ alphabetSize ∧ s.TreeIs t ∧ (s.ctValid = true → s.CodesAre t)

/-- The memories are in their canonical form, inside their sizes (20_memory.md R201). -/
structure State.MemoryOk (s : State) : Prop where
  symin : Memory.wf s.params.symCap s.symin
  symout : Memory.wf s.params.symCap s.symout
  bytemem : Memory.wf s.params.byteCap s.bytemem
  freq : Memory.wf alphabetSize s.freq
  node : Memory.wf nodeCap s.node
  code : Memory.wf alphabetSize s.code

/-- The delivered output: OUT_N symbols, all of them written (10_state.md R121). -/
structure State.OutputOk (s : State) : Prop where
  count : s.outN.toNat ≤ s.params.symCap
  written : ∀ i, i < s.outN.toNat → (s.symout.get? i).isSome

/-- The invariant of every run. -/
structure State.Inv (s : State) : Prop where
  params : s.params.legal
  writer : s.WriterOk
  reader : s.ReaderOk
  tree : s.TreeOk
  memory : s.MemoryOk
  output : s.OutputOk

/-! ## What a command may change -/

/-- What no command changes: the host's registers, CMDL, HAZ, IE, SYMIN and the model's own fields but `draws`
(10_state.md R104, R110 to R112, R122, R123, R125, R130). -/
structure State.SameHostState (s t : State) : Prop where
  ie : t.ie = s.ie
  haz : t.haz = s.haz
  cmdl : t.cmdl = s.cmdl
  arg0 : t.arg0 = s.arg0
  nsym : t.nsym = s.nsym
  brlen : t.brlen = s.brlen
  msel : t.msel = s.msel
  maddr : t.maddr = s.maddr
  symin : t.symin = s.symin
  params : t.params = s.params
  pending : t.pending = s.pending
  rdata : t.rdata = s.rdata

/-- The writer: its registers and BYTEMEM, which no other command writes. -/
structure State.SameWriter (s t : State) : Prop where
  nbits : t.bwNbits = s.bwNbits
  tail : t.bwTail = s.bwTail
  bytemem : t.bytemem = s.bytemem

/-- The reader. -/
structure State.SameReader (s t : State) : Prop where
  pos : t.brPos = s.brPos
  limit : t.brLimit = s.brLimit

/-- The tree. -/
structure State.SameTree (s t : State) : Prop where
  nleaves : t.nleaves = s.nleaves
  nnodes : t.nnodes = s.nnodes
  root : t.root = s.root
  valid : t.treeValid = s.treeValid
  node : t.node = s.node

/-- RES0 and RES1. -/
structure State.SameResults (s t : State) : Prop where
  res0 : t.res0 = s.res0
  res1 : t.res1 = s.res1

/-- Which error codes a command can raise (60_exceptions.md R703); ILLEGAL_COMMAND is the decode step's. -/
def canRaise : Instr → List Err
  | .nop | .bwInit | .bwFinal | .freqClr => []
  | .bwPut1 _ | .bwPutN _ => [.outputOverflow]
  | .brInit | .freqCount => [.badArgument]
  | .brGet1 | .brGetN _ | .treeDeser => [.malformedContainer]
  | .treeBuild => [.emptyInput, .weightOverflow]
  | .treeSer => [.noTree, .outputOverflow]
  | .codeGen => [.noTree, .internalInvariant]
  | .encode => [.emptyInput, .badArgument, .noTree, .noCodeTable, .outputOverflow, .internalInvariant]
  | .decode => [.badArgument, .malformedContainer, .outputOverflow]
  | .encAll => [.emptyInput, .badArgument, .outputOverflow]

end Sys2Proof.Machine
end

