-- ==== Sys2Proof/Certificates/Slice0/Obligations.lean ====
section
/-! DEFINITION. The statements for the provers, from the numbered rules of spec/. Next states are written as updates of the
state before, so that each statement is its own frame: whatever is not named is unchanged. -/

open Sys2Proof Sys2Proof.Machine

/-! ## Encoding (30_encoding.md) -/

/-- R302, R306: the decoder and the encoder are inverse to each other on the well-formed commands, on every word. -/
def Obligations.DecodeInvertsEncode : Prop :=
  ∀ (x : Word) (i : Instr), Sys2Proof.decode x = .ok i ↔ (i.wf = true ∧ Sys2Proof.encode i = x)

/-- R304: exactly which words are illegal, and that the outcome of each is ILLEGAL_COMMAND. -/
def Obligations.IllegalWordsAreThese : Prop :=
  ∀ x : Word, ((∃ e, Sys2Proof.decode x = .error e) ↔
    ((∀ r ∈ opcodeTable, opField x ≠ r.pattern.extractLsb' 0 8) ∨
      reservedField x ≠ 0 ∨
      (wField x ≠ 0 ∧ ∃ r ∈ opcodeTable, opField x = r.pattern.extractLsb' 0 8 ∧ r.usesW = false) ∨
      (bField x = true ∧ ∃ r ∈ opcodeTable, opField x = r.pattern.extractLsb' 0 8 ∧ r.usesB = false) ∨
      (32 < (wField x).toNat ∧ ∃ r ∈ opcodeTable, opField x = r.pattern.extractLsb' 0 8 ∧ r.usesW = true))) ∧
    ∀ (s : State) (e : DecodeError), s.cmdl = x → Sys2Proof.decode x = .error e →
      engineStep s = .next { s with busy := false, done := true, ecode := some .illegalCommand }

/-- R306: decoding is total, and it is matching a word by the opcode table; the command has the word's W and B (its encoding
is the word). -/
def Obligations.DecodeFollowsOpcodeTable : Prop :=
  ∀ x : Word,
    (∀ r ∈ opcodeTable, ∀ r' ∈ opcodeTable, r.selects x = true → r'.selects x = true → r = r') ∧
    (∀ i, Sys2Proof.decode x = .ok i → Sys2Proof.encode i = x ∧
      ∃ r ∈ opcodeTable, r.selects x = true ∧ r.mnemonic = i.mnemonic) ∧
    (∀ r ∈ opcodeTable, r.selects x = true → (r.usesW = true → (wField x).toNat ≤ 32) →
      ∃ i, Sys2Proof.decode x = .ok i ∧ i.mnemonic = r.mnemonic) ∧
    (∀ r ∈ opcodeTable, r.selects x = true → r.usesW = true → 32 < (wField x).toNat →
      ∃ e, Sys2Proof.decode x = .error e) ∧
    ((∀ r ∈ opcodeTable, r.selects x = false) → ∃ e, Sys2Proof.decode x = .error e)

/-- R302's worked examples and words of every family, written out from R300 and R303; three illegal words are rejected. The
names of the reasons are the model's choice (log 22). -/
def Obligations.WordsOfTheFamiliesDecode : Prop :=
  Sys2Proof.decode 0x00000000#32 = .ok .nop ∧
  Sys2Proof.decode 0x00004011#32 = .ok (.bwPut1 true) ∧
  Sys2Proof.decode 0x00001012#32 = .ok (.bwPutN 16) ∧
  Sys2Proof.decode 0x00002022#32 = .ok (.brGetN 32) ∧
  Sys2Proof.decode 0x00000031#32 = .ok .freqCount ∧
  Sys2Proof.decode 0x00000040#32 = .ok .treeBuild ∧
  Sys2Proof.decode 0x00000042#32 = .ok .treeDeser ∧
  Sys2Proof.decode 0x00000050#32 = .ok .codeGen ∧
  Sys2Proof.decode 0x00000061#32 = .ok .decode ∧
  Sys2Proof.decode 0x00000170#32 = .error .unusedWidth ∧
  Sys2Proof.decode 0x80000061#32 = .error .reservedBits ∧
  Sys2Proof.decode 0x00000001#32 = .error .reservedOpcode

/-! ## The step (00_scope.md R16; 40_control.md) -/

/-- R403, R405 with the model's schedule (log 4): when BUSY = 1 and the engine's step comes next (scheduled, or nothing else
is pending), a step is exec of the command in CMDL; withFetchWord makes the very next step run its word. -/
def Obligations.StepRunsDecodedCommand : Prop :=
  ∀ (s : State) (i : Instr),
    (∀ rest, s.pending = .engine :: rest → s.busy = true → Sys2Proof.decode s.cmdl = .ok i →
      step s = exec i { s with pending := rest }) ∧
    (s.pending = [] → s.busy = true → Sys2Proof.decode s.cmdl = .ok i → step s = exec i s) ∧
    (∀ x : Word, Sys2Proof.decode x = .ok i →
      step (s.withFetchWord 32 x.toNat) = exec i { s with cmdl := x, busy := true })

/-- R405: an illegal word completes with ILLEGAL_COMMAND and changes nothing else. -/
def Obligations.IllegalWordChangesNothingElse : Prop :=
  ∀ (s : State) (e : DecodeError) (rest : List Event), s.pending = .engine :: rest → s.busy = true →
    Sys2Proof.decode s.cmdl = .error e →
      step s = .next { s with pending := rest, busy := false, done := true, ecode := some .illegalCommand }

/-- R402, R745 with the model's schedule (log 4): while BUSY = 0 the engine has no step, and with nothing pending the block
holds its state. -/
def Obligations.IdleEngineDoesNothing : Prop :=
  ∀ s : State, s.busy = false →
    (s.pending = [] → step s = .next s) ∧
    (∀ rest, s.pending = .engine :: rest → step s = .next { s with pending := rest })

/-- R402: a command always completes. With nothing but STATUS reads before it, the engine's step comes and BUSY falls. -/
def Obligations.PolledCommandCompletes : Prop :=
  ∀ s : State, s.Inv → s.busy = true → (∀ e ∈ s.pending, e = .host ⟨0x08, 4, .read⟩) →
    ∃ t : State, Host.Core.run Sys2Proof.core (s.pending.length + 1) s = .next t ∧ t.busy = false ∧ t.done = true

/-- R403, R720, R110 to R112, R130: every command that ends leaves BUSY = 0 and DONE = 1, so that irq = IE, and changes no
host register, CMDL, HAZ, IE, SYMIN. -/
def Obligations.CompletionKeepsHostState : Prop :=
  ∀ (i : Instr) (s t : State), exec i s = .next t → t.busy = false ∧ t.done = true ∧ t.irq = s.ie ∧ s.SameHostState t

/-- R402, R811: every command ends from every state, whatever its operands and whatever memory was never written, unless
TREE_SER, CODE_GEN or ENCODE walks an arena that holds no tree (log 7), which the invariant excludes; none is refused. -/
def Obligations.EveryCommandEnds : Prop :=
  ∀ (i : Instr) (s : State),
    (∀ r, exec i s ≠ .refused r) ∧
    (i ≠ .treeSer → i ≠ .codeGen → i ≠ .encode → ∃ t, exec i s = .next t) ∧
    (s.Inv → ∃ t, exec i s = .next t)

/-- R703: which error codes each command can raise (for ENC_ALL on written input, R616). -/
def Obligations.CommandsRaiseOnlyTheirCodes : Prop :=
  ∀ (i : Instr) (s t : State) (e : Err), i.wf = true →
    (i = .encAll → ∃ syms, s.inputIs syms) → exec i s = .next t → t.ecode = some e → e ∈ canRaise i

/-- R113: a failing command and a command that lists no result leave RES0 and RES1 unchanged; BR_GET1, BR_GETN and TREE_SER
leave RES1 unchanged. -/
def Obligations.ResultsOnlyOnSuccess : Prop :=
  ∀ (i : Instr) (s t : State), exec i s = .next t →
    (t.ecode ≠ none → s.SameResults t) ∧
    (i = .nop ∨ i = .bwInit ∨ (∃ b, i = .bwPut1 b) ∨ (∃ w, i = .bwPutN w) ∨ i = .brInit ∨ i = .freqClr →
      s.SameResults t) ∧
    (i = .brGet1 ∨ (∃ w, i = .brGetN w) ∨ i = .treeSer → t.res1 = s.res1)

/-- R107, R121, R131, R133, R145, R150, R480: each unit's state is written only by the commands that name it. -/
def Obligations.UnitsWrittenOnlyByTheirCommands : Prop :=
  ∀ (i : Instr) (s t : State), exec i s = .next t →
    (i ≠ .treeBuild → i ≠ .treeDeser → i ≠ .decode → i ≠ .encAll → s.SameTree t) ∧
    (i ≠ .treeBuild → i ≠ .treeDeser → i ≠ .codeGen → i ≠ .decode → i ≠ .encAll → t.ctValid = s.ctValid) ∧
    (i ≠ .codeGen → i ≠ .encAll → t.code = s.code) ∧
    (i ≠ .freqClr → i ≠ .freqCount → i ≠ .encAll → t.freq = s.freq) ∧
    (i ≠ .decode → t.outN = s.outN ∧ t.symout = s.symout) ∧
    (i = .nop ∨ i = .brInit ∨ i = .brGet1 ∨ (∃ w, i = .brGetN w) ∨ i = .freqClr ∨ i = .freqCount ∨ i = .treeBuild ∨
      i = .treeDeser ∨ i = .codeGen ∨ i = .decode → s.SameWriter t) ∧
    (i ≠ .brInit → i ≠ .brGet1 → (∀ w, i ≠ .brGetN w) → i ≠ .treeDeser → i ≠ .decode → s.SameReader t)

/-! ## NOP and the bit writer (40_control.md, 41_bitio.md) -/

/-- R410, R425: NOP, word 0, changes nothing but the completion, and every other word with its opcode is illegal; BW_INIT empties the writer's stream and does not touch BYTEMEM. -/
def Obligations.NopAndBwInitEffects : Prop :=
  Sys2Proof.decode 0x00000000#32 = .ok .nop ∧ Sys2Proof.decode 0x00000010#32 = .ok .bwInit ∧
  (∀ x : Word, opField x = 0 → x ≠ 0 → ∃ e, Sys2Proof.decode x = .error e) ∧
  ∀ s : State,
    exec .nop s = .next { s with busy := false, done := true, ecode := none } ∧
    exec .bwInit s = .next { s with bwNbits := 0, bwTail := 0, busy := false, done := true, ecode := none }

/-- R420, R426, R427: BW_PUT1 B appends the bit B, BW_PUTN W the string u_W(ARG0[W-1:0]), whole: the stream is the old one
followed by the bits, each complete byte in BYTEMEM, the others in bw_tail; only the bytes completed are written. What does
not fit raises OUTPUT_OVERFLOW and nothing is appended; W > 32 is ILLEGAL_COMMAND. -/
def Obligations.PutsAppendTheirBits : Prop :=
  (∀ b, Sys2Proof.decode (enc 0x11 0 b) = .ok (.bwPut1 b)) ∧
  (∀ w : BitVec 6, w.toNat ≤ 32 → Sys2Proof.decode (enc 0x12 w false) = .ok (.bwPutN w)) ∧
  (∀ (s : State) (w : BitVec 6), 32 < w.toNat →
    exec (.bwPutN w) s = .next { s with busy := false, done := true, ecode := some .illegalCommand }) ∧
  ∀ (s : State) (i : Instr) (bs : Bits), s.params.legal → s.WriterOk →
    ((∃ b, i = .bwPut1 b ∧ bs = [b]) ∨
      (∃ w : BitVec 6, w.toNat ≤ 32 ∧ i = .bwPutN w ∧ bs = bitsOf w.toNat s.arg0.toNat)) →
    (s.bwNbits.toNat + bs.length ≤ 8 * s.params.byteCap →
      ∃ n tl m, exec i s = .next { s with bwNbits := n, bwTail := tl, bytemem := m, busy := false, done := true,
                                          ecode := none } ∧
        s.extendsBy { s with bwNbits := n, bwTail := tl, bytemem := m } bs ∧
        State.WriterOk { s with bwNbits := n, bwTail := tl, bytemem := m } ∧
        s.bytemem.sameOutside m (s.bwNbits.toNat / 8) (n.toNat / 8)) ∧
    (8 * s.params.byteCap < s.bwNbits.toNat + bs.length →
      exec i s = .next { s with busy := false, done := true, ecode := some .outputOverflow })

/-- R421, R428: BW_FINAL pads with p zero bits to the byte boundary and flushes the last byte; RES0 the bytes, RES1 the
padding; for p = 0 nothing is written. -/
def Obligations.BwFinalPadsAndFlushes : Prop :=
  Sys2Proof.decode 0x00000013#32 = .ok .bwFinal ∧
  ∀ s : State, s.WriterOk →
    let p := padTo8 s.bwNbits.toNat
    ∃ m, exec .bwFinal s = .next { s with bwNbits := word (s.bwNbits.toNat + p), bwTail := 0, bytemem := m,
                                          res0 := word ((s.bwNbits.toNat + p) / 8), res1 := word p, busy := false,
                                          done := true, ecode := none } ∧
      (∀ k, k < s.bwNbits.toNat → m.bit k = s.writerBit k) ∧
      m.holds s.bwNbits.toNat (List.replicate p false) ∧
      (p = 0 → m = s.bytemem) ∧
      s.bytemem.sameOutside m (s.bwNbits.toNat / 8) (s.bwNbits.toNat / 8 + 1)

/-! ## The bit reader (41_bitio.md) -/

/-- R431: BR_INIT sets the cursor to 0 and the limit to 8 * BRLEN, or raises BAD_ARGUMENT and changes nothing. -/
def Obligations.BrInitSetsSlice : Prop :=
  Sys2Proof.decode 0x00000020#32 = .ok .brInit ∧
  ∀ s : State,
    (s.brlen.toNat ≤ s.params.byteCap → exec .brInit s =
      .next { s with brPos := 0, brLimit := word (8 * s.brlen.toNat), busy := false, done := true, ecode := none }) ∧
    (s.params.byteCap < s.brlen.toNat → exec .brInit s =
      .next { s with busy := false, done := true, ecode := some .badArgument })

/-- R423, R424, R432, R433: a read of w bits inside the slice returns their value, first bit most significant, and moves the
cursor by w. A read that would pass BR_LIMIT raises MALFORMED_CONTAINER and consumes nothing; W > 32 is ILLEGAL_COMMAND. -/
def Obligations.ReadsReturnTheBits : Prop :=
  Sys2Proof.decode 0x00000021#32 = .ok .brGet1 ∧
  (∀ w : BitVec 6, w.toNat ≤ 32 → Sys2Proof.decode (enc 0x22 w false) = .ok (.brGetN w)) ∧
  (∀ (s : State) (w : BitVec 6), 32 < w.toNat →
    exec (.brGetN w) s = .next { s with busy := false, done := true, ecode := some .illegalCommand }) ∧
  ∀ (s : State) (i : Instr) (n : Nat),
    ((i = .brGet1 ∧ n = 1) ∨ (∃ w : BitVec 6, w.toNat ≤ 32 ∧ i = .brGetN w ∧ n = w.toNat)) →
    (∀ bs : Bits, bs.length = n → s.brPos.toNat + n ≤ s.brLimit.toNat → s.bytemem.holds s.brPos.toNat bs →
      exec i s = .next { s with brPos := word (s.brPos.toNat + n), res0 := word (valOf bs), busy := false, done := true,
                                ecode := none }) ∧
    (s.brLimit.toNat < s.brPos.toNat + n →
      exec i s = .next { s with busy := false, done := true, ecode := some .malformedContainer })

/-- R423, R424, R432, R433, R811: a read inside the slice completes whatever its bytes are, written or not, with some value
below 2^w. -/
def Obligations.ReadsOfUnwrittenBytesComplete : Prop :=
  ∀ (s : State) (i : Instr) (n : Nat),
    ((i = .brGet1 ∧ n = 1) ∨ (∃ w : BitVec 6, w.toNat ≤ 32 ∧ i = .brGetN w ∧ n = w.toNat)) →
    s.brPos.toNat + n ≤ s.brLimit.toNat →
    ∃ (v : Word) (d : Nat), v.toNat < 2 ^ n ∧
      exec i s = .next { s with brPos := word (s.brPos.toNat + n), res0 := v, draws := d, busy := false, done := true,
                                ecode := none }

/-! ## The frequency counter (42_freq.md) -/

/-- R460: FREQ_CLR makes every FREQ entry 0 and changes nothing else. -/
def Obligations.FreqClrZeroesEveryEntry : Prop :=
  Sys2Proof.decode 0x00000030#32 = .ok .freqClr ∧
  ∀ s : State, ∃ m, exec .freqClr s = .next { s with freq := m, busy := false, done := true, ecode := none } ∧
    ∀ i, i < alphabetSize → m.get? i = some 0

/-- R461, R462: FREQ_COUNT leaves in FREQ[x] the number of times x stands in SYMIN[0 .. N-1], RES0 the number of distinct
symbols, RES1 = N; the entries sum to N. NSYM > SYM_CAP raises BAD_ARGUMENT and FREQ is unchanged; any other FREQ_COUNT
completes, on unwritten symbols too (R811). -/
def Obligations.FreqCountCountsSymbols : Prop :=
  Sys2Proof.decode 0x00000031#32 = .ok .freqCount ∧
  ∀ s : State,
    (∀ syms : List Symbol, s.inputIs syms → syms.length ≤ s.params.symCap →
      ∃ m, exec .freqCount s = .next { s with freq := m, res0 := word syms.dedup.length, res1 := s.nsym, busy := false,
                                              done := true, ecode := none } ∧
        (∀ x : Symbol, m.get? x.toNat = some (BitVec.ofNat 64 (syms.count x))) ∧
        ((List.range alphabetSize).map (fun i => ((m.get? i).getD 0).toNat)).sum = syms.length) ∧
    (s.params.symCap < s.nsym.toNat → exec .freqCount s =
      .next { s with busy := false, done := true, ecode := some .badArgument }) ∧
    (s.nsym.toNat ≤ s.params.symCap → ∃ m k d, exec .freqCount s =
      .next { s with freq := m, res0 := k, res1 := s.nsym, draws := d, busy := false, done := true, ecode := none })

/-! ## The tree builder (43_tree.md) -/

/-- R481, R482, R483, R484: TREE_BUILD on a written FREQ. Node j < K is the leaf of the j-th present symbol; every node from
K to 2K - 2 merges the two nodes of smallest key left, the smaller on the left; nodes from 2K - 1 on are unchanged; the root's
weight is the sum of FREQ. -/
def Obligations.TreeBuildMergesSmallest : Prop :=
  ∀ s : State, s.freqWritten → Memory.wf alphabetSize s.freq → s.presentSymbols ≠ [] →
    s.freqTotal ≤ 2 ^ 63 - 1 →
    let k := s.presentSymbols.length
    ∃ nd : Memory NodeRec,
      exec .treeBuild s = .next { s with node := nd, root := BitVec.ofNat 17 (2 * k - 2), nleaves := BitVec.ofNat 17 k,
                                         nnodes := BitVec.ofNat 17 (2 * k - 1), treeValid := true, ctValid := false,
                                         res0 := word k, res1 := word (2 * k - 1), busy := false, done := true,
                                         ecode := none } ∧
      (∀ j x, s.presentSymbols[j]? = some x →
        nd.nodeAt j = { leaf := true, sym := BitVec.ofNat 16 x, w := s.freqAt x, left := 0, right := 0 }) ∧
      (∀ m, k ≤ m → m < 2 * k - 1 → MergesSmallest nd.nodeAt k m) ∧
      (∀ a, 2 * k - 1 ≤ a → nd.get? a = s.node.get? a) ∧
      (nd.nodeAt (2 * k - 2)).w.toNat = s.freqTotal

/-- R483, 10_state.md R141: what TREE_BUILD leaves is a strict binary tree with root ROOT, each of its 2K - 1 nodes met
once, whose leaves carry the present symbols, each once. -/
def Obligations.TreeBuildLeavesStrictTree : Prop :=
  ∀ s t : State, s.freqWritten → Memory.wf alphabetSize s.freq → exec .treeBuild s = .next t → t.ecode = none →
    ∃ tr : HTree, t.TreeIs tr ∧ (tr.paths.map Prod.fst).Nodup ∧
      ∀ x : Symbol, x ∈ tr.paths.map Prod.fst ↔ s.freqAt x.toNat ≠ 0

/-- R481, R712: the errors of TREE_BUILD in their order; NODE, NLEAVES, NNODES, ROOT and the flags keep their values. -/
def Obligations.TreeBuildErrors : Prop :=
  ∀ s : State, s.freqWritten → Memory.wf alphabetSize s.freq →
    (s.presentSymbols = [] → exec .treeBuild s =
      .next { s with busy := false, done := true, ecode := some .emptyInput }) ∧
    (s.presentSymbols ≠ [] → 2 ^ 63 - 1 < s.freqTotal → exec .treeBuild s =
      .next { s with busy := false, done := true, ecode := some .weightOverflow })

/-- R485: TREE_BUILD's result is a function of the FREQ contents alone. -/
def Obligations.TreeBuildDependsOnFreqAlone : Prop :=
  ∀ s1 s2 t1 t2 : State, s1.freqWritten → Memory.wf alphabetSize s1.freq → Memory.wf alphabetSize s2.freq →
    (∀ i, i < alphabetSize → s2.freq.get? i = s1.freq.get? i) →
    exec .treeBuild s1 = .next t1 → exec .treeBuild s2 = .next t2 →
    t1.ecode = t2.ecode ∧
    (t1.ecode = none → t1.root = t2.root ∧ t1.nleaves = t2.nleaves ∧ t1.nnodes = t2.nnodes ∧
      ∀ a, a < t1.nnodes.toNat → t1.node.get? a = t2.node.get? a)

/-! ## The code table (44_codetable.md) -/

/-- R520, R521, R523: CODE_GEN on a tree with distinct symbols: every leaf symbol's code is its path, no other symbol has
one; RES0 = K, RES1 = the longest code. -/
def Obligations.CodeGenRecordsPaths : Prop :=
  ∀ (s : State) (tr : HTree), s.treeValid = true → s.TreeIs tr → tr.leaves ≤ alphabetSize →
    (tr.paths.map Prod.fst).Nodup →
    ∃ c, exec .codeGen s = .next { s with code := c, ctValid := true, res0 := word tr.leaves, res1 := word tr.depth,
                                          busy := false, done := true, ecode := none } ∧
      State.CodesAre { s with code := c } tr

/-- R521, R524: NO_TREE changes nothing; a symbol on two leaves raises INTERNAL_INVARIANT and leaves CT_VALID = 0. -/
def Obligations.CodeGenErrors : Prop :=
  ∀ s : State,
    (s.treeValid = false → exec .codeGen s =
      .next { s with busy := false, done := true, ecode := some .noTree }) ∧
    (∀ tr : HTree, s.treeValid = true → s.TreeIs tr → tr.leaves ≤ alphabetSize → ¬ (tr.paths.map Prod.fst).Nodup →
      ∃ c, exec .codeGen s = .next { s with code := c, ctValid := false, busy := false, done := true,
                                            ecode := some .internalInvariant })

/-- R522: the table CODE_GEN makes is prefix-free, for K >= 2 every code has a bit, and the codes' lengths satisfy
sum of 2^-len = 1. -/
def Obligations.CodeTableIsPrefixFree : Prop :=
  ∀ s t : State, s.Inv → exec .codeGen s = .next t → t.ecode = none →
    (∀ x y : Symbol, x ≠ y → (t.codeAt x.toNat).valid = true → (t.codeAt y.toNat).valid = true →
      ¬ (t.codeAt x.toNat).bits <+: (t.codeAt y.toNat).bits) ∧
    (2 ≤ t.nleaves.toNat → ∀ x : Symbol, (t.codeAt x.toNat).valid = true → 1 ≤ (t.codeAt x.toNat).bits.length) ∧
    ((List.range alphabetSize).map (fun x =>
      if (t.codeAt x).valid then (1 / 2 : ℚ) ^ (t.codeAt x).bits.length else 0)).sum = 1

/-- R525, R526: in every state a run can reach, while CT_VALID = 1, walking the tree from ROOT by the bits of a valid code
reaches a leaf with its symbol after exactly CODE[s].len bits, at most 65535. -/
def Obligations.CodesLeadToTheirLeaves : Prop :=
  ∀ (s : State) (x : Symbol), s.Inv → s.ctValid = true → (s.codeAt x.toNat).valid = true →
    let c := s.codeAt x.toNat
    let edge (n : Nat) (b : Bool) : Nat := (if b then (s.nodeAt n).right else (s.nodeAt n).left).toNat
    c.bits.length = c.len.toNat ∧ c.bits.length ≤ 65535 ∧
    (s.nodeAt (c.bits.foldl edge s.root.toNat)).leaf = true ∧
    (s.nodeAt (c.bits.foldl edge s.root.toNat)).sym = x ∧
    (∀ j, j < c.bits.length → (s.nodeAt ((c.bits.take j).foldl edge s.root.toNat)).leaf = false)

/-! ## Serializer and deserializer (45_serdes.md) -/

/-- R550, R551, R552: TREE_SER appends Pre(ROOT), T = 18K - 1 bits, when it fits; RES0 = T. -/
def Obligations.TreeSerAppendsPreorder : Prop :=
  ∀ (s : State) (tr : HTree), s.params.legal → s.WriterOk → s.treeValid = true → s.TreeIs tr →
    tr.leaves ≤ alphabetSize → s.bwNbits.toNat + (18 * tr.leaves - 1) ≤ 8 * s.params.byteCap →
    tr.pre.length = 18 * tr.leaves - 1 ∧
    ∃ n tl m, exec .treeSer s = .next { s with bwNbits := n, bwTail := tl, bytemem := m,
                                               res0 := word (18 * tr.leaves - 1), busy := false, done := true,
                                               ecode := none } ∧
      s.extendsBy { s with bwNbits := n, bwTail := tl, bytemem := m } tr.pre ∧
      s.bytemem.sameOutside m (s.bwNbits.toNat / 8) (n.toNat / 8)

/-- R552, R550, R711: NO_TREE changes nothing; where Pre(ROOT) does not fit, OUTPUT_OVERFLOW, with the fields before the
first one that does not fit appended and no result. -/
def Obligations.TreeSerErrors : Prop :=
  ∀ s : State,
    (s.treeValid = false → exec .treeSer s =
      .next { s with busy := false, done := true, ecode := some .noTree }) ∧
    (∀ tr : HTree, s.params.legal → s.WriterOk → s.treeValid = true → s.TreeIs tr → tr.leaves ≤ alphabetSize →
      8 * s.params.byteCap < s.bwNbits.toNat + (18 * tr.leaves - 1) →
      ∃ n tl m bs, exec .treeSer s = .next { s with bwNbits := n, bwTail := tl, bytemem := m, busy := false, done := true,
                                                    ecode := some .outputOverflow } ∧
        stopsAfter (8 * s.params.byteCap) s.bwNbits.toNat tr.fields bs ∧
        s.extendsBy { s with bwNbits := n, bwTail := tl, bytemem := m } bs ∧
        s.bytemem.sameOutside m (s.bwNbits.toNat / 8) (n.toNat / 8))

/-- R553, R554, R555: TREE_DESER on a slice that holds Pre(tr) from the cursor on rebuilds tr, indexes in pre-order from 0,
weights 0, and consumes exactly its 18K - 1 bits. -/
def Obligations.TreeDeserRebuildsTree : Prop :=
  ∀ (s : State) (tr : HTree), tr.leaves ≤ alphabetSize → s.bytemem.holds s.brPos.toNat tr.pre →
    s.brPos.toNat + tr.pre.length ≤ s.brLimit.toNat →
    ∃ nd : Memory NodeRec,
      exec .treeDeser s = .next { s with node := nd, root := 0, nleaves := BitVec.ofNat 17 tr.leaves,
                                         nnodes := BitVec.ofNat 17 (2 * tr.leaves - 1), treeValid := true,
                                         ctValid := false, brPos := word (s.brPos.toNat + tr.pre.length),
                                         res0 := word (18 * tr.leaves - 1), res1 := word tr.leaves, busy := false,
                                         done := true, ecode := none } ∧
      Holds nd.nodeAt 0 tr ∧
      indexes nd.nodeAt 0 tr = List.range (2 * tr.leaves - 1) ∧
      (∀ a, a < 2 * tr.leaves - 1 → (nd.nodeAt a).w = 0) ∧
      (∀ a, 2 * tr.leaves - 1 ≤ a → nd.get? a = s.node.get? a)

/-- R553, R555: a TREE_DESER that fails raises MALFORMED_CONTAINER and leaves no tree: TREE_VALID = CT_VALID = 0 and
NLEAVES = NNODES = ROOT = 0; the cursor has not passed the limit. Where the slice holds the first reads of a tree's
serialization (a tag, or the 16 bits of a symbol, R553): if it ends inside the next read, the cursor stays after the last one;
if 131071 nodes exist and the next read is one more tag, the cursor stays after that tag. A slice of only zero bits meets
whichever comes first. -/
def Obligations.TreeDeserFailureLeavesNoTree : Prop :=
  (∀ s t : State, s.ReaderOk → exec .treeDeser s = .next t → t.ecode ≠ none →
    t.ecode = some .malformedContainer ∧ t.treeValid = false ∧ t.ctValid = false ∧ t.nleaves = 0 ∧ t.nnodes = 0 ∧
    t.root = 0 ∧ s.brPos.toNat ≤ t.brPos.toNat ∧ t.brPos.toNat ≤ t.brLimit.toNat ∧ t.brLimit = s.brLimit) ∧
  (∀ s : State,
    let failsAt (p : Nat) : Prop := ∃ nd, exec .treeDeser s = .next { s with
      node := nd, root := 0, nleaves := 0, nnodes := 0, treeValid := false, ctValid := false, brPos := word p
      busy := false, done := true, ecode := some .malformedContainer }
    (∀ (tr : HTree) (before : List Bits) (next : Bits) (after : List Bits), tr.reads = before ++ next :: after →
      s.bytemem.holds s.brPos.toNat before.flatten → s.brPos.toNat + before.flatten.length ≤ s.brLimit.toNat →
      (tagsIn before ≤ nodeCap → s.brLimit.toNat < s.brPos.toNat + before.flatten.length + next.length →
        failsAt (s.brPos.toNat + before.flatten.length)) ∧
      (tagsIn before = nodeCap → next.length = 1 → s.bytemem.holds (s.brPos.toNat + before.flatten.length) next →
        s.brPos.toNat + before.flatten.length + 1 ≤ s.brLimit.toNat →
        failsAt (s.brPos.toNat + before.flatten.length + 1))) ∧
    (let n := min (s.brLimit.toNat - s.brPos.toNat) (nodeCap + 1)
     s.bytemem.holds s.brPos.toNat (List.replicate n false) → failsAt (s.brPos.toNat + n)))

/-- R556: TREE_DESER at the place where TREE_SER wrote a tree reads it back: as many bits, the same shape and leaf symbols,
indexes in pre-order from 0, weights 0. (The reader's registers are set to the place by hand.) -/
def Obligations.TreeDeserReadsWhatTreeSerWrote : Prop :=
  ∀ (s t u : State) (tr : HTree), s.Inv → s.TreeIs tr → exec .treeSer s = .next t → t.ecode = none →
    exec .bwFinal t = .next u →
    ∃ v, exec .treeDeser { u with brPos := s.bwNbits, brLimit := word (8 * u.res0.toNat) } = .next v ∧ v.ecode = none ∧
      v.res0 = t.res0 ∧ v.res1 = word tr.leaves ∧ v.treeValid = true ∧ v.TreeIs tr ∧ v.root = 0 ∧
      indexes v.nodeAt 0 tr = List.range (2 * tr.leaves - 1) ∧
      (∀ a, a < 2 * tr.leaves - 1 → (v.nodeAt a).w = 0)

/-! ## Encoder, decoder, driver (46_codec.md) -/

/-- R580, R581, R582, R320: ENCODE on written input every symbol of which has a code, where the container fits: BYTEMEM
holds exactly the container from byte 0 on, RES0 its bytes, RES1 its padding; the bytes after it are unchanged. -/
def Obligations.EncodeWritesContainer : Prop :=
  ∀ (s : State) (tr : HTree) (syms : List Symbol), s.params.legal → s.inputIs syms → syms ≠ [] →
    syms.length ≤ s.params.symCap → s.treeValid = true → s.ctValid = true → s.TreeIs tr → tr.leaves ≤ alphabetSize →
    (∀ x ∈ syms, (s.codeAt x.toNat).valid = true) →
    let bits := containerBits tr (syms.map (fun x => (s.codeAt x.toNat).bits))
    let p := padTo8 bits.length
    bits.length ≤ 8 * s.params.byteCap →
    ∃ m, exec .encode s = .next { s with bwNbits := word (bits.length + p), bwTail := 0, bytemem := m,
                                         res0 := word ((bits.length + p) / 8), res1 := word p, busy := false,
                                         done := true, ecode := none } ∧
      m.holds 0 (bits ++ List.replicate p false) ∧
      s.bytemem.sameOutside m 0 ((bits.length + p) / 8)

/-- R580, R615, R712: the checks ENCODE and ENC_ALL make before they write, in their order; each leaves everything else
unchanged. -/
def Obligations.EncodersCheckInOrder : Prop :=
  ∀ s : State,
    (∀ i, i = .encode ∨ i = .encAll →
      (s.nsym = 0 → exec i s = .next { s with busy := false, done := true, ecode := some .emptyInput }) ∧
      (s.nsym ≠ 0 → s.params.symCap < s.nsym.toNat →
        exec i s = .next { s with busy := false, done := true, ecode := some .badArgument })) ∧
    (s.nsym ≠ 0 → s.nsym.toNat ≤ s.params.symCap → s.treeValid = false →
      exec .encode s = .next { s with busy := false, done := true, ecode := some .noTree }) ∧
    (s.nsym ≠ 0 → s.nsym.toNat ≤ s.params.symCap → s.treeValid = true → s.ctValid = false →
      exec .encode s = .next { s with busy := false, done := true, ecode := some .noCodeTable })

/-- R580, 92_eei_decisions.md D45: the first input symbol without a code raises INTERNAL_INVARIANT after the tree, the
length and the codes before it were appended. -/
def Obligations.EncodeStopsAtMissingCode : Prop :=
  ∀ (s : State) (tr : HTree) (before : List Symbol) (x : Symbol) (after : List Symbol), s.params.legal →
    s.inputIs (before ++ x :: after) → (before ++ x :: after).length ≤ s.params.symCap → s.treeValid = true →
    s.ctValid = true → s.TreeIs tr → tr.leaves ≤ alphabetSize →
    (∀ y ∈ before, (s.codeAt y.toNat).valid = true) → (s.codeAt x.toNat).valid = false →
    let bits := tr.pre ++ bitsOf 32 s.nsym.toNat ++ (before.map (fun y => (s.codeAt y.toNat).bits)).flatten
    bits.length ≤ 8 * s.params.byteCap →
    ∃ n tl m, exec .encode s = .next { s with bwNbits := n, bwTail := tl, bytemem := m, busy := false, done := true,
                                              ecode := some .internalInvariant } ∧
      State.extendsBy { s with bwNbits := 0, bwTail := 0 } { s with bwNbits := n, bwTail := tl, bytemem := m } bits ∧
      s.bytemem.sameOutside m 0 (n.toNat / 8)

/-- R580, R420, R711: where the tree, the length and the codes of the first symbols of a written input do not fit, whether the
symbols after them have codes or not, ENCODE raises OUTPUT_OVERFLOW with the fields before the first one that does not fit
appended and no result. -/
def Obligations.EncodeOverflowKeepsFieldsBefore : Prop :=
  ∀ (s : State) (tr : HTree) (coded others : List Symbol), s.params.legal → s.inputIs (coded ++ others) →
    coded ++ others ≠ [] → (coded ++ others).length ≤ s.params.symCap → s.treeValid = true → s.ctValid = true →
    s.TreeIs tr → tr.leaves ≤ alphabetSize → (∀ x ∈ coded, (s.codeAt x.toNat).valid = true) →
    let fields := tr.fields ++ [bitsOf 32 (coded ++ others).length] ++ coded.map (fun x => (s.codeAt x.toNat).bits)
    8 * s.params.byteCap < fields.flatten.length →
    ∃ n tl m bs, exec .encode s = .next { s with bwNbits := n, bwTail := tl, bytemem := m, busy := false, done := true,
                                                 ecode := some .outputOverflow } ∧
      stopsAfter (8 * s.params.byteCap) 0 fields bs ∧
      State.extendsBy { s with bwNbits := 0, bwTail := 0 } { s with bwNbits := n, bwTail := tl, bytemem := m } bs ∧
      s.bytemem.sameOutside m 0 (n.toNat / 8)

/-- R600, R324: DECODE of a slice that holds the container of tr and of a sequence of its leaves' codes delivers the leaves'
symbols in order; RES0 = N, RES1 the bits read; whatever follows is ignored. -/
def Obligations.DecodeReadsContainer : Prop :=
  ∀ (s : State) (tr : HTree) (picks : List (Symbol × Bits)), s.params.legal → s.brlen.toNat ≤ s.params.byteCap →
    tr.leaves ≤ alphabetSize → (∀ c ∈ picks, c ∈ tr.paths) → picks.length ≤ s.params.symCap →
    let bits := containerBits tr (picks.map Prod.snd)
    bits.length ≤ 8 * s.brlen.toNat → s.bytemem.holds 0 bits →
    ∃ nd so, exec .decode s = .next { s with node := nd, root := 0, nleaves := BitVec.ofNat 17 tr.leaves,
                                             nnodes := BitVec.ofNat 17 (2 * tr.leaves - 1), treeValid := true,
                                             ctValid := false, brPos := word bits.length,
                                             brLimit := word (8 * s.brlen.toNat), symout := so,
                                             outN := word picks.length, res0 := word picks.length,
                                             res1 := word bits.length, busy := false, done := true, ecode := none } ∧
      Holds nd.nodeAt 0 tr ∧
      (∀ i, i < picks.length → so.get? i = (picks.map Prod.fst)[i]?) ∧
      (∀ i, picks.length ≤ i → so.get? i = s.symout.get? i)

/-- R600, R602: DECODE always ends; on every error OUT_N = 0 and RES0, RES1 are unchanged, and a success delivers
OUT_N = RES0 symbols. The errors in their order: BRLEN > BYTE_CAP; the tree (all that TREE_DESER then leaves on a fresh
reader, with OUT_N = 0); fewer than 32 bits left for the length; a length above SYM_CAP, before any symbol is written; the
slice ends inside a code, with the symbols before it in SYMOUT. From the length on the tree stays, with TREE_VALID = 1. -/
def Obligations.DecodeFailureDeliversNothing : Prop :=
  ∀ s : State, s.params.legal →
    (∃ t, exec .decode s = .next t ∧
      (t.ecode ≠ none → t.outN = 0 ∧ s.SameResults t) ∧
      (t.ecode = none → t.outN = t.res0 ∧ t.outN.toNat ≤ s.params.symCap ∧ t.res1 = t.brPos ∧
        ∀ i, i < t.outN.toNat → (t.symout.get? i).isSome)) ∧
    (s.params.byteCap < s.brlen.toNat → exec .decode s =
      .next { s with outN := 0, busy := false, done := true, ecode := some .badArgument }) ∧
    (s.brlen.toNat ≤ s.params.byteCap →
      (∀ t, exec .treeDeser { s with brPos := 0, brLimit := word (8 * s.brlen.toNat), outN := 0 } = .next t →
        t.ecode ≠ none → exec .decode s = .next t) ∧
      ∀ tr : HTree, tr.leaves ≤ alphabetSize → s.bytemem.holds 0 tr.pre → tr.pre.length ≤ 8 * s.brlen.toNat →
        let failsWith (e : Err) (p : Nat) (so : Memory Symbol) : Prop := ∃ nd, exec .decode s = .next { s with
          node := nd, root := 0, nleaves := BitVec.ofNat 17 tr.leaves, nnodes := BitVec.ofNat 17 (2 * tr.leaves - 1)
          treeValid := true, ctValid := false, brPos := word p, brLimit := word (8 * s.brlen.toNat), symout := so
          outN := 0, busy := false, done := true, ecode := some e } ∧ Holds nd.nodeAt 0 tr
        (8 * s.brlen.toNat < tr.pre.length + 32 → failsWith .malformedContainer tr.pre.length s.symout) ∧
        ∀ n : Nat, n < 2 ^ 32 → s.bytemem.holds tr.pre.length (bitsOf 32 n) →
          (tr.pre.length + 32 ≤ 8 * s.brlen.toNat → s.params.symCap < n →
            failsWith .outputOverflow (tr.pre.length + 32) s.symout) ∧
          (∀ (picks : List (Symbol × Bits)) (inner : Bits), n ≤ s.params.symCap → picks.length < n →
            (∀ c ∈ picks, c ∈ tr.paths) → (∃ c ∈ tr.paths, inner <+: c.2 ∧ inner ≠ c.2) →
            s.bytemem.holds (tr.pre.length + 32) ((picks.map Prod.snd).flatten ++ inner) →
            tr.pre.length + 32 + ((picks.map Prod.snd).flatten ++ inner).length = 8 * s.brlen.toNat →
            ∃ so, failsWith .malformedContainer (8 * s.brlen.toNat) so ∧
              (∀ i, i < picks.length → so.get? i = (picks.map Prod.fst)[i]?) ∧
              (∀ i, picks.length ≤ i → so.get? i = s.symout.get? i)))

/-- R615, R616, R711: ENC_ALL on written input of 1 to SYM_CAP symbols. FREQ holds the counts, NODE and CODE a tree of exactly
the input's symbols and its table, both flags 1. If the container of that tree fits, BYTEMEM holds it, with ENCODE's results;
if not, OUTPUT_OVERFLOW with the fields before the first one that does not fit appended and no result. -/
def Obligations.EncAllWritesContainer : Prop :=
  ∀ (s : State) (syms : List Symbol), s.params.legal → s.inputIs syms → syms ≠ [] →
    syms.length ≤ s.params.symCap →
    ∃ (t : State) (tr : HTree), exec .encAll s = .next t ∧ t.treeValid = true ∧ t.ctValid = true ∧
      t.TreeIs tr ∧ t.CodesAre tr ∧ (∀ x, x ∈ tr.paths.map Prod.fst ↔ x ∈ syms) ∧
      (∀ x : Symbol, t.freq.get? x.toNat = some (BitVec.ofNat 64 (syms.count x))) ∧
      s.SameHostState t ∧ s.SameReader t ∧ t.symout = s.symout ∧ t.outN = s.outN ∧ t.draws = s.draws ∧
      (let codes := syms.map (fun x => (t.codeAt x.toNat).bits)
       let bits := containerBits tr codes
       let p := padTo8 bits.length
       (bits.length ≤ 8 * s.params.byteCap →
         t.ecode = none ∧ t.bytemem.holds 0 (bits ++ List.replicate p false) ∧ t.res0 = word ((bits.length + p) / 8) ∧
         t.res1 = word p ∧ t.bwNbits = word (bits.length + p) ∧ t.bwTail = 0 ∧
         s.bytemem.sameOutside t.bytemem 0 ((bits.length + p) / 8)) ∧
       (8 * s.params.byteCap < bits.length →
         t.ecode = some .outputOverflow ∧ s.SameResults t ∧
         ∃ bs, stopsAfter (8 * s.params.byteCap) 0 (containerFields tr codes) bs ∧
           State.extendsBy { s with bwNbits := 0, bwTail := 0 } t bs ∧
           s.bytemem.sameOutside t.bytemem 0 (t.bwNbits.toNat / 8)))

/-- R325, R582: the container of an input of one distinct symbol is 7 bytes, whatever N is. -/
def Obligations.SingleSymbolContainerIsSevenBytes : Prop :=
  ∀ (s : State) (x : Symbol) (n : Nat), s.params.legal → s.inputIs (List.replicate n x) → 0 < n →
    n ≤ s.params.symCap →
    ∃ t, exec .encAll s = .next t ∧ t.ecode = none ∧ t.res0 = 7 ∧ t.res1 = 7 ∧ t.nleaves = 1 ∧
      t.bytemem.holds 0 (true :: (bitsOf 16 x.toNat ++ bitsOf 32 n ++ List.replicate 7 false))

/-- R601: for every non-empty finite symbol sequence S, decode(encode(S)) = S. -/
def Obligations.DecodeOfEncodeIsInput : Prop :=
  ∀ (s t : State) (syms : List Symbol), s.params.legal → s.inputIs syms → exec .encAll s = .next t → t.ecode = none →
    ∃ v, exec .decode { t with brlen := t.res0 } = .next v ∧ v.ecode = none ∧ v.outN = s.nsym ∧ v.res0 = s.nsym ∧
      v.res1.toNat = 8 * t.res0.toNat - t.res1.toNat ∧
      ∀ i, i < syms.length → v.symout.get? i = syms[i]?

/-- R622: ENC_ALL is a pure function of its written input and the parameters. -/
def Obligations.EncAllDependsOnInputAlone : Prop :=
  ∀ (s1 s2 t1 t2 : State) (syms : List Symbol), s1.params.legal → s1.params = s2.params → s1.inputIs syms → s2.inputIs syms →
    exec .encAll s1 = .next t1 → exec .encAll s2 = .next t2 →
    t1.ecode = t2.ecode ∧
    (t1.ecode = none → t1.res0 = t2.res0 ∧ t1.res1 = t2.res1 ∧
      ∀ a, a < t1.res0.toNat → t1.bytemem.get? a = t2.bytemem.get? a)

/-- R622: DECODE is a pure function of BRLEN, its written slice and the parameters. -/
def Obligations.DecodeDependsOnSliceAlone : Prop :=
  ∀ s1 s2 t1 t2 : State, s1.params.legal → s1.params = s2.params → s1.brlen = s2.brlen →
    (∀ a, a < s1.brlen.toNat → (s1.bytemem.get? a).isSome ∧ s2.bytemem.get? a = s1.bytemem.get? a) →
    exec .decode s1 = .next t1 → exec .decode s2 = .next t2 →
    t1.ecode = t2.ecode ∧ t1.outN = t2.outN ∧ (t1.ecode = none → t1.res0 = t2.res0 ∧ t1.res1 = t2.res1) ∧
    ∀ i, i < t1.outN.toNat → t1.symout.get? i = t2.symout.get? i

/-! ## The register port (10_state.md, 20_memory.md, 70_reset_and_hazards.md) -/

/-- R102 to R127: what an idle read of each register other than MDATA returns; it changes nothing (R209). -/
def Obligations.IdleReadsReturnRegisters : Prop :=
  ∀ (s : State) (rest : List Event) (off : Nat) (v : Word), s.busy = false →
    s.pending = .host ⟨off, 4, .read⟩ :: rest →
    (off, v) ∈ [(0x00, 0x48434331#32), (0x04, 0#30 ++ BitVec.ofBool s.ie ++ 0#1), (0x08, s.statusWord), (0x0C, 0#32),
                (0x10, s.arg0), (0x14, s.nsym), (0x18, s.brlen), (0x1C, s.res0), (0x20, s.res1)] ++
               [(0x24, s.nleaves.setWidth 32), (0x28, s.nnodes.setWidth 32), (0x2C, s.root.setWidth 32),
                (0x30, s.bwNbits), (0x34, 0#16 ++ s.bwTail ++ 0#5 ++ s.bwNbits.extractLsb' 0 3), (0x38, s.brPos),
                (0x3C, s.brLimit), (0x40, s.outN), (0x44, s.msel.setWidth 32), (0x48, s.maddr),
                (0x50, word s.params.symCap), (0x54, (BitVec.ofNat 29 s.params.byteCap).setWidth 32)] ∨
      (off % 4 = 0 ∧ 0x58 ≤ off ∧ off ≤ 0x7C ∧ v = 0) →
    step s = .next { s with pending := rest, rdata := v }

/-- R105, R702: the bits of STATUS, and the number of each error code in ECODE. -/
def Obligations.StatusBitsAreTheFlags : Prop :=
  ∀ s : State,
    let number : BitVec 4 := match s.ecode with
      | none => 0
      | some .emptyInput => 1
      | some .malformedContainer => 2
      | some .internalInvariant => 3
      | some .illegalCommand => 4
      | some .badArgument => 5
      | some .noTree => 6
      | some .noCodeTable => 7
      | some .outputOverflow => 8
      | some .weightOverflow => 9
    s.statusWord.extractLsb' 8 4 = number ∧
    ∀ j : Nat, s.statusWord.getLsbD j =
      if j = 0 then s.busy
      else if j = 1 then s.done
      else if j = 2 then decide (number ≠ 0)
      else if j = 3 then s.haz
      else if 8 ≤ j ∧ j ≤ 11 then number.getLsbD (j - 8)
      else if j = 16 then s.treeValid
      else if j = 17 then s.ctValid
      else false

/-- R104, R105, R110 to R112, R122, R123, R401: idle writes of the writable registers. -/
def Obligations.IdleWritesSetRegisters : Prop :=
  ∀ (s : State) (rest : List Event) (off : Nat) (v : Word) (t : State), s.busy = false →
    s.pending = .host ⟨off, 4, .write v⟩ :: rest →
    (off, t) ∈ [(0x08, { s with pending := rest, done := s.done && !v.getLsbD 1, haz := s.haz && !v.getLsbD 3 }),
                (0x0C, { s with pending := rest, cmdl := v, busy := true, done := false }),
                (0x10, { s with pending := rest, arg0 := v }), (0x14, { s with pending := rest, nsym := v }),
                (0x18, { s with pending := rest, brlen := v }),
                (0x44, { s with pending := rest, msel := v.extractLsb' 0 4 }),
                (0x48, { s with pending := rest, maddr := v })] ∨
      (off = 0x04 ∧ v.getLsbD 0 = false ∧ t = { s with pending := rest, ie := v.getLsbD 1 }) ∨
      ((off ∈ [0x00, 0x1C, 0x20, 0x24, 0x28, 0x2C, 0x30, 0x34, 0x38, 0x3C, 0x40, 0x50, 0x54] ∨
          (off % 4 = 0 ∧ 0x58 ≤ off ∧ off ≤ 0x7C)) ∧ t = { s with pending := rest }) →
    step s = .next t

/-- R830: while BUSY = 1 an access to 0x0C .. 0x54 sets HAZ; a write is dropped, a read returns some word and changes
nothing. -/
def Obligations.HazardAccessSetsHazOnly : Prop :=
  ∀ (s : State) (rest : List Event) (off : Nat), s.busy = true → off % 4 = 0 → 0x0C ≤ off → off ≤ 0x54 →
    (∀ v, s.pending = .host ⟨off, 4, .write v⟩ :: rest → step s = .next { s with pending := rest, haz := true }) ∧
    (s.pending = .host ⟨off, 4, .read⟩ :: rest →
      ∃ v d, step s = .next { s with pending := rest, haz := true, rdata := v, draws := d })

/-- R830, R127: while BUSY = 1 accesses to ID, CTRL, STATUS and the reserved offsets behave as when idle and set no HAZ. -/
def Obligations.BusyAccessOutsideHazardRange : Prop :=
  ∀ (s : State) (rest : List Event) (off : Nat), s.busy = true → off % 4 = 0 →
    off = 0x00 ∨ off = 0x04 ∨ off = 0x08 ∨ (0x58 ≤ off ∧ off ≤ 0x7C) →
    (s.pending = .host ⟨off, 4, .read⟩ :: rest →
      step s = .next { s with pending := rest,
                              rdata := if off = 0x00 then 0x48434331#32 else if off = 0x04 then 0#30 ++ BitVec.ofBool s.ie ++ 0#1
                                       else if off = 0x08 then s.statusWord else 0 }) ∧
    (∀ v, s.pending = .host ⟨off, 4, .write v⟩ :: rest → (off = 0x04 → v.getLsbD 0 = false) →
      step s = .next (if off = 0x04 then { s with pending := rest, ie := v.getLsbD 1 }
                      else if off = 0x08 then
                        { s with pending := rest, done := s.done && !v.getLsbD 1, haz := s.haz && !v.getLsbD 3 }
                      else { s with pending := rest }))

/-- R205, R207: an access of another width, off a multiple of 4, or outside the 128 bytes is refused. -/
def Obligations.AccessOutsideInterfaceIsRefused : Prop :=
  ∀ (s : State) (a : Access) (rest : List Event), s.pending = .host a :: rest →
    (a.bytes ≠ 4 ∨ a.offset % 4 ≠ 0 → step s = .refused .accessNotAlignedWord) ∧
    (a.bytes = 4 → a.offset % 4 = 0 → 0x80 ≤ a.offset → step s = .refused .accessOutsideWindow)

/-- R210 to R217: an idle MDATA write of a writable view sets the entry at MADDR, as far as the view reaches it, and adds 1
to MADDR; every other entry keeps its value. -/
def Obligations.WindowWriteSetsEntry : Prop :=
  ∀ (s : State) (rest : List Event) (v : Word), s.busy = false → s.pending = .host ⟨0x4C, 4, .write v⟩ :: rest →
    let a := s.maddr.toNat
    (s.msel = 0 → a < s.params.symCap → ∃ m, step s = .next { s with pending := rest, maddr := s.maddr + 1, symin := m } ∧
      m.get? a = some (v.extractLsb' 0 16) ∧ s.symin.sameOutside m a (a + 1)) ∧
    (s.msel = 1 → a < s.params.symCap → ∃ m, step s = .next { s with pending := rest, maddr := s.maddr + 1, symout := m } ∧
      m.get? a = some (v.extractLsb' 0 16) ∧ s.symout.sameOutside m a (a + 1)) ∧
    (s.msel = 2 → a < s.params.byteCap → ∃ m, step s = .next { s with pending := rest, maddr := s.maddr + 1, bytemem := m } ∧
      m.get? a = some (v.extractLsb' 0 8) ∧ s.bytemem.sameOutside m a (a + 1)) ∧
    (∀ f, s.msel = 3 → a < alphabetSize → s.freq.get? a = some f →
      ∃ m, step s = .next { s with pending := rest, maddr := s.maddr + 1, freq := m } ∧
        m.get? a = some (f.extractLsb' 32 32 ++ v) ∧ s.freq.sameOutside m a (a + 1)) ∧
    (∀ f, s.msel = 4 → a < alphabetSize → s.freq.get? a = some f →
      ∃ m, step s = .next { s with pending := rest, maddr := s.maddr + 1, freq := m } ∧
        m.get? a = some (v ++ f.extractLsb' 0 32) ∧ s.freq.sameOutside m a (a + 1))

/-- R211, R212: an idle MDATA write to a read-only or reserved view, or outside a view's range, only adds 1 to MADDR. -/
def Obligations.WindowWriteIgnored : Prop :=
  ∀ (s : State) (rest : List Event) (v : Word), s.busy = false → s.pending = .host ⟨0x4C, 4, .write v⟩ :: rest →
    5 ≤ s.msel.toNat ∨ ((s.msel = 0 ∨ s.msel = 1) ∧ s.params.symCap ≤ s.maddr.toNat) ∨
      (s.msel = 2 ∧ s.params.byteCap ≤ s.maddr.toNat) ∨
      ((s.msel = 3 ∨ s.msel = 4) ∧ alphabetSize ≤ s.maddr.toNat) →
    step s = .next { s with pending := rest, maddr := s.maddr + 1 }

/-- R210 to R219: an idle MDATA read returns the view's data word and adds 1 to MADDR. -/
def Obligations.WindowReadReturnsEntry : Prop :=
  ∀ (s : State) (rest : List Event) (v : Word), s.busy = false → s.pending = .host ⟨0x4C, 4, .read⟩ :: rest →
    let a := s.maddr.toNat
    let nodeWord (f : NodeRec → Word) : Word :=
      if s.treeValid = true ∧ a < s.nnodes.toNat then f (s.nodeAt a) else 0
    ((∃ x : Symbol, s.msel = 0 ∧ a < s.params.symCap ∧ s.symin.get? a = some x ∧ v = x.setWidth 32) ∨
     (∃ x : Symbol, s.msel = 1 ∧ a < s.params.symCap ∧ s.symout.get? a = some x ∧ v = x.setWidth 32) ∨
     (∃ x : Byte, s.msel = 2 ∧ a < s.params.byteCap ∧ s.bytemem.get? a = some x ∧ v = x.setWidth 32) ∨
     (∃ x : Weight, s.msel = 3 ∧ a < alphabetSize ∧ s.freq.get? a = some x ∧ v = x.extractLsb' 0 32) ∨
     (∃ x : Weight, s.msel = 4 ∧ a < alphabetSize ∧ s.freq.get? a = some x ∧ v = x.extractLsb' 32 32) ∨
     (a < nodeCap ∧
       ((s.msel = 5 ∧ v = nodeWord (fun r => BitVec.ofBool r.leaf ++ 0#15 ++ r.sym)) ∨
        (s.msel = 6 ∧ v = nodeWord (fun r => r.left.setWidth 32)) ∨
        (s.msel = 7 ∧ v = nodeWord (fun r => r.right.setWidth 32)) ∨
        (s.msel = 8 ∧ v = nodeWord (fun r => r.w.extractLsb' 0 32)) ∨
        (s.msel = 9 ∧ v = nodeWord (fun r => r.w.extractLsb' 32 32)))) ∨
     (v = 0 ∧ (12 ≤ s.msel.toNat ∨ (s.msel.toNat < 2 ∧ s.params.symCap ≤ a) ∨ (s.msel = 2 ∧ s.params.byteCap ≤ a) ∨
       ((s.msel = 3 ∨ s.msel = 4 ∨ s.msel = 10) ∧ alphabetSize ≤ a) ∨
       (5 ≤ s.msel.toNat ∧ s.msel.toNat ≤ 9 ∧ nodeCap ≤ a) ∨ (s.msel = 11 ∧ 2 ^ 27 ≤ a)))) →
    step s = .next { s with pending := rest, maddr := s.maddr + 1, rdata := v }

/-- R220, R221, R222: the code views: bit 31 and the length for a valid code; bit 31 - k of word j is code bit 32 j + k;
0 while CT_VALID = 0 and for an absent symbol. -/
def Obligations.CodeViewsReadTheTable : Prop :=
  ∀ (s : State) (rest : List Event) (v : Word), s.busy = false → s.pending = .host ⟨0x4C, 4, .read⟩ :: rest →
    let a := s.maddr.toNat
    let c := s.codeAt (a / 2 ^ 11)
    ((s.msel = 10 ∧ a < alphabetSize ∧
        v = if s.ctValid = true ∧ (s.codeAt a).valid = true then 1#1 ++ 0#15 ++ (s.codeAt a).len else 0) ∨
      (s.msel = 11 ∧ a < 2 ^ 27 ∧ ∀ k, k < 32 → v.getLsbD (31 - k) =
        (s.ctValid && c.valid && decide (32 * (a % 2 ^ 11) + k < c.len.toNat)
          && c.bits.getD (32 * (a % 2 ^ 11) + k) false))) →
    step s = .next { s with pending := rest, maddr := s.maddr + 1, rdata := v }

/-- R802, R803, R190: a soft reset gives every register its reset value; SYMIN, SYMOUT, BYTEMEM and FREQ keep their contents,
but for those the aborted command may write, whose entries may then hold any value (logs 3, 6, 12: NODE, CODE and the model's
own fields). -/
def Obligations.SoftResetKeepsMemories : Prop :=
  ∀ (s : State) (rest : List Event) (v : Word), s.pending = .host ⟨0x04, 4, .write v⟩ :: rest → v.getLsbD 0 = true →
    let after (so : Memory Symbol) (bm : Memory Byte) (fr : Memory Weight) : State :=
      { State.resetWith s.params with
        symin := s.symin, symout := so, bytemem := bm, freq := fr, node := s.node, code := s.code,
        pending := rest, rdata := s.rdata, draws := s.draws }
    let runs (i : Instr) : Prop := s.busy = true ∧ Sys2Proof.decode s.cmdl = .ok i
    (s.busy = false ∨ (∃ e, Sys2Proof.decode s.cmdl = .error e) ∨
      (∃ i ∈ [Instr.nop, .bwInit, .brInit, .brGet1, .treeBuild, .codeGen, .treeDeser], runs i) ∨
      (∃ w, runs (.brGetN w)) →
      step s = .next (after s.symout s.bytemem s.freq)) ∧
    ((∃ b, runs (.bwPut1 b)) ∨ (∃ w, runs (.bwPutN w)) ∨ runs .bwFinal ∨ runs .treeSer ∨ runs .encode →
      step s = .next (after s.symout Memory.unknown s.freq)) ∧
    (runs .freqClr ∨ runs .freqCount → step s = .next (after s.symout s.bytemem Memory.unknown)) ∧
    (runs .encAll → step s = .next (after s.symout Memory.unknown Memory.unknown)) ∧
    (runs .decode → step s = .next (after Memory.unknown s.bytemem s.freq))

/-- R190, R801: after the power-on reset every register is 0, no entry of SYMIN, SYMOUT, BYTEMEM and FREQ is written, and irq
is 0; the power-on reset input brings the block there from any state (log 12: the model's own fields stay). -/
def Obligations.PowerOnResetValues : Prop :=
  ∀ (p : Params) (s : State),
    (s = State.resetWith p →
      s.ie = false ∧ s.statusWord = 0 ∧ s.irq = false ∧ s.cmdl = 0 ∧ s.arg0 = 0 ∧ s.nsym = 0 ∧ s.brlen = 0 ∧
      s.res0 = 0 ∧ s.res1 = 0 ∧ s.nleaves = 0 ∧ s.nnodes = 0 ∧ s.root = 0 ∧ s.bwNbits = 0 ∧ s.bwTail = 0 ∧
      s.brPos = 0 ∧ s.brLimit = 0 ∧ s.outN = 0 ∧ s.msel = 0 ∧ s.maddr = 0 ∧
      ∀ a, s.symin.get? a = none ∧ s.symout.get? a = none ∧ s.bytemem.get? a = none ∧ s.freq.get? a = none) ∧
    (∀ rest, s.pending = .powerOn :: rest →
      step s = .next { State.resetWith s.params with pending := rest, rdata := s.rdata, draws := s.draws })

/-! ## Whole-machine rules -/

/-- R105, R106, R107, R830, R835: which steps change BUSY, DONE, ECODE, HAZ, TREE_VALID and CT_VALID; HAZ rises only by an
access to the offsets 0x0C to 0x54 while BUSY = 1. -/
def Obligations.StatusChangesOnlyAsStated : Prop :=
  ∀ s t : State, step s = .next t →
    let engineMoves : Prop := s.busy = true ∧ (s.pending = [] ∨ ∃ rest, s.pending = .engine :: rest)
    let writes (off : Nat) (p : Word → Prop) : Prop := ∃ v rest, p v ∧ s.pending = .host ⟨off, 4, .write v⟩ :: rest
    let resets : Prop := (∃ rest, s.pending = .powerOn :: rest) ∨ writes 0x04 (fun v => v.getLsbD 0 = true)
    let issues : Prop := s.busy = false ∧ writes 0x0C (fun _ => True)
    (s.busy = false → t.busy = true → issues) ∧
    (s.busy = true → t.busy = false → engineMoves ∨ resets) ∧
    (s.done = false → t.done = true → engineMoves) ∧
    (s.done = true → t.done = false → issues ∨ writes 0x08 (fun v => v.getLsbD 1 = true) ∨ resets) ∧
    (t.ecode ≠ s.ecode → engineMoves ∨ resets) ∧
    (s.haz = false → t.haz = true → s.busy = true ∧ ∃ a rest, s.pending = .host a :: rest ∧ 0x0C ≤ a.offset ∧
      a.offset ≤ 0x54) ∧
    (s.haz = true → t.haz = false → writes 0x08 (fun v => v.getLsbD 3 = true) ∨ resets) ∧
    (t.treeValid ≠ s.treeValid ∨ t.ctValid ≠ s.ctValid → engineMoves ∨ resets)

/-- 10_state.md R108, R114 to R121, R141; 20_memory.md R201: the invariant holds right after reset, for every legal
SYM_CAP and BYTE_CAP. -/
def Obligations.ResetMeetsInvariant : Prop :=
  State.reset.Inv ∧ ∀ p : Params, p.legal → (State.resetWith p).Inv

/-- 10_state.md R108, R114 to R121, R141; 20_memory.md R201: every step, the host's and the engine's, from every state that
meets the invariant, gives a state that meets it. -/
def Obligations.EveryStepKeepsInvariant : Prop :=
  ∀ s t : State, s.Inv → step s = .next t → t.Inv
end

