-- ==== Sys2Proof/Laws/Bits.lean ====
section
/-! SUPPORT. The laws of bit strings: u_w and val are inverse to each other, and the bits of a byte. -/

namespace Sys2Proof.Machine

@[simp] theorem bitsOf_length (w v : Nat) : (bitsOf w v).length = w := by
  induction w with
  | zero => rfl
  | succ w ih => simp [bitsOf, ih]

theorem valOf_foldl (bs : Bits) (a : Nat) :
    bs.foldl (fun v b => 2 * v + b.toNat) a = a * 2 ^ bs.length + valOf bs := by
  induction bs generalizing a with
  | nil => simp [valOf]
  | cons b bs ih =>
    simp only [valOf, List.foldl_cons, List.length_cons, pow_succ]
    rw [ih, ih]
    ring

@[simp] theorem valOf_nil : valOf [] = 0 := rfl

theorem valOf_cons (b : Bool) (bs : Bits) : valOf (b :: bs) = b.toNat * 2 ^ bs.length + valOf bs := by
  simp only [valOf, List.foldl_cons]
  rw [valOf_foldl]
  simp [valOf]

theorem valOf_append (bs cs : Bits) : valOf (bs ++ cs) = valOf bs * 2 ^ cs.length + valOf cs := by
  unfold valOf
  rw [List.foldl_append, valOf_foldl]
  rfl

theorem valOf_lt (bs : Bits) : valOf bs < 2 ^ bs.length := by
  induction bs with
  | nil => simp
  | cons b bs ih =>
    rw [valOf_cons, List.length_cons, pow_succ]
    cases b <;> simp <;> omega

/-- val(u_w(v)) = v mod 2^w (00_scope.md R21). -/
theorem valOf_bitsOf (w v : Nat) : valOf (bitsOf w v) = v % 2 ^ w := by
  induction w with
  | zero => simp [bitsOf, Nat.mod_one]
  | succ w ih =>
    rw [bitsOf, valOf_cons, ih, bitsOf_length, Nat.mod_pow_succ, Nat.testBit_eq_decide_div_mod_eq]
    rcases Nat.mod_two_eq_zero_or_one (v / 2 ^ w) with h | h <;> simp [h, Nat.add_comm]

/-- A bit string is u_w of its value. -/
theorem bitsOf_valOf (bs : Bits) : bitsOf bs.length (valOf bs) = bs := by
  induction bs with
  | nil => rfl
  | cons b bs ih =>
    have key : ∀ w a, bitsOf w (a * 2 ^ w + valOf bs) = bitsOf w (valOf bs) := by
      intro w
      induction w with
      | zero => intro a; rfl
      | succ w ihw =>
        intro a
        simp only [bitsOf]
        have h1 : a * 2 ^ (w + 1) + valOf bs = (2 * a) * 2 ^ w + valOf bs := by ring
        rw [h1, ihw (2 * a)]
        congr 1
        rw [Nat.testBit_eq_decide_div_mod_eq, Nat.testBit_eq_decide_div_mod_eq, Nat.add_comm,
          Nat.add_mul_div_right _ _ (Nat.two_pow_pos w)]
        congr 2
        omega
    rw [List.length_cons, bitsOf, valOf_cons, key, ih]
    congr 1
    have hlt := valOf_lt bs
    rw [Nat.testBit_eq_decide_div_mod_eq, Nat.add_comm, Nat.add_mul_div_right _ _ (Nat.two_pow_pos _),
      Nat.div_eq_of_lt hlt]
    cases b <;> simp

/-- The bits of a byte after one of them is set. -/
theorem getLsbD_setByteBit (b : Byte) {i j : Nat} (v : Bool) (hi : i < 8) (hj : j < 8) :
    (setByteBit b j v).getLsbD i = if i = j then v else b.getLsbD i := by
  have h : ∀ i, i < 8 → ∀ j, j < 8 → (1#8 <<< j).getLsbD i = decide (i = j) := by decide
  have h1 := h i hi j hj
  unfold setByteBit
  cases v <;> simp only [if_true, if_false, Bool.false_eq_true, BitVec.getLsbD_or, BitVec.getLsbD_and,
    BitVec.getLsbD_not, h1, hi] <;> by_cases h : i = j <;> simp [h]

end Sys2Proof.Machine
end

