-- ==== Sys2Proof/Laws/Memory.lean ====
section
/-! SUPPORT. The laws of the block memories: read after write, and every operation keeps the canonical form. -/

namespace Sys2Proof.Machine

variable {α : Type}

theorem lookupCell_putCell_same (i : Nat) (v : α) (cells : List (Nat × α)) :
    lookupCell (putCell i v cells) i = some v := by
  induction cells with
  | nil => simp [putCell, lookupCell]
  | cons c cells ih =>
    obtain ⟨j, u⟩ := c
    rcases Nat.lt_trichotomy i j with h | h | h
    · simp [putCell, lookupCell, h]
    · simp [putCell, lookupCell, h]
    · simp [putCell, lookupCell, h.ne, h.ne', Nat.not_lt.mpr h.le, ih]

theorem lookupCell_putCell_other {i k : Nat} (v : α) (cells : List (Nat × α)) (hk : k ≠ i) :
    lookupCell (putCell i v cells) k = lookupCell cells k := by
  induction cells with
  | nil => simp [putCell, lookupCell, hk.symm]
  | cons c cells ih =>
    obtain ⟨j, u⟩ := c
    rcases Nat.lt_trichotomy i j with h | h | h
    · simp [putCell, lookupCell, h, hk.symm]
    · subst h
      simp [putCell, lookupCell, hk.symm]
    · simp [putCell, lookupCell, h.ne', Nat.not_lt.mpr h.le, ih]

theorem lookupCell_dropCell_same (i : Nat) (cells : List (Nat × α)) : lookupCell (dropCell i cells) i = none := by
  induction cells with
  | nil => rfl
  | cons c cells ih =>
    obtain ⟨j, u⟩ := c
    by_cases h : j = i
    · simpa [dropCell, h] using ih
    · simpa [dropCell, lookupCell, h] using ih

theorem lookupCell_dropCell_other {i k : Nat} (cells : List (Nat × α)) (hk : k ≠ i) :
    lookupCell (dropCell i cells) k = lookupCell cells k := by
  induction cells with
  | nil => rfl
  | cons c cells ih =>
    obtain ⟨j, u⟩ := c
    by_cases h : j = i
    · subst h
      simpa [dropCell, lookupCell, hk.symm] using ih
    · by_cases h' : j = k
      · simp [dropCell, lookupCell, h', hk]
      · simpa [dropCell, lookupCell, h, h'] using ih

theorem lookupCell_eq_some_mem {cells : List (Nat × α)} {i : Nat} {v : α} (h : lookupCell cells i = some v) :
    (i, v) ∈ cells := by
  induction cells with
  | nil => simp [lookupCell] at h
  | cons c cells ih =>
    obtain ⟨j, u⟩ := c
    by_cases hj : j = i
    · simp_all [lookupCell]
    · simp only [lookupCell, hj, if_false] at h
      exact List.mem_cons_of_mem _ (ih h)

theorem lookupCell_of_mem {cells : List (Nat × α)} (hs : cells.Pairwise (fun c d => c.1 < d.1)) {i : Nat} {v : α}
    (h : (i, v) ∈ cells) : lookupCell cells i = some v := by
  induction cells with
  | nil => simp at h
  | cons c cells ih =>
    obtain ⟨j, u⟩ := c
    rw [List.pairwise_cons] at hs
    rcases List.mem_cons.mp h with h' | h'
    · cases h'
      simp [lookupCell]
    · have hj : j ≠ i := (hs.1 _ h').ne
      simp [lookupCell, hj, ih hs.2 h']

theorem putCell_mem {i : Nat} {v : α} {cells : List (Nat × α)} {c : Nat × α} (h : c ∈ putCell i v cells) :
    c = (i, v) ∨ c ∈ cells := by
  induction cells with
  | nil => simpa [putCell] using h
  | cons d cells ih =>
    obtain ⟨j, u⟩ := d
    unfold putCell at h
    split at h
    · simpa using h
    · split at h
      · rcases List.mem_cons.mp h with h | h
        · exact .inl h
        · exact .inr (List.mem_cons_of_mem _ h)
      · rcases List.mem_cons.mp h with h | h
        · exact .inr (by simp [h])
        · exact (ih h).imp_right (List.mem_cons_of_mem _)

theorem putCell_sorted (i : Nat) (v : α) {cells : List (Nat × α)} (hs : cells.Pairwise (fun c d => c.1 < d.1)) :
    (putCell i v cells).Pairwise (fun c d => c.1 < d.1) := by
  induction cells with
  | nil => simp [putCell]
  | cons d cells ih =>
    obtain ⟨j, u⟩ := d
    rw [List.pairwise_cons] at hs
    rcases Nat.lt_trichotomy i j with h | h | h
    · simp only [putCell, h, if_true, List.pairwise_cons]
      refine ⟨?_, hs.1, hs.2⟩
      rintro c hc
      rcases List.mem_cons.mp hc with rfl | hc
      · exact h
      · exact h.trans (hs.1 c hc)
    · subst h
      simpa [putCell] using hs
    · simp only [putCell, Nat.not_lt.mpr h.le, h.ne', if_false, List.pairwise_cons]
      refine ⟨fun c hc => ?_, ih hs.2⟩
      rcases putCell_mem hc with rfl | hc
      · exact h
      · exact hs.1 c hc

namespace Memory

variable [DecidableEq α]

/-- Reading the entry just written gives the value written. -/
@[simp] theorem get?_write_same (m : Memory α) (i : Nat) (v : α) : (m.write i v).get? i = some v := by
  unfold write get?
  split <;> simp_all [lookupCell_dropCell_same, lookupCell_putCell_same]

/-- A write leaves every other entry alone. -/
theorem get?_write_other (m : Memory α) {i k : Nat} (v : α) (h : k ≠ i) : (m.write i v).get? k = m.get? k := by
  unfold write get?
  split <;> simp [lookupCell_dropCell_other, lookupCell_putCell_other, h]

theorem get?_write (m : Memory α) (i k : Nat) (v : α) :
    (m.write i v).get? k = if k = i then some v else m.get? k := by
  split
  · next h => rw [h, get?_write_same]
  · next h => exact get?_write_other m v h

omit [DecidableEq α] in
@[simp] theorem get?_fill (v : α) (i : Nat) : (fill v).get? i = some v := rfl

omit [DecidableEq α] in
@[simp] theorem get?_unknown (i : Nat) : (unknown : Memory α).get? i = none := rfl

@[simp] theorem write_rest (m : Memory α) (i : Nat) (v : α) : (m.write i v).rest = m.rest := by
  unfold write
  split <;> rfl

theorem wf_write {size i : Nat} {m : Memory α} (v : α) (h : wf size m) (hi : i < size) : wf size (m.write i v) := by
  obtain ⟨hs, hb, hr⟩ := h
  unfold write
  split
  · refine ⟨hs.filter _, fun c hc => hb c ?_, fun c hc => hr c ?_⟩ <;> exact (List.mem_filter.mp hc).1
  · next hv =>
    refine ⟨putCell_sorted i v hs, fun c hc => ?_, fun c hc => ?_⟩
    · rcases putCell_mem hc with rfl | hc
      · exact hi
      · exact hb c hc
    · rcases putCell_mem hc with rfl | hc
      · exact hv
      · exact hr c hc

theorem wf_fill (size : Nat) (v : α) : wf size (fill v) := by simp [wf, fill]

theorem wf_unknown (size : Nat) : wf size (unknown : Memory α) := by simp [wf, unknown]

/-- In a memory in canonical form a listed cell is what the entry holds. -/
theorem get?_of_mem {size : Nat} {m : Memory α} (h : wf size m) {i : Nat} {v : α} (hm : (i, v) ∈ m.cells) :
    m.get? i = some v := by
  simp [get?, lookupCell_of_mem h.1 hm]

end Memory

end Sys2Proof.Machine
end

