-- ==== Sys2Proof/Laws/State.lean ====
section
/-! SUPPORT. One lemma per field per named update of State, true by rfl, so that no later proof unfolds a record update. -/

namespace Sys2Proof.Machine.State

variable (s : State)

/-! ### complete -/
@[simp] theorem complete_ie (e : Option Err) : (s.complete e).ie = s.ie := rfl
@[simp] theorem complete_busy (e : Option Err) : (s.complete e).busy = false := rfl
@[simp] theorem complete_done (e : Option Err) : (s.complete e).done = true := rfl
@[simp] theorem complete_haz (e : Option Err) : (s.complete e).haz = s.haz := rfl
@[simp] theorem complete_ecode (e : Option Err) : (s.complete e).ecode = e := rfl
@[simp] theorem complete_treeValid (e : Option Err) : (s.complete e).treeValid = s.treeValid := rfl
@[simp] theorem complete_ctValid (e : Option Err) : (s.complete e).ctValid = s.ctValid := rfl
@[simp] theorem complete_cmdl (e : Option Err) : (s.complete e).cmdl = s.cmdl := rfl
@[simp] theorem complete_arg0 (e : Option Err) : (s.complete e).arg0 = s.arg0 := rfl
@[simp] theorem complete_nsym (e : Option Err) : (s.complete e).nsym = s.nsym := rfl
@[simp] theorem complete_brlen (e : Option Err) : (s.complete e).brlen = s.brlen := rfl
@[simp] theorem complete_res0 (e : Option Err) : (s.complete e).res0 = s.res0 := rfl
@[simp] theorem complete_res1 (e : Option Err) : (s.complete e).res1 = s.res1 := rfl
@[simp] theorem complete_nleaves (e : Option Err) : (s.complete e).nleaves = s.nleaves := rfl
@[simp] theorem complete_nnodes (e : Option Err) : (s.complete e).nnodes = s.nnodes := rfl
@[simp] theorem complete_root (e : Option Err) : (s.complete e).root = s.root := rfl
@[simp] theorem complete_bwNbits (e : Option Err) : (s.complete e).bwNbits = s.bwNbits := rfl
@[simp] theorem complete_bwTail (e : Option Err) : (s.complete e).bwTail = s.bwTail := rfl
@[simp] theorem complete_brPos (e : Option Err) : (s.complete e).brPos = s.brPos := rfl
@[simp] theorem complete_brLimit (e : Option Err) : (s.complete e).brLimit = s.brLimit := rfl
@[simp] theorem complete_outN (e : Option Err) : (s.complete e).outN = s.outN := rfl
@[simp] theorem complete_msel (e : Option Err) : (s.complete e).msel = s.msel := rfl
@[simp] theorem complete_maddr (e : Option Err) : (s.complete e).maddr = s.maddr := rfl
@[simp] theorem complete_symin (e : Option Err) : (s.complete e).symin = s.symin := rfl
@[simp] theorem complete_symout (e : Option Err) : (s.complete e).symout = s.symout := rfl
@[simp] theorem complete_bytemem (e : Option Err) : (s.complete e).bytemem = s.bytemem := rfl
@[simp] theorem complete_freq (e : Option Err) : (s.complete e).freq = s.freq := rfl
@[simp] theorem complete_node (e : Option Err) : (s.complete e).node = s.node := rfl
@[simp] theorem complete_code (e : Option Err) : (s.complete e).code = s.code := rfl
@[simp] theorem complete_params (e : Option Err) : (s.complete e).params = s.params := rfl
@[simp] theorem complete_pending (e : Option Err) : (s.complete e).pending = s.pending := rfl
@[simp] theorem complete_rdata (e : Option Err) : (s.complete e).rdata = s.rdata := rfl
@[simp] theorem complete_draws (e : Option Err) : (s.complete e).draws = s.draws := rfl

/-! ### takeError -/
@[simp] theorem takeError_ie (e : Err) : (s.takeError e).ie = s.ie := rfl
@[simp] theorem takeError_busy (e : Err) : (s.takeError e).busy = false := rfl
@[simp] theorem takeError_done (e : Err) : (s.takeError e).done = true := rfl
@[simp] theorem takeError_haz (e : Err) : (s.takeError e).haz = s.haz := rfl
@[simp] theorem takeError_ecode (e : Err) : (s.takeError e).ecode = some e := rfl
@[simp] theorem takeError_treeValid (e : Err) : (s.takeError e).treeValid = s.treeValid := rfl
@[simp] theorem takeError_ctValid (e : Err) : (s.takeError e).ctValid = s.ctValid := rfl
@[simp] theorem takeError_cmdl (e : Err) : (s.takeError e).cmdl = s.cmdl := rfl
@[simp] theorem takeError_arg0 (e : Err) : (s.takeError e).arg0 = s.arg0 := rfl
@[simp] theorem takeError_nsym (e : Err) : (s.takeError e).nsym = s.nsym := rfl
@[simp] theorem takeError_brlen (e : Err) : (s.takeError e).brlen = s.brlen := rfl
@[simp] theorem takeError_res0 (e : Err) : (s.takeError e).res0 = s.res0 := rfl
@[simp] theorem takeError_res1 (e : Err) : (s.takeError e).res1 = s.res1 := rfl
@[simp] theorem takeError_nleaves (e : Err) : (s.takeError e).nleaves = s.nleaves := rfl
@[simp] theorem takeError_nnodes (e : Err) : (s.takeError e).nnodes = s.nnodes := rfl
@[simp] theorem takeError_root (e : Err) : (s.takeError e).root = s.root := rfl
@[simp] theorem takeError_bwNbits (e : Err) : (s.takeError e).bwNbits = s.bwNbits := rfl
@[simp] theorem takeError_bwTail (e : Err) : (s.takeError e).bwTail = s.bwTail := rfl
@[simp] theorem takeError_brPos (e : Err) : (s.takeError e).brPos = s.brPos := rfl
@[simp] theorem takeError_brLimit (e : Err) : (s.takeError e).brLimit = s.brLimit := rfl
@[simp] theorem takeError_outN (e : Err) : (s.takeError e).outN = s.outN := rfl
@[simp] theorem takeError_msel (e : Err) : (s.takeError e).msel = s.msel := rfl
@[simp] theorem takeError_maddr (e : Err) : (s.takeError e).maddr = s.maddr := rfl
@[simp] theorem takeError_symin (e : Err) : (s.takeError e).symin = s.symin := rfl
@[simp] theorem takeError_symout (e : Err) : (s.takeError e).symout = s.symout := rfl
@[simp] theorem takeError_bytemem (e : Err) : (s.takeError e).bytemem = s.bytemem := rfl
@[simp] theorem takeError_freq (e : Err) : (s.takeError e).freq = s.freq := rfl
@[simp] theorem takeError_node (e : Err) : (s.takeError e).node = s.node := rfl
@[simp] theorem takeError_code (e : Err) : (s.takeError e).code = s.code := rfl
@[simp] theorem takeError_params (e : Err) : (s.takeError e).params = s.params := rfl
@[simp] theorem takeError_pending (e : Err) : (s.takeError e).pending = s.pending := rfl
@[simp] theorem takeError_rdata (e : Err) : (s.takeError e).rdata = s.rdata := rfl
@[simp] theorem takeError_draws (e : Err) : (s.takeError e).draws = s.draws := rfl

/-! ### acknowledge -/
@[simp] theorem acknowledge_ie : (s.acknowledge).ie = s.ie := rfl
@[simp] theorem acknowledge_busy : (s.acknowledge).busy = s.busy := rfl
@[simp] theorem acknowledge_done : (s.acknowledge).done = false := rfl
@[simp] theorem acknowledge_haz : (s.acknowledge).haz = s.haz := rfl
@[simp] theorem acknowledge_ecode : (s.acknowledge).ecode = s.ecode := rfl
@[simp] theorem acknowledge_treeValid : (s.acknowledge).treeValid = s.treeValid := rfl
@[simp] theorem acknowledge_ctValid : (s.acknowledge).ctValid = s.ctValid := rfl
@[simp] theorem acknowledge_cmdl : (s.acknowledge).cmdl = s.cmdl := rfl
@[simp] theorem acknowledge_arg0 : (s.acknowledge).arg0 = s.arg0 := rfl
@[simp] theorem acknowledge_nsym : (s.acknowledge).nsym = s.nsym := rfl
@[simp] theorem acknowledge_brlen : (s.acknowledge).brlen = s.brlen := rfl
@[simp] theorem acknowledge_res0 : (s.acknowledge).res0 = s.res0 := rfl
@[simp] theorem acknowledge_res1 : (s.acknowledge).res1 = s.res1 := rfl
@[simp] theorem acknowledge_nleaves : (s.acknowledge).nleaves = s.nleaves := rfl
@[simp] theorem acknowledge_nnodes : (s.acknowledge).nnodes = s.nnodes := rfl
@[simp] theorem acknowledge_root : (s.acknowledge).root = s.root := rfl
@[simp] theorem acknowledge_bwNbits : (s.acknowledge).bwNbits = s.bwNbits := rfl
@[simp] theorem acknowledge_bwTail : (s.acknowledge).bwTail = s.bwTail := rfl
@[simp] theorem acknowledge_brPos : (s.acknowledge).brPos = s.brPos := rfl
@[simp] theorem acknowledge_brLimit : (s.acknowledge).brLimit = s.brLimit := rfl
@[simp] theorem acknowledge_outN : (s.acknowledge).outN = s.outN := rfl
@[simp] theorem acknowledge_msel : (s.acknowledge).msel = s.msel := rfl
@[simp] theorem acknowledge_maddr : (s.acknowledge).maddr = s.maddr := rfl
@[simp] theorem acknowledge_symin : (s.acknowledge).symin = s.symin := rfl
@[simp] theorem acknowledge_symout : (s.acknowledge).symout = s.symout := rfl
@[simp] theorem acknowledge_bytemem : (s.acknowledge).bytemem = s.bytemem := rfl
@[simp] theorem acknowledge_freq : (s.acknowledge).freq = s.freq := rfl
@[simp] theorem acknowledge_node : (s.acknowledge).node = s.node := rfl
@[simp] theorem acknowledge_code : (s.acknowledge).code = s.code := rfl
@[simp] theorem acknowledge_params : (s.acknowledge).params = s.params := rfl
@[simp] theorem acknowledge_pending : (s.acknowledge).pending = s.pending := rfl
@[simp] theorem acknowledge_rdata : (s.acknowledge).rdata = s.rdata := rfl
@[simp] theorem acknowledge_draws : (s.acknowledge).draws = s.draws := rfl

/-! ### setResults -/
@[simp] theorem setResults_ie (r : Results) : (s.setResults r).ie = s.ie := rfl
@[simp] theorem setResults_busy (r : Results) : (s.setResults r).busy = s.busy := rfl
@[simp] theorem setResults_done (r : Results) : (s.setResults r).done = s.done := rfl
@[simp] theorem setResults_haz (r : Results) : (s.setResults r).haz = s.haz := rfl
@[simp] theorem setResults_ecode (r : Results) : (s.setResults r).ecode = s.ecode := rfl
@[simp] theorem setResults_treeValid (r : Results) : (s.setResults r).treeValid = s.treeValid := rfl
@[simp] theorem setResults_ctValid (r : Results) : (s.setResults r).ctValid = s.ctValid := rfl
@[simp] theorem setResults_cmdl (r : Results) : (s.setResults r).cmdl = s.cmdl := rfl
@[simp] theorem setResults_arg0 (r : Results) : (s.setResults r).arg0 = s.arg0 := rfl
@[simp] theorem setResults_nsym (r : Results) : (s.setResults r).nsym = s.nsym := rfl
@[simp] theorem setResults_brlen (r : Results) : (s.setResults r).brlen = s.brlen := rfl
@[simp] theorem setResults_res0 (r : Results) : (s.setResults r).res0 = r.res0.getD s.res0 := rfl
@[simp] theorem setResults_res1 (r : Results) : (s.setResults r).res1 = r.res1.getD s.res1 := rfl
@[simp] theorem setResults_nleaves (r : Results) : (s.setResults r).nleaves = s.nleaves := rfl
@[simp] theorem setResults_nnodes (r : Results) : (s.setResults r).nnodes = s.nnodes := rfl
@[simp] theorem setResults_root (r : Results) : (s.setResults r).root = s.root := rfl
@[simp] theorem setResults_bwNbits (r : Results) : (s.setResults r).bwNbits = s.bwNbits := rfl
@[simp] theorem setResults_bwTail (r : Results) : (s.setResults r).bwTail = s.bwTail := rfl
@[simp] theorem setResults_brPos (r : Results) : (s.setResults r).brPos = s.brPos := rfl
@[simp] theorem setResults_brLimit (r : Results) : (s.setResults r).brLimit = s.brLimit := rfl
@[simp] theorem setResults_outN (r : Results) : (s.setResults r).outN = s.outN := rfl
@[simp] theorem setResults_msel (r : Results) : (s.setResults r).msel = s.msel := rfl
@[simp] theorem setResults_maddr (r : Results) : (s.setResults r).maddr = s.maddr := rfl
@[simp] theorem setResults_symin (r : Results) : (s.setResults r).symin = s.symin := rfl
@[simp] theorem setResults_symout (r : Results) : (s.setResults r).symout = s.symout := rfl
@[simp] theorem setResults_bytemem (r : Results) : (s.setResults r).bytemem = s.bytemem := rfl
@[simp] theorem setResults_freq (r : Results) : (s.setResults r).freq = s.freq := rfl
@[simp] theorem setResults_node (r : Results) : (s.setResults r).node = s.node := rfl
@[simp] theorem setResults_code (r : Results) : (s.setResults r).code = s.code := rfl
@[simp] theorem setResults_params (r : Results) : (s.setResults r).params = s.params := rfl
@[simp] theorem setResults_pending (r : Results) : (s.setResults r).pending = s.pending := rfl
@[simp] theorem setResults_rdata (r : Results) : (s.setResults r).rdata = s.rdata := rfl
@[simp] theorem setResults_draws (r : Results) : (s.setResults r).draws = s.draws := rfl

/-! ### draw -/
@[simp] theorem draw_ie (w : Nat) : ((s.draw w).2).ie = s.ie := rfl
@[simp] theorem draw_busy (w : Nat) : ((s.draw w).2).busy = s.busy := rfl
@[simp] theorem draw_done (w : Nat) : ((s.draw w).2).done = s.done := rfl
@[simp] theorem draw_haz (w : Nat) : ((s.draw w).2).haz = s.haz := rfl
@[simp] theorem draw_ecode (w : Nat) : ((s.draw w).2).ecode = s.ecode := rfl
@[simp] theorem draw_treeValid (w : Nat) : ((s.draw w).2).treeValid = s.treeValid := rfl
@[simp] theorem draw_ctValid (w : Nat) : ((s.draw w).2).ctValid = s.ctValid := rfl
@[simp] theorem draw_cmdl (w : Nat) : ((s.draw w).2).cmdl = s.cmdl := rfl
@[simp] theorem draw_arg0 (w : Nat) : ((s.draw w).2).arg0 = s.arg0 := rfl
@[simp] theorem draw_nsym (w : Nat) : ((s.draw w).2).nsym = s.nsym := rfl
@[simp] theorem draw_brlen (w : Nat) : ((s.draw w).2).brlen = s.brlen := rfl
@[simp] theorem draw_res0 (w : Nat) : ((s.draw w).2).res0 = s.res0 := rfl
@[simp] theorem draw_res1 (w : Nat) : ((s.draw w).2).res1 = s.res1 := rfl
@[simp] theorem draw_nleaves (w : Nat) : ((s.draw w).2).nleaves = s.nleaves := rfl
@[simp] theorem draw_nnodes (w : Nat) : ((s.draw w).2).nnodes = s.nnodes := rfl
@[simp] theorem draw_root (w : Nat) : ((s.draw w).2).root = s.root := rfl
@[simp] theorem draw_bwNbits (w : Nat) : ((s.draw w).2).bwNbits = s.bwNbits := rfl
@[simp] theorem draw_bwTail (w : Nat) : ((s.draw w).2).bwTail = s.bwTail := rfl
@[simp] theorem draw_brPos (w : Nat) : ((s.draw w).2).brPos = s.brPos := rfl
@[simp] theorem draw_brLimit (w : Nat) : ((s.draw w).2).brLimit = s.brLimit := rfl
@[simp] theorem draw_outN (w : Nat) : ((s.draw w).2).outN = s.outN := rfl
@[simp] theorem draw_msel (w : Nat) : ((s.draw w).2).msel = s.msel := rfl
@[simp] theorem draw_maddr (w : Nat) : ((s.draw w).2).maddr = s.maddr := rfl
@[simp] theorem draw_symin (w : Nat) : ((s.draw w).2).symin = s.symin := rfl
@[simp] theorem draw_symout (w : Nat) : ((s.draw w).2).symout = s.symout := rfl
@[simp] theorem draw_bytemem (w : Nat) : ((s.draw w).2).bytemem = s.bytemem := rfl
@[simp] theorem draw_freq (w : Nat) : ((s.draw w).2).freq = s.freq := rfl
@[simp] theorem draw_node (w : Nat) : ((s.draw w).2).node = s.node := rfl
@[simp] theorem draw_code (w : Nat) : ((s.draw w).2).code = s.code := rfl
@[simp] theorem draw_params (w : Nat) : ((s.draw w).2).params = s.params := rfl
@[simp] theorem draw_pending (w : Nat) : ((s.draw w).2).pending = s.pending := rfl
@[simp] theorem draw_rdata (w : Nat) : ((s.draw w).2).rdata = s.rdata := rfl
@[simp] theorem draw_draws (w : Nat) : ((s.draw w).2).draws = s.draws + 1 := rfl

/-! ### writeSymout -/
@[simp] theorem writeSymout_ie (i : Nat) (v : Symbol) : (s.writeSymout i v).ie = s.ie := rfl
@[simp] theorem writeSymout_busy (i : Nat) (v : Symbol) : (s.writeSymout i v).busy = s.busy := rfl
@[simp] theorem writeSymout_done (i : Nat) (v : Symbol) : (s.writeSymout i v).done = s.done := rfl
@[simp] theorem writeSymout_haz (i : Nat) (v : Symbol) : (s.writeSymout i v).haz = s.haz := rfl
@[simp] theorem writeSymout_ecode (i : Nat) (v : Symbol) : (s.writeSymout i v).ecode = s.ecode := rfl
@[simp] theorem writeSymout_treeValid (i : Nat) (v : Symbol) : (s.writeSymout i v).treeValid = s.treeValid := rfl
@[simp] theorem writeSymout_ctValid (i : Nat) (v : Symbol) : (s.writeSymout i v).ctValid = s.ctValid := rfl
@[simp] theorem writeSymout_cmdl (i : Nat) (v : Symbol) : (s.writeSymout i v).cmdl = s.cmdl := rfl
@[simp] theorem writeSymout_arg0 (i : Nat) (v : Symbol) : (s.writeSymout i v).arg0 = s.arg0 := rfl
@[simp] theorem writeSymout_nsym (i : Nat) (v : Symbol) : (s.writeSymout i v).nsym = s.nsym := rfl
@[simp] theorem writeSymout_brlen (i : Nat) (v : Symbol) : (s.writeSymout i v).brlen = s.brlen := rfl
@[simp] theorem writeSymout_res0 (i : Nat) (v : Symbol) : (s.writeSymout i v).res0 = s.res0 := rfl
@[simp] theorem writeSymout_res1 (i : Nat) (v : Symbol) : (s.writeSymout i v).res1 = s.res1 := rfl
@[simp] theorem writeSymout_nleaves (i : Nat) (v : Symbol) : (s.writeSymout i v).nleaves = s.nleaves := rfl
@[simp] theorem writeSymout_nnodes (i : Nat) (v : Symbol) : (s.writeSymout i v).nnodes = s.nnodes := rfl
@[simp] theorem writeSymout_root (i : Nat) (v : Symbol) : (s.writeSymout i v).root = s.root := rfl
@[simp] theorem writeSymout_bwNbits (i : Nat) (v : Symbol) : (s.writeSymout i v).bwNbits = s.bwNbits := rfl
@[simp] theorem writeSymout_bwTail (i : Nat) (v : Symbol) : (s.writeSymout i v).bwTail = s.bwTail := rfl
@[simp] theorem writeSymout_brPos (i : Nat) (v : Symbol) : (s.writeSymout i v).brPos = s.brPos := rfl
@[simp] theorem writeSymout_brLimit (i : Nat) (v : Symbol) : (s.writeSymout i v).brLimit = s.brLimit := rfl
@[simp] theorem writeSymout_outN (i : Nat) (v : Symbol) : (s.writeSymout i v).outN = s.outN := rfl
@[simp] theorem writeSymout_msel (i : Nat) (v : Symbol) : (s.writeSymout i v).msel = s.msel := rfl
@[simp] theorem writeSymout_maddr (i : Nat) (v : Symbol) : (s.writeSymout i v).maddr = s.maddr := rfl
@[simp] theorem writeSymout_symin (i : Nat) (v : Symbol) : (s.writeSymout i v).symin = s.symin := rfl
@[simp] theorem writeSymout_symout (i : Nat) (v : Symbol) : (s.writeSymout i v).symout = s.symout.write i v := rfl
@[simp] theorem writeSymout_bytemem (i : Nat) (v : Symbol) : (s.writeSymout i v).bytemem = s.bytemem := rfl
@[simp] theorem writeSymout_freq (i : Nat) (v : Symbol) : (s.writeSymout i v).freq = s.freq := rfl
@[simp] theorem writeSymout_node (i : Nat) (v : Symbol) : (s.writeSymout i v).node = s.node := rfl
@[simp] theorem writeSymout_code (i : Nat) (v : Symbol) : (s.writeSymout i v).code = s.code := rfl
@[simp] theorem writeSymout_params (i : Nat) (v : Symbol) : (s.writeSymout i v).params = s.params := rfl
@[simp] theorem writeSymout_pending (i : Nat) (v : Symbol) : (s.writeSymout i v).pending = s.pending := rfl
@[simp] theorem writeSymout_rdata (i : Nat) (v : Symbol) : (s.writeSymout i v).rdata = s.rdata := rfl
@[simp] theorem writeSymout_draws (i : Nat) (v : Symbol) : (s.writeSymout i v).draws = s.draws := rfl

/-! ### writeByte -/
@[simp] theorem writeByte_ie (i : Nat) (v : Byte) : (s.writeByte i v).ie = s.ie := rfl
@[simp] theorem writeByte_busy (i : Nat) (v : Byte) : (s.writeByte i v).busy = s.busy := rfl
@[simp] theorem writeByte_done (i : Nat) (v : Byte) : (s.writeByte i v).done = s.done := rfl
@[simp] theorem writeByte_haz (i : Nat) (v : Byte) : (s.writeByte i v).haz = s.haz := rfl
@[simp] theorem writeByte_ecode (i : Nat) (v : Byte) : (s.writeByte i v).ecode = s.ecode := rfl
@[simp] theorem writeByte_treeValid (i : Nat) (v : Byte) : (s.writeByte i v).treeValid = s.treeValid := rfl
@[simp] theorem writeByte_ctValid (i : Nat) (v : Byte) : (s.writeByte i v).ctValid = s.ctValid := rfl
@[simp] theorem writeByte_cmdl (i : Nat) (v : Byte) : (s.writeByte i v).cmdl = s.cmdl := rfl
@[simp] theorem writeByte_arg0 (i : Nat) (v : Byte) : (s.writeByte i v).arg0 = s.arg0 := rfl
@[simp] theorem writeByte_nsym (i : Nat) (v : Byte) : (s.writeByte i v).nsym = s.nsym := rfl
@[simp] theorem writeByte_brlen (i : Nat) (v : Byte) : (s.writeByte i v).brlen = s.brlen := rfl
@[simp] theorem writeByte_res0 (i : Nat) (v : Byte) : (s.writeByte i v).res0 = s.res0 := rfl
@[simp] theorem writeByte_res1 (i : Nat) (v : Byte) : (s.writeByte i v).res1 = s.res1 := rfl
@[simp] theorem writeByte_nleaves (i : Nat) (v : Byte) : (s.writeByte i v).nleaves = s.nleaves := rfl
@[simp] theorem writeByte_nnodes (i : Nat) (v : Byte) : (s.writeByte i v).nnodes = s.nnodes := rfl
@[simp] theorem writeByte_root (i : Nat) (v : Byte) : (s.writeByte i v).root = s.root := rfl
@[simp] theorem writeByte_bwNbits (i : Nat) (v : Byte) : (s.writeByte i v).bwNbits = s.bwNbits := rfl
@[simp] theorem writeByte_bwTail (i : Nat) (v : Byte) : (s.writeByte i v).bwTail = s.bwTail := rfl
@[simp] theorem writeByte_brPos (i : Nat) (v : Byte) : (s.writeByte i v).brPos = s.brPos := rfl
@[simp] theorem writeByte_brLimit (i : Nat) (v : Byte) : (s.writeByte i v).brLimit = s.brLimit := rfl
@[simp] theorem writeByte_outN (i : Nat) (v : Byte) : (s.writeByte i v).outN = s.outN := rfl
@[simp] theorem writeByte_msel (i : Nat) (v : Byte) : (s.writeByte i v).msel = s.msel := rfl
@[simp] theorem writeByte_maddr (i : Nat) (v : Byte) : (s.writeByte i v).maddr = s.maddr := rfl
@[simp] theorem writeByte_symin (i : Nat) (v : Byte) : (s.writeByte i v).symin = s.symin := rfl
@[simp] theorem writeByte_symout (i : Nat) (v : Byte) : (s.writeByte i v).symout = s.symout := rfl
@[simp] theorem writeByte_bytemem (i : Nat) (v : Byte) : (s.writeByte i v).bytemem = s.bytemem.write i v := rfl
@[simp] theorem writeByte_freq (i : Nat) (v : Byte) : (s.writeByte i v).freq = s.freq := rfl
@[simp] theorem writeByte_node (i : Nat) (v : Byte) : (s.writeByte i v).node = s.node := rfl
@[simp] theorem writeByte_code (i : Nat) (v : Byte) : (s.writeByte i v).code = s.code := rfl
@[simp] theorem writeByte_params (i : Nat) (v : Byte) : (s.writeByte i v).params = s.params := rfl
@[simp] theorem writeByte_pending (i : Nat) (v : Byte) : (s.writeByte i v).pending = s.pending := rfl
@[simp] theorem writeByte_rdata (i : Nat) (v : Byte) : (s.writeByte i v).rdata = s.rdata := rfl
@[simp] theorem writeByte_draws (i : Nat) (v : Byte) : (s.writeByte i v).draws = s.draws := rfl

/-! ### writeFreq -/
@[simp] theorem writeFreq_ie (i : Nat) (v : Weight) : (s.writeFreq i v).ie = s.ie := rfl
@[simp] theorem writeFreq_busy (i : Nat) (v : Weight) : (s.writeFreq i v).busy = s.busy := rfl
@[simp] theorem writeFreq_done (i : Nat) (v : Weight) : (s.writeFreq i v).done = s.done := rfl
@[simp] theorem writeFreq_haz (i : Nat) (v : Weight) : (s.writeFreq i v).haz = s.haz := rfl
@[simp] theorem writeFreq_ecode (i : Nat) (v : Weight) : (s.writeFreq i v).ecode = s.ecode := rfl
@[simp] theorem writeFreq_treeValid (i : Nat) (v : Weight) : (s.writeFreq i v).treeValid = s.treeValid := rfl
@[simp] theorem writeFreq_ctValid (i : Nat) (v : Weight) : (s.writeFreq i v).ctValid = s.ctValid := rfl
@[simp] theorem writeFreq_cmdl (i : Nat) (v : Weight) : (s.writeFreq i v).cmdl = s.cmdl := rfl
@[simp] theorem writeFreq_arg0 (i : Nat) (v : Weight) : (s.writeFreq i v).arg0 = s.arg0 := rfl
@[simp] theorem writeFreq_nsym (i : Nat) (v : Weight) : (s.writeFreq i v).nsym = s.nsym := rfl
@[simp] theorem writeFreq_brlen (i : Nat) (v : Weight) : (s.writeFreq i v).brlen = s.brlen := rfl
@[simp] theorem writeFreq_res0 (i : Nat) (v : Weight) : (s.writeFreq i v).res0 = s.res0 := rfl
@[simp] theorem writeFreq_res1 (i : Nat) (v : Weight) : (s.writeFreq i v).res1 = s.res1 := rfl
@[simp] theorem writeFreq_nleaves (i : Nat) (v : Weight) : (s.writeFreq i v).nleaves = s.nleaves := rfl
@[simp] theorem writeFreq_nnodes (i : Nat) (v : Weight) : (s.writeFreq i v).nnodes = s.nnodes := rfl
@[simp] theorem writeFreq_root (i : Nat) (v : Weight) : (s.writeFreq i v).root = s.root := rfl
@[simp] theorem writeFreq_bwNbits (i : Nat) (v : Weight) : (s.writeFreq i v).bwNbits = s.bwNbits := rfl
@[simp] theorem writeFreq_bwTail (i : Nat) (v : Weight) : (s.writeFreq i v).bwTail = s.bwTail := rfl
@[simp] theorem writeFreq_brPos (i : Nat) (v : Weight) : (s.writeFreq i v).brPos = s.brPos := rfl
@[simp] theorem writeFreq_brLimit (i : Nat) (v : Weight) : (s.writeFreq i v).brLimit = s.brLimit := rfl
@[simp] theorem writeFreq_outN (i : Nat) (v : Weight) : (s.writeFreq i v).outN = s.outN := rfl
@[simp] theorem writeFreq_msel (i : Nat) (v : Weight) : (s.writeFreq i v).msel = s.msel := rfl
@[simp] theorem writeFreq_maddr (i : Nat) (v : Weight) : (s.writeFreq i v).maddr = s.maddr := rfl
@[simp] theorem writeFreq_symin (i : Nat) (v : Weight) : (s.writeFreq i v).symin = s.symin := rfl
@[simp] theorem writeFreq_symout (i : Nat) (v : Weight) : (s.writeFreq i v).symout = s.symout := rfl
@[simp] theorem writeFreq_bytemem (i : Nat) (v : Weight) : (s.writeFreq i v).bytemem = s.bytemem := rfl
@[simp] theorem writeFreq_freq (i : Nat) (v : Weight) : (s.writeFreq i v).freq = s.freq.write i v := rfl
@[simp] theorem writeFreq_node (i : Nat) (v : Weight) : (s.writeFreq i v).node = s.node := rfl
@[simp] theorem writeFreq_code (i : Nat) (v : Weight) : (s.writeFreq i v).code = s.code := rfl
@[simp] theorem writeFreq_params (i : Nat) (v : Weight) : (s.writeFreq i v).params = s.params := rfl
@[simp] theorem writeFreq_pending (i : Nat) (v : Weight) : (s.writeFreq i v).pending = s.pending := rfl
@[simp] theorem writeFreq_rdata (i : Nat) (v : Weight) : (s.writeFreq i v).rdata = s.rdata := rfl
@[simp] theorem writeFreq_draws (i : Nat) (v : Weight) : (s.writeFreq i v).draws = s.draws := rfl

/-! ### writeNode -/
@[simp] theorem writeNode_ie (i : Nat) (r : NodeRec) : (s.writeNode i r).ie = s.ie := rfl
@[simp] theorem writeNode_busy (i : Nat) (r : NodeRec) : (s.writeNode i r).busy = s.busy := rfl
@[simp] theorem writeNode_done (i : Nat) (r : NodeRec) : (s.writeNode i r).done = s.done := rfl
@[simp] theorem writeNode_haz (i : Nat) (r : NodeRec) : (s.writeNode i r).haz = s.haz := rfl
@[simp] theorem writeNode_ecode (i : Nat) (r : NodeRec) : (s.writeNode i r).ecode = s.ecode := rfl
@[simp] theorem writeNode_treeValid (i : Nat) (r : NodeRec) : (s.writeNode i r).treeValid = s.treeValid := rfl
@[simp] theorem writeNode_ctValid (i : Nat) (r : NodeRec) : (s.writeNode i r).ctValid = s.ctValid := rfl
@[simp] theorem writeNode_cmdl (i : Nat) (r : NodeRec) : (s.writeNode i r).cmdl = s.cmdl := rfl
@[simp] theorem writeNode_arg0 (i : Nat) (r : NodeRec) : (s.writeNode i r).arg0 = s.arg0 := rfl
@[simp] theorem writeNode_nsym (i : Nat) (r : NodeRec) : (s.writeNode i r).nsym = s.nsym := rfl
@[simp] theorem writeNode_brlen (i : Nat) (r : NodeRec) : (s.writeNode i r).brlen = s.brlen := rfl
@[simp] theorem writeNode_res0 (i : Nat) (r : NodeRec) : (s.writeNode i r).res0 = s.res0 := rfl
@[simp] theorem writeNode_res1 (i : Nat) (r : NodeRec) : (s.writeNode i r).res1 = s.res1 := rfl
@[simp] theorem writeNode_nleaves (i : Nat) (r : NodeRec) : (s.writeNode i r).nleaves = s.nleaves := rfl
@[simp] theorem writeNode_nnodes (i : Nat) (r : NodeRec) : (s.writeNode i r).nnodes = s.nnodes := rfl
@[simp] theorem writeNode_root (i : Nat) (r : NodeRec) : (s.writeNode i r).root = s.root := rfl
@[simp] theorem writeNode_bwNbits (i : Nat) (r : NodeRec) : (s.writeNode i r).bwNbits = s.bwNbits := rfl
@[simp] theorem writeNode_bwTail (i : Nat) (r : NodeRec) : (s.writeNode i r).bwTail = s.bwTail := rfl
@[simp] theorem writeNode_brPos (i : Nat) (r : NodeRec) : (s.writeNode i r).brPos = s.brPos := rfl
@[simp] theorem writeNode_brLimit (i : Nat) (r : NodeRec) : (s.writeNode i r).brLimit = s.brLimit := rfl
@[simp] theorem writeNode_outN (i : Nat) (r : NodeRec) : (s.writeNode i r).outN = s.outN := rfl
@[simp] theorem writeNode_msel (i : Nat) (r : NodeRec) : (s.writeNode i r).msel = s.msel := rfl
@[simp] theorem writeNode_maddr (i : Nat) (r : NodeRec) : (s.writeNode i r).maddr = s.maddr := rfl
@[simp] theorem writeNode_symin (i : Nat) (r : NodeRec) : (s.writeNode i r).symin = s.symin := rfl
@[simp] theorem writeNode_symout (i : Nat) (r : NodeRec) : (s.writeNode i r).symout = s.symout := rfl
@[simp] theorem writeNode_bytemem (i : Nat) (r : NodeRec) : (s.writeNode i r).bytemem = s.bytemem := rfl
@[simp] theorem writeNode_freq (i : Nat) (r : NodeRec) : (s.writeNode i r).freq = s.freq := rfl
@[simp] theorem writeNode_node (i : Nat) (r : NodeRec) : (s.writeNode i r).node = s.node.write i r := rfl
@[simp] theorem writeNode_code (i : Nat) (r : NodeRec) : (s.writeNode i r).code = s.code := rfl
@[simp] theorem writeNode_params (i : Nat) (r : NodeRec) : (s.writeNode i r).params = s.params := rfl
@[simp] theorem writeNode_pending (i : Nat) (r : NodeRec) : (s.writeNode i r).pending = s.pending := rfl
@[simp] theorem writeNode_rdata (i : Nat) (r : NodeRec) : (s.writeNode i r).rdata = s.rdata := rfl
@[simp] theorem writeNode_draws (i : Nat) (r : NodeRec) : (s.writeNode i r).draws = s.draws := rfl

/-! ### writeCode -/
@[simp] theorem writeCode_ie (i : Nat) (c : CodeEntry) : (s.writeCode i c).ie = s.ie := rfl
@[simp] theorem writeCode_busy (i : Nat) (c : CodeEntry) : (s.writeCode i c).busy = s.busy := rfl
@[simp] theorem writeCode_done (i : Nat) (c : CodeEntry) : (s.writeCode i c).done = s.done := rfl
@[simp] theorem writeCode_haz (i : Nat) (c : CodeEntry) : (s.writeCode i c).haz = s.haz := rfl
@[simp] theorem writeCode_ecode (i : Nat) (c : CodeEntry) : (s.writeCode i c).ecode = s.ecode := rfl
@[simp] theorem writeCode_treeValid (i : Nat) (c : CodeEntry) : (s.writeCode i c).treeValid = s.treeValid := rfl
@[simp] theorem writeCode_ctValid (i : Nat) (c : CodeEntry) : (s.writeCode i c).ctValid = s.ctValid := rfl
@[simp] theorem writeCode_cmdl (i : Nat) (c : CodeEntry) : (s.writeCode i c).cmdl = s.cmdl := rfl
@[simp] theorem writeCode_arg0 (i : Nat) (c : CodeEntry) : (s.writeCode i c).arg0 = s.arg0 := rfl
@[simp] theorem writeCode_nsym (i : Nat) (c : CodeEntry) : (s.writeCode i c).nsym = s.nsym := rfl
@[simp] theorem writeCode_brlen (i : Nat) (c : CodeEntry) : (s.writeCode i c).brlen = s.brlen := rfl
@[simp] theorem writeCode_res0 (i : Nat) (c : CodeEntry) : (s.writeCode i c).res0 = s.res0 := rfl
@[simp] theorem writeCode_res1 (i : Nat) (c : CodeEntry) : (s.writeCode i c).res1 = s.res1 := rfl
@[simp] theorem writeCode_nleaves (i : Nat) (c : CodeEntry) : (s.writeCode i c).nleaves = s.nleaves := rfl
@[simp] theorem writeCode_nnodes (i : Nat) (c : CodeEntry) : (s.writeCode i c).nnodes = s.nnodes := rfl
@[simp] theorem writeCode_root (i : Nat) (c : CodeEntry) : (s.writeCode i c).root = s.root := rfl
@[simp] theorem writeCode_bwNbits (i : Nat) (c : CodeEntry) : (s.writeCode i c).bwNbits = s.bwNbits := rfl
@[simp] theorem writeCode_bwTail (i : Nat) (c : CodeEntry) : (s.writeCode i c).bwTail = s.bwTail := rfl
@[simp] theorem writeCode_brPos (i : Nat) (c : CodeEntry) : (s.writeCode i c).brPos = s.brPos := rfl
@[simp] theorem writeCode_brLimit (i : Nat) (c : CodeEntry) : (s.writeCode i c).brLimit = s.brLimit := rfl
@[simp] theorem writeCode_outN (i : Nat) (c : CodeEntry) : (s.writeCode i c).outN = s.outN := rfl
@[simp] theorem writeCode_msel (i : Nat) (c : CodeEntry) : (s.writeCode i c).msel = s.msel := rfl
@[simp] theorem writeCode_maddr (i : Nat) (c : CodeEntry) : (s.writeCode i c).maddr = s.maddr := rfl
@[simp] theorem writeCode_symin (i : Nat) (c : CodeEntry) : (s.writeCode i c).symin = s.symin := rfl
@[simp] theorem writeCode_symout (i : Nat) (c : CodeEntry) : (s.writeCode i c).symout = s.symout := rfl
@[simp] theorem writeCode_bytemem (i : Nat) (c : CodeEntry) : (s.writeCode i c).bytemem = s.bytemem := rfl
@[simp] theorem writeCode_freq (i : Nat) (c : CodeEntry) : (s.writeCode i c).freq = s.freq := rfl
@[simp] theorem writeCode_node (i : Nat) (c : CodeEntry) : (s.writeCode i c).node = s.node := rfl
@[simp] theorem writeCode_code (i : Nat) (c : CodeEntry) : (s.writeCode i c).code = s.code.write i c := rfl
@[simp] theorem writeCode_params (i : Nat) (c : CodeEntry) : (s.writeCode i c).params = s.params := rfl
@[simp] theorem writeCode_pending (i : Nat) (c : CodeEntry) : (s.writeCode i c).pending = s.pending := rfl
@[simp] theorem writeCode_rdata (i : Nat) (c : CodeEntry) : (s.writeCode i c).rdata = s.rdata := rfl
@[simp] theorem writeCode_draws (i : Nat) (c : CodeEntry) : (s.writeCode i c).draws = s.draws := rfl

/-! ### setTree -/
@[simp] theorem setTree_ie (r k n : Nat) : (s.setTree r k n).ie = s.ie := rfl
@[simp] theorem setTree_busy (r k n : Nat) : (s.setTree r k n).busy = s.busy := rfl
@[simp] theorem setTree_done (r k n : Nat) : (s.setTree r k n).done = s.done := rfl
@[simp] theorem setTree_haz (r k n : Nat) : (s.setTree r k n).haz = s.haz := rfl
@[simp] theorem setTree_ecode (r k n : Nat) : (s.setTree r k n).ecode = s.ecode := rfl
@[simp] theorem setTree_treeValid (r k n : Nat) : (s.setTree r k n).treeValid = true := rfl
@[simp] theorem setTree_ctValid (r k n : Nat) : (s.setTree r k n).ctValid = false := rfl
@[simp] theorem setTree_cmdl (r k n : Nat) : (s.setTree r k n).cmdl = s.cmdl := rfl
@[simp] theorem setTree_arg0 (r k n : Nat) : (s.setTree r k n).arg0 = s.arg0 := rfl
@[simp] theorem setTree_nsym (r k n : Nat) : (s.setTree r k n).nsym = s.nsym := rfl
@[simp] theorem setTree_brlen (r k n : Nat) : (s.setTree r k n).brlen = s.brlen := rfl
@[simp] theorem setTree_res0 (r k n : Nat) : (s.setTree r k n).res0 = s.res0 := rfl
@[simp] theorem setTree_res1 (r k n : Nat) : (s.setTree r k n).res1 = s.res1 := rfl
@[simp] theorem setTree_nleaves (r k n : Nat) : (s.setTree r k n).nleaves = BitVec.ofNat 17 k := rfl
@[simp] theorem setTree_nnodes (r k n : Nat) : (s.setTree r k n).nnodes = BitVec.ofNat 17 n := rfl
@[simp] theorem setTree_root (r k n : Nat) : (s.setTree r k n).root = BitVec.ofNat 17 r := rfl
@[simp] theorem setTree_bwNbits (r k n : Nat) : (s.setTree r k n).bwNbits = s.bwNbits := rfl
@[simp] theorem setTree_bwTail (r k n : Nat) : (s.setTree r k n).bwTail = s.bwTail := rfl
@[simp] theorem setTree_brPos (r k n : Nat) : (s.setTree r k n).brPos = s.brPos := rfl
@[simp] theorem setTree_brLimit (r k n : Nat) : (s.setTree r k n).brLimit = s.brLimit := rfl
@[simp] theorem setTree_outN (r k n : Nat) : (s.setTree r k n).outN = s.outN := rfl
@[simp] theorem setTree_msel (r k n : Nat) : (s.setTree r k n).msel = s.msel := rfl
@[simp] theorem setTree_maddr (r k n : Nat) : (s.setTree r k n).maddr = s.maddr := rfl
@[simp] theorem setTree_symin (r k n : Nat) : (s.setTree r k n).symin = s.symin := rfl
@[simp] theorem setTree_symout (r k n : Nat) : (s.setTree r k n).symout = s.symout := rfl
@[simp] theorem setTree_bytemem (r k n : Nat) : (s.setTree r k n).bytemem = s.bytemem := rfl
@[simp] theorem setTree_freq (r k n : Nat) : (s.setTree r k n).freq = s.freq := rfl
@[simp] theorem setTree_node (r k n : Nat) : (s.setTree r k n).node = s.node := rfl
@[simp] theorem setTree_code (r k n : Nat) : (s.setTree r k n).code = s.code := rfl
@[simp] theorem setTree_params (r k n : Nat) : (s.setTree r k n).params = s.params := rfl
@[simp] theorem setTree_pending (r k n : Nat) : (s.setTree r k n).pending = s.pending := rfl
@[simp] theorem setTree_rdata (r k n : Nat) : (s.setTree r k n).rdata = s.rdata := rfl
@[simp] theorem setTree_draws (r k n : Nat) : (s.setTree r k n).draws = s.draws := rfl

/-! ### clearTree -/
@[simp] theorem clearTree_ie : (s.clearTree).ie = s.ie := rfl
@[simp] theorem clearTree_busy : (s.clearTree).busy = s.busy := rfl
@[simp] theorem clearTree_done : (s.clearTree).done = s.done := rfl
@[simp] theorem clearTree_haz : (s.clearTree).haz = s.haz := rfl
@[simp] theorem clearTree_ecode : (s.clearTree).ecode = s.ecode := rfl
@[simp] theorem clearTree_treeValid : (s.clearTree).treeValid = false := rfl
@[simp] theorem clearTree_ctValid : (s.clearTree).ctValid = false := rfl
@[simp] theorem clearTree_cmdl : (s.clearTree).cmdl = s.cmdl := rfl
@[simp] theorem clearTree_arg0 : (s.clearTree).arg0 = s.arg0 := rfl
@[simp] theorem clearTree_nsym : (s.clearTree).nsym = s.nsym := rfl
@[simp] theorem clearTree_brlen : (s.clearTree).brlen = s.brlen := rfl
@[simp] theorem clearTree_res0 : (s.clearTree).res0 = s.res0 := rfl
@[simp] theorem clearTree_res1 : (s.clearTree).res1 = s.res1 := rfl
@[simp] theorem clearTree_nleaves : (s.clearTree).nleaves = 0 := rfl
@[simp] theorem clearTree_nnodes : (s.clearTree).nnodes = 0 := rfl
@[simp] theorem clearTree_root : (s.clearTree).root = 0 := rfl
@[simp] theorem clearTree_bwNbits : (s.clearTree).bwNbits = s.bwNbits := rfl
@[simp] theorem clearTree_bwTail : (s.clearTree).bwTail = s.bwTail := rfl
@[simp] theorem clearTree_brPos : (s.clearTree).brPos = s.brPos := rfl
@[simp] theorem clearTree_brLimit : (s.clearTree).brLimit = s.brLimit := rfl
@[simp] theorem clearTree_outN : (s.clearTree).outN = s.outN := rfl
@[simp] theorem clearTree_msel : (s.clearTree).msel = s.msel := rfl
@[simp] theorem clearTree_maddr : (s.clearTree).maddr = s.maddr := rfl
@[simp] theorem clearTree_symin : (s.clearTree).symin = s.symin := rfl
@[simp] theorem clearTree_symout : (s.clearTree).symout = s.symout := rfl
@[simp] theorem clearTree_bytemem : (s.clearTree).bytemem = s.bytemem := rfl
@[simp] theorem clearTree_freq : (s.clearTree).freq = s.freq := rfl
@[simp] theorem clearTree_node : (s.clearTree).node = s.node := rfl
@[simp] theorem clearTree_code : (s.clearTree).code = s.code := rfl
@[simp] theorem clearTree_params : (s.clearTree).params = s.params := rfl
@[simp] theorem clearTree_pending : (s.clearTree).pending = s.pending := rfl
@[simp] theorem clearTree_rdata : (s.clearTree).rdata = s.rdata := rfl
@[simp] theorem clearTree_draws : (s.clearTree).draws = s.draws := rfl

/-! ### setCtValid -/
@[simp] theorem setCtValid_ie (b : Bool) : (s.setCtValid b).ie = s.ie := rfl
@[simp] theorem setCtValid_busy (b : Bool) : (s.setCtValid b).busy = s.busy := rfl
@[simp] theorem setCtValid_done (b : Bool) : (s.setCtValid b).done = s.done := rfl
@[simp] theorem setCtValid_haz (b : Bool) : (s.setCtValid b).haz = s.haz := rfl
@[simp] theorem setCtValid_ecode (b : Bool) : (s.setCtValid b).ecode = s.ecode := rfl
@[simp] theorem setCtValid_treeValid (b : Bool) : (s.setCtValid b).treeValid = s.treeValid := rfl
@[simp] theorem setCtValid_ctValid (b : Bool) : (s.setCtValid b).ctValid = b := rfl
@[simp] theorem setCtValid_cmdl (b : Bool) : (s.setCtValid b).cmdl = s.cmdl := rfl
@[simp] theorem setCtValid_arg0 (b : Bool) : (s.setCtValid b).arg0 = s.arg0 := rfl
@[simp] theorem setCtValid_nsym (b : Bool) : (s.setCtValid b).nsym = s.nsym := rfl
@[simp] theorem setCtValid_brlen (b : Bool) : (s.setCtValid b).brlen = s.brlen := rfl
@[simp] theorem setCtValid_res0 (b : Bool) : (s.setCtValid b).res0 = s.res0 := rfl
@[simp] theorem setCtValid_res1 (b : Bool) : (s.setCtValid b).res1 = s.res1 := rfl
@[simp] theorem setCtValid_nleaves (b : Bool) : (s.setCtValid b).nleaves = s.nleaves := rfl
@[simp] theorem setCtValid_nnodes (b : Bool) : (s.setCtValid b).nnodes = s.nnodes := rfl
@[simp] theorem setCtValid_root (b : Bool) : (s.setCtValid b).root = s.root := rfl
@[simp] theorem setCtValid_bwNbits (b : Bool) : (s.setCtValid b).bwNbits = s.bwNbits := rfl
@[simp] theorem setCtValid_bwTail (b : Bool) : (s.setCtValid b).bwTail = s.bwTail := rfl
@[simp] theorem setCtValid_brPos (b : Bool) : (s.setCtValid b).brPos = s.brPos := rfl
@[simp] theorem setCtValid_brLimit (b : Bool) : (s.setCtValid b).brLimit = s.brLimit := rfl
@[simp] theorem setCtValid_outN (b : Bool) : (s.setCtValid b).outN = s.outN := rfl
@[simp] theorem setCtValid_msel (b : Bool) : (s.setCtValid b).msel = s.msel := rfl
@[simp] theorem setCtValid_maddr (b : Bool) : (s.setCtValid b).maddr = s.maddr := rfl
@[simp] theorem setCtValid_symin (b : Bool) : (s.setCtValid b).symin = s.symin := rfl
@[simp] theorem setCtValid_symout (b : Bool) : (s.setCtValid b).symout = s.symout := rfl
@[simp] theorem setCtValid_bytemem (b : Bool) : (s.setCtValid b).bytemem = s.bytemem := rfl
@[simp] theorem setCtValid_freq (b : Bool) : (s.setCtValid b).freq = s.freq := rfl
@[simp] theorem setCtValid_node (b : Bool) : (s.setCtValid b).node = s.node := rfl
@[simp] theorem setCtValid_code (b : Bool) : (s.setCtValid b).code = s.code := rfl
@[simp] theorem setCtValid_params (b : Bool) : (s.setCtValid b).params = s.params := rfl
@[simp] theorem setCtValid_pending (b : Bool) : (s.setCtValid b).pending = s.pending := rfl
@[simp] theorem setCtValid_rdata (b : Bool) : (s.setCtValid b).rdata = s.rdata := rfl
@[simp] theorem setCtValid_draws (b : Bool) : (s.setCtValid b).draws = s.draws := rfl

/-! ### initWriter -/
@[simp] theorem initWriter_ie : (s.initWriter).ie = s.ie := rfl
@[simp] theorem initWriter_busy : (s.initWriter).busy = s.busy := rfl
@[simp] theorem initWriter_done : (s.initWriter).done = s.done := rfl
@[simp] theorem initWriter_haz : (s.initWriter).haz = s.haz := rfl
@[simp] theorem initWriter_ecode : (s.initWriter).ecode = s.ecode := rfl
@[simp] theorem initWriter_treeValid : (s.initWriter).treeValid = s.treeValid := rfl
@[simp] theorem initWriter_ctValid : (s.initWriter).ctValid = s.ctValid := rfl
@[simp] theorem initWriter_cmdl : (s.initWriter).cmdl = s.cmdl := rfl
@[simp] theorem initWriter_arg0 : (s.initWriter).arg0 = s.arg0 := rfl
@[simp] theorem initWriter_nsym : (s.initWriter).nsym = s.nsym := rfl
@[simp] theorem initWriter_brlen : (s.initWriter).brlen = s.brlen := rfl
@[simp] theorem initWriter_res0 : (s.initWriter).res0 = s.res0 := rfl
@[simp] theorem initWriter_res1 : (s.initWriter).res1 = s.res1 := rfl
@[simp] theorem initWriter_nleaves : (s.initWriter).nleaves = s.nleaves := rfl
@[simp] theorem initWriter_nnodes : (s.initWriter).nnodes = s.nnodes := rfl
@[simp] theorem initWriter_root : (s.initWriter).root = s.root := rfl
@[simp] theorem initWriter_bwNbits : (s.initWriter).bwNbits = 0 := rfl
@[simp] theorem initWriter_bwTail : (s.initWriter).bwTail = 0 := rfl
@[simp] theorem initWriter_brPos : (s.initWriter).brPos = s.brPos := rfl
@[simp] theorem initWriter_brLimit : (s.initWriter).brLimit = s.brLimit := rfl
@[simp] theorem initWriter_outN : (s.initWriter).outN = s.outN := rfl
@[simp] theorem initWriter_msel : (s.initWriter).msel = s.msel := rfl
@[simp] theorem initWriter_maddr : (s.initWriter).maddr = s.maddr := rfl
@[simp] theorem initWriter_symin : (s.initWriter).symin = s.symin := rfl
@[simp] theorem initWriter_symout : (s.initWriter).symout = s.symout := rfl
@[simp] theorem initWriter_bytemem : (s.initWriter).bytemem = s.bytemem := rfl
@[simp] theorem initWriter_freq : (s.initWriter).freq = s.freq := rfl
@[simp] theorem initWriter_node : (s.initWriter).node = s.node := rfl
@[simp] theorem initWriter_code : (s.initWriter).code = s.code := rfl
@[simp] theorem initWriter_params : (s.initWriter).params = s.params := rfl
@[simp] theorem initWriter_pending : (s.initWriter).pending = s.pending := rfl
@[simp] theorem initWriter_rdata : (s.initWriter).rdata = s.rdata := rfl
@[simp] theorem initWriter_draws : (s.initWriter).draws = s.draws := rfl

/-! ### initReader -/
@[simp] theorem initReader_ie : (s.initReader).ie = s.ie := rfl
@[simp] theorem initReader_busy : (s.initReader).busy = s.busy := rfl
@[simp] theorem initReader_done : (s.initReader).done = s.done := rfl
@[simp] theorem initReader_haz : (s.initReader).haz = s.haz := rfl
@[simp] theorem initReader_ecode : (s.initReader).ecode = s.ecode := rfl
@[simp] theorem initReader_treeValid : (s.initReader).treeValid = s.treeValid := rfl
@[simp] theorem initReader_ctValid : (s.initReader).ctValid = s.ctValid := rfl
@[simp] theorem initReader_cmdl : (s.initReader).cmdl = s.cmdl := rfl
@[simp] theorem initReader_arg0 : (s.initReader).arg0 = s.arg0 := rfl
@[simp] theorem initReader_nsym : (s.initReader).nsym = s.nsym := rfl
@[simp] theorem initReader_brlen : (s.initReader).brlen = s.brlen := rfl
@[simp] theorem initReader_res0 : (s.initReader).res0 = s.res0 := rfl
@[simp] theorem initReader_res1 : (s.initReader).res1 = s.res1 := rfl
@[simp] theorem initReader_nleaves : (s.initReader).nleaves = s.nleaves := rfl
@[simp] theorem initReader_nnodes : (s.initReader).nnodes = s.nnodes := rfl
@[simp] theorem initReader_root : (s.initReader).root = s.root := rfl
@[simp] theorem initReader_bwNbits : (s.initReader).bwNbits = s.bwNbits := rfl
@[simp] theorem initReader_bwTail : (s.initReader).bwTail = s.bwTail := rfl
@[simp] theorem initReader_brPos : (s.initReader).brPos = 0 := rfl
@[simp] theorem initReader_brLimit : (s.initReader).brLimit = word (8 * s.sliceLength) := rfl
@[simp] theorem initReader_outN : (s.initReader).outN = s.outN := rfl
@[simp] theorem initReader_msel : (s.initReader).msel = s.msel := rfl
@[simp] theorem initReader_maddr : (s.initReader).maddr = s.maddr := rfl
@[simp] theorem initReader_symin : (s.initReader).symin = s.symin := rfl
@[simp] theorem initReader_symout : (s.initReader).symout = s.symout := rfl
@[simp] theorem initReader_bytemem : (s.initReader).bytemem = s.bytemem := rfl
@[simp] theorem initReader_freq : (s.initReader).freq = s.freq := rfl
@[simp] theorem initReader_node : (s.initReader).node = s.node := rfl
@[simp] theorem initReader_code : (s.initReader).code = s.code := rfl
@[simp] theorem initReader_params : (s.initReader).params = s.params := rfl
@[simp] theorem initReader_pending : (s.initReader).pending = s.pending := rfl
@[simp] theorem initReader_rdata : (s.initReader).rdata = s.rdata := rfl
@[simp] theorem initReader_draws : (s.initReader).draws = s.draws := rfl

/-! ### clearFreq -/
@[simp] theorem clearFreq_ie : (s.clearFreq).ie = s.ie := rfl
@[simp] theorem clearFreq_busy : (s.clearFreq).busy = s.busy := rfl
@[simp] theorem clearFreq_done : (s.clearFreq).done = s.done := rfl
@[simp] theorem clearFreq_haz : (s.clearFreq).haz = s.haz := rfl
@[simp] theorem clearFreq_ecode : (s.clearFreq).ecode = s.ecode := rfl
@[simp] theorem clearFreq_treeValid : (s.clearFreq).treeValid = s.treeValid := rfl
@[simp] theorem clearFreq_ctValid : (s.clearFreq).ctValid = s.ctValid := rfl
@[simp] theorem clearFreq_cmdl : (s.clearFreq).cmdl = s.cmdl := rfl
@[simp] theorem clearFreq_arg0 : (s.clearFreq).arg0 = s.arg0 := rfl
@[simp] theorem clearFreq_nsym : (s.clearFreq).nsym = s.nsym := rfl
@[simp] theorem clearFreq_brlen : (s.clearFreq).brlen = s.brlen := rfl
@[simp] theorem clearFreq_res0 : (s.clearFreq).res0 = s.res0 := rfl
@[simp] theorem clearFreq_res1 : (s.clearFreq).res1 = s.res1 := rfl
@[simp] theorem clearFreq_nleaves : (s.clearFreq).nleaves = s.nleaves := rfl
@[simp] theorem clearFreq_nnodes : (s.clearFreq).nnodes = s.nnodes := rfl
@[simp] theorem clearFreq_root : (s.clearFreq).root = s.root := rfl
@[simp] theorem clearFreq_bwNbits : (s.clearFreq).bwNbits = s.bwNbits := rfl
@[simp] theorem clearFreq_bwTail : (s.clearFreq).bwTail = s.bwTail := rfl
@[simp] theorem clearFreq_brPos : (s.clearFreq).brPos = s.brPos := rfl
@[simp] theorem clearFreq_brLimit : (s.clearFreq).brLimit = s.brLimit := rfl
@[simp] theorem clearFreq_outN : (s.clearFreq).outN = s.outN := rfl
@[simp] theorem clearFreq_msel : (s.clearFreq).msel = s.msel := rfl
@[simp] theorem clearFreq_maddr : (s.clearFreq).maddr = s.maddr := rfl
@[simp] theorem clearFreq_symin : (s.clearFreq).symin = s.symin := rfl
@[simp] theorem clearFreq_symout : (s.clearFreq).symout = s.symout := rfl
@[simp] theorem clearFreq_bytemem : (s.clearFreq).bytemem = s.bytemem := rfl
@[simp] theorem clearFreq_freq : (s.clearFreq).freq = Memory.fill 0 := rfl
@[simp] theorem clearFreq_node : (s.clearFreq).node = s.node := rfl
@[simp] theorem clearFreq_code : (s.clearFreq).code = s.code := rfl
@[simp] theorem clearFreq_params : (s.clearFreq).params = s.params := rfl
@[simp] theorem clearFreq_pending : (s.clearFreq).pending = s.pending := rfl
@[simp] theorem clearFreq_rdata : (s.clearFreq).rdata = s.rdata := rfl
@[simp] theorem clearFreq_draws : (s.clearFreq).draws = s.draws := rfl

/-! ### clearCode -/
@[simp] theorem clearCode_ie : (s.clearCode).ie = s.ie := rfl
@[simp] theorem clearCode_busy : (s.clearCode).busy = s.busy := rfl
@[simp] theorem clearCode_done : (s.clearCode).done = s.done := rfl
@[simp] theorem clearCode_haz : (s.clearCode).haz = s.haz := rfl
@[simp] theorem clearCode_ecode : (s.clearCode).ecode = s.ecode := rfl
@[simp] theorem clearCode_treeValid : (s.clearCode).treeValid = s.treeValid := rfl
@[simp] theorem clearCode_ctValid : (s.clearCode).ctValid = s.ctValid := rfl
@[simp] theorem clearCode_cmdl : (s.clearCode).cmdl = s.cmdl := rfl
@[simp] theorem clearCode_arg0 : (s.clearCode).arg0 = s.arg0 := rfl
@[simp] theorem clearCode_nsym : (s.clearCode).nsym = s.nsym := rfl
@[simp] theorem clearCode_brlen : (s.clearCode).brlen = s.brlen := rfl
@[simp] theorem clearCode_res0 : (s.clearCode).res0 = s.res0 := rfl
@[simp] theorem clearCode_res1 : (s.clearCode).res1 = s.res1 := rfl
@[simp] theorem clearCode_nleaves : (s.clearCode).nleaves = s.nleaves := rfl
@[simp] theorem clearCode_nnodes : (s.clearCode).nnodes = s.nnodes := rfl
@[simp] theorem clearCode_root : (s.clearCode).root = s.root := rfl
@[simp] theorem clearCode_bwNbits : (s.clearCode).bwNbits = s.bwNbits := rfl
@[simp] theorem clearCode_bwTail : (s.clearCode).bwTail = s.bwTail := rfl
@[simp] theorem clearCode_brPos : (s.clearCode).brPos = s.brPos := rfl
@[simp] theorem clearCode_brLimit : (s.clearCode).brLimit = s.brLimit := rfl
@[simp] theorem clearCode_outN : (s.clearCode).outN = s.outN := rfl
@[simp] theorem clearCode_msel : (s.clearCode).msel = s.msel := rfl
@[simp] theorem clearCode_maddr : (s.clearCode).maddr = s.maddr := rfl
@[simp] theorem clearCode_symin : (s.clearCode).symin = s.symin := rfl
@[simp] theorem clearCode_symout : (s.clearCode).symout = s.symout := rfl
@[simp] theorem clearCode_bytemem : (s.clearCode).bytemem = s.bytemem := rfl
@[simp] theorem clearCode_freq : (s.clearCode).freq = s.freq := rfl
@[simp] theorem clearCode_node : (s.clearCode).node = s.node := rfl
@[simp] theorem clearCode_code : (s.clearCode).code = Memory.fill CodeEntry.absent := rfl
@[simp] theorem clearCode_params : (s.clearCode).params = s.params := rfl
@[simp] theorem clearCode_pending : (s.clearCode).pending = s.pending := rfl
@[simp] theorem clearCode_rdata : (s.clearCode).rdata = s.rdata := rfl
@[simp] theorem clearCode_draws : (s.clearCode).draws = s.draws := rfl

/-! ### setOutN -/
@[simp] theorem setOutN_ie (v : Nat) : (s.setOutN v).ie = s.ie := rfl
@[simp] theorem setOutN_busy (v : Nat) : (s.setOutN v).busy = s.busy := rfl
@[simp] theorem setOutN_done (v : Nat) : (s.setOutN v).done = s.done := rfl
@[simp] theorem setOutN_haz (v : Nat) : (s.setOutN v).haz = s.haz := rfl
@[simp] theorem setOutN_ecode (v : Nat) : (s.setOutN v).ecode = s.ecode := rfl
@[simp] theorem setOutN_treeValid (v : Nat) : (s.setOutN v).treeValid = s.treeValid := rfl
@[simp] theorem setOutN_ctValid (v : Nat) : (s.setOutN v).ctValid = s.ctValid := rfl
@[simp] theorem setOutN_cmdl (v : Nat) : (s.setOutN v).cmdl = s.cmdl := rfl
@[simp] theorem setOutN_arg0 (v : Nat) : (s.setOutN v).arg0 = s.arg0 := rfl
@[simp] theorem setOutN_nsym (v : Nat) : (s.setOutN v).nsym = s.nsym := rfl
@[simp] theorem setOutN_brlen (v : Nat) : (s.setOutN v).brlen = s.brlen := rfl
@[simp] theorem setOutN_res0 (v : Nat) : (s.setOutN v).res0 = s.res0 := rfl
@[simp] theorem setOutN_res1 (v : Nat) : (s.setOutN v).res1 = s.res1 := rfl
@[simp] theorem setOutN_nleaves (v : Nat) : (s.setOutN v).nleaves = s.nleaves := rfl
@[simp] theorem setOutN_nnodes (v : Nat) : (s.setOutN v).nnodes = s.nnodes := rfl
@[simp] theorem setOutN_root (v : Nat) : (s.setOutN v).root = s.root := rfl
@[simp] theorem setOutN_bwNbits (v : Nat) : (s.setOutN v).bwNbits = s.bwNbits := rfl
@[simp] theorem setOutN_bwTail (v : Nat) : (s.setOutN v).bwTail = s.bwTail := rfl
@[simp] theorem setOutN_brPos (v : Nat) : (s.setOutN v).brPos = s.brPos := rfl
@[simp] theorem setOutN_brLimit (v : Nat) : (s.setOutN v).brLimit = s.brLimit := rfl
@[simp] theorem setOutN_outN (v : Nat) : (s.setOutN v).outN = word v := rfl
@[simp] theorem setOutN_msel (v : Nat) : (s.setOutN v).msel = s.msel := rfl
@[simp] theorem setOutN_maddr (v : Nat) : (s.setOutN v).maddr = s.maddr := rfl
@[simp] theorem setOutN_symin (v : Nat) : (s.setOutN v).symin = s.symin := rfl
@[simp] theorem setOutN_symout (v : Nat) : (s.setOutN v).symout = s.symout := rfl
@[simp] theorem setOutN_bytemem (v : Nat) : (s.setOutN v).bytemem = s.bytemem := rfl
@[simp] theorem setOutN_freq (v : Nat) : (s.setOutN v).freq = s.freq := rfl
@[simp] theorem setOutN_node (v : Nat) : (s.setOutN v).node = s.node := rfl
@[simp] theorem setOutN_code (v : Nat) : (s.setOutN v).code = s.code := rfl
@[simp] theorem setOutN_params (v : Nat) : (s.setOutN v).params = s.params := rfl
@[simp] theorem setOutN_pending (v : Nat) : (s.setOutN v).pending = s.pending := rfl
@[simp] theorem setOutN_rdata (v : Nat) : (s.setOutN v).rdata = s.rdata := rfl
@[simp] theorem setOutN_draws (v : Nat) : (s.setOutN v).draws = s.draws := rfl

/-! ### stepMaddr -/
@[simp] theorem stepMaddr_ie : (s.stepMaddr).ie = s.ie := rfl
@[simp] theorem stepMaddr_busy : (s.stepMaddr).busy = s.busy := rfl
@[simp] theorem stepMaddr_done : (s.stepMaddr).done = s.done := rfl
@[simp] theorem stepMaddr_haz : (s.stepMaddr).haz = s.haz := rfl
@[simp] theorem stepMaddr_ecode : (s.stepMaddr).ecode = s.ecode := rfl
@[simp] theorem stepMaddr_treeValid : (s.stepMaddr).treeValid = s.treeValid := rfl
@[simp] theorem stepMaddr_ctValid : (s.stepMaddr).ctValid = s.ctValid := rfl
@[simp] theorem stepMaddr_cmdl : (s.stepMaddr).cmdl = s.cmdl := rfl
@[simp] theorem stepMaddr_arg0 : (s.stepMaddr).arg0 = s.arg0 := rfl
@[simp] theorem stepMaddr_nsym : (s.stepMaddr).nsym = s.nsym := rfl
@[simp] theorem stepMaddr_brlen : (s.stepMaddr).brlen = s.brlen := rfl
@[simp] theorem stepMaddr_res0 : (s.stepMaddr).res0 = s.res0 := rfl
@[simp] theorem stepMaddr_res1 : (s.stepMaddr).res1 = s.res1 := rfl
@[simp] theorem stepMaddr_nleaves : (s.stepMaddr).nleaves = s.nleaves := rfl
@[simp] theorem stepMaddr_nnodes : (s.stepMaddr).nnodes = s.nnodes := rfl
@[simp] theorem stepMaddr_root : (s.stepMaddr).root = s.root := rfl
@[simp] theorem stepMaddr_bwNbits : (s.stepMaddr).bwNbits = s.bwNbits := rfl
@[simp] theorem stepMaddr_bwTail : (s.stepMaddr).bwTail = s.bwTail := rfl
@[simp] theorem stepMaddr_brPos : (s.stepMaddr).brPos = s.brPos := rfl
@[simp] theorem stepMaddr_brLimit : (s.stepMaddr).brLimit = s.brLimit := rfl
@[simp] theorem stepMaddr_outN : (s.stepMaddr).outN = s.outN := rfl
@[simp] theorem stepMaddr_msel : (s.stepMaddr).msel = s.msel := rfl
@[simp] theorem stepMaddr_maddr : (s.stepMaddr).maddr = s.maddr + 1 := rfl
@[simp] theorem stepMaddr_symin : (s.stepMaddr).symin = s.symin := rfl
@[simp] theorem stepMaddr_symout : (s.stepMaddr).symout = s.symout := rfl
@[simp] theorem stepMaddr_bytemem : (s.stepMaddr).bytemem = s.bytemem := rfl
@[simp] theorem stepMaddr_freq : (s.stepMaddr).freq = s.freq := rfl
@[simp] theorem stepMaddr_node : (s.stepMaddr).node = s.node := rfl
@[simp] theorem stepMaddr_code : (s.stepMaddr).code = s.code := rfl
@[simp] theorem stepMaddr_params : (s.stepMaddr).params = s.params := rfl
@[simp] theorem stepMaddr_pending : (s.stepMaddr).pending = s.pending := rfl
@[simp] theorem stepMaddr_rdata : (s.stepMaddr).rdata = s.rdata := rfl
@[simp] theorem stepMaddr_draws : (s.stepMaddr).draws = s.draws := rfl

/-! ### setHaz -/
@[simp] theorem setHaz_ie : (s.setHaz).ie = s.ie := rfl
@[simp] theorem setHaz_busy : (s.setHaz).busy = s.busy := rfl
@[simp] theorem setHaz_done : (s.setHaz).done = s.done := rfl
@[simp] theorem setHaz_haz : (s.setHaz).haz = true := rfl
@[simp] theorem setHaz_ecode : (s.setHaz).ecode = s.ecode := rfl
@[simp] theorem setHaz_treeValid : (s.setHaz).treeValid = s.treeValid := rfl
@[simp] theorem setHaz_ctValid : (s.setHaz).ctValid = s.ctValid := rfl
@[simp] theorem setHaz_cmdl : (s.setHaz).cmdl = s.cmdl := rfl
@[simp] theorem setHaz_arg0 : (s.setHaz).arg0 = s.arg0 := rfl
@[simp] theorem setHaz_nsym : (s.setHaz).nsym = s.nsym := rfl
@[simp] theorem setHaz_brlen : (s.setHaz).brlen = s.brlen := rfl
@[simp] theorem setHaz_res0 : (s.setHaz).res0 = s.res0 := rfl
@[simp] theorem setHaz_res1 : (s.setHaz).res1 = s.res1 := rfl
@[simp] theorem setHaz_nleaves : (s.setHaz).nleaves = s.nleaves := rfl
@[simp] theorem setHaz_nnodes : (s.setHaz).nnodes = s.nnodes := rfl
@[simp] theorem setHaz_root : (s.setHaz).root = s.root := rfl
@[simp] theorem setHaz_bwNbits : (s.setHaz).bwNbits = s.bwNbits := rfl
@[simp] theorem setHaz_bwTail : (s.setHaz).bwTail = s.bwTail := rfl
@[simp] theorem setHaz_brPos : (s.setHaz).brPos = s.brPos := rfl
@[simp] theorem setHaz_brLimit : (s.setHaz).brLimit = s.brLimit := rfl
@[simp] theorem setHaz_outN : (s.setHaz).outN = s.outN := rfl
@[simp] theorem setHaz_msel : (s.setHaz).msel = s.msel := rfl
@[simp] theorem setHaz_maddr : (s.setHaz).maddr = s.maddr := rfl
@[simp] theorem setHaz_symin : (s.setHaz).symin = s.symin := rfl
@[simp] theorem setHaz_symout : (s.setHaz).symout = s.symout := rfl
@[simp] theorem setHaz_bytemem : (s.setHaz).bytemem = s.bytemem := rfl
@[simp] theorem setHaz_freq : (s.setHaz).freq = s.freq := rfl
@[simp] theorem setHaz_node : (s.setHaz).node = s.node := rfl
@[simp] theorem setHaz_code : (s.setHaz).code = s.code := rfl
@[simp] theorem setHaz_params : (s.setHaz).params = s.params := rfl
@[simp] theorem setHaz_pending : (s.setHaz).pending = s.pending := rfl
@[simp] theorem setHaz_rdata : (s.setHaz).rdata = s.rdata := rfl
@[simp] theorem setHaz_draws : (s.setHaz).draws = s.draws := rfl

/-! ### issue -/
@[simp] theorem issue_ie (v : Word) : (s.issue v).ie = s.ie := rfl
@[simp] theorem issue_busy (v : Word) : (s.issue v).busy = true := rfl
@[simp] theorem issue_done (v : Word) : (s.issue v).done = false := rfl
@[simp] theorem issue_haz (v : Word) : (s.issue v).haz = s.haz := rfl
@[simp] theorem issue_ecode (v : Word) : (s.issue v).ecode = s.ecode := rfl
@[simp] theorem issue_treeValid (v : Word) : (s.issue v).treeValid = s.treeValid := rfl
@[simp] theorem issue_ctValid (v : Word) : (s.issue v).ctValid = s.ctValid := rfl
@[simp] theorem issue_cmdl (v : Word) : (s.issue v).cmdl = v := rfl
@[simp] theorem issue_arg0 (v : Word) : (s.issue v).arg0 = s.arg0 := rfl
@[simp] theorem issue_nsym (v : Word) : (s.issue v).nsym = s.nsym := rfl
@[simp] theorem issue_brlen (v : Word) : (s.issue v).brlen = s.brlen := rfl
@[simp] theorem issue_res0 (v : Word) : (s.issue v).res0 = s.res0 := rfl
@[simp] theorem issue_res1 (v : Word) : (s.issue v).res1 = s.res1 := rfl
@[simp] theorem issue_nleaves (v : Word) : (s.issue v).nleaves = s.nleaves := rfl
@[simp] theorem issue_nnodes (v : Word) : (s.issue v).nnodes = s.nnodes := rfl
@[simp] theorem issue_root (v : Word) : (s.issue v).root = s.root := rfl
@[simp] theorem issue_bwNbits (v : Word) : (s.issue v).bwNbits = s.bwNbits := rfl
@[simp] theorem issue_bwTail (v : Word) : (s.issue v).bwTail = s.bwTail := rfl
@[simp] theorem issue_brPos (v : Word) : (s.issue v).brPos = s.brPos := rfl
@[simp] theorem issue_brLimit (v : Word) : (s.issue v).brLimit = s.brLimit := rfl
@[simp] theorem issue_outN (v : Word) : (s.issue v).outN = s.outN := rfl
@[simp] theorem issue_msel (v : Word) : (s.issue v).msel = s.msel := rfl
@[simp] theorem issue_maddr (v : Word) : (s.issue v).maddr = s.maddr := rfl
@[simp] theorem issue_symin (v : Word) : (s.issue v).symin = s.symin := rfl
@[simp] theorem issue_symout (v : Word) : (s.issue v).symout = s.symout := rfl
@[simp] theorem issue_bytemem (v : Word) : (s.issue v).bytemem = s.bytemem := rfl
@[simp] theorem issue_freq (v : Word) : (s.issue v).freq = s.freq := rfl
@[simp] theorem issue_node (v : Word) : (s.issue v).node = s.node := rfl
@[simp] theorem issue_code (v : Word) : (s.issue v).code = s.code := rfl
@[simp] theorem issue_params (v : Word) : (s.issue v).params = s.params := rfl
@[simp] theorem issue_pending (v : Word) : (s.issue v).pending = s.pending := rfl
@[simp] theorem issue_rdata (v : Word) : (s.issue v).rdata = s.rdata := rfl
@[simp] theorem issue_draws (v : Word) : (s.issue v).draws = s.draws := rfl

end Sys2Proof.Machine.State
end

