-- ==== Sys2Proof/Laws/Ops.lean ====
section
/-! SUPPORT. The shared operations of Machine/Ops.lean: reads of entries, pseudocode in sequence, completion. -/

namespace Sys2Proof.Machine

/-! ## Reading entries -/

namespace State

/-- All that a read of an entry can do: the value written, or any value and one more draw (20_memory.md R223). -/
theorem entry_spec {w : Nat} (o : Option (BitVec w)) (s : State) :
    ∃ v d, s.entry o = (v, { s with draws := d }) ∧ ∀ x, o = some x → v = x ∧ d = s.draws := by
  cases o with
  | some x => exact ⟨x, s.draws, rfl, fun y hy => ⟨Option.some.inj hy, rfl⟩⟩
  | none => exact ⟨_, _, rfl, fun y hy => absurd hy (by simp)⟩

theorem entry_some {w : Nat} (v : BitVec w) (s : State) : s.entry (some v) = (v, s) := rfl

theorem readSymin_spec (i : Nat) (s : State) :
    ∃ v d, s.readSymin i = (v, { s with draws := d }) ∧ ∀ x, s.symin.get? i = some x → v = x ∧ d = s.draws :=
  entry_spec _ s

theorem readSymout_spec (i : Nat) (s : State) :
    ∃ v d, s.readSymout i = (v, { s with draws := d }) ∧ ∀ x, s.symout.get? i = some x → v = x ∧ d = s.draws :=
  entry_spec _ s

theorem readByte_spec (i : Nat) (s : State) :
    ∃ v d, s.readByte i = (v, { s with draws := d }) ∧ ∀ x, s.bytemem.get? i = some x → v = x ∧ d = s.draws :=
  entry_spec _ s

theorem readFreq_spec (i : Nat) (s : State) :
    ∃ v d, s.readFreq i = (v, { s with draws := d }) ∧ ∀ x, s.freq.get? i = some x → v = x ∧ d = s.draws :=
  entry_spec _ s

theorem readSymin_some {i : Nat} {s : State} {x : Symbol} (h : s.symin.get? i = some x) : s.readSymin i = (x, s) := by
  simp [readSymin, h, entry]

theorem readFreq_some {i : Nat} {s : State} {x : Weight} (h : s.freq.get? i = some x) : s.readFreq i = (x, s) := by
  simp [readFreq, h, entry]

end State

/-! ## Pseudocode in sequence -/

namespace Res

variable {α β : Type}

@[simp] theorem andThen_ok (a : α) (s : State) (k : α → State → Res β) : (Res.ok a s).andThen k = k a s := rfl

@[simp] theorem andThen_raise (e : Err) (s : State) (k : α → State → Res β) : (Res.raise e s).andThen k = .raise e s := rfl

/-- A sequence that ends with a value: both parts do. -/
theorem andThen_eq_ok {r : Res α} {k : α → State → Res β} {b : β} {t : State} :
    r.andThen k = .ok b t ↔ ∃ a s, r = .ok a s ∧ k a s = .ok b t := by
  cases r <;> simp

/-- A sequence that raises: the first part does, or it ends and the second does. -/
theorem andThen_eq_raise {r : Res α} {k : α → State → Res β} {e : Err} {t : State} :
    r.andThen k = .raise e t ↔ r = .raise e t ∨ ∃ a s, r = .ok a s ∧ k a s = .raise e t := by
  cases r <;> simp

/-- What holds of the state at the end of the first part, and is kept by the second, holds at the end of the whole. -/
theorem andThen_state {r : Res α} {k : α → State → Res β} {P : State → Prop} (hr : P r.state)
    (hk : ∀ a s, P s → P (k a s).state) : P (r.andThen k).state := by
  cases r with
  | ok a s => exact hk a s hr
  | raise e s => exact hr

end Res

/-! ## Completion -/

/-- All that the completion step does (40_control.md R403, R407; 60_exceptions.md R711). -/
theorem finish_cases (r : Res Results) :
    (∃ q s, r = .ok q s ∧ finish r = { s with res0 := q.res0.getD s.res0, res1 := q.res1.getD s.res1, busy := false,
                                              done := true, ecode := none }) ∨
    (∃ e s, r = .raise e s ∧ finish r = { s with busy := false, done := true, ecode := some e }) := by
  cases r with
  | ok q s => exact .inl ⟨q, s, rfl, rfl⟩
  | raise e s => exact .inr ⟨e, s, rfl, rfl⟩

theorem outcome_eq_next {r : Res Results} {t : State} : outcome r = .next t ↔ finish r = t := by simp [outcome]

@[simp] theorem finish_busy (r : Res Results) : (finish r).busy = false := by cases r <;> rfl

@[simp] theorem finish_done (r : Res Results) : (finish r).done = true := by cases r <;> rfl

end Sys2Proof.Machine
end

