-- ==== Sys2Proof/Laws/Arena.lean ====
section
/-! SUPPORT. The walk of an arena that holds a tree: the nodes met, their fields, their paths. -/

namespace Sys2Proof.Machine

namespace HTree

theorem leaves_pos (t : HTree) : 0 < t.leaves := by
  induction t with
  | leaf _ => simp [leaves]
  | node l r ihl ihr => simp [leaves]; omega

/-- |Pre| = 18K - 1 (45_serdes.md R551). -/
theorem pre_length (t : HTree) : t.pre.length = 18 * t.leaves - 1 := by
  induction t with
  | leaf _ => simp [pre, leaves]
  | node l r ihl ihr =>
    have := l.leaves_pos
    have := r.leaves_pos
    simp [pre, leaves, ihl, ihr]
    omega

/-- The fields, one after another, are Pre (45_serdes.md R550). -/
theorem fields_flatten (t : HTree) : t.fields.flatten = t.pre := by
  induction t with
  | leaf _ => simp [fields, pre]
  | node l r ihl ihr => simp [fields, pre, ihl, ihr]

/-- The reads, one after another, are Pre (45_serdes.md R553). -/
theorem reads_flatten (t : HTree) : t.reads.flatten = t.pre := by
  induction t with
  | leaf _ => simp [reads, pre]
  | node l r ihl ihr => simp [reads, pre, ihl, ihr]

theorem paths_length (t : HTree) : t.paths.length = t.leaves := by
  induction t with
  | leaf _ => rfl
  | node l r ihl ihr => simp [paths, leaves, ihl, ihr]

/-- The longest path (44_codetable.md R521). -/
theorem depth_eq_max (t : HTree) (m : Nat) :
    t.paths.foldl (fun d c => max d c.2.length) m = max m t.depth := by
  have key : ∀ (t : HTree) (m k : Nat), t.paths.foldl (fun d c => max d (c.2.length + k)) m = max m (t.depth + k) := by
    intro t
    induction t with
    | leaf _ => intro m k; simp [paths, depth]
    | node l r ihl ihr =>
      intro m k
      have h1 := ihl m (k + 1)
      have h2 := ihr (max m (l.depth + (k + 1))) (k + 1)
      simp only [paths, List.foldl_append, List.foldl_map, List.length_cons, depth]
      simp only [Nat.add_assoc, Nat.add_comm 1 k] at h1 h2 ⊢
      rw [h1, h2]
      omega
  simpa using key t m 0

end HTree

/-- The nodes the walk meets in the subtree t at index n with path p, in pre-order. -/
def visits (node : Nat → NodeRec) : Nat → Bits → HTree → List Visited
  | n, p, .leaf _ => [⟨n, p, node n⟩]
  | n, p, .node l r =>
    ⟨n, p, node n⟩ :: (visits node (node n).left.toNat (p ++ [false]) l ++ visits node (node n).right.toNat (p ++ [true]) r)

theorem visits_length (node : Nat → NodeRec) (t : HTree) : ∀ n p, (visits node n p t).length = 2 * t.leaves - 1 := by
  induction t with
  | leaf _ => exact fun _ _ => rfl
  | node l r ihl ihr =>
    intro n p
    have := l.leaves_pos
    have := r.leaves_pos
    simp [visits, HTree.leaves, ihl, ihr]
    omega

theorem visits_index (node : Nat → NodeRec) (t : HTree) : ∀ n p, (visits node n p t).map Visited.index = indexes node n t := by
  induction t with
  | leaf _ => exact fun _ _ => rfl
  | node l r ihl ihr => intro n p; simp [visits, indexes, ihl, ihr]

/-- The fields Emit appends (45_serdes.md R550). -/
theorem visits_emit {node : Nat → NodeRec} (t : HTree) : ∀ {n : Nat} (p : Bits), Holds node n t →
    (visits node n p t).map (fun v => emitField v.node) = t.fields := by
  induction t with
  | leaf sym => rintro n p ⟨hl, rfl⟩; simp [visits, emitField, hl, HTree.fields]
  | node l r ihl ihr =>
    rintro n p ⟨hl, h1, h2⟩
    rw [visits, List.map_cons, List.map_append, ihl _ h1, ihr _ h2]
    simp [HTree.fields, emitField, hl]

/-- The leaves met, with their paths, are the leaves of the tree (44_codetable.md R520). -/
theorem visits_leaves {node : Nat → NodeRec} (t : HTree) : ∀ {n : Nat} (p : Bits), Holds node n t →
    ((visits node n p t).filter (fun v => v.node.leaf)).map (fun v => (v.node.sym, v.path)) =
      t.paths.map (fun c => (c.1, p ++ c.2)) := by
  induction t with
  | leaf sym => rintro n p ⟨hl, rfl⟩; simp [visits, hl, HTree.paths]
  | node l r ihl ihr =>
    rintro n p ⟨hl, h1, h2⟩
    have a := ihl (p ++ [false]) h1
    have b := ihr (p ++ [true]) h2
    simp only [visits, List.filter_cons, hl, Bool.false_eq_true, if_false, List.filter_append, List.map_append, a, b]
    simp [HTree.paths, Function.comp_def]

/-- A tree stays where it is when none of its nodes is written. -/
theorem holds_congr {node node' : Nat → NodeRec} (t : HTree) : ∀ {n : Nat}, Holds node n t →
    (∀ i ∈ indexes node n t, node' i = node i) → Holds node' n t ∧ indexes node' n t = indexes node n t := by
  induction t with
  | leaf sym =>
    rintro n ⟨hl, hs⟩ h
    have := h n (by simp [indexes])
    exact ⟨⟨by rw [this, hl], by rw [this, hs]⟩, rfl⟩
  | node l r ihl ihr =>
    rintro n ⟨hl, h1, h2⟩ h
    have h0 := h n (by simp [indexes])
    obtain ⟨a1, a2⟩ := ihl h1 (fun i hi => h i (by simp [indexes, hi]))
    obtain ⟨b1, b2⟩ := ihr h2 (fun i hi => h i (by simp [indexes, hi]))
    refine ⟨⟨by rw [h0, hl], by rw [h0]; exact a1, by rw [h0]; exact b1⟩, ?_⟩
    simp only [indexes, h0, a2, b2]

theorem mem_indexes_self (node : Nat → NodeRec) (n : Nat) (t : HTree) : n ∈ indexes node n t := by
  cases t <;> simp [indexes]

theorem indexes_length (node : Nat → NodeRec) (t : HTree) (n : Nat) : (indexes node n t).length = 2 * t.leaves - 1 := by
  rw [← visits_index node t n [], List.length_map, visits_length]

theorem walkFrom_holds {node : Nat → NodeRec} (t : HTree) : ∀ {n : Nat} (p : Bits) (fuel : Nat) (stack : List (Nat × Bits)),
    Holds node n t → walkFrom node (2 * t.leaves - 1 + fuel) ((n, p) :: stack) =
      (walkFrom node fuel stack).map (visits node n p t ++ ·) := by
  induction t with
  | leaf sym =>
    rintro n p fuel stack ⟨hl, _⟩
    have : 2 * (HTree.leaf sym).leaves - 1 + fuel = fuel + 1 := by simp [HTree.leaves]; omega
    rw [this, walkFrom]
    simp [hl, visits]
  | node l r ihl ihr =>
    rintro n p fuel stack ⟨hl, h1, h2⟩
    have := l.leaves_pos
    have := r.leaves_pos
    have hf : 2 * (HTree.node l r).leaves - 1 + fuel = (2 * l.leaves - 1 + (2 * r.leaves - 1 + fuel)) + 1 := by
      simp [HTree.leaves]; omega
    rw [hf, walkFrom]
    simp only [hl, Bool.false_eq_true, if_false]
    rw [ihl _ _ _ h1, ihr _ _ _ h2]
    cases walkFrom node fuel stack <;> simp [visits]

/-- The walk of an arena that holds a tree within NODE_CAP meets exactly the tree's nodes. -/
theorem State.walk_of_holds {s : State} {t : HTree} (h : Holds s.nodeAt s.root.toNat t) (hk : t.leaves ≤ alphabetSize) :
    s.walk = some (visits s.nodeAt s.root.toNat [] t) := by
  have h1 : 2 * t.leaves - 1 + (nodeCap - (2 * t.leaves - 1)) = nodeCap := by
    unfold nodeCap alphabetSize at *; omega
  have h2 := walkFrom_holds t [] (nodeCap - (2 * t.leaves - 1)) [] h
  rw [h1] at h2
  rw [State.walk, h2]
  cases (nodeCap - (2 * t.leaves - 1)) <;> simp [walkFrom]

end Sys2Proof.Machine
end

