-- ==== Sys2Proof/Laws/BitIO.lean ====
section
/-! SUPPORT. The bit writer and the bit reader: one lemma per primitive that says all it does. -/

namespace Sys2Proof.Machine

/-! ## Words -/

theorem word_toNat {n : Nat} (h : n < 2 ^ 32) : (word n).toNat = n := by
  simpa [word] using Nat.mod_eq_of_lt h

/-! ## Bits of a byte memory -/

theorem Memory.bit_congr {m m' : Memory Byte} {k : Nat} (h : m'.get? (k / 8) = m.get? (k / 8)) : m'.bit k = m.bit k := by
  unfold Memory.bit
  rw [h]

theorem Memory.holds_nil (m : Memory Byte) (k : Nat) : m.holds k [] := fun j hj => absurd hj (Nat.not_lt_zero j)

theorem Memory.holds_append {m : Memory Byte} {k : Nat} {bs cs : Bits} :
    m.holds k (bs ++ cs) ↔ m.holds k bs ∧ m.holds (k + bs.length) cs := by
  constructor
  · intro h
    refine ⟨fun j hj => ?_, fun j hj => ?_⟩
    · have := h j (by simp; omega)
      rwa [List.getElem?_append_left hj] at this
    · have := h (bs.length + j) (by simp; omega)
      rw [List.getElem?_append_right (by omega)] at this
      simpa [Nat.add_assoc] using this
  · rintro ⟨h1, h2⟩ j hj
    by_cases hlt : j < bs.length
    · rw [List.getElem?_append_left hlt, h1 j hlt]
    · have := h2 (j - bs.length) (by simp at hj; omega)
      rw [List.getElem?_append_right (by omega), ← this]
      congr 1
      omega

theorem Memory.holds_cons {m : Memory Byte} {k : Nat} {b : Bool} {bs : Bits} :
    m.holds k (b :: bs) ↔ m.bit k = some b ∧ m.holds (k + 1) bs := by
  have := Memory.holds_append (m := m) (k := k) (bs := [b]) (cs := bs)
  rw [List.singleton_append] at this
  rw [this]
  simp [Memory.holds]

theorem Memory.holds_congr {m m' : Memory Byte} {k : Nat} {bs : Bits}
    (h : ∀ j, j < bs.length → m'.bit (k + j) = m.bit (k + j)) (hm : m.holds k bs) : m'.holds k bs :=
  fun j hj => by rw [h j hj, hm j hj]

namespace Memory

theorem sameOutside_refl {α : Type} (m : Memory α) (lo hi : Nat) : m.sameOutside m lo hi := fun _ _ => rfl

theorem sameOutside_trans {α : Type} {m m1 m2 : Memory α} {lo mid hi : Nat} (h1 : m.sameOutside m1 lo mid)
    (h2 : m1.sameOutside m2 mid hi) (hlo : lo ≤ mid) (hhi : mid ≤ hi) : m.sameOutside m2 lo hi := by
  intro a ha
  rw [h2 a (by omega), h1 a (by omega)]

end Memory

/-! ## The writer -/

namespace State

/-- What an append does: only the writer's registers and the bytes it completes change, the stream is extended by bs. -/
structure Appends (s t : State) (bs : Bits) : Prop where
  only : t = { s with bwNbits := t.bwNbits, bwTail := t.bwTail, bytemem := t.bytemem }
  extends_ : s.extendsBy t bs
  ok : t.WriterOk
  outside : s.bytemem.sameOutside t.bytemem (s.bwNbits.toNat / 8) (t.bwNbits.toNat / 8)
  wf : Memory.wf s.params.byteCap s.bytemem → Memory.wf s.params.byteCap t.bytemem

theorem Appends.refl {s : State} (h : s.WriterOk) : s.Appends s [] where
  only := rfl
  extends_ := ⟨by simp, fun _ _ => rfl, fun j hj => absurd hj (Nat.not_lt_zero j)⟩
  ok := h
  outside := Memory.sameOutside_refl _ _ _
  wf := id

theorem Appends.params {s t : State} {bs : Bits} (h : s.Appends t bs) : t.params = s.params := by rw [h.only]

theorem Appends.nbits {s t : State} {bs : Bits} (h : s.Appends t bs) :
    t.bwNbits.toNat = s.bwNbits.toNat + bs.length := h.extends_.1

theorem extendsBy_trans {s t u : State} {bs cs : Bits} (h1 : s.extendsBy t bs) (h2 : t.extendsBy u cs) :
    s.extendsBy u (bs ++ cs) := by
  obtain ⟨n1, k1, b1⟩ := h1
  obtain ⟨n2, k2, b2⟩ := h2
  refine ⟨by rw [n2, n1, List.length_append]; omega, fun k hk => by rw [k2 k (by omega), k1 k hk], fun j hj => ?_⟩
  by_cases hlt : j < bs.length
  · rw [k2 _ (by omega), b1 j hlt, List.getElem?_append_left hlt]
  · have := b2 (j - bs.length) (by simp at hj; omega)
    rw [List.getElem?_append_right (by omega), ← this]
    congr 1
    omega

theorem Appends.trans {s t u : State} {bs cs : Bits} (h1 : s.Appends t bs) (h2 : t.Appends u cs) :
    s.Appends u (bs ++ cs) where
  only := by
    have a := h1.only
    have b := h2.only
    rw [a] at b
    exact b
  extends_ := extendsBy_trans h1.extends_ h2.extends_
  ok := h2.ok
  outside := by
    refine Memory.sameOutside_trans h1.outside h2.outside ?_ ?_
    · rw [h1.nbits]; omega
    · rw [h2.nbits]; omega
  wf := fun h => by
    have := h2.wf (h1.params ▸ h1.wf h)
    rwa [h1.params] at this

/-- One bit into the writer. -/
theorem pushBit_appends {s : State} (hp : s.params.legal) (hw : s.WriterOk) (b : Bool)
    (hfit : s.bwNbits.toNat + 1 ≤ 8 * s.params.byteCap) : s.Appends (s.pushBit b) [b] := by
  have hn : (word (s.bwNbits.toNat + 1)).toNat = s.bwNbits.toNat + 1 := word_toNat (by have := hp.2.2; omega)
  by_cases hc : s.bwNbits.toNat % 8 = 7
  · have hpush : s.pushBit b = { s with
        bwNbits := word (s.bwNbits.toNat + 1), bwTail := 0
        bytemem := s.bytemem.write (s.bwNbits.toNat / 8) (setByteBit s.bwTail 0 b) } := by
      have : (s.bwNbits.toNat + 1) / 8 - 1 = s.bwNbits.toNat / 8 := by omega
      simp [pushBit, hc, this, writeByte]
    rw [hpush]
    refine ⟨rfl, ⟨by simpa using hn, fun k hk => ?_, fun j hj => ?_⟩, ⟨by simp [hn]; omega, fun j _ => by simp⟩, ?_, ?_⟩
    · simp only [writerBit, hn]
      rw [if_pos (by omega)]
      by_cases hk8 : k / 8 = s.bwNbits.toNat / 8
      · rw [if_neg (by omega)]
        simp only [Memory.bit, hk8, Memory.get?_write_same, Option.map_some, Option.some.injEq, streamBit]
        rw [getLsbD_setByteBit _ _ (by omega) (by omega), if_neg (by omega)]
      · rw [if_pos (by omega)]
        exact Memory.bit_congr (Memory.get?_write_other _ _ hk8)
    · obtain rfl : j = 0 := by simpa using hj
      simp only [writerBit, hn]
      rw [if_pos (by omega)]
      simp only [Memory.bit, Nat.add_zero, Memory.get?_write_same, Option.map_some, streamBit, hc]
      rw [getLsbD_setByteBit _ _ (by omega) (by omega)]
      simp
    · intro a ha
      simp only [hn] at ha
      exact Memory.get?_write_other _ _ (by omega)
    · intro h
      exact Memory.wf_write _ h (by omega)
  · have hpush : s.pushBit b = { s with
        bwNbits := word (s.bwNbits.toNat + 1)
        bwTail := setByteBit s.bwTail (7 - s.bwNbits.toNat % 8) b } := by
      simp [pushBit, hc]
    have hdiv : (s.bwNbits.toNat + 1) / 8 = s.bwNbits.toNat / 8 := by omega
    rw [hpush]
    refine ⟨rfl, ⟨by simpa using hn, fun k hk => ?_, fun j hj => ?_⟩, ⟨by simp [hn]; omega, fun j hj => ?_⟩, ?_, ?_⟩
    · simp only [writerBit, hn, hdiv]
      split
      · rfl
      · simp only [Option.some.injEq, streamBit]
        rw [getLsbD_setByteBit _ _ (by omega) (by omega), if_neg (by omega)]
    · obtain rfl : j = 0 := by simpa using hj
      simp only [writerBit, hn, hdiv]
      rw [if_neg (by omega)]
      simp only [streamBit, Nat.add_zero]
      rw [getLsbD_setByteBit _ _ (by omega) (by omega)]
      simp
    · simp only [hn] at hj ⊢
      rw [getLsbD_setByteBit _ _ (by omega) (by omega), if_neg (by omega)]
      exact hw.tail j (by omega)
    · exact fun _ _ => rfl
    · exact id

theorem foldl_pushBit_appends {bs : Bits} : ∀ {s : State}, s.params.legal → s.WriterOk →
    s.bwNbits.toNat + bs.length ≤ 8 * s.params.byteCap → s.Appends (bs.foldl pushBit s) bs := by
  induction bs with
  | nil => exact fun _ hw _ => Appends.refl hw
  | cons b bs ih =>
    intro s hp hw hfit
    simp only [List.length_cons] at hfit
    have h1 := pushBit_appends hp hw b (by omega)
    have h2 := ih (s := s.pushBit b) (h1.params ▸ hp) h1.ok (by rw [h1.nbits, h1.params]; simp; omega)
    exact h1.trans h2

/-- AppendBits(bs) where bs fits (41_bitio.md R420). -/
theorem appendBits_ok {s : State} (hp : s.params.legal) (hw : s.WriterOk) {bs : Bits}
    (hfit : s.bwNbits.toNat + bs.length ≤ 8 * s.params.byteCap) :
    ∃ t, s.appendBits bs = .ok () t ∧ s.Appends t bs :=
  ⟨_, if_neg (by simp only [writerCapacity]; omega), foldl_pushBit_appends hp hw hfit⟩

/-- AppendBits(bs) where bs does not fit: nothing appended (41_bitio.md R420). -/
theorem appendBits_raise {s : State} {bs : Bits} (hfit : 8 * s.params.byteCap < s.bwNbits.toNat + bs.length) :
    s.appendBits bs = .raise .outputOverflow s := if_pos (by simp only [writerCapacity]; omega)

/-- All that AppendBits can do. -/
theorem appendBits_cases {s : State} (hp : s.params.legal) (hw : s.WriterOk) (bs : Bits) :
    (∃ t, s.appendBits bs = .ok () t ∧ s.Appends t bs ∧ s.bwNbits.toNat + bs.length ≤ 8 * s.params.byteCap) ∨
      (s.appendBits bs = .raise .outputOverflow s ∧ 8 * s.params.byteCap < s.bwNbits.toNat + bs.length) := by
  by_cases h : s.bwNbits.toNat + bs.length ≤ 8 * s.params.byteCap
  · obtain ⟨t, h1, h2⟩ := appendBits_ok hp hw h
    exact .inl ⟨t, h1, h2, h⟩
  · exact .inr ⟨appendBits_raise (by omega), by omega⟩

/-- Fields appended one after another where all of them fit (45_serdes.md R550). -/
theorem appendAll_ok {fields : List Bits} : ∀ {s : State}, s.params.legal → s.WriterOk →
    s.bwNbits.toNat + fields.flatten.length ≤ 8 * s.params.byteCap →
    ∃ t, s.appendAll fields = .ok () t ∧ s.Appends t fields.flatten := by
  induction fields with
  | nil => exact fun _ hw _ => ⟨_, rfl, Appends.refl hw⟩
  | cons bs fields ih =>
    intro s hp hw hfit
    simp only [List.flatten_cons, List.length_append] at hfit
    obtain ⟨t, ht, ha⟩ := appendBits_ok hp hw (bs := bs) (by omega)
    obtain ⟨u, hu, hb⟩ := ih (s := t) (ha.params ▸ hp) ha.ok (by rw [ha.nbits, ha.params]; omega)
    exact ⟨u, by simp [appendAll, ht, Res.andThen, hu], ha.trans hb⟩

/-- All that a run of fields can do: all appended, or the ones before the first that does not fit (45_serdes.md R550,
60_exceptions.md R711). -/
theorem appendAll_cases {fields : List Bits} : ∀ {s : State}, s.params.legal → s.WriterOk →
    (∃ t, s.appendAll fields = .ok () t ∧ s.Appends t fields.flatten ∧
      s.bwNbits.toNat + fields.flatten.length ≤ 8 * s.params.byteCap) ∨
    (∃ t bs, s.appendAll fields = .raise .outputOverflow t ∧ s.Appends t bs ∧
      stopsAfter (8 * s.params.byteCap) s.bwNbits.toNat fields bs) := by
  induction fields with
  | nil => exact fun _ hw => .inl ⟨_, rfl, Appends.refl hw, by simpa using hw.fits⟩
  | cons cs fields ih =>
    intro s hp hw
    rcases appendBits_cases hp hw cs with ⟨t, ht, ha, hfit⟩ | ⟨hr, hfit⟩
    · rcases ih (s := t) (ha.params ▸ hp) ha.ok with ⟨u, hu, hb, hfit'⟩ | ⟨u, bs, hu, hb, before, field, after, h1, h2, h3, h4⟩
      · refine .inl ⟨u, by simp [appendAll, ht, Res.andThen, hu], ha.trans hb, ?_⟩
        rw [ha.nbits, ha.params] at hfit'
        simp only [List.flatten_cons, List.length_append]
        omega
      · rw [ha.nbits, ha.params] at h3 h4
        refine .inr ⟨u, cs ++ bs, by simp [appendAll, ht, Res.andThen, hu], ha.trans hb, cs :: before, field, after,
          by simp [h1], by simp [h2], ?_, ?_⟩ <;> rw [List.length_append] <;> omega
    · refine .inr ⟨s, [], by simp [appendAll, hr, Res.andThen], Appends.refl hw, [], cs, fields, rfl, rfl, ?_, ?_⟩
      · simpa using hw.fits
      · simpa using hfit

theorem bwTail_eq_zero {s : State} (hw : s.WriterOk) (h : s.bwNbits.toNat % 8 = 0) : s.bwTail = 0 := by
  apply BitVec.eq_of_getLsbD_eq
  intro i hi
  rw [hw.tail i (by omega)]
  simp

/-- Finalize() (41_bitio.md R421). -/
theorem finalize_spec {s : State} (hw : s.WriterOk) :
    ∃ m, s.finalize = (((s.bwNbits.toNat + padTo8 s.bwNbits.toNat) / 8, padTo8 s.bwNbits.toNat),
        { s with bwNbits := word (s.bwNbits.toNat + padTo8 s.bwNbits.toNat), bwTail := 0, bytemem := m }) ∧
      (∀ k, k < s.bwNbits.toNat → m.bit k = s.writerBit k) ∧
      m.holds s.bwNbits.toNat (List.replicate (padTo8 s.bwNbits.toNat) false) ∧
      (padTo8 s.bwNbits.toNat = 0 → m = s.bytemem) ∧
      s.bytemem.sameOutside m (s.bwNbits.toNat / 8) (s.bwNbits.toNat / 8 + 1) ∧
      (Memory.wf s.params.byteCap s.bytemem → Memory.wf s.params.byteCap m) := by
  have hfits := hw.fits
  by_cases hpz : padTo8 s.bwNbits.toNat = 0
  · have hmod : s.bwNbits.toNat % 8 = 0 := by unfold padTo8 at hpz; omega
    refine ⟨s.bytemem, ?_, fun k hk => ?_, ?_, fun _ => rfl, Memory.sameOutside_refl _ _ _, id⟩
    · have h1 : s.padding = 0 := hpz
      have h2 : word s.bwNbits.toNat = s.bwNbits := by simp [word]
      have h3 := bwTail_eq_zero hw hmod
      simp only [finalize, h1, hpz, Nat.add_zero, h2, gt_iff_lt, Nat.lt_irrefl, if_false, ← h3]
    · rw [writerBit, if_pos (by omega)]
    · rw [hpz]; exact Memory.holds_nil _ _
  · have hmod : s.bwNbits.toNat % 8 ≠ 0 := by intro h; apply hpz; unfold padTo8; omega
    refine ⟨s.bytemem.write (s.bwNbits.toNat / 8) s.bwTail, ?_, fun k hk => ?_, fun j hj => ?_, fun h => absurd h hpz,
      fun a ha => Memory.get?_write_other _ _ (by omega), fun h => Memory.wf_write _ h (by omega)⟩
    · have h1 : s.padding = padTo8 s.bwNbits.toNat := rfl
      simp only [finalize, h1, gt_iff_lt, Nat.pos_of_ne_zero hpz, if_true]
      rfl
    · by_cases hk8 : k / 8 = s.bwNbits.toNat / 8
      · rw [writerBit, if_neg (by omega)]
        simp [Memory.bit, hk8]
      · rw [writerBit, if_pos (by omega)]
        exact Memory.bit_congr (Memory.get?_write_other _ _ hk8)
    · simp only [List.length_replicate] at hj
      have hpad : padTo8 s.bwNbits.toNat = 8 - s.bwNbits.toNat % 8 := by unfold padTo8; omega
      have h8 : (s.bwNbits.toNat + j) / 8 = s.bwNbits.toNat / 8 := by omega
      have hm8 : (s.bwNbits.toNat + j) % 8 = s.bwNbits.toNat % 8 + j := by omega
      simp only [Memory.bit, h8, Memory.get?_write_same, Option.map_some, streamBit, hm8]
      rw [hw.tail _ (by omega)]
      simp [hj]

/-! ## The reader -/

/-- ReadBit() where the byte is written (41_bitio.md R423). -/
theorem readBit_ok {s : State} {b : Bool} (hpos : s.brPos.toNat < s.brLimit.toNat)
    (hb : s.bytemem.bit s.brPos.toNat = some b) :
    s.readBit = .ok b { s with brPos := word (s.brPos.toNat + 1) } := by
  unfold Memory.bit at hb
  obtain ⟨x, hx, rfl⟩ := Option.map_eq_some_iff.mp hb
  simp [readBit, Nat.not_le.mpr hpos, readByte, entry, hx]

/-- ReadBit() at the end of the slice (41_bitio.md R423). -/
theorem readBit_raise {s : State} (hpos : s.brLimit.toNat ≤ s.brPos.toNat) :
    s.readBit = .raise .malformedContainer s := if_pos hpos

/-- All that ReadBit() can do: the cursor moves by one and only `draws` besides may change, or nothing changes. -/
theorem readBit_cases (s : State) :
    (∃ b d, s.readBit = .ok b { s with brPos := word (s.brPos.toNat + 1), draws := d } ∧
      s.brPos.toNat < s.brLimit.toNat) ∨
      (s.readBit = .raise .malformedContainer s ∧ s.brLimit.toNat ≤ s.brPos.toNat) := by
  by_cases h : s.brLimit.toNat ≤ s.brPos.toNat
  · exact .inr ⟨readBit_raise h, h⟩
  · refine .inl ?_
    cases hx : s.bytemem.get? (s.brPos.toNat / 8) with
    | some x =>
      exact ⟨streamBit x s.brPos.toNat, s.draws, by simp [readBit, h, readByte, entry, hx], by omega⟩
    | none =>
      exact ⟨_, s.draws + 1, by simp [readBit, h, readByte, entry, hx, draw]; rfl, by omega⟩

theorem readBitsFrom_ok {bs : Bits} : ∀ {s : State} {v : Nat}, s.brPos.toNat + bs.length ≤ s.brLimit.toNat →
    s.bytemem.holds s.brPos.toNat bs →
    s.readBitsFrom bs.length v =
      .ok (v * 2 ^ bs.length + valOf bs) { s with brPos := word (s.brPos.toNat + bs.length) } := by
  induction bs with
  | nil =>
    intro s v _ _
    simp [readBitsFrom, word]
  | cons b bs ih =>
    intro s v hfit hh
    have hlim := s.brLimit.isLt
    rw [Memory.holds_cons] at hh
    simp only [List.length_cons] at hfit
    have hn : (word (s.brPos.toNat + 1)).toNat = s.brPos.toNat + 1 := word_toNat (by omega)
    have := ih (s := { s with brPos := word (s.brPos.toNat + 1) }) (v := 2 * v + b.toNat)
      (by simp only [hn]; omega) (by simpa only [hn] using hh.2)
    simp only [List.length_cons, readBitsFrom, readBit_ok (show s.brPos.toNat < s.brLimit.toNat by omega) hh.1,
      Res.andThen, this, hn, valOf_cons, pow_succ, Nat.add_assoc, Nat.add_comm 1]
    congr 1
    ring

/-- ReadBits(w) where the bits are written (41_bitio.md R424). -/
theorem readBits_ok {s : State} {bs : Bits} (hfit : s.brPos.toNat + bs.length ≤ s.brLimit.toNat)
    (hh : s.bytemem.holds s.brPos.toNat bs) :
    s.readBits bs.length = .ok (valOf bs) { s with brPos := word (s.brPos.toNat + bs.length) } := by
  simp [readBits, Nat.not_lt.mpr hfit, readBitsFrom_ok hfit hh]

/-- ReadBits(w) past the end of the slice consumes nothing (41_bitio.md R424). -/
theorem readBits_raise {s : State} {w : Nat} (h : s.brLimit.toNat < s.brPos.toNat + w) :
    s.readBits w = .raise .malformedContainer s := if_pos h

theorem readBitsFrom_cases (w : Nat) : ∀ (s : State) (v : Nat), s.brPos.toNat + w ≤ s.brLimit.toNat →
    ∃ x d, s.readBitsFrom w v = .ok (v * 2 ^ w + x) { s with brPos := word (s.brPos.toNat + w), draws := d } ∧
      x < 2 ^ w := by
  induction w with
  | zero => exact fun s v _ => ⟨0, s.draws, by simp [readBitsFrom, word], by simp⟩
  | succ w ih =>
    intro s v hfit
    have hlim := s.brLimit.isLt
    have hn : (word (s.brPos.toNat + 1)).toNat = s.brPos.toNat + 1 := word_toNat (by omega)
    rcases readBit_cases s with ⟨b, d, hb, _⟩ | ⟨_, h⟩
    · obtain ⟨x, d', hx, hlt⟩ := ih { s with brPos := word (s.brPos.toNat + 1), draws := d } (2 * v + b.toNat)
        (by simp only [hn]; omega)
      refine ⟨b.toNat * 2 ^ w + x, d', ?_, ?_⟩
      · simp only [readBitsFrom, hb, Res.andThen, hx, hn, Nat.add_assoc, Nat.add_comm 1]
        congr 1
        rw [pow_succ]
        ring
      · rw [pow_succ]
        cases b <;> simp <;> omega
    · omega

/-- All that ReadBits(w) can do. -/
theorem readBits_cases (w : Nat) (s : State) :
    (∃ x d, s.readBits w = .ok x { s with brPos := word (s.brPos.toNat + w), draws := d } ∧ x < 2 ^ w ∧
      s.brPos.toNat + w ≤ s.brLimit.toNat) ∨
      (s.readBits w = .raise .malformedContainer s ∧ s.brLimit.toNat < s.brPos.toNat + w) := by
  by_cases h : s.brLimit.toNat < s.brPos.toNat + w
  · exact .inr ⟨readBits_raise h, h⟩
  · obtain ⟨x, d, hx, hlt⟩ := readBitsFrom_cases w s 0 (by omega)
    exact .inl ⟨x, d, by simpa [readBits, h] using hx, hlt, by omega⟩

end State

end Sys2Proof.Machine
end

