-- ==== Sys2Proof/Laws/CodeTable.lean ====
section
/-! SUPPORT. The code table generator's loop: all it can do, and what it records on distinct and on repeated symbols. -/

namespace Sys2Proof.Machine

/-- The leaves among the nodes met, with their paths. -/
def leavesOf (vs : List Visited) : List (Symbol × Bits) :=
  (vs.filter (fun v => v.node.leaf)).map (fun v => (v.node.sym, v.path))

theorem leavesOf_cons (v : Visited) (vs : List Visited) :
    leavesOf (v :: vs) = if v.node.leaf then (v.node.sym, v.path) :: leavesOf vs else leavesOf vs := by
  unfold leavesOf
  rw [List.filter_cons]
  split <;> rfl

theorem State.codeAt_writeCode (s : State) (i j : Nat) (e : CodeEntry) :
    (s.writeCode i e).codeAt j = if j = i then e else s.codeAt j := by
  simp only [State.codeAt, State.writeCode, Memory.get?_write]
  split <;> rfl

/-- All that the loop can do: it writes CODE, and the one error is INTERNAL_INVARIANT (44_codetable.md R521). -/
theorem visitNodes_spec (vs : List Visited) : ∀ (mx : Nat) (s : State), ∃ c, (visitNodes vs mx s).state = { s with code := c } ∧
    (Memory.wf alphabetSize s.code → Memory.wf alphabetSize c) ∧
    (∀ e t, visitNodes vs mx s = .raise e t → e = .internalInvariant) := by
  induction vs with
  | nil => exact fun mx s => ⟨s.code, rfl, id, by simp [visitNodes]⟩
  | cons v vs ih =>
    intro mx s
    unfold visitNodes
    split
    · split
      · exact ⟨s.code, rfl, id, by simp +contextual⟩
      · obtain ⟨c, hc, hw, he⟩ := ih (max mx v.path.length) (s.writeCode v.node.sym.toNat (CodeEntry.ofPath v.path))
        exact ⟨c, hc, fun h => hw (Memory.wf_write _ h v.node.sym.isLt), he⟩
    · exact ih mx s

/-- The loop on distinct symbols none of which has a code yet (44_codetable.md R521). -/
theorem visitNodes_distinct (vs : List Visited) : ∀ (mx : Nat) (s : State), ((leavesOf vs).map Prod.fst).Nodup →
    (∀ c ∈ leavesOf vs, (s.codeAt c.1.toNat).valid = false) →
    ∃ c, visitNodes vs mx s = .ok ((leavesOf vs).foldl (fun d x => max d x.2.length) mx) { s with code := c } ∧
      (∀ x ∈ leavesOf vs, State.codeAt { s with code := c } x.1.toNat = CodeEntry.ofPath x.2) ∧
      (∀ sym : Symbol, sym ∉ (leavesOf vs).map Prod.fst →
        State.codeAt { s with code := c } sym.toNat = s.codeAt sym.toNat) := by
  induction vs with
  | nil => exact fun mx s _ _ => ⟨s.code, rfl, by simp [leavesOf], fun _ _ => rfl⟩
  | cons v vs ih =>
    intro mx s hn hv
    rw [leavesOf_cons] at hn hv ⊢
    unfold visitNodes
    by_cases hl : v.node.leaf = true
    · simp only [hl, if_true, List.map_cons, List.nodup_cons] at hn hv ⊢
      have h0 : (s.codeAt v.node.sym.toNat).valid = false := hv (v.node.sym, v.path) (by simp)
      have hne : ∀ x ∈ leavesOf vs, x.1.toNat ≠ v.node.sym.toNat := fun x hx h =>
        hn.1 (List.mem_map.mpr ⟨x, hx, BitVec.eq_of_toNat_eq h⟩)
      obtain ⟨c, hc, hp, hm⟩ := ih (max mx v.path.length) (s.writeCode v.node.sym.toNat (CodeEntry.ofPath v.path)) hn.2
        (fun x hx => by
          rw [State.codeAt_writeCode, if_neg (hne x hx)]
          exact hv x (List.mem_cons_of_mem _ hx))
      refine ⟨c, by simp only [h0, Bool.false_eq_true, if_false]; exact hc, fun x hx => ?_, fun sym hs => ?_⟩
      · rcases List.mem_cons.mp hx with rfl | hx
        · have := hm v.node.sym hn.1
          rw [State.codeAt_writeCode, if_pos rfl] at this
          exact this
        · exact hp x hx
      · simp only [List.mem_cons, not_or] at hs
        have := hm sym hs.2
        rw [State.codeAt_writeCode, if_neg (fun h => hs.1 (BitVec.eq_of_toNat_eq h))] at this
        exact this
    · simp only [hl, Bool.false_eq_true, if_false] at hn hv ⊢
      exact ih mx s hn hv

/-- The loop on symbols one of which is repeated or has a code already (44_codetable.md R521, R524). -/
theorem visitNodes_repeated (vs : List Visited) : ∀ (mx : Nat) (s : State),
    ¬ (((leavesOf vs).map Prod.fst).Nodup ∧ ∀ c ∈ leavesOf vs, (s.codeAt c.1.toNat).valid = false) →
    ∃ c, visitNodes vs mx s = .raise .internalInvariant { s with code := c } := by
  induction vs with
  | nil => exact fun mx s h => absurd ⟨by simp [leavesOf], by simp [leavesOf]⟩ h
  | cons v vs ih =>
    intro mx s h
    rw [leavesOf_cons] at h
    unfold visitNodes
    by_cases hl : v.node.leaf = true
    · simp only [hl, if_true, List.map_cons, List.nodup_cons] at h ⊢
      by_cases h0 : (s.codeAt v.node.sym.toNat).valid = true
      · exact ⟨s.code, by simp [h0]⟩
      · simp only [h0, Bool.false_eq_true, if_false]
        refine ih _ (s.writeCode v.node.sym.toNat (CodeEntry.ofPath v.path)) (fun hcon => h ?_)
        obtain ⟨hn, hv⟩ := hcon
        have hne : ∀ x ∈ leavesOf vs, x.1.toNat ≠ v.node.sym.toNat := fun x hx heq => by
          have := hv x hx
          rw [State.codeAt_writeCode, if_pos heq] at this
          simp [CodeEntry.ofPath] at this
        refine ⟨⟨fun hm => ?_, hn⟩, fun x hx => ?_⟩
        · obtain ⟨x, hx, heq⟩ := List.mem_map.mp hm
          exact hne x hx (by rw [heq])
        · rcases List.mem_cons.mp hx with rfl | hx
          · simpa using h0
          · have := hv x hx
            rwa [State.codeAt_writeCode, if_neg (hne x hx)] at this
    · simp only [hl, Bool.false_eq_true, if_false] at h ⊢
      exact ih mx s h

end Sys2Proof.Machine
end

