-- ==== Sys2Proof/Laws/Freq.lean ====
section
/-! SUPPORT. The frequency counter's loops: counting, scanning FREQ, and the two ways to list its non-zero entries. -/

namespace Sys2Proof.Machine

namespace State

/-- All that the counting loop can do (42_freq.md R461): FREQ changes, and draws are made. -/
theorem countSymbols_spec (n : Nat) : ∀ (i : Nat) (s : State), ∃ m d, s.countSymbols n i = { s with freq := m, draws := d } ∧
    m.rest = s.freq.rest ∧ (Memory.wf alphabetSize s.freq → Memory.wf alphabetSize m) := by
  induction n with
  | zero => exact fun _ s => ⟨s.freq, s.draws, rfl, rfl, id⟩
  | succ n ih =>
    intro i s
    obtain ⟨sym, d1, h1, _⟩ := readSymin_spec i s
    obtain ⟨k, d2, h2, _⟩ := readFreq_spec sym.toNat { s with draws := d1 }
    obtain ⟨m, d, h, hr, hw⟩ := ih (i + 1) { s with freq := s.freq.write sym.toNat (k + 1), draws := d2 }
    refine ⟨m, d, ?_, by rw [hr, Memory.write_rest], fun hs => hw (Memory.wf_write _ hs sym.isLt)⟩
    rw [countSymbols, h1]
    simp only [h2, writeFreq, h]

/-- The counting loop on written symbols adds to each FREQ entry the number of times its symbol stands in the input, modulo
2^64, and draws nothing (42_freq.md R461). -/
theorem countSymbols_counts (syms : List Symbol) : ∀ (i : Nat) (s : State),
    (∀ j, j < syms.length → s.symin.get? (i + j) = syms[j]?) → s.freqWritten →
    ∃ m, s.countSymbols syms.length i = { s with freq := m } ∧
      ∀ x : Symbol, m.get? x.toNat = some (s.freqAt x.toNat + BitVec.ofNat 64 (syms.count x)) := by
  induction syms with
  | nil =>
    intro i s _ hf
    refine ⟨s.freq, rfl, fun x => ?_⟩
    obtain ⟨v, hv⟩ := Option.isSome_iff_exists.mp (hf x.toNat x.isLt)
    simp [freqAt, hv]
  | cons a syms ih =>
    intro i s hin hf
    have ha : s.symin.get? i = some a := by simpa using hin 0 (by simp)
    obtain ⟨v, hv⟩ := Option.isSome_iff_exists.mp (hf a.toNat a.isLt)
    have hf' : freqWritten { s with freq := s.freq.write a.toNat (v + 1) } := fun j hj => by
      simp only [Memory.get?_write]
      split
      · rfl
      · exact hf j hj
    obtain ⟨m, hm, hc⟩ := ih (i + 1) { s with freq := s.freq.write a.toNat (v + 1) }
      (fun j hj => by simpa [Nat.add_assoc, Nat.add_comm 1] using hin (j + 1) (by simpa using hj)) hf'
    refine ⟨m, ?_, fun x => ?_⟩
    · rw [List.length_cons, countSymbols, readSymin_some ha]
      simp only [readFreq_some hv, writeFreq, hm]
    · rw [hc x]
      simp only [freqAt, Memory.get?_write]
      by_cases h : x = a
      · subst h
        simp only [if_true, Option.getD_some, hv, List.count_cons_self, BitVec.ofNat_add, Option.some.injEq]
        rw [BitVec.add_assoc, BitVec.add_comm (1 : BitVec 64)]
        rfl
      · rw [if_neg (fun h' => h (BitVec.eq_of_toNat_eq h')), List.count_cons_of_ne (fun h' => h h'.symm)]

/-- All that the scan of FREQ can do (43_tree.md R481): it only draws. -/
theorem scanFreq_spec (n : Nat) : ∀ (i : Nat) (s : State), ∃ l d, s.scanFreq n i = (l, { s with draws := d }) ∧
    l.Pairwise (fun c e => c.1 < e.1) ∧ (∀ c ∈ l, i ≤ c.1 ∧ c.1 < i + n ∧ c.2 ≠ 0) := by
  induction n with
  | zero => exact fun _ s => ⟨[], s.draws, rfl, by simp, by simp⟩
  | succ n ih =>
    intro i s
    obtain ⟨v, d1, h1, _⟩ := readFreq_spec i s
    obtain ⟨l, d, h, hs, hb⟩ := ih (i + 1) { s with draws := d1 }
    refine ⟨if v = 0 then l else (i, v) :: l, d, by rw [scanFreq, h1]; simp only [h], ?_, ?_⟩
    · split
      · exact hs
      · exact List.pairwise_cons.mpr ⟨fun c hc => by have := hb c hc; simp only; omega, hs⟩
    · intro c hc
      split at hc
      · have := hb c hc
        exact ⟨by omega, by omega, this.2.2⟩
      · rcases List.mem_cons.mp hc with rfl | hc
        · exact ⟨le_refl _, by simp, by assumption⟩
        · have := hb c hc
          exact ⟨by omega, by omega, this.2.2⟩

/-- The scan of written entries (43_tree.md R481): the indexes whose entry is not 0, ascending, with their counts. -/
theorem scanFreq_written (n : Nat) : ∀ (i : Nat) (s : State), (∀ j, i ≤ j → j < i + n → (s.freq.get? j).isSome) →
    s.scanFreq n i =
      (((List.range' i n).filter (fun j => s.freqAt j ≠ 0)).map (fun j => (j, s.freqAt j)), s) := by
  induction n with
  | zero => exact fun _ _ _ => rfl
  | succ n ih =>
    intro i s hf
    obtain ⟨v, hv⟩ := Option.isSome_iff_exists.mp (hf i (le_refl _) (by omega))
    have hat : s.freqAt i = v := by simp [freqAt, hv]
    rw [scanFreq, readFreq_some hv]
    simp only [ih (i + 1) s (fun j h1 h2 => hf j (by omega) (by omega)), List.range'_succ, List.filter_cons, hat]
    by_cases h : v = 0#64 <;> simp [h, hat]

theorem sorted_ext {α : Type} {l1 l2 : List (Nat × α)} (h1 : l1.Pairwise (fun c d => c.1 < d.1))
    (h2 : l2.Pairwise (fun c d => c.1 < d.1)) (h : ∀ c, c ∈ l1 ↔ c ∈ l2) : l1 = l2 := by
  have key : ∀ l : List (Nat × α), l.Pairwise (fun c d => c.1 < d.1) → l.Nodup := fun l hl =>
    hl.imp (fun hlt heq => by simp [heq] at hlt)
  have hp : l1.Perm l2 := (List.perm_ext_iff_of_nodup (key _ h1) (key _ h2)).mpr h
  exact hp.eq_of_pairwise (fun a b _ _ hab hba => absurd hab (by omega)) h1 h2

theorem freq_cells_eq {s : State} (hw : Memory.wf alphabetSize s.freq) (h0 : s.freq.rest = some 0) :
    s.freq.cells.filter (fun c => c.1 < alphabetSize ∧ c.2 ≠ 0) = s.presentSymbols.map (fun x => (x, s.freqAt x)) := by
  refine sorted_ext (hw.1.filter _) ?_ (fun c => ?_)
  · rw [List.pairwise_map]
    exact List.pairwise_lt_range.filter _
  · simp only [List.mem_filter, decide_eq_true_eq, List.mem_map, presentSymbols, List.mem_range]
    constructor
    · rintro ⟨hm, hlt, hne⟩
      have hg := Memory.get?_of_mem hw hm
      have hat : s.freqAt c.1 = c.2 := by simp [freqAt, hg]
      exact ⟨c.1, ⟨hlt, by rw [hat]; exact hne⟩, by rw [hat]⟩
    · rintro ⟨x, ⟨hlt, hne⟩, rfl⟩
      refine ⟨?_, hlt, hne⟩
      unfold freqAt at hne ⊢
      unfold Memory.get? at hne ⊢
      cases hl : lookupCell s.freq.cells x with
      | none => simp [hl, h0] at hne
      | some v => simpa using lookupCell_eq_some_mem hl

theorem scanFreq_all {s : State} (hf : s.freqWritten) :
    s.scanFreq alphabetSize 0 = (s.presentSymbols.map (fun x => (x, s.freqAt x)), s) := by
  rw [scanFreq_written alphabetSize 0 s (fun j _ h => hf j (by omega)), ← List.range_eq_range']
  rfl

/-- The fast list of FREQ's non-zero entries is the scan's (43_tree.md R481). -/
theorem nonzeroFreq_eq_scan {s : State} (hw : Memory.wf alphabetSize s.freq) :
    s.nonzeroFreq = s.scanFreq alphabetSize 0 := by
  unfold nonzeroFreq
  split
  · next h0 =>
    rw [freq_cells_eq hw h0, scanFreq_all]
    intro i _
    unfold Memory.get?
    cases lookupCell s.freq.cells i <;> simp [h0]
  · rfl

/-- The list of FREQ's non-zero entries where every entry is written. -/
theorem nonzeroFreq_written {s : State} (hw : Memory.wf alphabetSize s.freq) (hf : s.freqWritten) :
    s.nonzeroFreq = (s.presentSymbols.map (fun x => (x, s.freqAt x)), s) := by
  rw [nonzeroFreq_eq_scan hw, scanFreq_all hf]

/-- All that listing FREQ's non-zero entries can do: it only draws. -/
theorem nonzeroFreq_spec {s : State} (hw : Memory.wf alphabetSize s.freq) :
    ∃ l d, s.nonzeroFreq = (l, { s with draws := d }) ∧ l.Pairwise (fun c e => c.1 < e.1) ∧
      (∀ c ∈ l, c.1 < alphabetSize ∧ c.2 ≠ 0) := by
  obtain ⟨l, d, h, hs, hb⟩ := scanFreq_spec alphabetSize 0 s
  exact ⟨l, d, by rw [nonzeroFreq_eq_scan hw, h], hs, fun c hc => ⟨by have := hb c hc; omega, (hb c hc).2.2⟩⟩

end State

end Sys2Proof.Machine
end

