-- ==== Sys2Proof/Laws/Tree.lean ====
section
/-! SUPPORT. The tree builder's queue and its merges. -/

namespace Sys2Proof.Machine

/-! ## The queue -/

theorem QueueNode.before_iff (x y : QueueNode) :
    x.before y = true ↔ x.w.toNat < y.w.toNat ∨ (x.w.toNat = y.w.toNat ∧ x.index < y.index) := by
  simp only [QueueNode.before, BitVec.lt_def, decide_eq_true_eq, ← BitVec.toNat_inj]

theorem QueueNode.before_trans {x y z : QueueNode} (h1 : x.before y = true) (h2 : y.before z = true) :
    x.before z = true := by
  rw [before_iff] at *
  omega

theorem QueueNode.before_of_not {x y : QueueNode} (hne : x.index ≠ y.index) (h : ¬ x.before y = true) :
    y.before x = true := by
  rw [before_iff] at *
  omega

/-- All that takeMin does: it takes the smallest key out of a queue of distinct nodes (43_tree.md R481, R482). -/
theorem takeMin_spec (xs : List QueueNode) : ∀ x : QueueNode, ((x :: xs).map QueueNode.index).Nodup →
    List.Perm ((takeMin x xs).1 :: (takeMin x xs).2) (x :: xs) ∧
      ∀ y ∈ (takeMin x xs).2, (takeMin x xs).1.before y = true := by
  induction xs with
  | nil => exact fun x _ => ⟨List.Perm.refl _, by simp [takeMin]⟩
  | cons y ys ih =>
    intro x hn
    obtain ⟨hp, hb⟩ := ih y (List.nodup_cons.mp hn).2
    have hmem : ∀ z, z ∈ (takeMin y ys).1 :: (takeMin y ys).2 ↔ z ∈ y :: ys := fun z => hp.mem_iff
    have hx : ∀ z ∈ y :: ys, x.index ≠ z.index := fun z hz h =>
      (List.nodup_cons.mp hn).1 (List.mem_map.mpr ⟨z, hz, h.symm⟩)
    unfold takeMin
    simp only
    split
    · next hlt =>
      refine ⟨hp.cons x, fun z hz => ?_⟩
      rcases List.mem_cons.mp hz with rfl | hz
      · exact hlt
      · exact QueueNode.before_trans hlt (hb z hz)
    · next hlt =>
      refine ⟨(List.Perm.swap _ _ _).trans (hp.cons x), fun z hz => ?_⟩
      rcases List.mem_cons.mp hz with rfl | hz
      · exact QueueNode.before_of_not (hx _ ((hmem _).mp (by simp))) hlt
      · exact hb z hz

/-- The exact weight of a queue. -/
def queueWeight (q : List QueueNode) : Nat := (q.map (fun x => x.w.toNat)).sum

theorem queueWeight_perm {q r : List QueueNode} (h : q.Perm r) : queueWeight q = queueWeight r := (h.map _).sum_eq

@[simp] theorem queueWeight_cons (x : QueueNode) (q : List QueueNode) :
    queueWeight (x :: q) = x.w.toNat + queueWeight q := by simp [queueWeight]

/-- One round of the merge: a and b are the two nodes of smallest key, q the others (43_tree.md R481). -/
theorem mergeNodes_round (n : Nat) (arena : Memory NodeRec) (next : Nat) {x y : QueueNode} {ys : List QueueNode}
    (hn : ((x :: y :: ys).map QueueNode.index).Nodup) :
    ∃ a b q, List.Perm (a :: b :: q) (x :: y :: ys) ∧ a.before b = true ∧ (∀ z ∈ q, b.before z = true) ∧
      mergeNodes (n + 1) arena next x (y :: ys) =
        mergeNodes n (arena.write next (NodeRec.mkInternal (a.w + b.w) a.index b.index)) (next + 1) ⟨a.w + b.w, next⟩ q := by
  obtain ⟨hp, hb⟩ := takeMin_spec (y :: ys) x hn
  cases hm : takeMin x (y :: ys) with
  | mk a rest =>
    rw [hm] at hp hb
    cases rest with
    | nil => simpa using hp.length_eq
    | cons z zs =>
      have hn1 : ((a :: z :: zs).map QueueNode.index).Nodup := ((hp.map QueueNode.index).nodup_iff).mpr hn
      obtain ⟨hp2, hb2⟩ := takeMin_spec zs z (List.nodup_cons.mp hn1).2
      refine ⟨a, (takeMin z zs).1, (takeMin z zs).2, (hp2.cons a).trans hp, hb _ ?_, hb2, ?_⟩
      · exact hp2.mem_iff.mp (by simp)
      · simp only [mergeNodes, hm]


/-! ## The merges -/

/-- A queue node's record in an arena. -/
theorem Memory.nodeAt_write (m : Memory NodeRec) (i j : Nat) (r : NodeRec) :
    (m.write i r).nodeAt j = if j = i then r else m.nodeAt j := by
  simp only [Memory.nodeAt, Memory.get?_write]
  split <;> rfl

/-- What the loop knows of its queue when node `next` is about to be made: distinct nodes with their weights, exactly the
nodes in the queue, their exact total within 63 bits. -/
structure QueueOk (node : Nat → NodeRec) (k next : Nat) (q : List QueueNode) : Prop where
  nodup : (q.map QueueNode.index).Nodup
  weights : ∀ x ∈ q, (node x.index).w = x.w
  mem : ∀ i, inQueue node k next i ↔ i ∈ q.map QueueNode.index
  total : queueWeight q ≤ maxTotalWeight
  kids : ∀ m, k ≤ m → m < next → (node m).left.toNat < m ∧ (node m).right.toNat < m

theorem QueueOk.perm {node : Nat → NodeRec} {k next : Nat} {q r : List QueueNode} (h : QueueOk node k next q)
    (hp : q.Perm r) : QueueOk node k next r where
  nodup := (hp.map _).nodup_iff.mp h.nodup
  weights x hx := h.weights x (hp.mem_iff.mpr hx)
  mem i := (h.mem i).trans (hp.map _).mem_iff
  total := queueWeight_perm hp ▸ h.total
  kids := h.kids

theorem inQueue_congr {node node' : Nat → NodeRec} {k m : Nat} (h : ∀ i, i < m → node' i = node i) (x : Nat) :
    inQueue node' k m x ↔ inQueue node k m x := by
  constructor <;> rintro ⟨hx, hc⟩ <;> refine ⟨hx, fun m' h1 h2 => ?_⟩
  · rw [← h m' h2]
    exact hc m' h1 h2
  · rw [h m' h2]
    exact hc m' h1 h2

theorem keyLess_congr {node node' : Nat → NodeRec} {x y : Nat} (hx : node' x = node x) (hy : node' y = node y) :
    keyLess node' x y ↔ keyLess node x y := by
  unfold keyLess
  rw [hx, hy]

/-- A merge is a fact about the nodes up to it. -/
theorem MergesSmallest.congr {node node' : Nat → NodeRec} {k m : Nat} (h : MergesSmallest node k m)
    (hc : ∀ i, i ≤ m → node' i = node i) : MergesSmallest node' k m := by
  have hq := inQueue_congr (k := k) (fun i (hi : i < m) => hc i hi.le)
  have hl := h.left.1
  have hr := h.right.1
  refine ⟨?_, ?_, ?_, ?_, ?_, ?_, ?_⟩ <;> rw [hc m (le_refl m)]
  · exact h.isNode
  · exact (hq _).mpr h.left
  · exact (hq _).mpr h.right
  · exact h.distinct
  · rw [hc _ hl.le, hc _ hr.le]
    exact h.weight
  · intro x hx hne
    have hx' := (hq x).mp hx
    exact (keyLess_congr (hc _ hl.le) (hc _ hx'.1.le)).mpr (h.leftFirst x hx' hne)
  · intro x hx hne hne'
    have hx' := (hq x).mp hx
    exact (keyLess_congr (hc _ hr.le) (hc _ hx'.1.le)).mpr (h.rightNext x hx' hne hne')

theorem keyLess_of_before {node : Nat → NodeRec} {x y : QueueNode} (hx : (node x.index).w = x.w)
    (hy : (node y.index).w = y.w) (h : x.before y = true) : keyLess node x.index y.index := by
  rw [QueueNode.before_iff] at h
  unfold keyLess
  rw [hx, hy]
  exact h.imp_right (fun h => ⟨BitVec.eq_of_toNat_eq h.1, h.2⟩)

@[simp] theorem NodeRec.mkInternal_leaf (w : Weight) (l r : Nat) : (mkInternal w l r).leaf = false := rfl
@[simp] theorem NodeRec.mkInternal_w (w : Weight) (l r : Nat) : (mkInternal w l r).w = w := rfl
@[simp] theorem NodeRec.mkInternal_left (w : Weight) (l r : Nat) : (mkInternal w l r).left = BitVec.ofNat 17 l := rfl
@[simp] theorem NodeRec.mkInternal_right (w : Weight) (l r : Nat) : (mkInternal w l r).right = BitVec.ofNat 17 r := rfl

/-- One merge keeps what the loop knows, and is a merge of the two nodes of smallest key (43_tree.md R481, R482). -/
theorem merge_step {arena : Memory NodeRec} {k next : Nat} {a b : QueueNode} {q : List QueueNode}
    (h : QueueOk arena.nodeAt k next (a :: b :: q)) (hk : k ≤ next) (hn : next < 2 ^ 17) (hab : a.before b = true)
    (hb : ∀ z ∈ q, b.before z = true) :
    QueueOk (arena.write next (NodeRec.mkInternal (a.w + b.w) a.index b.index)).nodeAt k (next + 1)
        (⟨a.w + b.w, next⟩ :: q) ∧
      MergesSmallest (arena.write next (NodeRec.mkInternal (a.w + b.w) a.index b.index)).nodeAt k next ∧
      (a.w + b.w).toNat = a.w.toNat + b.w.toNat := by
  have hnd := h.nodup
  simp only [List.map_cons, List.nodup_cons, List.mem_cons, not_or] at hnd
  have hmem : ∀ x ∈ a :: b :: q, inQueue arena.nodeAt k next x.index := fun x hx =>
    (h.mem _).mpr (List.mem_map.mpr ⟨x, hx, rfl⟩)
  have ha := (hmem a (by simp)).1
  have hb' := (hmem b (by simp)).1
  have htot : a.w.toNat + b.w.toNat + queueWeight q ≤ maxTotalWeight := by
    have := h.total
    simp only [queueWeight_cons] at this
    omega
  have hw : (a.w + b.w).toNat = a.w.toNat + b.w.toNat := by
    rw [BitVec.toNat_add]
    exact Nat.mod_eq_of_lt (by unfold maxTotalWeight at htot; omega)
  have hold : ∀ i, i < next →
      (arena.write next (NodeRec.mkInternal (a.w + b.w) a.index b.index)).nodeAt i = arena.nodeAt i := fun i hi => by
    rw [Memory.nodeAt_write, if_neg (by omega)]
  have hnew : (arena.write next (NodeRec.mkInternal (a.w + b.w) a.index b.index)).nodeAt next =
      NodeRec.mkInternal (a.w + b.w) a.index b.index := by rw [Memory.nodeAt_write, if_pos rfl]
  have hli : (BitVec.ofNat 17 a.index).toNat = a.index := by
    rw [BitVec.toNat_ofNat]; exact Nat.mod_eq_of_lt (by omega)
  have hri : (BitVec.ofNat 17 b.index).toNat = b.index := by
    rw [BitVec.toNat_ofNat]; exact Nat.mod_eq_of_lt (by omega)
  have hiq := inQueue_congr (k := k) hold
  refine ⟨⟨?_, ?_, ?_, ?_, ?_⟩, ⟨?_, ?_, ?_, ?_, ?_, ?_, ?_⟩, hw⟩
  · simp only [List.map_cons, List.nodup_cons]
    refine ⟨fun hm => ?_, hnd.2.2⟩
    obtain ⟨x, hx, he⟩ := List.mem_map.mp hm
    have := (hmem x (by simp [hx])).1
    omega
  · intro x hx
    rcases List.mem_cons.mp hx with rfl | hx
    · simp only [hnew]; rfl
    · rw [hold _ (hmem x (by simp [hx])).1]
      exact h.weights x (by simp [hx])
  · intro i
    have hsplit : inQueue (arena.write next (NodeRec.mkInternal (a.w + b.w) a.index b.index)).nodeAt k (next + 1) i ↔
        i = next ∨ (inQueue arena.nodeAt k next i ∧ i ≠ a.index ∧ i ≠ b.index) := by
      constructor
      · rintro ⟨hi, hc⟩
        by_cases hin : i = next
        · exact .inl hin
        · have hlast := hc next hk (by omega)
          rw [hnew] at hlast
          simp only [NodeRec.mkInternal_left, NodeRec.mkInternal_right, hli, hri] at hlast
          exact .inr ⟨(hiq i).mp ⟨by omega, fun m' h1 h2 => hc m' h1 (by omega)⟩, hlast⟩
      · rintro (rfl | ⟨hi, hia, hib⟩)
        · refine ⟨by omega, fun m' h1 h2 => ?_⟩
          by_cases hm : m' = i
          · subst hm
            rw [hnew]
            simp only [NodeRec.mkInternal_left, NodeRec.mkInternal_right, hli, hri]
            omega
          · have := h.kids m' h1 (by omega)
            rw [hold m' (by omega)]
            omega
        · have hi' := (hiq i).mpr hi
          refine ⟨by have := hi.1; omega, fun m' h1 h2 => ?_⟩
          by_cases hm : m' = next
          · subst hm
            rw [hnew]
            simpa only [NodeRec.mkInternal_left, NodeRec.mkInternal_right, hli, hri] using ⟨hia, hib⟩
          · exact hi'.2 m' h1 (by omega)
    rw [hsplit, h.mem]
    simp only [List.map_cons, List.mem_cons]
    constructor
    · rintro (h | ⟨h | h | h, h1, h2⟩)
      · exact .inl h
      · exact absurd h h1
      · exact absurd h h2
      · exact .inr h
    · rintro (h | h)
      · exact .inl h
      · exact .inr ⟨.inr (.inr h), fun e => hnd.1.2 (e ▸ h), fun e => hnd.2.1 (e ▸ h)⟩
  · simp only [queueWeight_cons, hw]
    omega
  · intro m h1 h2
    by_cases hm : m = next
    · subst hm
      rw [hnew]
      simp only [NodeRec.mkInternal_left, NodeRec.mkInternal_right, hli, hri]
      omega
    · rw [hold m (by omega)]
      exact h.kids m h1 (by omega)
  · rw [hnew]; exact ⟨rfl, rfl⟩
  · rw [hnew]
    simp only [NodeRec.mkInternal_left, hli]
    exact (hiq _).mpr (hmem a (by simp))
  · rw [hnew]
    simp only [NodeRec.mkInternal_right, hri]
    exact (hiq _).mpr (hmem b (by simp))
  · rw [hnew]
    intro he
    have := congrArg BitVec.toNat he
    simp only [NodeRec.mkInternal_left, NodeRec.mkInternal_right, hli, hri] at this
    exact hnd.1.1 this
  · rw [hnew]
    simp only [NodeRec.mkInternal_left, NodeRec.mkInternal_right, NodeRec.mkInternal_w, hli, hri, hold _ ha, hold _ hb',
      h.weights a (by simp), h.weights b (by simp), hw]
  · intro x hx hne
    rw [hnew] at hne ⊢
    simp only [NodeRec.mkInternal_left, hli] at hne ⊢
    have hx' := (hiq x).mp hx
    rw [keyLess_congr (hold _ ha) (hold _ hx'.1)]
    obtain ⟨y, hy, rfl⟩ := List.mem_map.mp ((h.mem x).mp hx')
    refine keyLess_of_before (h.weights a (by simp)) (h.weights y hy) ?_
    rcases List.mem_cons.mp hy with rfl | hy
    · exact absurd rfl hne
    · rcases List.mem_cons.mp hy with rfl | hy
      · exact hab
      · exact QueueNode.before_trans hab (hb y hy)
  · intro x hx hne hne'
    rw [hnew] at hne hne' ⊢
    simp only [NodeRec.mkInternal_left, NodeRec.mkInternal_right, hli, hri] at hne hne' ⊢
    have hx' := (hiq x).mp hx
    rw [keyLess_congr (hold _ hb') (hold _ hx'.1)]
    obtain ⟨y, hy, rfl⟩ := List.mem_map.mp ((h.mem x).mp hx')
    refine keyLess_of_before (h.weights b (by simp)) (h.weights y hy) ?_
    rcases List.mem_cons.mp hy with rfl | hy
    · exact absurd rfl hne
    · rcases List.mem_cons.mp hy with rfl | hy
      · exact absurd rfl hne'
      · exact hb y hy

/-- All that the merge loop does from a queue of L nodes: nodes next .. next + L - 2 are merges of the two nodes of smallest
key, no other entry changes, and the last node made carries the whole weight (43_tree.md R481 to R483). -/
theorem mergeNodes_spec {k : Nat} (n : Nat) : ∀ (arena : Memory NodeRec) (next : Nat) (x : QueueNode) (xs : List QueueNode),
    xs.length ≤ n → QueueOk arena.nodeAt k next (x :: xs) → k ≤ next → next + xs.length ≤ nodeCap →
    ∃ nd root, mergeNodes n arena next x xs = (nd, root) ∧
      (∀ m, next ≤ m → m < next + xs.length → MergesSmallest nd.nodeAt k m) ∧
      (∀ a, a < next ∨ next + xs.length ≤ a → nd.get? a = arena.get? a) ∧
      (root.index = if xs = [] then x.index else next + xs.length - 1) ∧
      (nd.nodeAt root.index).w.toNat = queueWeight (x :: xs) ∧
      (Memory.wf nodeCap arena → Memory.wf nodeCap nd) := by
  induction n with
  | zero =>
    intro arena next x xs hl h hk hcap
    obtain rfl : xs = [] := List.length_eq_zero_iff.mp (by omega)
    exact ⟨arena, x, rfl, fun m h1 h2 => by simp at h2; omega, fun _ _ => rfl, by simp,
      by rw [h.weights x (by simp)]; simp [queueWeight], id⟩
  | succ n ih =>
    intro arena next x xs hl h hk hcap
    cases xs with
    | nil =>
      exact ⟨arena, x, rfl, fun m h1 h2 => by simp at h2; omega, fun _ _ => rfl, by simp,
        by rw [h.weights x (by simp)]; simp [queueWeight], id⟩
    | cons y ys =>
      obtain ⟨a, b, q, hp, hab, hb, hround⟩ := mergeNodes_round n arena next h.nodup
      have hlen : q.length = ys.length := by have := hp.length_eq; simp at this; exact this
      simp only [List.length_cons] at hl hcap
      obtain ⟨hq, hmerge, hw⟩ := merge_step (h.perm hp.symm) hk (by unfold nodeCap at hcap; omega) hab hb
      obtain ⟨nd, root, he, hm, ho, hr, htot, hwf⟩ := ih _ (next + 1) ⟨a.w + b.w, next⟩ q (by omega) hq (by omega)
        (by omega)
      have hbelow : ∀ i, i ≤ next → nd.nodeAt i =
          (arena.write next (NodeRec.mkInternal (a.w + b.w) a.index b.index)).nodeAt i := fun i hi => by
        unfold Memory.nodeAt
        rw [ho i (.inl (by omega))]
      refine ⟨nd, root, by rw [hround, he], fun m h1 h2 => ?_, fun c hc => ?_, ?_, ?_, fun hwfa => ?_⟩
      · simp only [List.length_cons] at h2
        by_cases hmn : m = next
        · subst hmn
          exact hmerge.congr hbelow
        · exact hm m (by omega) (by omega)
      · simp only [List.length_cons] at hc
        rw [ho c (by omega), Memory.get?_write_other _ _ (by omega)]
      · rw [hr]
        by_cases hqe : q = []
        · subst hqe
          have : ys = [] := List.length_eq_zero_iff.mp (by simpa using hlen.symm)
          simp [this]
        · rw [if_neg hqe]
          simp only [List.length_cons, reduceCtorEq, if_false]
          omega
      · rw [htot, ← queueWeight_perm hp]
        simp only [queueWeight_cons, hw]
        omega
      · exact hwf (Memory.wf_write _ hwfa (by unfold nodeCap at hcap ⊢; omega))


/-! ## The trees of the queue -/

/-- The queue's nodes are the roots of disjoint trees f, below `next`, whose leaves carry syms. -/
structure ForestOk (node : Nat → NodeRec) (next : Nat) (f : Nat → HTree) (q : List QueueNode) (syms : List Symbol) :
    Prop where
  holds : ∀ x ∈ q, Holds node x.index (f x.index)
  once : (q.flatMap fun x => indexes node x.index (f x.index)).Nodup
  below : ∀ x ∈ q, ∀ i ∈ indexes node x.index (f x.index), i < next
  leaves : (q.flatMap fun x => (f x.index).paths.map Prod.fst).Perm syms

theorem ForestOk.perm {node : Nat → NodeRec} {next : Nat} {f : Nat → HTree} {q r : List QueueNode} {syms : List Symbol}
    (h : ForestOk node next f q syms) (hp : q.Perm r) : ForestOk node next f r syms where
  holds x hx := h.holds x (hp.mem_iff.mpr hx)
  once := (hp.flatMap_right _).nodup_iff.mp h.once
  below x hx := h.below x (hp.mem_iff.mpr hx)
  leaves := (hp.symm.flatMap_right _).trans h.leaves

theorem ForestOk.nodup {node : Nat → NodeRec} {next : Nat} {f : Nat → HTree} {q : List QueueNode} {syms : List Symbol}
    (h : ForestOk node next f q syms) : (q.map QueueNode.index).Nodup := by
  have h2 := h.once
  clear h
  induction q with
  | nil => simp
  | cons x q ih =>
    rw [List.flatMap_cons] at h2
    refine List.nodup_cons.mpr ⟨fun hm => ?_, ih (List.nodup_append.mp h2).2.1⟩
    obtain ⟨y, hy, he⟩ := List.mem_map.mp hm
    refine (List.nodup_append.mp h2).2.2 x.index (mem_indexes_self _ _ _) x.index ?_ rfl
    exact List.mem_flatMap.mpr ⟨y, hy, he ▸ mem_indexes_self _ _ _⟩

/-- One merge joins the two trees under the new node. -/
theorem forest_step {arena : Memory NodeRec} {next : Nat} {f : Nat → HTree} {a b : QueueNode} {q : List QueueNode}
    {syms : List Symbol} (w : Weight) (h : ForestOk arena.nodeAt next f (a :: b :: q) syms) (hn : next < 2 ^ 17) :
    ForestOk (arena.write next (NodeRec.mkInternal w a.index b.index)).nodeAt (next + 1)
      (Function.update f next (.node (f a.index) (f b.index))) (⟨w, next⟩ :: q) syms := by
  have hlt : ∀ x ∈ a :: b :: q, x.index < next := fun x hx => h.below x hx _ (mem_indexes_self _ _ _)
  have hold : ∀ x ∈ a :: b :: q,
      Holds (arena.write next (NodeRec.mkInternal w a.index b.index)).nodeAt x.index (f x.index) ∧
      indexes (arena.write next (NodeRec.mkInternal w a.index b.index)).nodeAt x.index (f x.index) =
        indexes arena.nodeAt x.index (f x.index) := fun x hx =>
    holds_congr _ (h.holds x hx) (fun i hi => by
      rw [Memory.nodeAt_write, if_neg (by have := h.below x hx i hi; omega)])
  have hnew : (arena.write next (NodeRec.mkInternal w a.index b.index)).nodeAt next =
      NodeRec.mkInternal w a.index b.index := by rw [Memory.nodeAt_write, if_pos rfl]
  have hli : (BitVec.ofNat 17 a.index).toNat = a.index := by
    rw [BitVec.toNat_ofNat]; exact Nat.mod_eq_of_lt (by have := hlt a (by simp); omega)
  have hri : (BitVec.ofNat 17 b.index).toNat = b.index := by
    rw [BitVec.toNat_ofNat]; exact Nat.mod_eq_of_lt (by have := hlt b (by simp); omega)
  have hupd : ∀ x ∈ q, Function.update f next (.node (f a.index) (f b.index)) x.index = f x.index := fun x hx =>
    Function.update_of_ne (by have := hlt x (by simp [hx]); omega) _ _
  have hself : Function.update f next (.node (f a.index) (f b.index)) next = .node (f a.index) (f b.index) :=
    Function.update_self _ _ _
  have hix : indexes (arena.write next (NodeRec.mkInternal w a.index b.index)).nodeAt next (.node (f a.index) (f b.index)) =
      next :: (indexes arena.nodeAt a.index (f a.index) ++ indexes arena.nodeAt b.index (f b.index)) := by
    simp only [indexes, hnew, NodeRec.mkInternal_left, NodeRec.mkInternal_right, hli, hri, (hold a (by simp)).2,
      (hold b (by simp)).2]
  have hq : (q.flatMap fun x => indexes (arena.write next (NodeRec.mkInternal w a.index b.index)).nodeAt x.index
      (Function.update f next (.node (f a.index) (f b.index)) x.index)) =
      q.flatMap fun x => indexes arena.nodeAt x.index (f x.index) :=
    List.flatMap_congr (fun x hx => by rw [hupd x hx, (hold x (by simp [hx])).2])
  refine ⟨fun x hx => ?_, ?_, fun x hx => ?_, ?_⟩
  · rcases List.mem_cons.mp hx with rfl | hx
    · simp only [hself]
      refine ⟨by rw [hnew]; rfl, ?_, ?_⟩
      · rw [hnew, NodeRec.mkInternal_left, hli]; exact (hold a (by simp)).1
      · rw [hnew, NodeRec.mkInternal_right, hri]; exact (hold b (by simp)).1
    · rw [hupd x hx]
      exact (hold x (by simp [hx])).1
  · rw [List.flatMap_cons, hq]
    simp only [hself, hix]
    have ho := h.once
    rw [List.flatMap_cons, List.flatMap_cons, ← List.append_assoc] at ho
    refine List.nodup_cons.mpr ⟨fun hm => ?_, ho⟩
    rcases List.mem_append.mp hm with hm | hm
    · rcases List.mem_append.mp hm with hm | hm
      · exact absurd (h.below a (by simp) _ hm) (by omega)
      · exact absurd (h.below b (by simp) _ hm) (by omega)
    · obtain ⟨x, hx, hm⟩ := List.mem_flatMap.mp hm
      exact absurd (h.below x (by simp [hx]) _ hm) (by omega)
  · rcases List.mem_cons.mp hx with rfl | hx
    · simp only [hself, hix]
      intro i hi
      simp only [List.mem_cons, List.mem_append] at hi
      rcases hi with hi | hi | hi
      · omega
      · have := h.below a (by simp) i hi; omega
      · have := h.below b (by simp) i hi; omega
    · rw [hupd x hx, (hold x (by simp [hx])).2]
      intro i hi
      have := h.below x (by simp [hx]) i hi
      omega
  · have hl := h.leaves
    rw [List.flatMap_cons] at hl ⊢
    rw [List.flatMap_cons] at hl
    rw [List.flatMap_congr (g := fun x => (f x.index).paths.map Prod.fst) (fun x hx => by rw [hupd x hx])]
    simp only [hself, HTree.paths, List.map_append, List.map_map, Function.comp_def]
    simpa [List.append_assoc] using hl

/-- The merge loop leaves one tree over all the leaves (43_tree.md R483). -/
theorem mergeNodes_forest {syms : List Symbol} (n : Nat) : ∀ (arena : Memory NodeRec) (next : Nat) (f : Nat → HTree)
    (x : QueueNode) (xs : List QueueNode), xs.length ≤ n → ForestOk arena.nodeAt next f (x :: xs) syms →
    next + xs.length ≤ nodeCap → ∃ t : HTree,
      Holds (mergeNodes n arena next x xs).1.nodeAt (mergeNodes n arena next x xs).2.index t ∧
      (indexes (mergeNodes n arena next x xs).1.nodeAt (mergeNodes n arena next x xs).2.index t).Nodup ∧
      (∀ i ∈ indexes (mergeNodes n arena next x xs).1.nodeAt (mergeNodes n arena next x xs).2.index t,
        i < next + xs.length) ∧
      (t.paths.map Prod.fst).Perm syms := by
  induction n with
  | zero =>
    intro arena next f x xs hl h _
    obtain rfl : xs = [] := List.length_eq_zero_iff.mp (by omega)
    exact ⟨f x.index, h.holds x (by simp), by simpa [mergeNodes] using h.once,
      by simpa [mergeNodes] using h.below x (by simp), by simpa using h.leaves⟩
  | succ n ih =>
    intro arena next f x xs hl h hcap
    cases xs with
    | nil =>
      exact ⟨f x.index, h.holds x (by simp), by simpa [mergeNodes] using h.once,
        by simpa [mergeNodes] using h.below x (by simp), by simpa using h.leaves⟩
    | cons y ys =>
      obtain ⟨a, b, q, hp, _, _, hround⟩ := mergeNodes_round n arena next h.nodup
      have hlen : q.length = ys.length := by have := hp.length_eq; simp at this; exact this
      simp only [List.length_cons] at hl hcap
      obtain ⟨t, h1, h2, h3, h4⟩ := ih _ (next + 1) _ ⟨a.w + b.w, next⟩ q (by omega)
        (forest_step (a.w + b.w) (h.perm hp.symm) (by unfold nodeCap at hcap; omega)) (by omega)
      rw [hround]
      exact ⟨t, h1, h2, fun i hi => by have := h3 i hi; simp only [List.length_cons]; omega, h4⟩

/-! ## The leaves -/

/-- The leaf nodes that writeLeaves makes (43_tree.md R481). -/
theorem writeLeaves_get (leaves : List (Nat × Weight)) : ∀ (arena : Memory NodeRec) (j a : Nat),
    (writeLeaves arena j leaves).get? a =
      if j ≤ a then (leaves[a - j]?.map fun c => NodeRec.mkLeaf (BitVec.ofNat 16 c.1) c.2).or (arena.get? a)
      else arena.get? a := by
  induction leaves with
  | nil => intro arena j a; simp [writeLeaves]
  | cons c leaves ih =>
    intro arena j a
    obtain ⟨sym, w⟩ := c
    rw [writeLeaves, ih]
    rcases Nat.lt_trichotomy a j with h | h | h
    · rw [if_neg (by omega), if_neg (by omega), Memory.get?_write_other _ _ (by omega)]
    · subst h
      simp
    · have : a - j = (a - (j + 1)) + 1 := by omega
      rw [if_pos (by omega), if_pos (by omega), Memory.get?_write_other _ _ (by omega), this, List.getElem?_cons_succ]

theorem writeLeaves_wf (leaves : List (Nat × Weight)) : ∀ (arena : Memory NodeRec) (j : Nat),
    j + leaves.length ≤ nodeCap → Memory.wf nodeCap arena → Memory.wf nodeCap (writeLeaves arena j leaves) := by
  induction leaves with
  | nil => exact fun _ _ _ h => h
  | cons c leaves ih =>
    intro arena j hj h
    simp only [List.length_cons] at hj
    exact ih _ _ (by omega) (Memory.wf_write _ h (by omega))

theorem leafQueue_index (leaves : List (Nat × Weight)) : ∀ j,
    (leafQueue j leaves).map QueueNode.index = List.range' j leaves.length := by
  induction leaves with
  | nil => exact fun _ => rfl
  | cons c leaves ih => intro j; simp [leafQueue, ih, List.range'_succ]

theorem leafQueue_get (leaves : List (Nat × Weight)) : ∀ (j : Nat) (x : QueueNode), x ∈ leafQueue j leaves →
    ∃ c, leaves[x.index - j]? = some c ∧ x.w = c.2 ∧ j ≤ x.index ∧ x.index < j + leaves.length := by
  induction leaves with
  | nil => intro j x hx; simp [leafQueue] at hx
  | cons c leaves ih =>
    intro j x hx
    rcases List.mem_cons.mp hx with rfl | hx
    · exact ⟨c, by simp, rfl, le_refl _, by simp⟩
    · obtain ⟨d, h1, h2, h3, h4⟩ := ih (j + 1) x hx
      have : x.index - j = (x.index - (j + 1)) + 1 := by omega
      exact ⟨d, by rw [this, List.getElem?_cons_succ, h1], h2, by omega, by simp only [List.length_cons]; omega⟩

theorem leafQueue_weight (leaves : List (Nat × Weight)) : ∀ j, queueWeight (leafQueue j leaves) = totalWeight leaves := by
  induction leaves with
  | nil => exact fun _ => rfl
  | cons c leaves ih => intro j; simp [leafQueue, ih, totalWeight]

/-- The queue the loop starts with (43_tree.md R481). -/
theorem leafQueue_ok (arena : Memory NodeRec) (leaves : List (Nat × Weight)) (ht : totalWeight leaves ≤ maxTotalWeight) :
    QueueOk (writeLeaves arena 0 leaves).nodeAt leaves.length leaves.length (leafQueue 0 leaves) where
  nodup := by rw [leafQueue_index]; exact List.nodup_range'
  weights x hx := by
    obtain ⟨c, h1, h2, _, _⟩ := leafQueue_get leaves 0 x hx
    simp only [Memory.nodeAt, writeLeaves_get, Nat.zero_le, if_true, h1]
    simp [NodeRec.mkLeaf, h2]
  mem i := by
    rw [leafQueue_index, List.mem_range'_1]
    exact ⟨fun h => ⟨Nat.zero_le _, by simpa using h.1⟩, fun h => ⟨by simpa using h.2, fun m h1 h2 => by omega⟩⟩
  total := by rw [leafQueue_weight]; exact ht
  kids m h1 h2 := by omega

theorem leafForest_ok (arena : Memory NodeRec) (leaves : List (Nat × Weight)) :
    ForestOk (writeLeaves arena 0 leaves).nodeAt leaves.length
      (fun i => .leaf ((writeLeaves arena 0 leaves).nodeAt i).sym) (leafQueue 0 leaves)
      (leaves.map fun c => BitVec.ofNat 16 c.1) where
  holds x hx := by
    obtain ⟨c, h1, _, _, _⟩ := leafQueue_get leaves 0 x hx
    refine ⟨?_, rfl⟩
    simp only [Memory.nodeAt, writeLeaves_get, Nat.zero_le, if_true, h1]
    simp [NodeRec.mkLeaf]
  once := by
    have : ((leafQueue 0 leaves).flatMap fun x => indexes (writeLeaves arena 0 leaves).nodeAt x.index
        (.leaf ((writeLeaves arena 0 leaves).nodeAt x.index).sym)) = (leafQueue 0 leaves).map QueueNode.index := by
      simp only [indexes]
      rw [← List.flatMap_pure_eq_map]
      rfl
    rw [this, leafQueue_index]
    exact List.nodup_range'
  below x hx := by
    obtain ⟨c, _, _, _, h⟩ := leafQueue_get leaves 0 x hx
    simpa [indexes] using h
  leaves := by
    have key : ∀ (l : List (Nat × Weight)) (j : Nat), (∀ i, i < l.length → leaves[j + i]? = l[i]?) →
        ((leafQueue j l).flatMap fun x =>
          (HTree.leaf ((writeLeaves arena 0 leaves).nodeAt x.index).sym).paths.map Prod.fst) =
        l.map fun c => BitVec.ofNat 16 c.1 := by
      intro l
      induction l with
      | nil => intro j _; rfl
      | cons c l ih =>
        intro j h
        have h0 : leaves[j]? = some c := by simpa using h 0 (by simp)
        have := ih (j + 1) (fun i hi => by simpa [Nat.add_assoc, Nat.add_comm 1] using h (i + 1) (by simpa using hi))
        rw [leafQueue, List.flatMap_cons, this, List.map_cons]
        simp only [HTree.paths, List.map_cons, List.map_nil, List.singleton_append]
        simp only [Memory.nodeAt, writeLeaves_get, Nat.zero_le, if_true, Nat.sub_zero, h0]
        simp [NodeRec.mkLeaf]
    rw [key leaves 0 (fun i _ => by simp)]


/-! ## The whole build -/

/-- All that the loop over K >= 1 leaves does, K <= 65536 and their total within 63 bits (43_tree.md R481 to R484). -/
theorem buildTree_spec (s : State) {leaves : List (Nat × Weight)} (hne : leaves ≠ [])
    (hcap : leaves.length ≤ alphabetSize) (ht : totalWeight leaves ≤ maxTotalWeight) :
    ∃ (nd : Memory NodeRec) (t : HTree),
      s.buildTree leaves = { s with
        node := nd, root := BitVec.ofNat 17 (2 * leaves.length - 2), nleaves := BitVec.ofNat 17 leaves.length
        nnodes := BitVec.ofNat 17 (2 * leaves.length - 1), treeValid := true, ctValid := false } ∧
      (∀ j c, leaves[j]? = some c → nd.nodeAt j = NodeRec.mkLeaf (BitVec.ofNat 16 c.1) c.2) ∧
      (∀ m, leaves.length ≤ m → m < 2 * leaves.length - 1 → MergesSmallest nd.nodeAt leaves.length m) ∧
      (∀ a, 2 * leaves.length - 1 ≤ a → nd.get? a = s.node.get? a) ∧
      (nd.nodeAt (2 * leaves.length - 2)).w.toNat = totalWeight leaves ∧
      (Memory.wf nodeCap s.node → Memory.wf nodeCap nd) ∧
      Holds nd.nodeAt (2 * leaves.length - 2) t ∧
      (indexes nd.nodeAt (2 * leaves.length - 2) t).Nodup ∧
      (∀ i ∈ indexes nd.nodeAt (2 * leaves.length - 2) t, i < 2 * leaves.length - 1) ∧
      (t.paths.map Prod.fst).Perm (leaves.map fun c => BitVec.ofNat 16 c.1) := by
  have hlen : 0 < leaves.length := List.length_pos_of_ne_nil hne
  have hixs := leafQueue_index leaves 0
  have hok := leafQueue_ok s.node leaves ht
  have hfor := leafForest_ok s.node leaves
  have hwt := leafQueue_weight leaves 0
  cases hq : leafQueue 0 leaves with
  | nil =>
    have := congrArg List.length hixs
    simp [hq] at this
    omega
  | cons x xs =>
    rw [hq] at hixs hok hfor hwt
    have hxs : xs.length = leaves.length - 1 := by
      have := congrArg List.length hixs
      simp at this
      omega
    have hcap' : leaves.length + xs.length ≤ nodeCap := by unfold alphabetSize at hcap; unfold nodeCap; omega
    obtain ⟨nd, root, he, hm, ho, hr, hrt, hwf⟩ :=
      mergeNodes_spec leaves.length _ leaves.length x xs (by omega) hok (le_refl _) hcap'
    obtain ⟨t, t1, t2, t3, t4⟩ := mergeNodes_forest leaves.length _ leaves.length _ x xs (by omega) hfor hcap'
    have hroot : root.index = 2 * leaves.length - 2 := by
      rw [hr]
      split
      · next hnil =>
        have h1 : leaves.length = 1 := by rw [hnil] at hxs; simp at hxs; omega
        rw [h1] at hixs
        have := congrArg List.head? hixs
        simp [List.range'_succ] at this
        omega
      · omega
    rw [he] at t1 t2 t3
    simp only [hroot] at t1 t2 t3 hrt
    refine ⟨nd, t, ?_, fun j c hj => ?_, fun m h1 h2 => hm m h1 (by omega), fun a ha => ?_, by rw [hrt, hwt],
      fun h => hwf (writeLeaves_wf _ _ _ (by unfold alphabetSize at hcap; unfold nodeCap; omega) h), t1, t2,
      fun i hi => by have := t3 i hi; omega, t4⟩
    · simp only [State.buildTree, hq, he, State.setTree, hroot]
    · have hj' : j < leaves.length := (List.getElem?_eq_some_iff.mp hj).1
      simp only [Memory.nodeAt, ho j (.inl hj'), writeLeaves_get, Nat.zero_le, if_true, Nat.sub_zero, hj]
      simp
    · rw [ho a (by omega), writeLeaves_get, if_pos (Nat.zero_le _), Nat.sub_zero,
        List.getElem?_eq_none (by omega)]
      simp

end Sys2Proof.Machine
end

