-- ==== Sys2Proof/Laws/SerDes.lean ====
section
/-! SUPPORT. The tree serializer and deserializer: what Emit appends, what Parse builds. -/

namespace Sys2Proof.Machine

/-! ## Emit -/

/-- Emit of an arena that holds t appends t's fields (45_serdes.md R550). -/
theorem emit_holds {s u : State} {t : HTree} {n : Nat} (h : Holds s.nodeAt n t) :
    u.emit (visits s.nodeAt n [] t) = u.appendAll t.fields := by
  rw [State.emit, visits_emit t [] h]

/-! ## Parse on a slice that holds Pre(t) -/

/-- What comes after a subtree is built at index i: the tree is complete, or Parse goes on. -/
def parseOn (room next k i : Nat) (frames : List Frame) (s : State) : Res (Nat × Nat × Nat) :=
  match returnIndex i frames s with
  | (root, [], s1) => .ok (root, next, k) s1
  | (_, f :: fs, s1) => parse room next k (f :: fs) s1

theorem readSlice_ok {s : State} {b : Bool} {bs : Bits} (h : s.bytemem.holds s.brPos.toNat (b :: bs))
    (hfit : s.brPos.toNat + (bs.length + 1) ≤ s.brLimit.toNat) :
    s.readBit = .ok b { s with brPos := word (s.brPos.toNat + 1) } ∧ (word (s.brPos.toNat + 1)).toNat = s.brPos.toNat + 1 ∧
      s.bytemem.holds (s.brPos.toNat + 1) bs := by
  have hl := s.brLimit.isLt
  have hc := Memory.holds_cons.mp h
  exact ⟨State.readBit_ok (by omega) hc.1, word_toNat (by omega), hc.2⟩

/-- Parse on a slice that holds Pre(t) from the cursor on builds t at index `next`, indexes in pre-order, weights 0, and
consumes exactly Pre(t) (45_serdes.md R553, R554). -/
theorem parse_pre (t : HTree) : ∀ (s : State) (room next k : Nat) (frames : List Frame),
    s.bytemem.holds s.brPos.toNat t.pre → s.brPos.toNat + t.pre.length ≤ s.brLimit.toNat →
    next + (2 * t.leaves - 1) ≤ nodeCap →
    ∃ nd, parse (2 * t.leaves - 1 + room) next k frames s =
        parseOn room (next + (2 * t.leaves - 1)) (k + t.leaves) next frames
          { s with node := nd, brPos := word (s.brPos.toNat + t.pre.length) } ∧
      Holds nd.nodeAt next t ∧ indexes nd.nodeAt next t = List.range' next (2 * t.leaves - 1) ∧
      (∀ a, next ≤ a → a < next + (2 * t.leaves - 1) → (nd.nodeAt a).w = 0) ∧
      (∀ a, a < next ∨ next + (2 * t.leaves - 1) ≤ a → nd.get? a = s.node.get? a) := by
  induction t with
  | leaf sym =>
    intro s room next k frames hh hfit hcap
    simp only [HTree.pre, List.length_cons, bitsOf_length, HTree.leaves] at hh hfit hcap ⊢
    obtain ⟨h1, h2, h3⟩ := readSlice_ok hh (by simpa using hfit)
    have h4 := State.readBits_ok (s := { s with brPos := word (s.brPos.toNat + 1) }) (bs := bitsOf 16 sym.toNat)
      (by simp only [h2, bitsOf_length]; omega) (by simpa only [h2] using h3)
    rw [bitsOf_length, valOf_bitsOf, Nat.mod_eq_of_lt sym.isLt] at h4
    have h5 : 2 * 1 - 1 + room = room + 1 := by omega
    refine ⟨s.node.write next (NodeRec.mkLeaf sym 0), ?_, ?_, ?_, fun a ha hb => ?_, fun a ha => ?_⟩
    · rw [h5, parse, h1]
      simp only [Res.andThen_ok, if_true, h4, h2, BitVec.ofNat_toNat, BitVec.setWidth_eq, State.writeNode, parseOn,
        Nat.add_assoc, Nat.reduceAdd, Nat.reduceMul, Nat.reduceSub] <;> rfl
    · simp [Holds, Memory.nodeAt_write, NodeRec.mkLeaf]
    · simp [indexes]
    · obtain rfl : a = next := by omega
      simp [Memory.nodeAt_write, NodeRec.mkLeaf]
    · exact Memory.get?_write_other _ _ (by omega)
  | node l r ihl ihr =>
    intro s room next k frames hh hfit hcap
    have hlp := l.leaves_pos
    have hrp := r.leaves_pos
    have hlim := s.brLimit.isLt
    simp only [HTree.pre, List.length_cons, List.length_append, HTree.leaves] at hh hfit hcap ⊢
    obtain ⟨h1, h2, h3⟩ := readSlice_ok hh (by simpa using hfit)
    obtain ⟨h3l, h3r⟩ := Memory.holds_append.mp h3
    obtain ⟨nd1, e1, a1, a2, a3, a4⟩ := ihl { s with brPos := word (s.brPos.toNat + 1) } (2 * r.leaves - 1 + room)
      (next + 1) k (.left next :: frames) (by simpa only [h2] using h3l) (by simp only [h2]; omega) (by omega)
    have h6 : (word (s.brPos.toNat + 1 + l.pre.length)).toNat = s.brPos.toNat + 1 + l.pre.length :=
      word_toNat (by omega)
    simp only [h2] at e1 a4
    obtain ⟨nd2, e2, b1, b2, b3, b4⟩ := ihr { s with node := nd1, brPos := word (s.brPos.toNat + 1 + l.pre.length) } room
      (next + 1 + (2 * l.leaves - 1)) (k + l.leaves) (.right next (next + 1) :: frames)
      (by simpa only [h6] using h3r) (by simp only [h6]; omega) (by omega)
    simp only [h6] at e2 b4
    have hfuel : 2 * (l.leaves + r.leaves) - 1 + room = (2 * l.leaves - 1 + (2 * r.leaves - 1 + room)) + 1 := by omega
    have hnext : next + 1 + (2 * l.leaves - 1) + (2 * r.leaves - 1) = next + (2 * (l.leaves + r.leaves) - 1) := by omega
    have hw : ∀ a, a ≠ next → ((nd2.write next (NodeRec.mkInternal 0 (next + 1) (next + 1 + (2 * l.leaves - 1)))).nodeAt a) =
        nd2.nodeAt a := fun a ha => by rw [Memory.nodeAt_write, if_neg ha]
    have hw0 : ((nd2.write next (NodeRec.mkInternal 0 (next + 1) (next + 1 + (2 * l.leaves - 1)))).nodeAt next) =
        NodeRec.mkInternal 0 (next + 1) (next + 1 + (2 * l.leaves - 1)) := by rw [Memory.nodeAt_write, if_pos rfl]
    have hli : (BitVec.ofNat 17 (next + 1)).toNat = next + 1 := by
      rw [BitVec.toNat_ofNat]; exact Nat.mod_eq_of_lt (by unfold nodeCap at hcap; omega)
    have hri : (BitVec.ofNat 17 (next + 1 + (2 * l.leaves - 1))).toNat = next + 1 + (2 * l.leaves - 1) := by
      rw [BitVec.toNat_ofNat]; exact Nat.mod_eq_of_lt (by unfold nodeCap at hcap; omega)
    have h12 : ∀ a, a < next + 1 + (2 * l.leaves - 1) → nd2.nodeAt a = nd1.nodeAt a := fun a ha => by
      unfold Memory.nodeAt; rw [b4 a (.inl ha)]
    have hl' := holds_congr (node' := (nd2.write next (NodeRec.mkInternal 0 (next + 1) (next + 1 + (2 * l.leaves - 1)))).nodeAt)
      l a1 (fun i hi => by
        rw [a2, List.mem_range'_1] at hi
        rw [hw i (by omega), h12 i (by omega)])
    have hr' := holds_congr (node' := (nd2.write next (NodeRec.mkInternal 0 (next + 1) (next + 1 + (2 * l.leaves - 1)))).nodeAt)
      r b1 (fun i hi => by
        rw [b2, List.mem_range'_1] at hi
        rw [hw i (by omega)])
    refine ⟨nd2.write next (NodeRec.mkInternal 0 (next + 1) (next + 1 + (2 * l.leaves - 1))), ?_, ?_, ?_, fun a ha hb => ?_,
      fun a ha => ?_⟩
    · rw [hfuel, parse, h1]
      simp only [Res.andThen_ok, Bool.false_eq_true, if_false, e1, parseOn, returnIndex, e2, hnext]
      simp only [State.writeNode, Nat.add_assoc, Nat.add_comm 1]
    · refine ⟨by rw [hw0]; rfl, ?_, ?_⟩
      · rw [hw0, NodeRec.mkInternal_left, hli]; exact hl'.1
      · rw [hw0, NodeRec.mkInternal_right, hri]; exact hr'.1
    · simp only [indexes, hw0, NodeRec.mkInternal_left, NodeRec.mkInternal_right, hli, hri, hl'.2, hr'.2, a2, b2]
      have : 2 * (l.leaves + r.leaves) - 1 = (2 * l.leaves - 1 + (2 * r.leaves - 1)) + 1 := by omega
      rw [this, List.range'_succ, ← List.range'_append_1]
    · by_cases h : a = next
      · rw [h, hw0]; rfl
      · rw [hw a h]
        by_cases h' : a < next + 1 + (2 * l.leaves - 1)
        · rw [h12 a h']; exact a3 a (by omega) (by omega)
        · exact b3 a (by omega) (by omega)
    · rw [Memory.get?_write_other _ _ (by omega), b4 a (by omega), a4 a (by omega)]


/-! ## Where Parse stops -/

/-- How many waiting Parse() calls have their right child still to come. -/
def leftFrames (frames : List Frame) : Nat := (frames.filter fun | .left _ => true | .right _ _ => false).length

@[simp] theorem leftFrames_nil : leftFrames [] = 0 := rfl
@[simp] theorem leftFrames_left (j : Nat) (fs : List Frame) : leftFrames (.left j :: fs) = leftFrames fs + 1 := rfl
@[simp] theorem leftFrames_right (j l : Nat) (fs : List Frame) : leftFrames (.right j l :: fs) = leftFrames fs := rfl

/-- Returning a subtree only writes NODE; it ends the tree exactly when no right child is still to come. -/
theorem returnIndex_frames (frames : List Frame) : ∀ (i : Nat) (s : State),
    ∃ r fs nd, returnIndex i frames s = (r, fs, { s with node := nd }) ∧
      ∀ n, leftFrames frames = n + 1 → fs ≠ [] ∧ leftFrames fs = n := by
  induction frames with
  | nil => exact fun i s => ⟨i, [], s.node, rfl, by simp⟩
  | cons f frames ih =>
    intro i s
    cases f with
    | left j => exact ⟨i, .right j i :: frames, s.node, rfl, fun n hn => ⟨by simp, by simpa using hn⟩⟩
    | right j l =>
      obtain ⟨r, fs, nd, e, h⟩ := ih j (s.writeNode j (NodeRec.mkInternal 0 l i))
      exact ⟨r, fs, nd, e, fun n hn => h n (by simpa using hn)⟩

@[simp] theorem tagsIn_nil : tagsIn [] = 0 := rfl

@[simp] theorem tagsIn_tag (b : Bool) (l : List Bits) : tagsIn ([b] :: l) = tagsIn l + 1 := by simp [tagsIn]

@[simp] theorem tagsIn_symbol (v : Nat) (l : List Bits) : tagsIn (bitsOf 16 v :: l) = tagsIn l := by simp [tagsIn]

/-- Parse where the slice holds the reads `before` of the subtrees still to come and then ends inside the read `next`, or
where `before` has taken all the room and `next` is one more tag: the cursor is after the last read that succeeded
(45_serdes.md R553, R555). -/
theorem parse_stops (room : Nat) : ∀ (ts : List HTree) (nx k : Nat) (frames : List Frame) (s : State)
    (before : List Bits) (next : Bits) (after : List Bits) (p : Nat),
    ts.length = leftFrames frames + 1 → ts.flatMap HTree.reads = before ++ next :: after →
    s.bytemem.holds s.brPos.toNat before.flatten → s.brPos.toNat + before.flatten.length ≤ s.brLimit.toNat →
    ((tagsIn before ≤ room ∧ s.brLimit.toNat < s.brPos.toNat + before.flatten.length + next.length ∧
        p = s.brPos.toNat + before.flatten.length) ∨
      (tagsIn before = room ∧ next.length = 1 ∧ s.bytemem.holds (s.brPos.toNat + before.flatten.length) next ∧
        s.brPos.toNat + before.flatten.length + 1 ≤ s.brLimit.toNat ∧ p = s.brPos.toNat + before.flatten.length + 1)) →
    ∃ nd, parse room nx k frames s = .raise .malformedContainer { s with node := nd, brPos := word p } := by
  have hself : ∀ s : State, word s.brPos.toNat = s.brPos := fun s => by simp [word]
  induction room with
  | zero =>
    intro ts nx k frames s before next after p hlen hts hh hfit hcase
    cases ts with
    | nil => simp at hlen
    | cons t ts =>
      cases before with
      | cons b before =>
        cases t <;> simp only [List.flatMap_cons, HTree.reads, List.cons_append, List.cons.injEq] at hts <;>
          obtain ⟨rfl, _⟩ := hts <;> simp at hcase
      | nil =>
        simp only [List.flatten_nil, List.length_nil, Nat.add_zero] at hcase
        have hnext : next.length = 1 := by
          cases t <;> simp only [List.flatMap_cons, HTree.reads, List.cons_append, List.nil_append, List.cons.injEq] at hts <;>
            rw [← hts.1] <;> rfl
        rcases hcase with ⟨_, h, rfl⟩ | ⟨_, _, h, hl, rfl⟩
        · exact ⟨s.node, by rw [parse, State.readBit_raise (by omega), hself]; rfl⟩
        · obtain ⟨b, rfl⟩ := List.length_eq_one_iff.mp hnext
          exact ⟨s.node, by rw [parse, State.readBit_ok (by omega) (Memory.holds_cons.mp h).1]; rfl⟩
  | succ room ih =>
    intro ts nx k frames s before next after p hlen hts hh hfit hcase
    have hlim := s.brLimit.isLt
    cases ts with
    | nil => simp at hlen
    | cons t ts =>
      cases before with
      | nil =>
        simp only [List.flatten_nil, List.length_nil, Nat.add_zero, tagsIn_nil] at hcase
        have hnext : next.length = 1 := by
          cases t <;> simp only [List.flatMap_cons, HTree.reads, List.cons_append, List.nil_append, List.cons.injEq] at hts <;>
            rw [← hts.1] <;> rfl
        rcases hcase with ⟨_, h, rfl⟩ | ⟨h, _⟩
        · exact ⟨s.node, by rw [parse, State.readBit_raise (by omega), hself]; rfl⟩
        · omega
      | cons b before =>
        cases t with
        | node l r =>
          simp only [List.flatMap_cons, HTree.reads, List.cons_append, List.cons.injEq, List.append_assoc] at hts
          obtain ⟨rfl, hts⟩ := hts
          simp only [List.flatten_cons, List.singleton_append, List.length_cons, tagsIn_tag] at hh hfit hcase
          obtain ⟨h1, h2, h3⟩ := readSlice_ok hh hfit
          obtain ⟨nd, e⟩ := ih (l :: r :: ts) (nx + 1) k (.left nx :: frames)
            { s with brPos := word (s.brPos.toNat + 1) } before next after p (by simpa using hlen)
            (by simpa only [List.flatMap_cons] using hts) (by simpa only [h2] using h3) (by simp only [h2]; omega)
            (by simp only [h2]
                rcases hcase with ⟨c1, c2, c3⟩ | ⟨c1, c2, c3, c4, c5⟩
                · exact .inl ⟨by omega, by omega, by omega⟩
                · exact .inr ⟨by omega, c2, by rwa [Nat.add_assoc, Nat.add_comm 1], by omega, by omega⟩)
          exact ⟨nd, by rw [parse, h1]; exact e⟩
        | leaf sym =>
          simp only [List.flatMap_cons, HTree.reads, List.cons_append, List.nil_append, List.cons.injEq] at hts
          obtain ⟨rfl, hts⟩ := hts
          simp only [List.flatten_cons, List.singleton_append, List.length_cons, tagsIn_tag] at hh hfit hcase
          obtain ⟨h1, h2, h3⟩ := readSlice_ok hh hfit
          cases before with
          | nil =>
            simp only [List.nil_append, List.cons.injEq] at hts
            obtain ⟨rfl, _⟩ := hts
            simp only [List.flatten_nil, List.length_nil, bitsOf_length] at hcase hfit
            rcases hcase with ⟨_, h, rfl⟩ | ⟨_, h, _⟩
            · refine ⟨s.node, ?_⟩
              rw [parse, h1]
              simp only [Res.andThen_ok, if_true]
              rw [State.readBits_raise (by simp only [h2]; omega)]
              rfl
            · omega
          | cons c before =>
            simp only [List.cons_append, List.cons.injEq] at hts
            obtain ⟨rfl, hts⟩ := hts
            simp only [List.flatten_cons, List.length_append, bitsOf_length, tagsIn_symbol] at h3 hfit hcase
            obtain ⟨h4, h5⟩ := Memory.holds_append.mp h3
            rw [bitsOf_length] at h5
            have h6 := State.readBits_ok (s := { s with brPos := word (s.brPos.toNat + 1) }) (bs := bitsOf 16 sym.toNat)
              (by simp only [h2, bitsOf_length]; omega) (by simpa only [h2] using h4)
            rw [bitsOf_length] at h6
            have h7 : (word (s.brPos.toNat + 1 + 16)).toNat = s.brPos.toNat + 1 + 16 := word_toNat (by omega)
            obtain ⟨m, hm⟩ : ∃ m, leftFrames frames = m + 1 := by
              cases ts with
              | nil => simp at hts
              | cons _ ts => exact ⟨ts.length, by simpa using hlen.symm⟩
            obtain ⟨root, fs, nd0, e0, hfs⟩ := returnIndex_frames frames nx
              (State.writeNode nx (NodeRec.mkLeaf (BitVec.ofNat 16 (valOf (bitsOf 16 sym.toNat))) 0)
                { s with brPos := word (s.brPos.toNat + 1 + 16) })
            obtain ⟨hne, hcount⟩ := hfs m hm
            obtain ⟨f, fs, rfl⟩ := List.exists_cons_of_ne_nil hne
            obtain ⟨nd, e⟩ := ih ts (nx + 1) (k + 1) (f :: fs)
              { s with node := nd0, brPos := word (s.brPos.toNat + 1 + 16) } before next after p
              (by simp only [List.length_cons] at hlen; omega) hts (by simpa only [h7] using h5) (by simp only [h7]; omega)
              (by simp only [h7]
                  rcases hcase with ⟨c1, c2, c3⟩ | ⟨c1, c2, c3, c4, c5⟩
                  · exact .inl ⟨by omega, by omega, by omega⟩
                  · refine .inr ⟨by omega, c2, ?_, by omega, by omega⟩
                    have : s.brPos.toNat + 1 + 16 + before.flatten.length =
                        s.brPos.toNat + (16 + before.flatten.length + 1) := by omega
                    rwa [this])
            refine ⟨nd, ?_⟩
            rw [parse, h1]
            simp only [Res.andThen_ok, if_true, h6, h2, e0]
            exact e

/-! ## All that Parse can do -/

/-- The waiting Parse() calls: the arena indexes they and the subtrees already built use, and how many leaves those
subtrees have. -/
inductive FramesOk (node : Nat → NodeRec) : List Frame → List Nat → Nat → Prop
  | nil : FramesOk node [] [] 0
  | left {fs : List Frame} {used : List Nat} {k : Nat} (j : Nat) (h : FramesOk node fs used k) :
      FramesOk node (.left j :: fs) (j :: used) k
  | right {fs : List Frame} {used : List Nat} {k : Nat} (j : Nat) {l : Nat} {t : HTree} (ht : Holds node l t)
      (h : FramesOk node fs used k) : FramesOk node (.right j l :: fs) (j :: (indexes node l t ++ used)) (k + t.leaves)

theorem FramesOk.congr {node node' : Nat → NodeRec} {fs : List Frame} {used : List Nat} {k : Nat}
    (h : FramesOk node fs used k) (hc : ∀ i ∈ used, node' i = node i) : FramesOk node' fs used k := by
  induction h with
  | nil => exact .nil
  | left j _ ih => exact .left j (ih fun i hi => hc i (by simp [hi]))
  | right j ht _ ih =>
    have := holds_congr _ ht (fun i hi => hc i (by simp [hi]))
    rw [← this.2]
    exact .right j this.1 (ih fun i hi => hc i (by simp [hi]))

/-- All that returning a subtree does: it joins the subtrees that are complete (45_serdes.md R553). -/
theorem returnIndex_spec (frames : List Frame) : ∀ (i : Nat) (s : State) (t : HTree) (used : List Nat) (k : Nat),
    Holds s.nodeAt i t → FramesOk s.nodeAt frames used k → (indexes s.nodeAt i t ++ used).Nodup →
    (∀ x ∈ indexes s.nodeAt i t ++ used, x < nodeCap) →
    ∃ i' frames' nd, returnIndex i frames s = (i', frames', { s with node := nd }) ∧
      (Memory.wf nodeCap s.node → Memory.wf nodeCap nd) ∧
      ((frames' = [] ∧ ∃ t', Holds nd.nodeAt i' t' ∧ (indexes nd.nodeAt i' t').Perm (indexes s.nodeAt i t ++ used) ∧
          t'.leaves = t.leaves + k) ∨
        (frames' ≠ [] ∧ ∃ used', FramesOk nd.nodeAt frames' used' (t.leaves + k) ∧
          used'.Perm (indexes s.nodeAt i t ++ used))) := by
  induction frames with
  | nil =>
    intro i s t used k ht hf _ _
    cases hf
    exact ⟨i, [], s.node, rfl, id, .inl ⟨rfl, t, ht, by rw [List.append_nil]; rfl, rfl⟩⟩
  | cons f fs ih =>
    intro i s t used k ht hf hn hb
    cases hf with
    | left j hf =>
      refine ⟨i, .right j i :: fs, s.node, rfl, id, .inr ⟨by simp, _, ?_, List.perm_middle.symm⟩⟩
      rw [Nat.add_comm]
      exact FramesOk.right j ht hf
    | @right _ u2 k2 j l t2 ht2 hf =>
      have hperm : (indexes s.nodeAt i t ++ j :: (indexes s.nodeAt l t2 ++ u2)).Perm
          (j :: (indexes s.nodeAt l t2 ++ indexes s.nodeAt i t) ++ u2) := by
        rw [List.perm_iff_count]
        intro a
        simp only [List.count_append, List.count_cons]
        omega
      have hn' := hperm.nodup_iff.mp hn
      have hj : ∀ x ∈ (indexes s.nodeAt l t2 ++ indexes s.nodeAt i t) ++ u2, x ≠ j := fun x hx he =>
        (List.nodup_cons.mp hn').1 (he ▸ hx)
      have hold : ∀ x, x ≠ j → (s.writeNode j (NodeRec.mkInternal 0 l i)).nodeAt x = s.nodeAt x := fun x hx => by
        have := Memory.nodeAt_write s.node j x (NodeRec.mkInternal 0 l i)
        rwa [if_neg hx] at this
      have hnew : (s.writeNode j (NodeRec.mkInternal 0 l i)).nodeAt j = NodeRec.mkInternal 0 l i := by
        have := Memory.nodeAt_write s.node j j (NodeRec.mkInternal 0 l i)
        rwa [if_pos rfl] at this
      have hlt : ∀ x ∈ j :: (indexes s.nodeAt l t2 ++ indexes s.nodeAt i t) ++ u2, x < nodeCap := fun x hx =>
        hb x (hperm.mem_iff.mpr hx)
      have hi17 : (BitVec.ofNat 17 i).toNat = i := by
        rw [BitVec.toNat_ofNat]
        exact Nat.mod_eq_of_lt (by have := hlt i (by simp [mem_indexes_self]); unfold nodeCap at this; omega)
      have hl17 : (BitVec.ofNat 17 l).toNat = l := by
        rw [BitVec.toNat_ofNat]
        exact Nat.mod_eq_of_lt (by have := hlt l (by simp [mem_indexes_self]); unfold nodeCap at this; omega)
      have h1 := holds_congr _ ht2 (fun x hx => hold x (hj x (by simp [hx])))
      have h2 := holds_congr _ ht (fun x hx => hold x (hj x (by simp [hx])))
      have hix : indexes (s.writeNode j (NodeRec.mkInternal 0 l i)).nodeAt j (.node t2 t) =
          j :: (indexes s.nodeAt l t2 ++ indexes s.nodeAt i t) := by
        simp only [indexes, hnew, NodeRec.mkInternal_left, NodeRec.mkInternal_right, hi17, hl17, h1.2, h2.2]
      obtain ⟨i', frames', nd, e, hw, hcase⟩ := ih j (s.writeNode j (NodeRec.mkInternal 0 l i)) (.node t2 t) u2 k2
        ⟨by rw [hnew]; rfl, by rw [hnew, NodeRec.mkInternal_left, hl17]; exact h1.1,
          by rw [hnew, NodeRec.mkInternal_right, hi17]; exact h2.1⟩
        (hf.congr fun x hx => hold x (hj x (by simp [hx]))) (by rw [hix]; exact hn') (by rw [hix]; exact hlt)
      rw [hix] at hcase
      refine ⟨i', frames', nd, e, fun h => hw (Memory.wf_write _ h (hlt j (by simp))), ?_⟩
      have hk : (HTree.node t2 t).leaves + k2 = t.leaves + (k2 + t2.leaves) := by simp [HTree.leaves]; omega
      rw [hk] at hcase
      rcases hcase with ⟨hnil, t', a, b, c⟩ | ⟨hne, u', a, b⟩
      · exact .inl ⟨hnil, t', a, b.trans hperm.symm, c⟩
      · exact .inr ⟨hne, u', a, b.trans hperm.symm⟩

/-- All that Parse can do from a state with `next` nodes allocated: it writes NODE, moves the cursor inside the slice and
draws; the one error is MALFORMED_CONTAINER; and at its end NODE holds a tree of the nodes allocated (45_serdes.md R553,
R554). -/
theorem parse_spec (room : Nat) : ∀ (next k : Nat) (frames : List Frame) (used : List Nat) (s : State),
    next + room = nodeCap → FramesOk s.nodeAt frames used k → used.Perm (List.range next) →
    s.brPos.toNat ≤ s.brLimit.toNat →
    ∃ nd p d, (parse room next k frames s).state = { s with node := nd, brPos := p, draws := d } ∧
      s.brPos.toNat ≤ p.toNat ∧ p.toNat ≤ s.brLimit.toNat ∧ (Memory.wf nodeCap s.node → Memory.wf nodeCap nd) ∧
      (∀ e u, parse room next k frames s = .raise e u → e = .malformedContainer) ∧
      (∀ root nx kk u, parse room next k frames s = .ok (root, nx, kk) u → ∃ t : HTree, Holds nd.nodeAt root t ∧
        (indexes nd.nodeAt root t).Perm (List.range nx) ∧ t.leaves = kk ∧ nx ≤ nodeCap) := by
  induction room with
  | zero =>
    intro next k frames used s hroom hf hu hpos
    rcases State.readBit_cases s with ⟨b, d, hb, hlt⟩ | ⟨hb, hlt⟩
    · have h1 : (word (s.brPos.toNat + 1)).toNat = s.brPos.toNat + 1 := word_toNat (by have := s.brLimit.isLt; omega)
      refine ⟨s.node, word (s.brPos.toNat + 1), d, ?_, by omega, by omega, id, ?_, ?_⟩ <;> simp +contextual [parse, hb, Res.state]
    · refine ⟨s.node, s.brPos, s.draws, ?_, by omega, by omega, id, ?_, ?_⟩ <;> simp +contextual [parse, hb, Res.state]
  | succ room ih =>
    intro next k frames used s hroom hf hu hpos
    have hlim := s.brLimit.isLt
    have hltn : ∀ x ∈ used, x < next := fun x hx => List.mem_range.mp (hu.mem_iff.mp hx)
    rcases State.readBit_cases s with ⟨b, d, hb, hlt⟩ | ⟨hb, hlt⟩
    · have h1 : (word (s.brPos.toNat + 1)).toNat = s.brPos.toNat + 1 := word_toNat (by omega)
      cases b with
      | false =>
        obtain ⟨nd, p, d', e, p1, p2, hw, he, hk⟩ := ih (next + 1) k (.left next :: frames) (next :: used)
          { s with brPos := word (s.brPos.toNat + 1), draws := d } (by omega) (.left next hf)
          (by rw [List.range_succ]; exact (hu.cons next).trans (List.perm_append_singleton _ _).symm)
          (by simp only [h1]; omega)
        simp only [h1] at p1 p2
        refine ⟨nd, p, d', ?_, by omega, p2, hw, ?_, ?_⟩ <;> rw [parse, hb] <;>
          simp only [Res.andThen_ok, Bool.false_eq_true, if_false]
        · exact e
        · exact he
        · exact hk
      | true =>
        rcases State.readBits_cases 16 { s with brPos := word (s.brPos.toNat + 1), draws := d } with
          ⟨sym, d2, hs, _, hfit⟩ | ⟨hs, _⟩
        · simp only [h1] at hs hfit
          have h2 : (word (s.brPos.toNat + 1 + 16)).toNat = s.brPos.toNat + 1 + 16 := word_toNat (by omega)
          have hold : ∀ x, x ≠ next → (s.node.write next (NodeRec.mkLeaf (BitVec.ofNat 16 sym) 0)).nodeAt x =
              s.nodeAt x := fun x hx => by rw [Memory.nodeAt_write, if_neg hx]; rfl
          have hleaf : Holds (s.node.write next (NodeRec.mkLeaf (BitVec.ofNat 16 sym) 0)).nodeAt next
              (.leaf (BitVec.ofNat 16 sym)) := by simp [Holds, Memory.nodeAt_write, NodeRec.mkLeaf]
          have hperm : (next :: used).Perm (List.range (next + 1)) := by
            rw [List.range_succ]; exact (hu.cons next).trans (List.perm_append_singleton _ _).symm
          obtain ⟨i', frames', nd, e, hw, hcase⟩ := returnIndex_spec frames next
            { s with node := s.node.write next (NodeRec.mkLeaf (BitVec.ofNat 16 sym) 0)
                     brPos := word (s.brPos.toNat + 1 + 16), draws := d2 }
            (.leaf (BitVec.ofNat 16 sym)) used k hleaf
            (hf.congr fun x hx => hold x (by have := hltn x hx; omega)) (hperm.nodup_iff.mpr List.nodup_range)
            (fun x hx => by have := List.mem_range.mp (hperm.mem_iff.mp hx); omega)
          have hwf : Memory.wf nodeCap s.node → Memory.wf nodeCap nd := fun h =>
            hw (Memory.wf_write _ h (by omega))
          have hp : parse (room + 1) next k frames s = parseOn room (next + 1) (k + 1) next frames
              { s with node := s.node.write next (NodeRec.mkLeaf (BitVec.ofNat 16 sym) 0)
                       brPos := word (s.brPos.toNat + 1 + 16), draws := d2 } := by
            rw [parse, hb]
            simp only [Res.andThen_ok, if_true, hs, parseOn, State.writeNode] <;> rfl
          rw [hp, parseOn, e]
          rcases hcase with ⟨hnil, t', a1, a2, a3⟩ | ⟨hne, u', a1, a2⟩
          · subst hnil
            refine ⟨nd, word (s.brPos.toNat + 1 + 16), d2, rfl, by omega, by omega, hwf, by simp, ?_⟩
            intro root nx kk u heq
            simp only [Res.ok.injEq, Prod.mk.injEq] at heq
            obtain ⟨⟨rfl, rfl, rfl⟩, _⟩ := heq
            exact ⟨t', a1, a2.trans hperm, by rw [a3]; simp [HTree.leaves]; omega, by omega⟩
          · cases frames' with
            | nil => exact absurd rfl hne
            | cons f fs =>
              obtain ⟨nd', p, d', e', p1, p2, hw', he, hk⟩ := ih (next + 1) (k + 1) (f :: fs) u'
                { s with node := nd, brPos := word (s.brPos.toNat + 1 + 16), draws := d2 } (by omega)
                (by have : k + 1 = (HTree.leaf (BitVec.ofNat 16 sym)).leaves + k := by simp [HTree.leaves]; omega
                    rw [this]; exact a1)
                (a2.trans hperm) (by simp only [h2]; omega)
              simp only [h2] at p1 p2
              exact ⟨nd', p, d', e', by omega, p2, fun h => hw' (hwf h), he, hk⟩
        · refine ⟨s.node, word (s.brPos.toNat + 1), d, ?_, by omega, by omega, id, ?_, ?_⟩ <;>
            simp +contextual [parse, hb, hs, Res.state]
    · refine ⟨s.node, s.brPos, s.draws, ?_, by omega, by omega, id, ?_, ?_⟩ <;> simp +contextual [parse, hb, Res.state]

/-- All that TreeDeserBody() can do (45_serdes.md R555): the tree registers are cleared; on success they describe the tree
that NODE then holds. -/
theorem State.treeDeser_spec (s : State) (hpos : s.brPos.toNat ≤ s.brLimit.toNat) :
    ∃ nd p d, s.brPos.toNat ≤ p.toNat ∧ p.toNat ≤ s.brLimit.toNat ∧
      (Memory.wf nodeCap s.node → Memory.wf nodeCap nd) ∧
      (s.treeDeser = .raise .malformedContainer { s.clearTree with node := nd, brPos := p, draws := d } ∨
        ∃ (root : Nat) (t : HTree), Holds nd.nodeAt root t ∧
          (indexes nd.nodeAt root t).Perm (List.range (2 * t.leaves - 1)) ∧ t.leaves ≤ alphabetSize ∧
          s.treeDeser = .ok (p.toNat - s.brPos.toNat, t.leaves) { s with
            node := nd, brPos := p, draws := d, root := BitVec.ofNat 17 root, nleaves := BitVec.ofNat 17 t.leaves
            nnodes := BitVec.ofNat 17 (2 * t.leaves - 1), treeValid := true, ctValid := false }) := by
  obtain ⟨nd, p, d, e, p1, p2, hw, he, hk⟩ := parse_spec nodeCap 0 0 [] [] s.clearTree (by omega) .nil (by simp) hpos
  refine ⟨nd, p, d, p1, p2, hw, ?_⟩
  unfold treeDeser
  cases hp : parse nodeCap 0 0 [] s.clearTree with
  | raise er u =>
    have := he er u hp
    subst this
    rw [hp] at e
    exact .inl (by simp only [Res.state] at e; simp [e])
  | ok v u =>
    obtain ⟨root, nx, kk⟩ := v
    obtain ⟨t, a1, a2, a3, a4⟩ := hk root nx kk u hp
    rw [hp] at e
    simp only [Res.state] at e
    have hnx : nx = 2 * t.leaves - 1 := by
      have := a2.length_eq
      rw [indexes_length, List.length_range] at this
      exact this.symm
    subst hnx
    refine .inr ⟨root, t, a1, a2, by unfold nodeCap at a4; unfold alphabetSize; omega, ?_⟩
    simp only [Res.andThen_ok, e, a3, setTree, clearTree]

end Sys2Proof.Machine
end

