-- ==== Sys2Proof/Laws/Codec.lean ====
section
/-! SUPPORT. The encoder's and the decoder's loops. -/

namespace Sys2Proof.Machine

/-! ## The encoder -/

namespace State

theorem pushBit_only (s : State) (b : Bool) :
    ∃ n tl m, s.pushBit b = { s with bwNbits := n, bwTail := tl, bytemem := m } := by
  unfold pushBit
  simp only
  split
  · exact ⟨_, _, _, rfl⟩
  · exact ⟨_, _, _, rfl⟩

theorem foldl_pushBit_only (bs : Bits) : ∀ s : State,
    ∃ n tl m, bs.foldl pushBit s = { s with bwNbits := n, bwTail := tl, bytemem := m } := by
  induction bs with
  | nil => exact fun s => ⟨s.bwNbits, s.bwTail, s.bytemem, rfl⟩
  | cons b bs ih =>
    intro s
    obtain ⟨n, tl, m, h⟩ := pushBit_only s b
    obtain ⟨n', tl', m', h'⟩ := ih (s.pushBit b)
    exact ⟨n', tl', m', by rw [List.foldl_cons, h', h]⟩

/-- The encoder's loop on written symbols that have codes appends the codes one after another (46_codec.md R580). -/
theorem encodeSymbols_valid (syms : List Symbol) : ∀ (i : Nat) (s : State),
    (∀ j, j < syms.length → s.symin.get? (i + j) = syms[j]?) → (∀ x ∈ syms, (s.codeAt x.toNat).valid = true) →
    s.encodeSymbols syms.length i = s.appendAll (syms.map fun x => (s.codeAt x.toNat).bits) := by
  induction syms with
  | nil => exact fun _ _ _ _ => rfl
  | cons x syms ih =>
    intro i s hin hv
    have hx : s.symin.get? i = some x := by simpa using hin 0 (by simp)
    simp only [List.length_cons, encodeSymbols, readSymin_some hx, hv x (by simp), if_true, List.map_cons, appendAll]
    unfold appendBits
    split
    · rfl
    · obtain ⟨n, tl, m, h⟩ := foldl_pushBit_only (s.codeAt x.toNat).bits s
      simp only [Res.andThen_ok, h]
      exact ih (i + 1) _ (fun j hj => by simpa [Nat.add_assoc, Nat.add_comm 1] using hin (j + 1) (by simpa using hj))
        (fun y hy => hv y (by simp [hy]))

/-- The encoder's loop in two parts. -/
theorem encodeSymbols_add (a n : Nat) : ∀ (i : Nat) (s : State),
    s.encodeSymbols (a + n) i = (s.encodeSymbols a i).andThen fun _ u => u.encodeSymbols n (i + a) := by
  induction a with
  | zero => intro i s; simp [encodeSymbols]
  | succ a ih =>
    intro i s
    rw [Nat.add_right_comm, encodeSymbols, encodeSymbols]
    obtain ⟨sym, s1⟩ := s.readSymin i
    by_cases hv : (s1.codeAt sym.toNat).valid = true
    · simp only [hv, if_true]
      cases s1.appendBits (s1.codeAt sym.toNat).bits with
      | raise e u => rfl
      | ok x u => simp only [Res.andThen_ok, ih, Nat.add_assoc, Nat.add_comm 1]
    · simp [hv]

/-- The encoder's loop at a written symbol without a code (46_codec.md R580). -/
theorem encodeSymbols_missing {s : State} {i n : Nat} {x : Symbol} (hx : s.symin.get? i = some x)
    (hv : (s.codeAt x.toNat).valid = false) : s.encodeSymbols (n + 1) i = .raise .internalInvariant s := by
  simp [encodeSymbols, readSymin_some hx, hv]

/-- What the writer's commands may change, draws included. -/
structure WriterMoves (s t : State) : Prop where
  only : t = { s with bwNbits := t.bwNbits, bwTail := t.bwTail, bytemem := t.bytemem, draws := t.draws }
  ok : t.WriterOk
  grows : s.bwNbits.toNat ≤ t.bwNbits.toNat
  outside : s.bytemem.sameOutside t.bytemem (s.bwNbits.toNat / 8) (t.bwNbits.toNat / 8)
  wf : Memory.wf s.params.byteCap s.bytemem → Memory.wf s.params.byteCap t.bytemem

theorem WriterMoves.refl {s : State} (h : s.WriterOk) : s.WriterMoves s where
  only := rfl
  ok := h
  grows := le_refl _
  outside := Memory.sameOutside_refl _ _ _
  wf := id

theorem Appends.moves {s t : State} {bs : Bits} (h : s.Appends t bs) : s.WriterMoves t where
  only := by
    have := h.only
    rw [this]
  ok := h.ok
  grows := by rw [h.nbits]; omega
  outside := h.outside
  wf := h.wf

theorem WriterMoves.params {s t : State} (h : s.WriterMoves t) : t.params = s.params := by rw [h.only]

theorem WriterMoves.trans {s t u : State} (h1 : s.WriterMoves t) (h2 : t.WriterMoves u) : s.WriterMoves u where
  only := by
    have a := h1.only
    have b := h2.only
    rw [a] at b
    exact b
  ok := h2.ok
  grows := h1.grows.trans h2.grows
  outside := Memory.sameOutside_trans h1.outside h2.outside (Nat.div_le_div_right h1.grows)
    (Nat.div_le_div_right h2.grows)
  wf := fun h => by
    have := h2.wf (h1.params ▸ h1.wf h)
    rwa [h1.params] at this

theorem WriterMoves.draw {s : State} (h : s.WriterOk) (d : Nat) : s.WriterMoves { s with draws := d } where
  only := rfl
  ok := ⟨h.fits, h.tail⟩
  grows := le_refl _
  outside := Memory.sameOutside_refl _ _ _
  wf := id

/-- All that the encoder's loop can do (46_codec.md R580). -/
theorem encodeSymbols_spec (n : Nat) : ∀ (i : Nat) (s : State), s.params.legal → s.WriterOk →
    s.WriterMoves (s.encodeSymbols n i).state ∧
      ∀ e t, s.encodeSymbols n i = .raise e t → e = .internalInvariant ∨ e = .outputOverflow := by
  induction n with
  | zero => exact fun i s _ hw => ⟨WriterMoves.refl hw, by simp [encodeSymbols]⟩
  | succ n ih =>
    intro i s hp hw
    obtain ⟨sym, d, h1, _⟩ := readSymin_spec i s
    rw [encodeSymbols, h1]
    have hm := WriterMoves.draw hw d
    simp only
    split
    · rcases appendBits_cases (s := { s with draws := d }) hp hm.ok (codeAt { s with draws := d } sym.toNat).bits with
        ⟨t, ht, ha, _⟩ | ⟨hr, _⟩
      · obtain ⟨h2, h3⟩ := ih (i + 1) t (ha.params ▸ hp) ha.ok
        simp only [ht, Res.andThen_ok]
        exact ⟨(hm.trans ha.moves).trans h2, h3⟩
      · simp only [hr, Res.andThen_raise]
        exact ⟨hm, by simp +contextual⟩
    · exact ⟨hm, by simp +contextual⟩

/-! ## The decoder -/

/-- Walking from a node by the bits of a leaf's path reaches the leaf (46_codec.md R600; 44_codetable.md R526). -/
theorem decodeSymbol_path (t : HTree) : ∀ {s : State} {n left : Nat} {sym : Symbol} {p : Bits}, Holds s.nodeAt n t →
    (sym, p) ∈ t.paths → s.bytemem.holds s.brPos.toNat p → s.brPos.toNat + p.length ≤ s.brLimit.toNat →
    p.length ≤ left → s.decodeSymbol left n = .ok sym { s with brPos := word (s.brPos.toNat + p.length) } := by
  induction t with
  | leaf y =>
    intro s n left sym p ht hm _ _ _
    simp only [HTree.paths, List.mem_singleton, Prod.mk.injEq] at hm
    obtain ⟨rfl, rfl⟩ := hm
    obtain ⟨h1, rfl⟩ := ht
    have : word s.brPos.toNat = s.brPos := by simp [word]
    cases left <;> simp [decodeSymbol, h1, this]
  | node l r ihl ihr =>
    intro s n left sym p ht hm hh hfit hleft
    obtain ⟨h1, hl, hr⟩ := ht
    simp only [HTree.paths, List.mem_append, List.mem_map] at hm
    have key : ∃ b q, p = b :: q ∧ ∃ u : HTree, (sym, q) ∈ u.paths ∧
        Holds s.nodeAt (if b then (s.nodeAt n).right else (s.nodeAt n).left).toNat u ∧
        (∀ {s : State} {n left : Nat} {sym : Symbol} {p : Bits}, Holds s.nodeAt n u → (sym, p) ∈ u.paths →
          s.bytemem.holds s.brPos.toNat p → s.brPos.toNat + p.length ≤ s.brLimit.toNat → p.length ≤ left →
          s.decodeSymbol left n = .ok sym { s with brPos := word (s.brPos.toNat + p.length) }) := by
      rcases hm with ⟨⟨y, q⟩, hq, he⟩ | ⟨⟨y, q⟩, hq, he⟩ <;> simp only [Prod.mk.injEq] at he <;> obtain ⟨rfl, rfl⟩ := he
      · exact ⟨false, q, rfl, l, hq, by simpa using hl, ihl⟩
      · exact ⟨true, q, rfl, r, hq, by simpa using hr, ihr⟩
    obtain ⟨b, q, rfl, u, hq, hu, ih⟩ := key
    simp only [List.length_cons] at hfit hleft ⊢
    obtain ⟨a1, a2, a3⟩ := readSlice_ok hh (by omega)
    cases left with
    | zero => omega
    | succ left =>
      have := ih (s := { s with brPos := word (s.brPos.toNat + 1) }) (left := left) hu hq (by simpa only [a2] using a3)
        (by simp only [a2]; omega) (by omega)
      simp only [decodeSymbol, h1, Bool.false_eq_true, if_false, a1, Res.andThen_ok, this, a2, Nat.add_assoc, Nat.add_comm 1]

/-- The decoder's loop on a slice that holds leaves' codes delivers the leaves' symbols (46_codec.md R600). -/
theorem decodeSymbols_picks (t : HTree) (picks : List (Symbol × Bits)) : ∀ (i : Nat) (s : State),
    Holds s.nodeAt s.root.toNat t → (∀ c ∈ picks, c ∈ t.paths) →
    s.bytemem.holds s.brPos.toNat (picks.map Prod.snd).flatten →
    s.brPos.toNat + (picks.map Prod.snd).flatten.length ≤ s.brLimit.toNat →
    ∃ so, s.decodeSymbols picks.length i =
        .ok () { s with symout := so, brPos := word (s.brPos.toNat + (picks.map Prod.snd).flatten.length) } ∧
      (∀ j, j < picks.length → so.get? (i + j) = (picks.map Prod.fst)[j]?) ∧
      s.symout.sameOutside so i (i + picks.length) := by
  induction picks with
  | nil =>
    intro i s _ _ _ _
    exact ⟨s.symout, by simp [decodeSymbols, word], by simp, Memory.sameOutside_refl _ _ _⟩
  | cons c picks ih =>
    intro i s ht hm hh hfit
    obtain ⟨sym, p⟩ := c
    simp only [List.map_cons, List.flatten_cons, List.length_append] at hh hfit ⊢
    obtain ⟨h1, h2⟩ := Memory.holds_append.mp hh
    have hlim := s.brLimit.isLt
    have hn : (word (s.brPos.toNat + p.length)).toNat = s.brPos.toNat + p.length := word_toNat (by omega)
    have hd := decodeSymbol_path t (left := s.bitsLeft) ht (hm (sym, p) (by simp)) h1 (by omega) (by unfold bitsLeft; omega)
    obtain ⟨so, e, g1, g2⟩ := ih (i + 1)
      { s with symout := s.symout.write i sym, brPos := word (s.brPos.toNat + p.length) } ht
      (fun c hc => hm c (by simp [hc])) (by simpa only [hn] using h2) (by simp only [hn]; omega)
    refine ⟨so, ?_, fun j hj => ?_, fun a ha => ?_⟩
    · simp only [List.length_cons, decodeSymbols, hd, Res.andThen_ok, writeSymout]
      simp only [hn] at e
      rw [e, Nat.add_assoc]
    · cases j with
      | zero =>
        rw [Nat.add_zero, g2 i (.inl (by omega))]
        simp
      | succ j =>
        simp only [List.length_cons] at hj
        have := g1 j (by omega)
        simpa [Nat.add_assoc, Nat.add_comm 1] using this
    · simp only [List.length_cons] at ha
      rw [g2 a (by omega)]
      exact Memory.get?_write_other _ _ (by omega)

/-- The decoder's loop in two parts. -/
theorem decodeSymbols_add (a n : Nat) : ∀ (i : Nat) (s : State),
    s.decodeSymbols (a + n) i = (s.decodeSymbols a i).andThen fun _ u => u.decodeSymbols n (i + a) := by
  induction a with
  | zero => intro i s; simp [decodeSymbols]
  | succ a ih =>
    intro i s
    rw [Nat.add_right_comm, decodeSymbols, decodeSymbols]
    cases s.decodeSymbol s.bitsLeft s.root.toNat with
    | raise e u => rfl
    | ok sym u => simp only [Res.andThen_ok, ih, Nat.add_assoc, Nat.add_comm 1]

/-- Walking from a node by the bits of a proper part of a leaf's path, where the slice ends after them (46_codec.md R600). -/
theorem decodeSymbol_inner (t : HTree) : ∀ {s : State} {n : Nat} {q : Bits}, Holds s.nodeAt n t →
    (∃ c ∈ t.paths, q <+: c.2 ∧ q ≠ c.2) → s.bytemem.holds s.brPos.toNat q →
    s.brPos.toNat + q.length = s.brLimit.toNat →
    s.decodeSymbol q.length n = .raise .malformedContainer { s with brPos := word (s.brPos.toNat + q.length) } := by
  induction t with
  | leaf y =>
    rintro s n q _ ⟨c, hc, hq, hne⟩
    simp only [HTree.paths, List.mem_singleton] at hc
    rw [hc] at hq hne
    exact absurd (List.prefix_nil.mp hq) hne
  | node l r ihl ihr =>
    rintro s n q ⟨h1, hl, hr⟩ ⟨⟨y, p⟩, hc, hq, hne⟩ hh hfit
    have hlim := s.brLimit.isLt
    cases q with
    | nil => simp [decodeSymbol, h1, word]
    | cons b q =>
      simp only [List.length_cons] at hfit ⊢
      obtain ⟨a1, a2, a3⟩ := readSlice_ok hh (by omega)
      have key : ∀ u : HTree, Holds s.nodeAt (if b then (s.nodeAt n).right else (s.nodeAt n).left).toNat u →
          (∃ c ∈ u.paths, q <+: c.2 ∧ q ≠ c.2) →
          (∀ {s : State} {n : Nat} {q : Bits}, Holds s.nodeAt n u → (∃ c ∈ u.paths, q <+: c.2 ∧ q ≠ c.2) →
            s.bytemem.holds s.brPos.toNat q → s.brPos.toNat + q.length = s.brLimit.toNat →
            s.decodeSymbol q.length n =
              .raise .malformedContainer { s with brPos := word (s.brPos.toNat + q.length) }) →
          s.decodeSymbol (q.length + 1) n =
            .raise .malformedContainer { s with brPos := word (s.brPos.toNat + (q.length + 1)) } := by
        intro u hu hp ih
        have := ih (s := { s with brPos := word (s.brPos.toNat + 1) }) hu hp (by simpa only [a2] using a3)
          (by simp only [a2]; omega)
        simp only [decodeSymbol, h1, Bool.false_eq_true, if_false, a1, Res.andThen_ok, this, a2, Nat.add_assoc,
          Nat.add_comm 1]
      simp only [HTree.paths, List.mem_append, List.mem_map, Prod.mk.injEq] at hc
      rcases hc with ⟨⟨z, p'⟩, hm, rfl, rfl⟩ | ⟨⟨z, p'⟩, hm, rfl, rfl⟩ <;>
        obtain ⟨rfl, hq'⟩ := List.cons_prefix_cons.mp hq
      · exact key l (by simpa using hl) ⟨(z, p'), hm, hq', fun h => hne (by rw [h])⟩ ihl
      · exact key r (by simpa using hr) ⟨(z, p'), hm, hq', fun h => hne (by rw [h])⟩ ihr

/-- All that the walk to one leaf can do. -/
theorem decodeSymbol_spec (left : Nat) : ∀ (n : Nat) (s : State), s.brPos.toNat ≤ s.brLimit.toNat →
    ∃ p d, (s.decodeSymbol left n).state = { s with brPos := p, draws := d } ∧ s.brPos.toNat ≤ p.toNat ∧
      p.toNat ≤ s.brLimit.toNat ∧ ∀ e t, s.decodeSymbol left n = .raise e t → e = .malformedContainer := by
  induction left with
  | zero =>
    intro n s h
    refine ⟨s.brPos, s.draws, ?_, le_refl _, h, ?_⟩ <;> rw [decodeSymbol] <;> split <;> simp +contextual [Res.state]
  | succ left ih =>
    intro n s h
    rw [decodeSymbol]
    split
    · exact ⟨s.brPos, s.draws, rfl, le_refl _, h, by simp⟩
    · have hlim := s.brLimit.isLt
      rcases readBit_cases s with ⟨b, d, hb, hlt⟩ | ⟨hb, hlt⟩
      · have hn : (word (s.brPos.toNat + 1)).toNat = s.brPos.toNat + 1 := word_toNat (by omega)
        obtain ⟨p, d', e1, e2, e3, e4⟩ := ih (if b then (s.nodeAt n).right else (s.nodeAt n).left).toNat
          { s with brPos := word (s.brPos.toNat + 1), draws := d } (by simp only [hn]; omega)
        simp only [hn] at e2
        exact ⟨p, d', by rw [hb]; exact e1, by omega, e3, by rw [hb]; exact e4⟩
      · exact ⟨s.brPos, s.draws, by rw [hb]; rfl, le_refl _, h, by rw [hb]; simp +contextual⟩

/-- All that the decoder's loop can do: it writes SYMOUT, moves the cursor inside the slice and draws; the one error is
MALFORMED_CONTAINER; at its end all n entries are written (46_codec.md R600). -/
theorem decodeSymbols_spec (n : Nat) : ∀ (i : Nat) (s : State), s.brPos.toNat ≤ s.brLimit.toNat →
    ∃ so p d, (s.decodeSymbols n i).state = { s with symout := so, brPos := p, draws := d } ∧ s.brPos.toNat ≤ p.toNat ∧
      p.toNat ≤ s.brLimit.toNat ∧ s.symout.sameOutside so i (i + n) ∧
      (∀ size, i + n ≤ size → Memory.wf size s.symout → Memory.wf size so) ∧
      (∀ e t, s.decodeSymbols n i = .raise e t → e = .malformedContainer) ∧
      (∀ t, s.decodeSymbols n i = .ok () t → ∀ j, i ≤ j → j < i + n → (so.get? j).isSome) := by
  induction n with
  | zero =>
    exact fun i s h => ⟨s.symout, s.brPos, s.draws, rfl, le_refl _, h, Memory.sameOutside_refl _ _ _, fun _ _ h => h,
      by simp [decodeSymbols], fun _ _ j h1 h2 => by omega⟩
  | succ n ih =>
    intro i s h
    obtain ⟨p, d, e1, e2, e3, e4⟩ := decodeSymbol_spec s.bitsLeft s.root.toNat s h
    rw [decodeSymbols]
    cases hd : s.decodeSymbol s.bitsLeft s.root.toNat with
    | raise er u =>
      rw [hd] at e1
      simp only [Res.state] at e1
      subst e1
      exact ⟨s.symout, p, d, rfl, e2, e3, Memory.sameOutside_refl _ _ _, fun _ _ h => h,
        fun e t he => by simp only [Res.andThen_raise, Res.raise.injEq] at he; exact he.1 ▸ e4 er _ hd, by simp⟩
    | ok sym u =>
      rw [hd] at e1
      simp only [Res.state] at e1
      subst e1
      obtain ⟨so, p', d', f1, f2, f3, f4, f5, f6, f7⟩ := ih (i + 1)
        { s with symout := s.symout.write i sym, brPos := p, draws := d } e3
      refine ⟨so, p', d', f1, e2.trans f2, f3, fun a ha => ?_, fun size hs hw => ?_, f6, fun t ht j h1 h2 => ?_⟩
      · rw [f4 a (by omega)]
        exact Memory.get?_write_other _ _ (by omega)
      · exact f5 size (by omega) (Memory.wf_write _ hw (by omega))
      · by_cases hj : j = i
        · subst hj
          rw [f4 j (.inl (by omega))]
          simp
        · exact f7 t ht j (by omega) (by omega)

end State

end Sys2Proof.Machine
end

