-- ==== Sys2Proof/Laws/HostPort.lean ====
section
/-! SUPPORT. The memory window, the register port and the schedule: one lemma per operation that says all it can do. -/

namespace Sys2Proof.Machine

namespace State

/-! ## The window -/

/-- All that a window read can do: it draws (20_memory.md R211, R223). -/
theorem viewRead_spec (v : View) (i : Nat) (s : State) : ∃ x d, s.viewRead v i = (x, { s with draws := d }) := by
  unfold viewRead
  split
  · exact ⟨0, s.draws, rfl⟩
  · obtain ⟨a1, d1, h1, _⟩ := readSymin_spec i s
    obtain ⟨a2, d2, h2, _⟩ := readSymout_spec i s
    obtain ⟨a3, d3, h3, _⟩ := readByte_spec i s
    obtain ⟨a4, d4, h4, _⟩ := readFreq_spec i s
    cases v <;> simp only [h1, h2, h3, h4] <;> exact ⟨_, _, rfl⟩

/-- All that a window write can do: it writes one of the four writable memories, inside its size, and draws
(20_memory.md R211, R213 to R217). -/
theorem viewWrite_spec (v : View) (i : Nat) (x : Word) (s : State) : ∃ si so bm fr d,
    s.viewWrite v i x = { s with symin := si, symout := so, bytemem := bm, freq := fr, draws := d } ∧
      (Memory.wf s.params.symCap s.symin → Memory.wf s.params.symCap si) ∧
      (Memory.wf s.params.symCap s.symout → Memory.wf s.params.symCap so) ∧
      (Memory.wf s.params.byteCap s.bytemem → Memory.wf s.params.byteCap bm) ∧
      (Memory.wf alphabetSize s.freq → Memory.wf alphabetSize fr) ∧
      (∀ j, (s.symout.get? j).isSome → (so.get? j).isSome) := by
  unfold viewWrite
  split
  · exact ⟨s.symin, s.symout, s.bytemem, s.freq, s.draws, rfl, id, id, id, id, fun _ h => h⟩
  · next hi =>
    obtain ⟨f, d, hf, _⟩ := readFreq_spec i s
    cases v <;> simp only [View.size, not_le] at hi <;> simp only [hf, writeSymout, writeByte, writeFreq]
    case symin => exact ⟨_, s.symout, s.bytemem, s.freq, s.draws, rfl, fun h => Memory.wf_write _ h hi, id, id, id, fun _ h => h⟩
    case symout =>
      refine ⟨s.symin, _, s.bytemem, s.freq, s.draws, rfl, id, fun h => Memory.wf_write _ h hi, id, id, fun j h => ?_⟩
      rw [Memory.get?_write]
      split
      · rfl
      · exact h
    case bytemem => exact ⟨s.symin, s.symout, _, s.freq, s.draws, rfl, id, id, fun h => Memory.wf_write _ h hi, id, fun _ h => h⟩
    case freqLo => exact ⟨s.symin, s.symout, s.bytemem, _, d, rfl, id, id, id, fun h => Memory.wf_write _ h hi, fun _ h => h⟩
    case freqHi => exact ⟨s.symin, s.symout, s.bytemem, _, d, rfl, id, id, id, fun h => Memory.wf_write _ h hi, fun _ h => h⟩
    all_goals exact ⟨s.symin, s.symout, s.bytemem, s.freq, s.draws, rfl, id, id, id, id, fun _ h => h⟩

/-! ## The register port -/

/-- All that reading a register can do: MDATA's read moves MADDR and draws, no other read changes anything
(20_memory.md R209, R212). -/
theorem readReg_spec (r : Reg) (s : State) : ∃ x m d, s.readReg r = (x, { s with maddr := m, draws := d }) ∧
    (r ≠ .mdata → m = s.maddr ∧ d = s.draws) := by
  cases r
  case mdata =>
    obtain ⟨x, d, h⟩ := viewRead_spec (View.ofMsel s.msel) s.maddr.toNat s
    exact ⟨x, s.maddr + 1, d, by simp only [readReg, mdataRead, h, stepMaddr], fun h => absurd rfl h⟩
  all_goals exact ⟨_, s.maddr, s.draws, rfl, fun _ => ⟨rfl, rfl⟩⟩

/-- All that a host read can do (70_reset_and_hazards.md R830). -/
theorem hostRead_spec (r : Reg) (s : State) : ∃ x h m d,
    s.hostRead r = { s with haz := h, maddr := m, draws := d, rdata := x } ∧ (s.haz = true → h = true) ∧
      (¬ (s.busy = true ∧ r.hazardous = true) → h = s.haz) := by
  unfold hostRead
  split
  · next hz => exact ⟨_, true, s.maddr, s.draws + 1, rfl, fun _ => rfl, fun h => absurd hz h⟩
  · obtain ⟨x, m, d, h, _⟩ := readReg_spec r s
    exact ⟨x, s.haz, m, d, by rw [h]; rfl, id, fun _ => rfl⟩

/-- All that a W1C write of STATUS does (10_state.md R105). -/
theorem writeStatus_spec (v : Word) (s : State) :
    s.writeStatus v = { s with done := s.done && !v.getLsbD 1, haz := s.haz && !v.getLsbD 3 } := by
  unfold writeStatus acknowledge
  cases h1 : v.getLsbD 1 <;> cases h3 : v.getLsbD 3 <;> simp

/-! ## The schedule -/

/-- All that choosing the next move does (00_scope.md R16; log 4). -/
theorem nextMove_cases (s : State) :
    (s.pending = [] ∧ s.nextMove = (s.engineMove, s)) ∨
    (∃ rest, s.pending = .engine :: rest ∧ s.nextMove = (s.engineMove, { s with pending := rest })) ∨
    (∃ a rest, s.pending = .host a :: rest ∧ s.nextMove = (.host a, { s with pending := rest })) ∨
    (∃ rest, s.pending = .powerOn :: rest ∧ s.nextMove = (.powerOn, { s with pending := rest })) := by
  cases hp : s.pending with
  | nil => exact .inl ⟨rfl, by simp [nextMove, hp]⟩
  | cons e rest => cases e <;> simp [nextMove, hp]

end State

/-- All that one step can do (00_scope.md R16). -/
theorem step_cases (s : State) :
    (s.busy = true ∧ (s.pending = [] ∧ step s = engineStep s ∨
      ∃ rest, s.pending = .engine :: rest ∧ step s = engineStep { s with pending := rest })) ∨
    (s.busy = false ∧ (s.pending = [] ∧ step s = .next s ∨
      ∃ rest, s.pending = .engine :: rest ∧ step s = .next { s with pending := rest })) ∨
    (∃ a rest, s.pending = .host a :: rest ∧ step s = hostAccess a { s with pending := rest }) ∨
    (∃ rest, s.pending = .powerOn :: rest ∧ step s = .next (State.powerOnReset { s with pending := rest })) := by
  rcases State.nextMove_cases s with ⟨hp, hm⟩ | ⟨rest, hp, hm⟩ | ⟨a, rest, hp, hm⟩ | ⟨rest, hp, hm⟩
  · cases hb : s.busy
    · exact .inr (.inl ⟨rfl, .inl ⟨hp, by simp [step, hm, State.engineMove, hb]⟩⟩)
    · exact .inl ⟨rfl, .inl ⟨hp, by simp [step, hm, State.engineMove, hb]⟩⟩
  · cases hb : s.busy
    · exact .inr (.inl ⟨rfl, .inr ⟨rest, hp, by simp [step, hm, State.engineMove, hb]⟩⟩)
    · exact .inl ⟨rfl, .inr ⟨rest, hp, by simp [step, hm, State.engineMove, hb]⟩⟩
  · exact .inr (.inr (.inl ⟨a, rest, hp, by simp [step, hm]⟩))
  · exact .inr (.inr (.inr ⟨rest, hp, by simp [step, hm]⟩))

/-- All that a host transaction can do (20_memory.md R205, R207, R209). -/
theorem hostAccess_cases (a : Access) (s : State) :
    (∃ r, hostAccess a s = .refused r) ∨
    (∃ r, a.bytes = 4 ∧ Reg.ofOffset a.offset = some r ∧ a.op = .read ∧ hostAccess a s = .next (s.hostRead r)) ∨
    (∃ r v, a.bytes = 4 ∧ Reg.ofOffset a.offset = some r ∧ a.op = .write v ∧ hostAccess a s = .next (s.hostWrite r v)) := by
  unfold hostAccess
  split
  · exact .inl ⟨_, rfl⟩
  · next h =>
    simp only [not_or, not_not] at h
    cases ho : Reg.ofOffset a.offset with
    | none => exact .inl ⟨_, rfl⟩
    | some r =>
      cases hop : a.op with
      | read => exact .inr (.inl ⟨r, h.1, rfl, rfl, rfl⟩)
      | write v => exact .inr (.inr ⟨r, v, h.1, rfl, rfl, rfl⟩)

end Sys2Proof.Machine
end

