-- ==== Sys2Proof/Laws/PerInstr.lean ====
section
/-! SUPPORT. Statements made command by command: a command's word decodes to it, and selects its row of the opcode table. -/

namespace Sys2Proof.Laws.RoundTrip

/-- A well-formed command's word decodes to it (30_encoding.md R302, R303). -/
def Statement (i : Instr) : Prop := i.wf = true → Sys2Proof.decode (Sys2Proof.encode i) = .ok i

theorem nop : Statement .nop := by unfold Statement; decide
theorem bwInit : Statement .bwInit := by unfold Statement; decide
theorem bwPut1 (b : Bool) : Statement (.bwPut1 b) := by unfold Statement; revert b; decide
theorem bwPutN (w : BitVec 6) : Statement (.bwPutN w) := by unfold Statement; revert w; decide
theorem bwFinal : Statement .bwFinal := by unfold Statement; decide
theorem brInit : Statement .brInit := by unfold Statement; decide
theorem brGet1 : Statement .brGet1 := by unfold Statement; decide
theorem brGetN (w : BitVec 6) : Statement (.brGetN w) := by unfold Statement; revert w; decide
theorem freqClr : Statement .freqClr := by unfold Statement; decide
theorem freqCount : Statement .freqCount := by unfold Statement; decide
theorem treeBuild : Statement .treeBuild := by unfold Statement; decide
theorem treeSer : Statement .treeSer := by unfold Statement; decide
theorem treeDeser : Statement .treeDeser := by unfold Statement; decide
theorem codeGen : Statement .codeGen := by unfold Statement; decide
theorem encode : Statement .encode := by unfold Statement; decide
theorem decode : Statement .decode := by unfold Statement; decide
theorem encAll : Statement .encAll := by unfold Statement; decide

end Sys2Proof.Laws.RoundTrip

namespace Sys2Proof.Laws.TableRow

/-- A command's word selects the row of its mnemonic and no other (30_encoding.md R303, R306). -/
def Statement (i : Instr) : Prop :=
  (opcodeTable.filter (fun r => r.selects (Sys2Proof.encode i))).map OpcodeRow.mnemonic = [i.mnemonic]

theorem nop : Statement .nop := by unfold Statement; decide
theorem bwInit : Statement .bwInit := by unfold Statement; decide
theorem bwPut1 (b : Bool) : Statement (.bwPut1 b) := by unfold Statement; revert b; decide
theorem bwPutN (w : BitVec 6) : Statement (.bwPutN w) := by unfold Statement; revert w; decide
theorem bwFinal : Statement .bwFinal := by unfold Statement; decide
theorem brInit : Statement .brInit := by unfold Statement; decide
theorem brGet1 : Statement .brGet1 := by unfold Statement; decide
theorem brGetN (w : BitVec 6) : Statement (.brGetN w) := by unfold Statement; revert w; decide
theorem freqClr : Statement .freqClr := by unfold Statement; decide
theorem freqCount : Statement .freqCount := by unfold Statement; decide
theorem treeBuild : Statement .treeBuild := by unfold Statement; decide
theorem treeSer : Statement .treeSer := by unfold Statement; decide
theorem treeDeser : Statement .treeDeser := by unfold Statement; decide
theorem codeGen : Statement .codeGen := by unfold Statement; decide
theorem encode : Statement .encode := by unfold Statement; decide
theorem decode : Statement .decode := by unfold Statement; decide
theorem encAll : Statement .encAll := by unfold Statement; decide

end Sys2Proof.Laws.TableRow
end

