-- ==== Sys2Proof/Machine/Asm.lean ====
section
/-! DEFINITION. The host's assembly language (spec/30_encoding.md R350 to R354): lines as data, their expansion to the
events of `pending`, the text of a line, and the listing of a command word. The block itself sees register transactions
only; nothing here is read by `step`. -/

namespace Sys2Proof.Machine

/-- A line of a host program (30_encoding.md R350 to R352). A register is given by its byte offset, a view by its MSEL
value. -/
inductive AsmLine
  | blank
  /-- A command mnemonic other than bw.putn. -/
  | command (i : Instr)
  /-- `bw.putn W, V`. -/
  | putn (w : BitVec 6) (v : Word)
  | wr (reg : Nat) (v : Word)
  | rd (reg : Nat)
  | wait
  | mset (sel i : Word)
  | mwr (sel i : Word) (vs : List Word)
  | mrd (sel i : Word) (n : Nat)
  | ack
  deriving DecidableEq, Repr

/-- One write of v to the register at an offset. -/
def wrEvent (reg : Nat) (v : Word) : Event := .host { offset := reg, bytes := 4, op := .write v }

/-- One read of the register at an offset. -/
def rdEvent (reg : Nat) : Event := .host { offset := reg, bytes := 4, op := .read }

/-- The offsets the pseudo-instructions use (10_state.md R102). -/
def offStatus : Nat := 0x08
def offCmd : Nat := 0x0C
def offArg0 : Nat := 0x10
def offMsel : Nat := 0x44
def offMaddr : Nat := 0x48
def offMdata : Nat := 0x4C

/-- `wait`: read STATUS until BUSY = 0 (30_encoding.md R352). How many reads see BUSY = 1 before the engine's step is the
schedule's choice (93_implementation_defined.md U5): `polls` of them, then the engine's step, then the last read (log 17). -/
def waitEvents (polls : Nat) : List Event := List.replicate polls (rdEvent offStatus) ++ [.engine, rdEvent offStatus]

/-- `mset SEL, i` (30_encoding.md R352). -/
def msetEvents (sel i : Word) : List Event := [wrEvent offMsel sel, wrEvent offMaddr i]

/-- A command line: the CMD write, then `wait` (30_encoding.md R353). -/
def commandEvents (polls : Nat) (i : Instr) : List Event := wrEvent offCmd (encode i) :: waitEvents polls

/-- The expansion of a line to register transactions (30_encoding.md R352, R353). -/
def AsmLine.expand (polls : Nat) : AsmLine → List Event
  | .blank => []
  | .command i => commandEvents polls i
  | .putn w v => wrEvent offArg0 v :: commandEvents polls (.bwPutN w)
  | .wr reg v => [wrEvent reg v]
  | .rd reg => [rdEvent reg]
  | .wait => waitEvents polls
  | .mset sel i => msetEvents sel i
  | .mwr sel i vs => msetEvents sel i ++ vs.map (wrEvent offMdata)
  | .mrd sel i n => msetEvents sel i ++ List.replicate n (rdEvent offMdata)
  | .ack => [wrEvent offStatus 0x0000000A]

/-- A host program's events. -/
def expandProgram (polls : Nat) (lines : List AsmLine) : List Event := lines.flatMap (AsmLine.expand polls)

/-- The lower-case mnemonic of a command, `_` written as `.` (30_encoding.md R350). -/
def asmName : Instr → String
  | .nop => "nop"
  | .bwInit => "bw.init"
  | .bwPut1 _ => "bw.put1"
  | .bwPutN _ => "bw.putn"
  | .bwFinal => "bw.final"
  | .brInit => "br.init"
  | .brGet1 => "br.get1"
  | .brGetN _ => "br.getn"
  | .freqClr => "freq.clr"
  | .freqCount => "freq.count"
  | .treeBuild => "tree.build"
  | .treeSer => "tree.ser"
  | .treeDeser => "tree.deser"
  | .codeGen => "code.gen"
  | .encode => "encode"
  | .decode => "decode"
  | .encAll => "enc.all"

/-- The commands that take no operand (30_encoding.md R351). -/
def plainCommands : List Instr :=
  [.nop, .bwInit, .bwFinal, .brInit, .brGet1, .freqClr, .freqCount, .treeBuild, .treeSer, .treeDeser, .codeGen, .encode,
   .decode, .encAll]

/-- The register names and offsets (10_state.md R102). -/
def regNames : List (String × Nat) :=
  [("ID", 0x00), ("CTRL", 0x04), ("STATUS", 0x08), ("CMD", 0x0C), ("ARG0", 0x10), ("NSYM", 0x14), ("BRLEN", 0x18),
   ("RES0", 0x1C), ("RES1", 0x20), ("NLEAVES", 0x24), ("NNODES", 0x28), ("ROOT", 0x2C)] ++
  [("BW_NBITS", 0x30), ("BW_TAIL", 0x34), ("BR_POS", 0x38), ("BR_LIMIT", 0x3C), ("OUT_N", 0x40), ("MSEL", 0x44),
   ("MADDR", 0x48), ("MDATA", 0x4C), ("SYMCAP", 0x50), ("BYTECAP", 0x54)]

/-- The view names and MSEL values (20_memory.md R210). -/
def viewNames : List (String × Nat) :=
  [("SYMIN", 0), ("SYMOUT", 1), ("BYTEMEM", 2), ("FREQ_LO", 3), ("FREQ_HI", 4), ("NODE_INFO", 5), ("NODE_LEFT", 6),
   ("NODE_RIGHT", 7), ("NODE_WLO", 8), ("NODE_WHI", 9), ("CODE_LEN", 10), ("CODE_BITS", 11)]

/-- The value of a digit, of either case (log 17). -/
def digitValue (c : Char) : Nat :=
  if '0' ≤ c ∧ c ≤ '9' then c.toNat - '0'.toNat
  else if 'a' ≤ c ∧ c ≤ 'f' then c.toNat - 'a'.toNat + 10
  else if 'A' ≤ c ∧ c ≤ 'F' then c.toNat - 'A'.toNat + 10
  else 16

/-- A number in a base, at least one digit. -/
def parseDigits (base : Nat) (cs : List Char) : Option Nat :=
  if cs.isEmpty ∨ cs.any (fun c => base ≤ digitValue c) then none
  else some (cs.foldl (fun v c => base * v + digitValue c) 0)

/-- "Numbers are decimal or 0x hexadecimal" (30_encoding.md R350). -/
def parseNumber : List Char → Option Nat
  | '0' :: 'x' :: cs => parseDigits 16 cs
  | cs => parseDigits 10 cs

/-- A 32-bit operand. -/
def parseWord (cs : List Char) : Option Word :=
  (parseNumber cs).bind fun n => if n < 2 ^ 32 then some (word n) else none

/-- A name of a table, or a number. -/
def parseNamed (names : List (String × Nat)) (cs : List Char) : Option Nat :=
  match names.find? (fun e => e.1.toList = cs) with
  | some e => some e.2
  | none => parseNumber cs

/-- A width operand 0 .. 32 (30_encoding.md R351). -/
def parseWidth (cs : List Char) : Option (BitVec 6) :=
  (parseNumber cs).bind fun n => if n ≤ 32 then some (BitVec.ofNat 6 n) else none

/-- A view as an MSEL value. -/
def parseSel (cs : List Char) : Option Word :=
  (parseNamed viewNames cs).bind fun n => if n < 2 ^ 32 then some (word n) else none

/-- A line up to its comment (30_encoding.md R350). -/
def dropComment (cs : List Char) : List Char := cs.takeWhile (· ≠ ';')

/-- Without white space at either end. -/
def trimSpaces (cs : List Char) : List Char :=
  ((cs.dropWhile Char.isWhitespace).reverse.dropWhile Char.isWhitespace).reverse

/-- The operands of a line: the text after the mnemonic, cut at commas. -/
def splitOperands (cs : List Char) : List (List Char) :=
  if (trimSpaces cs).isEmpty then [] else (cs.splitOn ',').map trimSpaces

/-- A line from its mnemonic and operands (30_encoding.md R350 to R352); an assembler refuses any other operand
(R351). -/
def parseParts (m : List Char) (ops : List (List Char)) : Option AsmLine :=
  match plainCommands.find? (fun i => (asmName i).toList = m) with
  | some i => if ops.isEmpty then some (.command i) else none
  | none =>
    match String.ofList m, ops with
    | "bw.put1", [b] =>
      (parseNumber b).bind fun n =>
        if n = 0 then some (.command (.bwPut1 false)) else if n = 1 then some (.command (.bwPut1 true)) else none
    | "bw.putn", [w, v] => (parseWidth w).bind fun w => (parseWord v).map fun v => .putn w v
    | "br.getn", [w] => (parseWidth w).map fun w => .command (.brGetN w)
    | "wr", [r, v] => (parseNamed regNames r).bind fun r => (parseWord v).map fun v => .wr r v
    | "rd", [r] => (parseNamed regNames r).map fun r => .rd r
    | "wait", [] => some .wait
    | "mset", [sel, i] => (parseSel sel).bind fun sel => (parseWord i).map fun i => .mset sel i
    | "mwr", sel :: i :: vs =>
      (parseSel sel).bind fun sel => (parseWord i).bind fun i => (vs.mapM parseWord).map fun vs => .mwr sel i vs
    | "mrd", [sel, i, n] =>
      (parseSel sel).bind fun sel => (parseWord i).bind fun i => (parseNumber n).map fun n => .mrd sel i n
    | "ack", [] => some .ack
    | _, _ => none

/-- One line of text; `none` where an assembler refuses it (30_encoding.md R350, R351). -/
def parseLine (text : String) : Option AsmLine :=
  let cs := trimSpaces (dropComment text.toList)
  if cs.isEmpty then some .blank
  else parseParts (cs.takeWhile (fun c => !c.isWhitespace)) (splitOperands (cs.dropWhile (fun c => !c.isWhitespace)))

/-- A host program: a sequence of lines (30_encoding.md R350). -/
def parseProgram (text : String) : Option (List AsmLine) :=
  ((text.toList.splitOn '\n').map String.ofList).mapM parseLine

/-- The command a line encodes, if it is a command line (30_encoding.md R353). -/
def AsmLine.instr? : AsmLine → Option Instr
  | .command i => some i
  | .putn w _ => some (.bwPutN w)
  | _ => none

/-- A hexadecimal digit, upper case. -/
def hexDigit (n : Nat) : Char := (['0', '1', '2', '3', '4', '5', '6', '7', '8', '9', 'A', 'B', 'C', 'D', 'E', 'F']).getD n '?'

/-- A word as eight hexadecimal digits. -/
def hexWord (w : Word) : String := String.ofList ((List.range 8).reverse.map fun k => hexDigit (w.toNat / 16 ^ k % 16))

/-- What the assembler writes beside a command line: `; = 0xXXXXXXXX` (30_encoding.md R354). -/
def AsmLine.listing (l : AsmLine) : Option String := l.instr?.map fun i => "; = 0x" ++ hexWord (encode i)

end Sys2Proof.Machine
end

