-- ==== Sys2Proof/Tests/Slice0.lean ====
section
/-! SUPPORT. Tests. Expected values are the spec's: the encodings of 30_encoding.md R300 to R303, the vectors of
95_test_vectors.md (named V1 to V18, P1 to P6). Then, for every statement with hypotheses, a state that meets them. -/

namespace Sys2Proof.Tests

open Sys2Proof.Machine

/-! ## Well-formedness (30_encoding.md R304) -/

theorem test_wf_putn_33_refused : (Instr.bwPutN 33).wf = false := by decide
theorem test_wf_getn_33_refused : (Instr.brGetN 33).wf = false := by decide
theorem test_wf_putn_32_accepted : (Instr.bwPutN 32).wf = true := by decide
theorem test_wf_getn_32_accepted : (Instr.brGetN 32).wf = true := by decide

/-! ## Decoding: each word written field by field, bits 31:15, B, W, OP (30_encoding.md R300, R303) -/

/-- A command word from its four fields (30_encoding.md R300). -/
def wordOf (reserved : BitVec 17) (b : BitVec 1) (w : BitVec 6) (op : BitVec 8) : Word := reserved ++ b ++ w ++ op

theorem test_decode_nop : decode (wordOf 0 0 0 0x00) = .ok .nop := by decide
theorem test_decode_bwInit : decode (wordOf 0 0 0 0x10) = .ok .bwInit := by decide
theorem test_decode_bwPut1 : decode (wordOf 0 1 0 0x11) = .ok (.bwPut1 true) := by decide
theorem test_decode_bwPutN : decode (wordOf 0 0 0b100000 0x12) = .ok (.bwPutN 32) := by decide
theorem test_decode_bwFinal : decode (wordOf 0 0 0 0x13) = .ok .bwFinal := by decide
theorem test_decode_brInit : decode (wordOf 0 0 0 0x20) = .ok .brInit := by decide
theorem test_decode_brGet1 : decode (wordOf 0 0 0 0x21) = .ok .brGet1 := by decide
theorem test_decode_brGetN : decode (wordOf 0 0 0b000101 0x22) = .ok (.brGetN 5) := by decide
theorem test_decode_freqClr : decode (wordOf 0 0 0 0x30) = .ok .freqClr := by decide
theorem test_decode_freqCount : decode (wordOf 0 0 0 0x31) = .ok .freqCount := by decide
theorem test_decode_treeBuild : decode (wordOf 0 0 0 0x40) = .ok .treeBuild := by decide
theorem test_decode_treeSer : decode (wordOf 0 0 0 0x41) = .ok .treeSer := by decide
theorem test_decode_treeDeser : decode (wordOf 0 0 0 0x42) = .ok .treeDeser := by decide
theorem test_decode_codeGen : decode (wordOf 0 0 0 0x50) = .ok .codeGen := by decide
theorem test_decode_encode : decode (wordOf 0 0 0 0x60) = .ok .encode := by decide
theorem test_decode_decode : decode (wordOf 0 0 0 0x61) = .ok .decode := by decide
theorem test_decode_encAll : decode (wordOf 0 0 0 0x70) = .ok .encAll := by decide

/-- V10's illegal words. -/
theorem test_decode_illegal :
    [0x00008000#32, 0x00000001, 0x000000FF, 0x00000110, 0x00004010, 0x00002112, 0x00003F22, 0x00004012, 0x00000170,
      0x80000061].map decode =
    [.error .reservedBits, .error .reservedOpcode, .error .reservedOpcode, .error .unusedWidth, .error .unusedBit,
      .error .widthTooLarge, .error .widthTooLarge, .error .unusedBit, .error .unusedWidth, .error .reservedBits] := by
  decide

/-- R302's worked examples. -/
theorem test_encode_examples :
    encode (.bwPut1 true) = 0x00004011 ∧ encode (.bwPutN 16) = 0x00001012 ∧ encode (.brGetN 32) = 0x00002022 ∧
      encode .encAll = 0x00000070 := by decide

theorem test_decodeTableWord : decodeTableWord 32 0x4011 = some (.bwPut1 true) ∧ decodeTableWord 32 0x8000 = none := by
  decide

/-! ## One command each -/

/-- A memory whose entries from 0 on are written with xs. -/
def written {α : Type} (xs : List α) : Memory α := { rest := none, cells := xs.zipIdx.map fun c => (c.2, c.1) }

/-- The state after a command. -/
def after (i : Instr) (s : State) : State :=
  match exec i s with
  | .next t => t
  | .fault _ | .refused _ => s

/-- A command ends. -/
def ends (i : Instr) (s : State) : Bool :=
  match exec i s with
  | .next _ => true
  | .fault _ | .refused _ => false

theorem ends_spec {i : Instr} {s : State} (h : ends i s = true) : exec i s = .next (after i s) := by
  unfold ends at h
  unfold after
  split at h <;> simp_all

/-- The state after a step. -/
def stepped (s : State) : State :=
  match step s with
  | .next t => t
  | .fault _ | .refused _ => s

/-- What a byte memory holds from 0 on, n bytes. -/
def bytes (m : Memory Byte) (n : Nat) : List (Option Byte) := (List.range n).map m.get?

/-- The writer of V11 after `bw.putn 3, 5`: 4 bits 1101 pending. -/
def writerV11 : State := { State.reset with bwNbits := 4, bwTail := 0xD0 }

/-- A reader at the start of V12's bytes. -/
def readerV12 : State :=
  { State.reset with bytemem := written [0x12, 0x34, 0x56, 0x78, 0x9A, 0xBC, 0xDE, 0xF0], brlen := 8, brLimit := 64 }

/-- V13's input. -/
def inputV13 : State := { State.reset with symin := written [0x61, 0x62, 0x61, 0x61], nsym := 4 }

/-- FREQ with every entry written: the listed ones, the others 0. -/
def freqOf (cells : List (Nat × Weight)) : State := { State.reset with freq := { rest := some 0, cells := cells } }

/-- V3's input "ab", its tree and its table. -/
def abReady : State :=
  { State.reset with
    symin := written [0x61, 0x62], nsym := 2
    node := { rest := some NodeRec.zero
              cells := [(0, ⟨true, 0x61, 1, 0, 0⟩), (1, ⟨true, 0x62, 1, 0, 0⟩), (2, ⟨false, 0, 2, 0, 1⟩)] }
    code := { rest := some CodeEntry.absent, cells := [(0x61, ⟨true, 1, [false]⟩), (0x62, ⟨true, 1, [true]⟩)] }
    root := 2, nleaves := 2, nnodes := 3, treeValid := true, ctValid := true }

/-- V3's container in BYTEMEM. -/
def abContainer : State :=
  { State.reset with bytemem := written [0x40, 0x18, 0x60, 0x0C, 0x40, 0x00, 0x00, 0x00, 0x48], brlen := 9 }

/-- "ab" as the input. -/
def withInput (s : State) : State := { s with symin := written [0x61, 0x62], nsym := 2 }

/-- The state with the one event e pending. -/
def await (s : State) (e : Event) : State := { s with pending := [e] }

theorem test_nop : after .nop { State.reset with busy := true, ecode := some .noTree, res0 := 5 } =
    { State.reset with done := true, res0 := 5 } := by decide

theorem test_bwInit : (after .bwInit writerV11).bwNbits = 0 ∧ (after .bwInit writerV11).bwTail = 0 := by decide

/-- V11: `bw.put1 1` at an empty writer leaves BW_TAIL = 0x00008001. -/
theorem test_bwPut1 : (after (.bwPut1 true) State.reset).bwTailWord = 0x00008001 := by decide

/-- V11: `bw.putn 3, 5` after `bw.put1 1` leaves BW_TAIL = 0x0000D004. -/
theorem test_bwPutN : (after (.bwPutN 3) { State.reset with bwNbits := 1, bwTail := 0x80, arg0 := 5 }).bwTailWord =
    0x0000D004 := by decide

/-- V11: 57 + 8 > 64. -/
theorem test_bwPutN_overflow :
    (after (.bwPutN 8) { State.resetWith ⟨64, 8⟩ with bwNbits := 57, arg0 := 0 }).ecode = some .outputOverflow := by decide

/-- V11: `bw.final` on 4 pending bits. -/
theorem test_bwFinal : (after .bwFinal writerV11).res0 = 1 ∧ (after .bwFinal writerV11).res1 = 4 ∧
    (after .bwFinal writerV11).bytemem.get? 0 = some 0xD0 ∧ (after .bwFinal writerV11).bwNbits = 8 := by decide

/-- V12. -/
theorem test_brInit : (after .brInit readerV12).brLimit = 64 ∧
    (after .brInit { readerV12 with brlen := 65 }).ecode = some .badArgument := by decide

theorem test_brGet1 : (after .brGet1 { readerV12 with brPos := 3 }).res0 = 1 ∧
    (after .brGet1 State.reset).ecode = some .malformedContainer := by decide

/-- V12: after `br.getn 4`, `br.getn 32` gives 0x23456789. -/
theorem test_brGetN : (after (.brGetN 32) { readerV12 with brPos := 4 }).res0 = 0x23456789 := by decide

/-- V12: 36 + 32 > 64. -/
theorem test_brGetN_past_end : after (.brGetN 32) { readerV12 with brPos := 36, res0 := 0x23456789 } =
    { readerV12 with brPos := 36, res0 := 0x23456789, done := true, ecode := some .malformedContainer } := by decide

theorem test_freqClr : (after .freqClr inputV13).freq.get? 65535 = some 0 := by decide

/-- V13. -/
theorem test_freqCount : (after .freqCount inputV13).freq.get? 0x61 = some 3 ∧
    (after .freqCount inputV13).freq.get? 0x62 = some 1 ∧ (after .freqCount inputV13).res0 = 2 ∧
    (after .freqCount inputV13).res1 = 4 := by decide +kernel

theorem test_freqCount_bad : (after .freqCount { inputV13 with nsym := 65 }).ecode = some .badArgument := by decide

/-- V14 row 3: leaf 3 and node 5 both weigh 4; the leaf goes left. -/
theorem test_treeBuild :
    (after .treeBuild (freqOf [(0x61, 1), (0x62, 1), (0x63, 2), (0x64, 4)])).nodeAt 6 = ⟨false, 0, 8, 3, 5⟩ ∧
    (after .treeBuild (freqOf [(0x61, 1), (0x62, 1), (0x63, 2), (0x64, 4)])).root = 6 := by decide +kernel

/-- V14: FREQ[0] = 2^63 - 1, FREQ[1] = 1. -/
theorem test_treeBuild_overflow :
    (after .treeBuild (freqOf [(0, 0x7FFFFFFFFFFFFFFF), (1, 1)])).ecode = some .weightOverflow := by decide +kernel

/-- V16. -/
theorem test_treeSer : (after .treeSer abReady).res0 = 35 ∧ (after .treeSer abReady).bwTailWord = 0x00004003 ∧
    bytes (after .treeSer abReady).bytemem 4 = [some 0x40, some 0x18, some 0x60, some 0x0C] := by decide +kernel

/-- V16: BRLEN = 2 fails after the tag. -/
theorem test_treeDeser_short :
    (after .treeDeser { State.reset with bytemem := written [0x80, 0x30, 0x80], brLimit := 16 }).ecode =
      some .malformedContainer ∧
    (after .treeDeser { State.reset with bytemem := written [0x80, 0x30, 0x80], brLimit := 16 }).brPos = 1 := by
  decide +kernel

/-- V3's deserialized arena. -/
theorem test_treeDeser : (after .treeDeser { abContainer with brLimit := 72 }).nodeAt 0 = ⟨false, 0, 0, 1, 2⟩ ∧
    (after .treeDeser { abContainer with brLimit := 72 }).nodeAt 2 = ⟨true, 0x62, 0, 0, 0⟩ ∧
    (after .treeDeser { abContainer with brLimit := 72 }).res0 = 35 := by decide +kernel

/-- V3's codes. -/
theorem test_codeGen : (after .codeGen abReady).codeAt 0x61 = ⟨true, 1, [false]⟩ ∧
    (after .codeGen abReady).codeAt 0x62 = ⟨true, 1, [true]⟩ ∧ (after .codeGen abReady).codeAt 0x63 = CodeEntry.absent ∧
    (after .codeGen abReady).res1 = 1 := by decide +kernel

/-- V17: a symbol on two leaves. -/
theorem test_codeGen_twice :
    (after .codeGen { abReady with node := abReady.node.write 1 ⟨true, 0x61, 1, 0, 0⟩ }).ecode = some .internalInvariant := by
  decide +kernel

/-- V3. -/
theorem test_encode : bytes (after .encode abReady).bytemem 9 = bytes abContainer.bytemem 9 ∧
    (after .encode abReady).res0 = 9 ∧ (after .encode abReady).res1 = 3 := by decide +kernel

/-- V17: SYMIN[1] = 0x63 has no code: 68 bits are appended. -/
theorem test_encode_missing :
    (after .encode { abReady with symin := written [0x61, 0x63] }).ecode = some .internalInvariant ∧
    (after .encode { abReady with symin := written [0x61, 0x63] }).bwTailWord = 0x00004004 := by decide +kernel

/-- V3. -/
theorem test_decode : (after .decode abContainer).outN = 2 ∧ (after .decode abContainer).symout.get? 0 = some 0x61 ∧
    (after .decode abContainer).symout.get? 1 = some 0x62 ∧ (after .decode abContainer).res1 = 69 := by decide +kernel

/-- V17: BRLEN = 8 fails in the length field. -/
theorem test_decode_short : (after .decode { abContainer with brlen := 8 }).statusWord = 0x00010206 ∧
    (after .decode { abContainer with brlen := 8 }).brPos = 35 := by decide +kernel

/-- V14's last row: the lighter b is the left child. -/
theorem test_encAll : bytes (after .encAll { State.resetWith ⟨64, 9⟩ with symin := written [0x61, 0x61, 0x62], nsym := 3 }).bytemem 9 =
    [some 0x40, some 0x18, some 0xA0, some 0x0C, some 0x20, some 0x00, some 0x00, some 0x00, some 0x78] := by decide +kernel

/-- V17: BYTE_CAP = 8 overflows at the length field. -/
theorem test_encAll_overflow :
    (after .encAll { State.resetWith ⟨64, 8⟩ with symin := written [0x61, 0x62], nsym := 2 }).statusWord = 0x00030806 ∧
    (after .encAll { State.resetWith ⟨64, 8⟩ with symin := written [0x61, 0x62], nsym := 2 }).bwNbits = 35 := by
  decide +kernel

/-! ## The step and the register port -/

/-- V10: from reset, an illegal word leaves STATUS = 0x00000406. -/
theorem test_step_illegal : (stepped (State.reset.withFetchWord 32 1)).statusWord = 0x00000406 := by decide

theorem test_step_runs_word : (stepped (State.reset.withFetchWord 32 0x4011)).bwNbits = 1 := by decide

/-- V18. -/
theorem test_read_id : (stepped { State.reset with pending := [rdEvent 0x00] }).rdata = 0x48434331 := by decide

/-- V18: a hazard write. -/
theorem test_hazard_write : stepped { State.reset with busy := true, nsym := 4, pending := [wrEvent 0x14 9] } =
    { State.reset with busy := true, nsym := 4, haz := true } := by decide

/-- V18: FREQ_HI after FREQ_LO. -/
theorem test_window_freq : (stepped { freqOf [(7, 0xFFFFFFFF)] with msel := 4, maddr := 7, pending := [wrEvent 0x4C 1] }).freq.get? 7 =
    some 0x1FFFFFFFF := by decide

/-- V15: CODE_BITS of b = 1 is 0x80000000 in word 0. -/
theorem test_window_code_bits : (stepped { abReady with msel := 11, maddr := 0x31000, pending := [rdEvent 0x4C] }).rdata =
    0x80000000 := by decide +kernel

/-- V15: CODE_LEN of an absent symbol is 0, of a present one bit 31 and the length. -/
theorem test_window_code_len : (stepped { abReady with msel := 10, maddr := 0x61, pending := [rdEvent 0x4C] }).rdata = 0x80000001 ∧
    (stepped { abReady with msel := 10, maddr := 0x63, pending := [rdEvent 0x4C] }).rdata = 0 := by decide +kernel

/-- V18: the soft reset clears the registers and keeps the memories. -/
theorem test_soft_reset : stepped { abContainer with nleaves := 2, res0 := 9, done := true, pending := [wrEvent 0x04 1] } =
    { State.reset with bytemem := abContainer.bytemem } := by decide

/-- 70_reset_and_hazards.md R803: a soft reset that aborts DECODE leaves SYMOUT with any values. -/
theorem test_soft_reset_aborts :
    (stepped { abContainer with busy := true, cmdl := 0x61, symout := written [1], pending := [wrEvent 0x04 1] }).symout.get? 0 =
      none := by decide

theorem test_byte_access_refused : step { State.reset with pending := [.host ⟨0, 1, .read⟩] } = .refused .accessNotAlignedWord := rfl

/-! ## The assembler (30_encoding.md R350 to R354) -/

theorem test_asm_line : (parseLine "bw.putn 16, 0xABCD ; four digits").map (AsmLine.expand 0) =
    some [wrEvent 0x10 0xABCD, wrEvent 0x0C 0x00001012, .engine, rdEvent 0x08] := by decide

theorem test_asm_listing : (parseLine "br.getn 32").bind AsmLine.listing = some "; = 0x00002022" := by decide

theorem test_asm_width_refused : parseLine "br.getn 33" = none := by decide

/-! ## States that meet the statements' hypotheses -/

/-- The tree of V3: internal with the leaves a, b. -/
def abTree : HTree := .node (.leaf 0x61) (.leaf 0x62)

theorem abReady_tree : abReady.TreeIs abTree where
  holds := ⟨rfl, ⟨rfl, rfl⟩, ⟨rfl, rfl⟩⟩
  leaves := rfl
  size := rfl
  once := by decide
  below := by decide

theorem abReady_codes : abReady.CodesAre abTree where
  distinct := by decide
  present := by decide
  missing sym h := by
    have h1 : ¬ 0x61 = sym.toNat := fun e => h (by
      have : sym = 0x61 := BitVec.eq_of_toNat_eq e.symm
      subst this
      decide)
    have h2 : ¬ 0x62 = sym.toNat := fun e => h (by
      have : sym = 0x62 := BitVec.eq_of_toNat_eq e.symm
      subst this
      decide)
    simp [abReady, State.codeAt, Memory.get?, lookupCell, h1, h2]

theorem abReady_writer : abReady.WriterOk := ⟨by decide, by decide⟩

/-- A run's state with a tree and its table meets the invariant, whatever its registers and memories of symbols are. -/
theorem abReady_inv : abReady.Inv where
  params := by decide
  writer := abReady_writer
  reader := ⟨by decide, by decide, by decide⟩
  tree := ⟨fun h => absurd h (by decide), fun _ => ⟨abTree, by decide, abReady_tree, fun _ => abReady_codes⟩⟩
  memory := ⟨by decide, by decide, by decide, by decide, by decide, by decide⟩
  output := ⟨by decide, fun i hi => absurd hi (Nat.not_lt_zero i)⟩

theorem abReady_input : abReady.inputIs [0x61, 0x62] := ⟨rfl, by decide⟩

/-- The bits of V3's container up to the padding, 69 of them. -/
def abBits : Bits := containerBits abTree [[false], [true]]

theorem abContainer_holds : abContainer.bytemem.holds 0 abBits := by unfold Memory.holds; decide +kernel

/-! ### Encoding and the step -/

/-- NOP with W = 1 in CMDL. -/
theorem witness_IllegalWordsAreThese :
    ({ State.reset with cmdl := 0x100 } : State).cmdl = 0x100 ∧ decode 0x100 = .error .unusedWidth := ⟨rfl, by decide⟩

theorem witness_NopAndBwInitEffects : opField 0x100 = 0 ∧ (0x100 : Word) ≠ 0 := by decide

/-- W at the boundaries 32 and 33, and a word no row matches. -/
theorem witness_DecodeFollowsOpcodeTable :
    (∃ r ∈ opcodeTable, r.selects 0x2012 = true ∧ r.usesW = true ∧ (wField 0x2012).toNat = 32) ∧
    (∃ r ∈ opcodeTable, r.selects 0x2112 = true ∧ r.usesW = true ∧ 32 < (wField 0x2112).toNat) ∧
    (∀ r ∈ opcodeTable, r.selects 0x00000001 = false) ∧ decode 0x00000070 = .ok .encAll := by decide

theorem witness_StepRunsDecodedCommand :
    let s := { abReady with busy := true, cmdl := 0x60 }
    (await s .engine).pending = .engine :: [] ∧ s.pending = [] ∧ s.busy = true ∧ decode s.cmdl = .ok .encode := by decide

theorem witness_IllegalWordChangesNothingElse :
    let s := await { abReady with busy := true, cmdl := 0x00002112 } .engine
    s.pending = .engine :: [] ∧ s.busy = true ∧ decode s.cmdl = .error .widthTooLarge := by decide

theorem witness_IdleEngineDoesNothing :
    abReady.busy = false ∧ abReady.pending = [] ∧ (await abReady .engine).pending = .engine :: [] := by decide

theorem inv_of_busy_poll : ({ abReady with busy := true, cmdl := 0x60, pending := [rdEvent 0x08, rdEvent 0x08] } : State).Inv where
  params := abReady_inv.params
  writer := ⟨by decide, by decide⟩
  reader := ⟨by decide, by decide, by decide⟩
  tree := ⟨fun h => absurd h (by decide), fun _ => ⟨abTree, by decide,
    ⟨abReady_tree.holds, rfl, rfl, abReady_tree.once, abReady_tree.below⟩,
    fun _ => ⟨abReady_codes.distinct, abReady_codes.present, abReady_codes.missing⟩⟩⟩
  memory := ⟨by decide, by decide, by decide, by decide, by decide, by decide⟩
  output := ⟨by decide, fun i hi => absurd hi (Nat.not_lt_zero i)⟩

theorem witness_PolledCommandCompletes :
    let s := { abReady with busy := true, cmdl := 0x60, pending := [rdEvent 0x08, rdEvent 0x08] }
    s.Inv ∧ s.busy = true ∧ ∀ e ∈ s.pending, e = .host ⟨0x08, 4, .read⟩ :=
  ⟨inv_of_busy_poll, rfl, by decide⟩

/-! ### Statements about a command that ends -/

/-- exec answers a next state, with and without an error, on the largest commands too. -/
theorem witness_CompletionKeepsHostState :
    exec .encode abReady = .next (after .encode abReady) ∧ exec .treeSer State.reset = .next (after .treeSer State.reset) :=
  ⟨ends_spec (by decide +kernel), ends_spec (by decide +kernel)⟩

theorem witness_EveryCommandEnds : abReady.Inv ∧ Instr.decode ≠ .treeSer ∧ Instr.decode ≠ .codeGen ∧ Instr.decode ≠ .encode :=
  ⟨abReady_inv, by decide, by decide, by decide⟩

theorem witness_CommandsRaiseOnlyTheirCodes :
    exec .treeSer State.reset = .next (after .treeSer State.reset) ∧ (after .treeSer State.reset).ecode = some .noTree ∧
    (exec .encAll (withInput (State.resetWith ⟨64, 8⟩)) = .next (after .encAll (withInput (State.resetWith ⟨64, 8⟩))) ∧
      (withInput (State.resetWith ⟨64, 8⟩)).inputIs [0x61, 0x62] ∧
      (after .encAll (withInput (State.resetWith ⟨64, 8⟩))).ecode = some .outputOverflow) :=
  ⟨ends_spec (by decide +kernel), by decide +kernel, ends_spec (by decide +kernel), ⟨rfl, by decide⟩, by decide +kernel⟩

theorem witness_ResultsOnlyOnSuccess :
    exec .brGet1 State.reset = .next (after .brGet1 State.reset) ∧ (after .brGet1 State.reset).ecode ≠ none ∧
    exec .bwInit State.reset = .next (after .bwInit State.reset) ∧ exec .treeSer abReady = .next (after .treeSer abReady) :=
  ⟨ends_spec (by decide +kernel), by decide, ends_spec (by decide +kernel), ends_spec (by decide +kernel)⟩

theorem witness_UnitsWrittenOnlyByTheirCommands :
    exec .bwFinal abReady = .next (after .bwFinal abReady) ∧ exec .codeGen abReady = .next (after .codeGen abReady) ∧
      exec .decode abContainer = .next (after .decode abContainer) := ⟨ends_spec (by decide +kernel), ends_spec (by decide +kernel), ends_spec (by decide +kernel)⟩

/-! ### Bit writer and bit reader -/

/-- The 64th bit of 64, by either command. -/
theorem witness_PutsAppendTheirBits :
    let s := { State.resetWith ⟨64, 8⟩ with bwNbits := 63 }
    s.params.legal ∧ s.WriterOk ∧ s.bwNbits.toNat + [true].length ≤ 8 * s.params.byteCap ∧
    (State.resetWith ⟨64, 8⟩).WriterOk ∧ (32#6).toNat ≤ 32 ∧
      (State.resetWith ⟨64, 8⟩).bwNbits.toNat + (bitsOf 32 0).length ≤ 8 * 8 ∧
    (let f := { s with bwNbits := 64 }
     f.WriterOk ∧ 8 * f.params.byteCap < f.bwNbits.toNat + [true].length) ∧
    (let f := { State.resetWith ⟨64, 8⟩ with bwNbits := 33 }
     f.WriterOk ∧ 8 * f.params.byteCap < f.bwNbits.toNat + (bitsOf 32 f.arg0.toNat).length) ∧ 32 < (33#6).toNat :=
  ⟨by decide, ⟨by decide, by decide⟩, by decide, ⟨by decide, by decide⟩, by decide, by decide,
    ⟨⟨by decide, by decide⟩, by decide⟩, ⟨⟨by decide, by decide⟩, by decide⟩, by decide⟩

theorem witness_BwFinalPadsAndFlushes : writerV11.WriterOk ∧ State.reset.WriterOk :=
  ⟨⟨by decide, by decide⟩, ⟨by decide, by decide⟩⟩

/-- BRLEN = BYTE_CAP, and one more. -/
theorem witness_BrInitSetsSlice :
    ({ State.reset with brlen := 64 } : State).brlen.toNat ≤ State.reset.params.byteCap ∧
    State.reset.params.byteCap < ({ State.reset with brlen := 65 } : State).brlen.toNat := by decide

/-- The last bit, and the last 32 bits, of a slice. -/
theorem witness_ReadsReturnTheBits :
    ({ readerV12 with brPos := 63 } : State).brPos.toNat + [false].length ≤ readerV12.brLimit.toNat ∧
    readerV12.bytemem.holds 63 [false] ∧
    ({ readerV12 with brPos := 32 } : State).brPos.toNat + (bitsOf 32 0x9ABCDEF0).length ≤ readerV12.brLimit.toNat ∧
    readerV12.bytemem.holds 32 (bitsOf 32 0x9ABCDEF0) ∧
    State.reset.brLimit.toNat < State.reset.brPos.toNat + 1 ∧
    ({ State.reset with brLimit := 64, brPos := 33 } : State).brLimit.toNat <
      ({ State.reset with brLimit := 64, brPos := 33 } : State).brPos.toNat + (32#6).toNat := by unfold Memory.holds; decide

/-- A slice of which no byte was written. -/
theorem witness_ReadsOfUnwrittenBytesComplete :
    let s := { State.reset with brLimit := 32 }
    s.brPos.toNat + 1 ≤ s.brLimit.toNat ∧ (32#6).toNat ≤ 32 ∧ s.brPos.toNat + (32#6).toNat ≤ s.brLimit.toNat ∧
      s.bytemem.get? 0 = none := by decide

/-! ### Frequencies, tree, table -/

/-- N = SYM_CAP, one more, and N = SYM_CAP with no symbol written. -/
theorem witness_FreqCountCountsSymbols :
    ({ State.resetWith ⟨4, 7⟩ with symin := written [0x61, 0x62, 0x61, 0x61], nsym := 4 } : State).inputIs [0x61, 0x62, 0x61, 0x61] ∧
      [0x61, 0x62, 0x61, (0x61 : Symbol)].length ≤ (State.resetWith ⟨4, 7⟩).params.symCap ∧
    State.reset.params.symCap < ({ State.reset with nsym := 65 } : State).nsym.toNat ∧
    ({ State.reset with nsym := 64 } : State).nsym.toNat ≤ State.reset.params.symCap :=
  ⟨⟨rfl, by decide⟩, by decide, by decide, by decide⟩

/-- Every entry of freqOf is written. -/
theorem freqOf_written (cells : List (Nat × Weight)) : (freqOf cells).freqWritten := fun i _ => by
  simp only [freqOf, Memory.get?]
  cases lookupCell cells i <;> rfl

theorem freqAt_one (i : Nat) (w : Weight) (h : i < alphabetSize) (hw : w ≠ 0) : i ∈ (freqOf [(i, w)]).presentSymbols := by
  simp only [State.presentSymbols, List.mem_filter, List.mem_range, h, true_and]
  simpa [State.freqAt, freqOf, Memory.get?, lookupCell] using hw

theorem freqTotal_one (i : Nat) (w : Weight) (h : i < alphabetSize) : (freqOf [(i, w)]).freqTotal = w.toNat := by
  have hat : ∀ j, ((freqOf [(i, w)]).freqAt j).toNat = if j = i then w.toNat else 0 := fun j => by
    by_cases hj : i = j
    · simp [State.freqAt, freqOf, Memory.get?, lookupCell, hj]
    · simp [State.freqAt, freqOf, Memory.get?, lookupCell, hj, Ne.symm hj]
  have hs : ∀ n, ((List.range n).map fun j => ((freqOf [(i, w)]).freqAt j).toNat).sum = if i < n then w.toNat else 0 := by
    intro n
    induction n with
    | zero => rfl
    | succ n ih =>
      rw [List.range_succ, List.map_append, List.sum_append, ih, List.map_singleton, List.sum_singleton, hat]
      split_ifs <;> omega
  exact (hs alphabetSize).trans (if_pos h)

/-- FREQ[65535] = 2^63 - 1, the largest total. -/
theorem witness_TreeBuildMergesSmallest :
    let s := freqOf [(65535, 0x7FFFFFFFFFFFFFFF)]
    s.freqWritten ∧ Memory.wf alphabetSize s.freq ∧ s.presentSymbols ≠ [] ∧ s.freqTotal ≤ 2 ^ 63 - 1 :=
  ⟨freqOf_written _, by decide, List.ne_nil_of_mem (freqAt_one _ _ (by decide) (by decide)),
    by rw [freqTotal_one _ _ (by decide)]; decide⟩

theorem witness_TreeBuildLeavesStrictTree :
    let s := freqOf [(0x61, 1), (0x62, 1), (0x63, 2), (0x64, 4)]
    s.freqWritten ∧ Memory.wf alphabetSize s.freq ∧ exec .treeBuild s = .next (after .treeBuild s) ∧
      (after .treeBuild s).ecode = none := ⟨freqOf_written _, by decide, ends_spec (by decide +kernel), by decide +kernel⟩

/-- An empty FREQ, and FREQ[0] = 2^63, one more than fits. -/
theorem witness_TreeBuildErrors :
    (freqOf []).freqWritten ∧ Memory.wf alphabetSize (freqOf []).freq ∧ (freqOf []).presentSymbols = [] ∧
    (freqOf [(0, 0x8000000000000000)]).freqWritten ∧ Memory.wf alphabetSize (freqOf [(0, 0x8000000000000000)]).freq ∧
      (freqOf [(0, 0x8000000000000000)]).presentSymbols ≠ [] ∧ 2 ^ 63 - 1 < (freqOf [(0, 0x8000000000000000)]).freqTotal := by
  refine ⟨freqOf_written _, by decide, ?_, freqOf_written _, by decide,
    List.ne_nil_of_mem (freqAt_one _ _ (by decide) (by decide)), by rw [freqTotal_one _ _ (by decide)]; decide⟩
  exact List.filter_eq_nil_iff.mpr fun i _ => by simp [State.freqAt, freqOf, Memory.get?, lookupCell]

/-- Two states that differ in everything but FREQ. -/
theorem witness_TreeBuildDependsOnFreqAlone :
    let s1 := freqOf [(0x61, 1), (0x62, 1)]
    let s2 := { abReady with freq := s1.freq, ctValid := false }
    s1.freqWritten ∧ Memory.wf alphabetSize s1.freq ∧ Memory.wf alphabetSize s2.freq ∧
      (∀ i, i < alphabetSize → s2.freq.get? i = s1.freq.get? i) ∧ exec .treeBuild s1 = .next (after .treeBuild s1) ∧
      exec .treeBuild s2 = .next (after .treeBuild s2) ∧ (after .treeBuild s1).ecode = none :=
  ⟨freqOf_written _, by decide, by decide, fun _ _ => rfl, ends_spec (by decide +kernel), ends_spec (by decide +kernel), by decide +kernel⟩

theorem witness_CodeGenRecordsPaths :
    abReady.treeValid = true ∧ abReady.TreeIs abTree ∧ abTree.leaves ≤ alphabetSize ∧ (abTree.paths.map Prod.fst).Nodup :=
  ⟨rfl, abReady_tree, by decide, by decide⟩

/-- V17's duplicate-leaf tree. -/
theorem witness_CodeGenErrors :
    State.reset.treeValid = false ∧
    (let s := { abReady with node := abReady.node.write 1 ⟨true, 0x61, 1, 0, 0⟩ }
     let tr : HTree := .node (.leaf 0x61) (.leaf 0x61)
     s.treeValid = true ∧ s.TreeIs tr ∧ tr.leaves ≤ alphabetSize ∧ ¬ (tr.paths.map Prod.fst).Nodup) :=
  ⟨rfl, rfl, ⟨⟨rfl, ⟨rfl, rfl⟩, ⟨rfl, rfl⟩⟩, rfl, rfl, by decide, by decide⟩, by decide, by decide⟩

theorem witness_CodeTableIsPrefixFree :
    abReady.Inv ∧ exec .codeGen abReady = .next (after .codeGen abReady) ∧ (after .codeGen abReady).ecode = none ∧
      (0x61 : Symbol) ≠ 0x62 ∧ ((after .codeGen abReady).codeAt (0x61 : Symbol).toNat).valid = true ∧
      ((after .codeGen abReady).codeAt (0x62 : Symbol).toNat).valid = true ∧ 2 ≤ (after .codeGen abReady).nleaves.toNat :=
  ⟨abReady_inv, ends_spec (by decide +kernel), by decide +kernel, by decide, by decide +kernel, by decide +kernel,
    by decide +kernel⟩

theorem witness_CodesLeadToTheirLeaves :
    abReady.Inv ∧ abReady.ctValid = true ∧ (abReady.codeAt (0x62 : Symbol).toNat).valid = true := ⟨abReady_inv, rfl, rfl⟩

/-! ### Serializer, deserializer, encoder, decoder, driver -/

/-- 35 bits from bit 477 on: the last that fit 512. -/
theorem witness_TreeSerAppendsPreorder :
    let s := { abReady with bwNbits := 477 }
    s.params.legal ∧ s.WriterOk ∧ s.treeValid = true ∧ s.TreeIs abTree ∧ abTree.leaves ≤ alphabetSize ∧
      s.bwNbits.toNat + (18 * abTree.leaves - 1) ≤ 8 * s.params.byteCap :=
  ⟨by decide, ⟨by decide, by decide⟩, rfl, ⟨⟨rfl, ⟨rfl, rfl⟩, ⟨rfl, rfl⟩⟩, rfl, rfl, by decide, by decide⟩, by decide, by decide⟩

theorem witness_TreeSerErrors :
    State.reset.treeValid = false ∧
    (let s := { abReady with bwNbits := 478 }
     s.params.legal ∧ s.WriterOk ∧ s.treeValid = true ∧ s.TreeIs abTree ∧ abTree.leaves ≤ alphabetSize ∧
      8 * s.params.byteCap < s.bwNbits.toNat + (18 * abTree.leaves - 1)) :=
  ⟨rfl, by decide, ⟨by decide, by decide⟩, rfl, ⟨⟨rfl, ⟨rfl, rfl⟩, ⟨rfl, rfl⟩⟩, rfl, rfl, by decide, by decide⟩, by decide, by decide⟩

/-- The slice ends with the tree's last bit. -/
theorem witness_TreeDeserRebuildsTree :
    let s := { abContainer with brLimit := 35 }
    abTree.leaves ≤ alphabetSize ∧ s.bytemem.holds s.brPos.toNat abTree.pre ∧
      s.brPos.toNat + abTree.pre.length ≤ s.brLimit.toNat := by unfold Memory.holds; decide +kernel

/-- V16: BRLEN = 2. -/
theorem witness_TreeDeserFailureLeavesNoTree :
    let s := { State.reset with bytemem := written [0x80, 0x30, 0x80], brLimit := 16 }
    s.ReaderOk ∧ exec .treeDeser s = .next (after .treeDeser s) ∧ (after .treeDeser s).ecode ≠ none :=
  ⟨⟨by decide, by decide, by decide⟩, ends_spec (by decide +kernel), by decide +kernel⟩

/-- V3's tree cut inside the symbol a: the two tags are read, the 16 bits of the symbol are not. -/
theorem witness_TreeDeserFailureLeavesNoTree_ends :
    let s := { abContainer with brLimit := 16 }
    abTree.reads = [[false], [true]] ++ bitsOf 16 0x61 :: [[true], bitsOf 16 0x62] ∧
      s.bytemem.holds s.brPos.toNat [[false], [true]].flatten ∧
      s.brPos.toNat + [[false], [true]].flatten.length ≤ s.brLimit.toNat ∧ tagsIn [[false], [true]] ≤ nodeCap ∧
      s.brLimit.toNat < s.brPos.toNat + [[false], [true]].flatten.length + (bitsOf 16 0x61).length := by
  unfold Memory.holds; decide +kernel

/-- A tree whose left spine is n internal nodes long. -/
def leftSpine : Nat → HTree
  | 0 => .leaf 0
  | n + 1 => .node (leftSpine n) (.leaf 0)

theorem leftSpine_reads (n : Nat) : ∃ after, (leftSpine n).reads = List.replicate n [false] ++ [true] :: after := by
  induction n with
  | zero => exact ⟨_, rfl⟩
  | succ n ih =>
    obtain ⟨after, h⟩ := ih
    exact ⟨after ++ (HTree.leaf 0).reads, by simp [leftSpine, HTree.reads, h, List.replicate_succ]⟩

/-- 131071 tags and one more, all of them zero bits, in 524288. -/
theorem witness_TreeDeserFailureLeavesNoTree_limit :
    let s := { State.resetWith ⟨1, 65536⟩ with bytemem := Memory.fill 0, brLimit := 524288 }
    ∃ after, (leftSpine (nodeCap + 1)).reads = List.replicate nodeCap [false] ++ [false] :: after ∧
      tagsIn (List.replicate nodeCap [false]) = nodeCap ∧
      s.bytemem.holds s.brPos.toNat (List.replicate nodeCap [false]).flatten ∧
      s.bytemem.holds (s.brPos.toNat + (List.replicate nodeCap [false]).flatten.length) [false] ∧
      s.brPos.toNat + (List.replicate nodeCap [false]).flatten.length + 1 ≤ s.brLimit.toNat := by
  have hbit : ∀ k, (Memory.fill (0 : Byte)).bit k = some false := fun k => by
    simp [Memory.bit, Memory.fill, Memory.get?, lookupCell, streamBit]
  have hflat : ∀ n, (List.replicate n [false]).flatten = List.replicate n false := fun n => by
    induction n with
    | zero => rfl
    | succ n ih => simp [List.replicate_succ, ih]
  have htags : ∀ n, tagsIn (List.replicate n [false]) = n := fun n => by
    induction n with
    | zero => rfl
    | succ n ih => simp [List.replicate_succ, ih]
  have hlen : (List.replicate nodeCap [false]).flatten.length = nodeCap := by rw [hflat, List.length_replicate]
  obtain ⟨after, h⟩ := leftSpine_reads (nodeCap + 1)
  intro s
  refine ⟨[true] :: after, ?_, htags _, fun j hj => ?_, fun j hj => ?_, ?_⟩
  · rw [h, List.replicate_succ', List.append_assoc, List.singleton_append]
  · rw [hlen] at hj
    rw [hflat, List.getElem?_replicate, if_pos hj]
    exact hbit _
  · have h0 : j = 0 := by simpa using hj
    subst h0
    exact hbit _
  · rw [hlen]
    decide

/-- A slice of zero bits that ends first (V16's), and one that meets the node limit first. -/
theorem witness_TreeDeserFailureLeavesNoTree_zeros :
    ({ State.reset with bytemem := written [0, 0], brLimit := 16 } : State).bytemem.holds 0 (List.replicate 16 false) ∧
    (let s := { State.resetWith ⟨1, 65536⟩ with bytemem := Memory.fill 0, brLimit := 524288 }
     s.bytemem.holds s.brPos.toNat (List.replicate (min (s.brLimit.toNat - s.brPos.toNat) (nodeCap + 1)) false)) := by
  constructor
  · unfold Memory.holds; decide +kernel
  · intro s j hj
    have hj' := hj
    rw [List.length_replicate] at hj'
    rw [List.getElem?_replicate, if_pos hj']
    have h0 : ∀ k, streamBit 0 k = false := fun k => by simp [streamBit]
    show ((Memory.fill (0 : Byte)).get? _).map _ = _
    simp only [Memory.fill, Memory.get?, lookupCell, Option.none_or, Option.map_some]
    rw [h0]

/-- After V16's `bw.init ; tree.ser ; bw.final`. -/
theorem witness_TreeDeserReadsWhatTreeSerWrote :
    abReady.Inv ∧ abReady.TreeIs abTree ∧ exec .treeSer abReady = .next (after .treeSer abReady) ∧
      (after .treeSer abReady).ecode = none ∧
      exec .bwFinal (after .treeSer abReady) = .next (after .bwFinal (after .treeSer abReady)) :=
  ⟨abReady_inv, abReady_tree, ends_spec (by decide +kernel), by decide +kernel, ends_spec (by decide +kernel)⟩

/-- V3 in the smallest BYTE_CAP that takes it, and in one byte less. -/
theorem witness_EncodeWritesContainer :
    let s := { abReady with params := ⟨2, 9⟩ }
    s.params.legal ∧ s.inputIs [0x61, 0x62] ∧ [0x61, (0x62 : Symbol)] ≠ [] ∧ [0x61, (0x62 : Symbol)].length ≤ s.params.symCap ∧
      s.treeValid = true ∧ s.ctValid = true ∧ s.TreeIs abTree ∧ abTree.leaves ≤ alphabetSize ∧
      (∀ x ∈ [0x61, (0x62 : Symbol)], (s.codeAt x.toNat).valid = true) ∧
      (containerBits abTree ([0x61, (0x62 : Symbol)].map (fun x => (s.codeAt x.toNat).bits))).length ≤ 8 * s.params.byteCap :=
  ⟨by decide, ⟨rfl, by decide⟩, by decide, by decide, rfl, rfl,
    ⟨abReady_tree.holds, rfl, rfl, abReady_tree.once, abReady_tree.below⟩, by decide,
    by simp only [List.mem_cons, List.not_mem_nil, or_false, forall_eq_or_imp, forall_eq]; decide +kernel,
    by decide +kernel⟩

/-- V3 in a BYTE_CAP one byte too small, all symbols with codes; and the lone symbol c, which has no code, where the length
(bits 35 to 66 of 64) does not fit. -/
theorem witness_EncodeOverflowKeepsFieldsBefore :
    (let s := { abReady with params := ⟨2, 8⟩ }
     s.params.legal ∧ s.inputIs ([0x61, 0x62] ++ []) ∧ ([0x61, 0x62] ++ [] : List Symbol).length ≤ s.params.symCap ∧
      s.treeValid = true ∧ s.ctValid = true ∧ s.TreeIs abTree ∧ abTree.leaves ≤ alphabetSize ∧
      (∀ x ∈ [0x61, (0x62 : Symbol)], (s.codeAt x.toNat).valid = true) ∧
      8 * s.params.byteCap < (abTree.fields ++ [bitsOf 32 2] ++
        [0x61, (0x62 : Symbol)].map (fun x => (s.codeAt x.toNat).bits)).flatten.length) ∧
    (let s := { abReady with params := ⟨2, 8⟩, symin := written [0x63], nsym := 1 }
     s.inputIs ([] ++ [0x63]) ∧ ([] ++ [(0x63 : Symbol)]).length ≤ s.params.symCap ∧ s.TreeIs abTree ∧
      (s.codeAt 0x63).valid = false ∧
      8 * s.params.byteCap < (abTree.fields ++ [bitsOf 32 1] ++
        ([] : List Symbol).map (fun x => (s.codeAt x.toNat).bits)).flatten.length) :=
  ⟨⟨by decide, ⟨rfl, by decide⟩, by decide, rfl, rfl,
    ⟨abReady_tree.holds, rfl, rfl, abReady_tree.once, abReady_tree.below⟩, by decide,
    by simp only [List.mem_cons, List.not_mem_nil, or_false, forall_eq_or_imp, forall_eq]; decide +kernel,
    by decide +kernel⟩,
   ⟨⟨rfl, by decide⟩, by decide, ⟨abReady_tree.holds, rfl, rfl, abReady_tree.once, abReady_tree.below⟩,
    by decide +kernel, by decide +kernel⟩⟩

/-- The second case runs into OUTPUT_OVERFLOW, not INTERNAL_INVARIANT. -/
theorem test_encode_overflow_before_missing :
    (after .encode { abReady with params := ⟨2, 8⟩, symin := written [0x63], nsym := 1 }).ecode = some .outputOverflow ∧
    (after .encode { abReady with params := ⟨2, 8⟩, symin := written [0x63], nsym := 1 }).bwNbits = 35 := by decide +kernel

/-- NSYM at 0, SYM_CAP + 1 and SYM_CAP. -/
theorem witness_EncodersCheckInOrder :
    State.reset.nsym = 0 ∧
    (({ State.reset with nsym := 65 } : State).nsym ≠ 0 ∧ State.reset.params.symCap < ({ State.reset with nsym := 65 } : State).nsym.toNat) ∧
    (({ State.reset with nsym := 64 } : State).nsym.toNat ≤ State.reset.params.symCap ∧ State.reset.treeValid = false) ∧
    (({ abReady with ctValid := false } : State).nsym.toNat ≤ abReady.params.symCap ∧ abReady.treeValid = true) := by decide

/-- V17: the first symbol has a code, the second none. -/
theorem witness_EncodeStopsAtMissingCode :
    let s := { abReady with symin := written [0x61, 0x63] }
    s.params.legal ∧ s.inputIs ([0x61] ++ 0x63 :: []) ∧ ([0x61] ++ (0x63 : Symbol) :: []).length ≤ s.params.symCap ∧
      s.treeValid = true ∧ s.ctValid = true ∧ s.TreeIs abTree ∧ abTree.leaves ≤ alphabetSize ∧
      (∀ y ∈ [(0x61 : Symbol)], (s.codeAt y.toNat).valid = true) ∧ (s.codeAt (0x63 : Symbol).toNat).valid = false ∧
      (abTree.pre ++ bitsOf 32 s.nsym.toNat ++ ([(0x61 : Symbol)].map (fun y => (s.codeAt y.toNat).bits)).flatten).length ≤
        8 * s.params.byteCap :=
  ⟨by decide, ⟨rfl, by decide⟩, by decide, rfl, rfl, ⟨abReady_tree.holds, rfl, rfl, abReady_tree.once, abReady_tree.below⟩,
    by decide, by simp only [List.mem_cons, List.not_mem_nil, or_false, forall_eq]; decide +kernel, by decide +kernel,
    by decide +kernel⟩

/-- V3's container, 69 of the slice's 72 bits. -/
theorem witness_DecodeReadsContainer :
    abContainer.params.legal ∧ abContainer.brlen.toNat ≤ abContainer.params.byteCap ∧ abTree.leaves ≤ alphabetSize ∧
      (∀ c ∈ [((0x61 : Symbol), [false]), (0x62, [true])], c ∈ abTree.paths) ∧
      [((0x61 : Symbol), [false]), (0x62, [true])].length ≤ abContainer.params.symCap ∧
      abBits.length ≤ 8 * abContainer.brlen.toNat ∧ abContainer.bytemem.holds 0 abBits :=
  ⟨by decide, by decide, by decide, by decide, by decide, by decide, abContainer_holds⟩

/-- V3's container with the length field 65 and, in its last byte, one code. -/
def longContainer : State :=
  { State.reset with bytemem := written [0x40, 0x18, 0x60, 0x0C, 0x40, 0x00, 0x00, 0x08, 0x28], brlen := 9 }

/-- V3's tree, the length 6, and the five codes of a, b, a, b, b: the slice ends before the sixth. -/
def cutContainer : State :=
  { State.reset with bytemem := written [0x40, 0x18, 0x60, 0x0C, 0x40, 0x00, 0x00, 0x00, 0xCB], brlen := 9 }

/-- The five codes of `cutContainer`. -/
def cutPicks : List (Symbol × Bits) := [(0x61, [false]), (0x62, [true]), (0x61, [false]), (0x62, [true]), (0x62, [true])]

/-- A success, BRLEN = BYTE_CAP + 1, and a slice that ends inside the tree. -/
theorem witness_DecodeFailureDeliversNothing :
    State.reset.params.legal ∧ (after .decode abContainer).ecode = none ∧
    State.reset.params.byteCap < ({ State.reset with brlen := 65 } : State).brlen.toNat ∧
    (let s := { abContainer with brlen := 4 }
     let u := { s with brPos := 0, brLimit := word (8 * s.brlen.toNat), outN := 0 }
     s.brlen.toNat ≤ s.params.byteCap ∧ exec .treeDeser u = .next (after .treeDeser u) ∧ (after .treeDeser u).ecode ≠ none) :=
  ⟨by decide, by decide +kernel, by decide, by decide, ends_spec (by decide +kernel), by decide +kernel⟩

/-- After the tree: 29 bits left; the length SYM_CAP + 1; five of six codes. -/
theorem witness_DecodeFailureDeliversNothing_afterTree :
    abTree.leaves ≤ alphabetSize ∧
    (let s := { abContainer with brlen := 8 }
     s.bytemem.holds 0 abTree.pre ∧ abTree.pre.length ≤ 8 * s.brlen.toNat ∧ 8 * s.brlen.toNat < abTree.pre.length + 32) ∧
    (let s := longContainer
     s.bytemem.holds 0 abTree.pre ∧ s.bytemem.holds abTree.pre.length (bitsOf 32 65) ∧
      abTree.pre.length + 32 ≤ 8 * s.brlen.toNat ∧ s.params.symCap < 65) ∧
    (let s := cutContainer
     s.bytemem.holds 0 abTree.pre ∧ s.bytemem.holds abTree.pre.length (bitsOf 32 6) ∧ cutPicks.length < 6 ∧
      (∀ c ∈ cutPicks, c ∈ abTree.paths) ∧ (∃ c ∈ abTree.paths, [] <+: c.2 ∧ [] ≠ c.2) ∧
      s.bytemem.holds (abTree.pre.length + 32) ((cutPicks.map Prod.snd).flatten ++ []) ∧
      abTree.pre.length + 32 + ((cutPicks.map Prod.snd).flatten ++ []).length = 8 * s.brlen.toNat) := by
  unfold Memory.holds; decide +kernel

/-- The length 65 is OUTPUT_OVERFLOW at bit 67; the cut payload is MALFORMED_CONTAINER with the five symbols in SYMOUT. -/
theorem test_decode_failures :
    (after .decode longContainer).statusWord = 0x00010806 ∧ (after .decode longContainer).brPos = 67 ∧
    (after .decode cutContainer).statusWord = 0x00010206 ∧ (after .decode cutContainer).brPos = 72 ∧
    (List.range 6).map (after .decode cutContainer).symout.get? =
      [some 0x61, some 0x62, some 0x61, some 0x62, some 0x62, none] := by decide +kernel

/-- "ab", whose container is 69 bits, in 9 bytes, which it fits, and in 8, which it does not. -/
theorem witness_EncAllWritesContainer :
    ∀ cap ∈ [8, 9], let s := withInput (State.resetWith ⟨2, cap⟩)
      s.params.legal ∧ s.inputIs [0x61, 0x62] ∧ [0x61, (0x62 : Symbol)] ≠ [] ∧ [0x61, (0x62 : Symbol)].length ≤ s.params.symCap ∧
        ((after .encAll s).ecode = none ↔ cap = 9) := by
  simp only [List.mem_cons, List.not_mem_nil, or_false, forall_eq_or_imp, forall_eq]
  exact ⟨⟨by decide, ⟨rfl, by decide⟩, by decide, by decide, by decide +kernel⟩,
    ⟨by decide, ⟨rfl, by decide⟩, by decide, by decide, by decide +kernel⟩⟩

/-- V17: the smallest BYTE_CAP. -/
theorem witness_SingleSymbolContainerIsSevenBytes :
    let s := { State.resetWith ⟨5, 7⟩ with symin := written (List.replicate 5 0x61), nsym := 5 }
    s.params.legal ∧ s.inputIs (List.replicate 5 0x61) ∧ 0 < 5 ∧ 5 ≤ s.params.symCap :=
  ⟨by decide, ⟨rfl, by decide⟩, by decide, by decide⟩

theorem witness_DecodeOfEncodeIsInput :
    let s := withInput (State.resetWith ⟨2, 10⟩)
    s.params.legal ∧ s.inputIs [0x61, 0x62] ∧ exec .encAll s = .next (after .encAll s) ∧ (after .encAll s).ecode = none :=
  ⟨by decide, ⟨rfl, by decide⟩, ends_spec (by decide +kernel), by decide +kernel⟩

/-- Two states that agree on the input alone. -/
theorem witness_EncAllDependsOnInputAlone :
    let s1 := withInput State.reset
    let s2 := { abReady with bytemem := written [1, 2, 3], bwNbits := 9 }
    s1.params.legal ∧ s1.params = s2.params ∧ s1.inputIs [0x61, 0x62] ∧ s2.inputIs [0x61, 0x62] ∧
      exec .encAll s1 = .next (after .encAll s1) ∧ exec .encAll s2 = .next (after .encAll s2) ∧ (after .encAll s1).ecode = none :=
  ⟨by decide, rfl, ⟨rfl, by decide⟩, ⟨rfl, by decide⟩, ends_spec (by decide +kernel),
    ends_spec (by decide +kernel), by decide +kernel⟩

/-- Two states that agree on the slice alone. -/
theorem witness_DecodeDependsOnSliceAlone :
    let s1 := abContainer
    let s2 := { abReady with bytemem := abContainer.bytemem, brlen := 9 }
    s1.params.legal ∧ s1.params = s2.params ∧ s1.brlen = s2.brlen ∧
      (∀ a, a < s1.brlen.toNat → (s1.bytemem.get? a).isSome ∧ s2.bytemem.get? a = s1.bytemem.get? a) ∧
      exec .decode s1 = .next (after .decode s1) ∧ exec .decode s2 = .next (after .decode s2) ∧ (after .decode s1).ecode = none :=
  ⟨by decide, rfl, rfl, by decide, ends_spec (by decide +kernel), ends_spec (by decide +kernel), by decide +kernel⟩

/-! ### The register port -/

/-- The first and the last listed register, and the first and the last reserved offset. -/
theorem witness_IdleReadsReturnRegisters :
    abReady.busy = false ∧ (await abReady (rdEvent 0x54)).pending = .host ⟨0x54, 4, .read⟩ :: [] ∧
    (0x58 % 4 = 0 ∧ 0x58 ≤ 0x58 ∧ 0x58 ≤ 0x7C) ∧ (0x7C % 4 = 0 ∧ 0x58 ≤ 0x7C ∧ 0x7C ≤ 0x7C) := by decide

theorem witness_IdleWritesSetRegisters :
    abReady.busy = false ∧ (await abReady (wrEvent 0x0C 0x70)).pending = .host ⟨0x0C, 4, .write 0x70⟩ :: [] ∧
    (2#32).getLsbD 0 = false ∧ (0x00 : Nat) ∈ [0x00, 0x1C, 0x20, 0x24, 0x28, 0x2C, 0x30, 0x34, 0x38, 0x3C, 0x40, 0x50, 0x54] := by
  decide

/-- The first and the last offset of the hazard range. -/
theorem witness_HazardAccessSetsHazOnly :
    let s := { abReady with busy := true }
    s.busy = true ∧ (0x0C % 4 = 0 ∧ 0x0C ≤ 0x0C ∧ 0x0C ≤ 0x54) ∧ (0x54 % 4 = 0 ∧ 0x0C ≤ 0x54 ∧ 0x54 ≤ 0x54) ∧
      (await s (wrEvent 0x0C 1)).pending = .host ⟨0x0C, 4, .write 1⟩ :: [] ∧
      (await s (rdEvent 0x54)).pending = .host ⟨0x54, 4, .read⟩ :: [] := by decide

theorem witness_BusyAccessOutsideHazardRange :
    let s := { abReady with busy := true }
    s.busy = true ∧ (await s (rdEvent 0x58)).pending = .host ⟨0x58, 4, .read⟩ :: [] ∧
      (await s (wrEvent 0x04 2)).pending = .host ⟨0x04, 4, .write 2⟩ :: [] ∧ (2#32).getLsbD 0 = false := by decide

/-- A byte access, an access off a multiple of 4, and the first offset past the window. -/
theorem witness_AccessOutsideInterfaceIsRefused :
    (await abReady (.host ⟨0x00, 1, .read⟩)).pending = .host ⟨0x00, 1, .read⟩ :: [] ∧ (1 : Nat) ≠ 4 ∧
    (await abReady (.host ⟨0x02, 4, .read⟩)).pending = .host ⟨0x02, 4, .read⟩ :: [] ∧ (0x02 : Nat) % 4 ≠ 0 ∧
    (await abReady (.host ⟨0x80, 4, .write 0⟩)).pending = .host ⟨0x80, 4, .write 0⟩ :: [] ∧ 0x80 % 4 = 0 ∧ 0x80 ≤ 0x80 := by
  decide

/-- The last index of each writable view. -/
theorem witness_WindowWriteSetsEntry :
    abReady.busy = false ∧ (await abReady (wrEvent 0x4C 7)).pending = .host ⟨0x4C, 4, .write 7⟩ :: [] ∧
    (63#32).toNat < abReady.params.symCap ∧ (63#32).toNat < abReady.params.byteCap ∧ (65535#32).toNat < alphabetSize ∧
    (freqOf []).freq.get? 65535 = some 0 := by decide

/-- The first index past each writable view, and the first read-only view. -/
theorem witness_WindowWriteIgnored :
    abReady.busy = false ∧ (await abReady (wrEvent 0x4C 7)).pending = .host ⟨0x4C, 4, .write 7⟩ :: [] ∧
    5 ≤ (5#4).toNat ∧ abReady.params.symCap ≤ (64#32).toNat ∧ abReady.params.byteCap ≤ (64#32).toNat ∧
    alphabetSize ≤ (65536#32).toNat := by decide

/-- An entry of each view, at its range's ends. -/
theorem witness_WindowReadReturnsEntry :
    abReady.busy = false ∧ (await abReady (rdEvent 0x4C)).pending = .host ⟨0x4C, 4, .read⟩ :: [] ∧
    abReady.symin.get? 1 = some 0x62 ∧ (written [(7 : Symbol)]).get? 0 = some 7 ∧ abContainer.bytemem.get? 8 = some 0x48 ∧
    (freqOf [(65535, 9)]).freq.get? 65535 = some 9 ∧ (131070#32).toNat < nodeCap ∧ nodeCap ≤ (131071#32).toNat ∧
    12 ≤ (12#4).toNat ∧ 2 ^ 27 ≤ (134217728#32).toNat := by decide

theorem witness_CodeViewsReadTheTable :
    abReady.busy = false ∧ (await abReady (rdEvent 0x4C)).pending = .host ⟨0x4C, 4, .read⟩ :: [] ∧
    (65535#32).toNat < alphabetSize ∧ (134217727#32).toNat < 2 ^ 27 := by decide

/-- A write of 1 to CTRL, with each group of commands running. -/
theorem witness_SoftResetKeepsMemories :
    (await abReady (wrEvent 0x04 1)).pending = .host ⟨0x04, 4, .write 1⟩ :: [] ∧ (1#32).getLsbD 0 = true ∧
    abReady.busy = false ∧ decode 0x00008000 = .error .reservedBits ∧ decode 0x40 = .ok .treeBuild ∧
    decode 0x2022 = .ok (.brGetN 32) ∧ decode 0x41 = .ok .treeSer ∧ decode 0x31 = .ok .freqCount ∧
    decode 0x70 = .ok .encAll ∧ decode 0x61 = .ok .decode := by decide

theorem witness_PowerOnResetValues : (await abReady .powerOn).pending = .powerOn :: [] := rfl

/-! ### Whole-machine statements -/

/-- A step of each agent, and a hazard access, which sets HAZ. -/
theorem witness_StatusChangesOnlyAsStated :
    step { abReady with busy := true, cmdl := 0x60 } = .next (stepped { abReady with busy := true, cmdl := 0x60 }) ∧
    step (await abReady (wrEvent 0x0C 0x70)) = .next (stepped (await abReady (wrEvent 0x0C 0x70))) ∧
    step (await abReady .powerOn) = .next (stepped (await abReady .powerOn)) ∧
    (let s := await { abReady with busy := true } (wrEvent 0x0C 0x70)
     step s = .next (stepped s) ∧ s.haz = false ∧ (stepped s).haz = true) := ⟨rfl, rfl, rfl, rfl, rfl, rfl⟩

theorem witness_ResetMeetsInvariant : Params.legal ⟨1, 7⟩ ∧ Params.legal ⟨4294967295, 536870911⟩ := by decide

theorem witness_EveryStepKeepsInvariant :
    ({ abReady with busy := true, cmdl := 0x60, pending := [rdEvent 0x08, rdEvent 0x08] } : State).Inv ∧
    step { abReady with busy := true, cmdl := 0x60, pending := [rdEvent 0x08, rdEvent 0x08] } =
      .next (stepped { abReady with busy := true, cmdl := 0x60, pending := [rdEvent 0x08, rdEvent 0x08] }) :=
  ⟨inv_of_busy_poll, rfl⟩

end Sys2Proof.Tests
end

/-! The STATUS word, bit by bit (10_state.md R105; 60_exceptions.md R702). -/
section

namespace Sys2Proof.Machine

namespace State

/-- R105's layout, with ERR and ECODE read through the model's `err` and `ecodeField`: bits 17 down
to 0 one by one, and no field reaches above them. -/
theorem statusWord_getLsbD (s : State) (j : Nat) :
    s.statusWord.getLsbD j =
      if j = 0 then s.busy
      else if j = 1 then s.done
      else if j = 2 then s.err
      else if j = 3 then s.haz
      else if 8 ≤ j ∧ j ≤ 11 then (ecodeField s.ecode).getLsbD (j - 8)
      else if j = 16 then s.treeValid
      else if j = 17 then s.ctValid
      else false := by
  simp only [statusWord, BitVec.getLsbD_append, BitVec.getLsbD_ofBool, BitVec.getLsbD_zero]
  rcases Nat.lt_or_ge j 18 with low | high
  · interval_cases j <;> simp
  · simp (disch := omega) only [if_neg]

/-- Bits 11:8 of STATUS are ECODE (R105). -/
theorem statusWord_extract_ecode (s : State) : s.statusWord.extractLsb' 8 4 = ecodeField s.ecode := by
  apply BitVec.eq_of_getLsbD_eq
  intro i hi
  have inField : 8 ≤ 8 + i ∧ 8 + i ≤ 11 := by omega
  calc (s.statusWord.extractLsb' 8 4).getLsbD i
      = s.statusWord.getLsbD (8 + i) := by simp [hi]
    _ = (ecodeField s.ecode).getLsbD (8 + i - 8) := by
      simp (disch := omega) only [statusWord_getLsbD, if_neg, if_pos inField]
    _ = (ecodeField s.ecode).getLsbD i := by rw [Nat.add_sub_cancel_left]

end State

/-- Settles O47: the numbers of R702 are `ecodeField`, and ERR is by definition that field's being
nonzero, so both halves are the word's layout. -/
theorem statusBitsAreTheFlags : Obligations.StatusBitsAreTheFlags := by
  intro s number
  have number_eq : number = ecodeField s.ecode := by
    unfold number
    cases s.ecode with
    | none => rfl
    | some e => cases e <;> rfl
  rw [number_eq]
  exact ⟨s.statusWord_extract_ecode, s.statusWord_getLsbD⟩

end Sys2Proof.Machine
end

/-! The command word cut into its four fields, and decoding read row by row from the opcode table
(30_encoding.md R300 to R306). -/
section

namespace Sys2Proof

/-! ## The four fields -/

/-- The word with the given fields, bits 31 down to 0 (30_encoding.md R300). -/
def wordOfFields (reserved : BitVec 17) (b : Bool) (w : BitVec 6) (op : BitVec 8) : Word :=
  reserved ++ BitVec.ofBool b ++ w ++ op

section
variable (reserved : BitVec 17) (b : Bool) (w : BitVec 6) (op : BitVec 8)

@[simp] theorem opField_wordOfFields : opField (wordOfFields reserved b w op) = op := by
  unfold opField wordOfFields
  rw [BitVec.extractLsb'_append_eq_of_add_le (by decide), BitVec.extractLsb'_eq_self]

@[simp] theorem wField_wordOfFields : wField (wordOfFields reserved b w op) = w := by
  unfold wField wordOfFields
  rw [BitVec.extractLsb'_append_eq_of_le (by decide), BitVec.extractLsb'_append_eq_of_add_le (by decide),
    BitVec.extractLsb'_eq_self]

@[simp] theorem bField_wordOfFields : bField (wordOfFields reserved b w op) = b := by
  simp only [bField, wordOfFields, BitVec.getLsbD_append]
  simp

@[simp] theorem reservedField_wordOfFields : reservedField (wordOfFields reserved b w op) = reserved := by
  unfold reservedField wordOfFields
  rw [BitVec.extractLsb'_append_eq_of_le (by decide), BitVec.extractLsb'_append_eq_of_le (by decide),
    BitVec.extractLsb'_append_eq_of_le (by decide), BitVec.extractLsb'_eq_self]

/-- R302: enc leaves the reserved bits 0. -/
theorem enc_eq_wordOfFields : enc op w b = wordOfFields 0 b w op := by
  unfold wordOfFields
  ext i hi
  simp only [enc, BitVec.getElem_or, BitVec.getElem_shiftLeft, BitVec.getElem_setWidth]
  grind

end

/-- A word is its four fields. -/
theorem wordOfFields_fields (x : Word) :
    wordOfFields (reservedField x) (bField x) (wField x) (opField x) = x := by
  unfold wordOfFields
  ext i hi
  simp only [reservedField, bField, wField, opField, BitVec.getElem_append]
  grind

theorem word_eq_iff_fields (x y : Word) :
    x = y ↔ reservedField x = reservedField y ∧ bField x = bField y ∧ wField x = wField y ∧ opField x = opField y := by
  constructor
  · rintro rfl
    exact ⟨rfl, rfl, rfl, rfl⟩
  · rintro ⟨hres, hb, hw, hop⟩
    rw [← wordOfFields_fields x, ← wordOfFields_fields y, hres, hb, hw, hop]

@[simp] theorem opField_and (x y : Word) : opField (x &&& y) = opField x &&& opField y := BitVec.extractLsb'_and

@[simp] theorem wField_and (x y : Word) : wField (x &&& y) = wField x &&& wField y := BitVec.extractLsb'_and

@[simp] theorem bField_and (x y : Word) : bField (x &&& y) = (bField x && bField y) := BitVec.getLsbD_and

@[simp] theorem reservedField_and (x y : Word) : reservedField (x &&& y) = reservedField x &&& reservedField y :=
  BitVec.extractLsb'_and

/-! ## The rows of the table -/

namespace OpcodeRow

/-- The OP of a row, bits 7:0 of its pattern. -/
abbrev opcode (r : OpcodeRow) : BitVec 8 := r.pattern.extractLsb' 0 8

/-- R306's mask of a row: OP and the reserved bits are compared, W and B where the command does not use them. -/
theorem fields_of_mem : ∀ r ∈ opcodeTable,
    r.pattern = wordOfFields 0 false 0 r.opcode ∧
      r.mask = wordOfFields (.allOnes 17) (!r.usesB) (if r.usesW then 0 else .allOnes 6) (.allOnes 8) := by
  decide

theorem eq_of_opcode_eq : ∀ r ∈ opcodeTable, ∀ r' ∈ opcodeTable, r.opcode = r'.opcode → r = r' := by
  decide

/-- A word selects a row when OP is the row's, the reserved bits are 0, and so are W and B where the row does not use
them. -/
theorem selects_iff {r : OpcodeRow} (hr : r ∈ opcodeTable) (x : Word) :
    r.selects x = true ↔ opField x = r.opcode ∧ reservedField x = 0 ∧ (r.usesW = false → wField x = 0) ∧
      (r.usesB = false → bField x = false) := by
  obtain ⟨hp, hm⟩ := fields_of_mem r hr
  rw [selects, decide_eq_true_iff, word_eq_iff_fields, hm, hp]
  cases r.usesW <;> cases r.usesB <;> simp [-BitVec.reduceAllOnes] <;> tauto

end OpcodeRow

/-! ## Decoding, row by row -/

/-- The command of an opcode with the operands it uses; of the opcodes of no row, NOP. -/
def commandOf (op : BitVec 8) (w : BitVec 6) (b : Bool) : Instr :=
  match op.toNat with
  | 0x10 => .bwInit
  | 0x11 => .bwPut1 b
  | 0x12 => .bwPutN w
  | 0x13 => .bwFinal
  | 0x20 => .brInit
  | 0x21 => .brGet1
  | 0x22 => .brGetN w
  | 0x30 => .freqClr
  | 0x31 => .freqCount
  | 0x40 => .treeBuild
  | 0x41 => .treeSer
  | 0x42 => .treeDeser
  | 0x50 => .codeGen
  | 0x60 => .encode
  | 0x61 => .decode
  | 0x70 => .encAll
  | _ => .nop

namespace OpcodeRow

/-- The four conditions under which a word with a row's opcode is legal (30_encoding.md R304). -/
structure Admits (r : OpcodeRow) (x : Word) : Prop where
  reserved : reservedField x = 0
  width : r.usesW = false → wField x = 0
  bit : r.usesB = false → bField x = false
  legal : r.usesW = true → (wField x).toNat ≤ 32

theorem admits_iff (r : OpcodeRow) (x : Word) :
    r.Admits x ↔ reservedField x = 0 ∧ (r.usesW = false → wField x = 0) ∧ (r.usesB = false → bField x = false) ∧
      (r.usesW = true → (wField x).toNat ≤ 32) :=
  ⟨fun ⟨hres, hw, hb, hl⟩ => ⟨hres, hw, hb, hl⟩, fun ⟨hres, hw, hb, hl⟩ => ⟨hres, hw, hb, hl⟩⟩

/-- The three decoders of Decode.lean as one, by what the row uses. -/
def decodeOperands (r : OpcodeRow) (x : Word) : Except DecodeError Instr :=
  if r.usesW = false ∧ wField x ≠ 0 then .error .unusedWidth
  else if r.usesB = false ∧ bField x = true then .error .unusedBit
  else if r.usesW = true → legalWidth (wField x) = true then .ok (commandOf r.opcode (wField x) (bField x))
  else .error .widthTooLarge

theorem commandOf_mnemonic : ∀ r ∈ opcodeTable, ∀ w b, (commandOf r.opcode w b).mnemonic = r.mnemonic := by
  rw [← List.forall_iff_forall_mem]
  and_intros <;> exact fun _ _ => rfl

/-- A command's word has its operands where the row uses them (30_encoding.md R302). -/
theorem encode_commandOf : ∀ r ∈ opcodeTable, ∀ w b, (r.usesW = false → w = 0) → (r.usesB = false → b = false) →
    Sys2Proof.encode (commandOf r.opcode w b) = enc r.opcode w b := by
  rw [← List.forall_iff_forall_mem]
  and_intros <;> intro w b hw hb <;> simp_all <;> rfl

/-- The opcode map is the table (30_encoding.md R303). -/
theorem decodeOpcode_eq (x : Word) : ∀ r ∈ opcodeTable, opField x = r.opcode → decodeOpcode x = r.decodeOperands x := by
  rw [← List.forall_iff_forall_mem]
  and_intros <;> intro hx <;>
    simp [decodeOpcode, hx, decodePlain, decodeWithB, decodeWithW, decodeOperands, commandOf]

theorem decodeOpcode_reserved {x : Word} (h : ∀ r ∈ opcodeTable, opField x ≠ r.opcode) :
    decodeOpcode x = .error .reservedOpcode := by
  have notListed : ∀ n ∈ opcodeTable.map (·.opcode.toNat), (opField x).toNat ≠ n := by
    rintro _ hn heq
    obtain ⟨r, hr, rfl⟩ := List.mem_map.mp hn
    exact h r hr (BitVec.eq_of_toNat_eq heq)
  unfold decodeOpcode
  split
  case h_18 => rfl
  all_goals exact absurd ‹_› (notListed _ (by decide))

theorem decodeOperands_eq_ok_iff {r : OpcodeRow} {x : Word} {i : Instr} (hres : reservedField x = 0) :
    r.decodeOperands x = .ok i ↔ r.Admits x ∧ i = commandOf r.opcode (wField x) (bField x) := by
  unfold decodeOperands
  split_ifs with hw hb hl
  · exact iff_of_false nofun fun h => hw.2 (h.1.width hw.1)
  · exact iff_of_false nofun fun h => by simp [h.1.bit hb.1] at hb
  · have hadm : r.Admits x := by
      refine ⟨hres, fun hu => ?_, fun hu => ?_, fun hu => of_decide_eq_true (hl hu)⟩
      · exact not_not.mp fun hne => hw ⟨hu, hne⟩
      · exact Bool.eq_false_of_not_eq_true fun hset => hb ⟨hu, hset⟩
    rw [Except.ok.injEq, eq_comm]
    exact (and_iff_right hadm).symm
  · exact iff_of_false nofun fun h => hl fun hu => decide_eq_true (h.1.legal hu)

/-- An admitted word decodes to its row's command, with the word's W and B. -/
theorem decode_of_admits {r : OpcodeRow} (hr : r ∈ opcodeTable) {x : Word} (hop : opField x = r.opcode)
    (h : r.Admits x) : Sys2Proof.decode x = .ok (commandOf r.opcode (wField x) (bField x)) := by
  rw [Sys2Proof.decode, if_neg (not_not.mpr h.reserved), decodeOpcode_eq x r hr hop,
    (decodeOperands_eq_ok_iff h.reserved).mpr ⟨h, rfl⟩]

/-- R302: the word an admitted word's command encodes to is that word. -/
theorem encode_of_admits {r : OpcodeRow} (hr : r ∈ opcodeTable) {x : Word} (hop : opField x = r.opcode)
    (h : r.Admits x) : Sys2Proof.encode (commandOf r.opcode (wField x) (bField x)) = x := by
  rw [encode_commandOf r hr _ _ h.width h.bit, enc_eq_wordOfFields, ← hop, ← h.reserved, wordOfFields_fields]

theorem admits_iff_selects {r : OpcodeRow} (hr : r ∈ opcodeTable) (x : Word) :
    (opField x = r.opcode ∧ r.Admits x) ↔ r.selects x = true ∧ (r.usesW = true → (wField x).toNat ≤ 32) := by
  rw [selects_iff hr, admits_iff]
  tauto

end OpcodeRow

/-- R304, R306: the words that decode are those that a row with their OP admits. -/
theorem decode_eq_ok_iff (x : Word) (i : Instr) :
    Sys2Proof.decode x = .ok i ↔ ∃ r ∈ opcodeTable, opField x = r.opcode ∧ r.Admits x ∧
      i = commandOf r.opcode (wField x) (bField x) := by
  constructor
  · intro h
    rw [Sys2Proof.decode] at h
    split at h
    · cases h
    · next hres =>
      by_cases hrow : ∃ r ∈ opcodeTable, opField x = r.opcode
      · obtain ⟨r, hr, hop⟩ := hrow
        rw [OpcodeRow.decodeOpcode_eq x r hr hop] at h
        obtain ⟨hadm, hi⟩ := (OpcodeRow.decodeOperands_eq_ok_iff (not_not.mp hres)).mp h
        exact ⟨r, hr, hop, hadm, hi⟩
      · push Not at hrow
        rw [OpcodeRow.decodeOpcode_reserved hrow] at h
        cases h
  · rintro ⟨r, hr, hop, hadm, rfl⟩
    exact OpcodeRow.decode_of_admits hr hop hadm

/-- A word is illegal exactly when no row with its OP admits it (30_encoding.md R304). -/
theorem decode_error_iff (x : Word) :
    (∃ e, Sys2Proof.decode x = .error e) ↔ ∀ r ∈ opcodeTable, opField x = r.opcode → ¬ r.Admits x := by
  constructor
  · rintro ⟨e, he⟩ r hr hop hadm
    rw [OpcodeRow.decode_of_admits hr hop hadm] at he
    cases he
  · intro h
    cases hd : Sys2Proof.decode x with
    | error e => exact ⟨e, rfl⟩
    | ok i =>
      obtain ⟨r, hr, hop, hadm, -⟩ := (decode_eq_ok_iff x i).mp hd
      exact absurd hadm (h r hr hop)

open Sys2Proof.Machine in
/-- R405: the engine's step on an illegal word. -/
theorem engineStep_of_decode_error {s : State} {e : DecodeError} (h : Sys2Proof.decode s.cmdl = .error e) :
    engineStep s = .next { s with busy := false, done := true, ecode := some .illegalCommand } := by
  rw [engineStep, h]
  rfl

/-- Settles O2: a row with the word's OP is unique, so R304's clauses are the ways it can fail to admit the word. -/
theorem illegalWordsAreThese : Obligations.IllegalWordsAreThese := by
  intro x
  refine ⟨?_, fun s e hs he => engineStep_of_decode_error (hs ▸ he)⟩
  rw [decode_error_iff]
  by_cases hrow : ∃ r ∈ opcodeTable, opField x = r.opcode
  · obtain ⟨r, hr, hop⟩ := hrow
    have only {r' : OpcodeRow} (hr' : r' ∈ opcodeTable) (hop' : opField x = r'.opcode) : r' = r :=
      OpcodeRow.eq_of_opcode_eq r' hr' r hr (hop'.symm.trans hop)
    have some_iff (P : OpcodeRow → Prop) : (∃ r' ∈ opcodeTable, opField x = r'.opcode ∧ P r') ↔ P r :=
      ⟨fun ⟨_, hr', hop', hP⟩ => only hr' hop' ▸ hP, fun hP => ⟨r, hr, hop, hP⟩⟩
    have none_iff : (∀ r' ∈ opcodeTable, opField x = r'.opcode → ¬ r'.Admits x) ↔ ¬ r.Admits x :=
      ⟨fun h => h r hr hop, fun h _ hr' hop' => only hr' hop' ▸ h⟩
    have listed : ¬ ∀ r' ∈ opcodeTable, opField x ≠ r'.opcode := fun h => h r hr hop
    rw [none_iff, some_iff (·.usesW = false), some_iff (·.usesB = false), some_iff (·.usesW = true),
      OpcodeRow.admits_iff]
    simp only [listed, false_or, not_and_or, Classical.not_imp, Bool.not_eq_false, Nat.not_le, ne_eq]
    tauto
  · push Not at hrow
    exact iff_of_true (fun r hr hop => absurd hop (hrow r hr)) (.inl hrow)

/-- Settles O3: selecting a row and W's bound are `OpcodeRow.Admits`, and a word decodes exactly when a row
admits it. -/
theorem decodeFollowsOpcodeTable : Obligations.DecodeFollowsOpcodeTable := by
  intro x
  refine ⟨fun r hr r' hr' hs hs' => ?_, fun i hi => ?_, fun r hr hs hl => ?_, fun r hr hs hu hl => ?_, fun h => ?_⟩
  · have hop := ((OpcodeRow.selects_iff hr x).mp hs).1
    have hop' := ((OpcodeRow.selects_iff hr' x).mp hs').1
    exact OpcodeRow.eq_of_opcode_eq r hr r' hr' (hop.symm.trans hop')
  · obtain ⟨r, hr, hop, hadm, rfl⟩ := (decode_eq_ok_iff x i).mp hi
    exact ⟨OpcodeRow.encode_of_admits hr hop hadm, r, hr, ((OpcodeRow.admits_iff_selects hr x).mp ⟨hop, hadm⟩).1,
      (OpcodeRow.commandOf_mnemonic r hr _ _).symm⟩
  · obtain ⟨hop, hadm⟩ := (OpcodeRow.admits_iff_selects hr x).mpr ⟨hs, hl⟩
    exact ⟨_, OpcodeRow.decode_of_admits hr hop hadm, OpcodeRow.commandOf_mnemonic r hr _ _⟩
  · have hop := ((OpcodeRow.selects_iff hr x).mp hs).1
    refine (decode_error_iff x).mpr fun r' hr' hop' hadm => ?_
    obtain rfl := OpcodeRow.eq_of_opcode_eq r hr r' hr' (hop.symm.trans hop')
    exact absurd (hadm.legal hu) (Nat.not_le.mpr hl)
  · refine (decode_error_iff x).mpr fun r hr hop hadm => ?_
    have hs := ((OpcodeRow.admits_iff_selects hr x).mp ⟨hop, hadm⟩).1
    rw [h r hr] at hs
    cases hs

end Sys2Proof
end

/-! ENC_ALL on written input, body by body (46_codec.md R615): the counts, their tree, its code table, the container;
and the container of one distinct symbol (30_encoding.md R325). -/
section

namespace Sys2Proof.Machine

theorem Res.andThen_assoc {α β γ : Type} (r : Res α) (k : α → State → Res β) (l : β → State → Res γ) :
    (r.andThen k).andThen l = r.andThen fun a s => (k a s).andThen l := by
  cases r <;> rfl

namespace State

/-! ## The frequency count and the tree -/

/-- FREQ_COUNT's loop on written input (42_freq.md R461): FREQ is written everywhere, with the counts. -/
theorem countSymbols_written {s : State} {syms : List Symbol} (hin : s.inputIs syms) :
    ∃ m, s.clearFreq.countSymbols s.symbolCount 0 = { s with freq := m } ∧ Memory.wf alphabetSize m ∧
      ∀ x : Symbol, m.get? x.toNat = some (BitVec.ofNat 64 (syms.count x)) := by
  obtain ⟨hlen, hget⟩ := hin
  obtain ⟨m, hm, hc⟩ := countSymbols_counts syms 0 s.clearFreq (fun j hj => by simpa using hget j hj) (fun _ _ => rfl)
  obtain ⟨m', d, hm', -, hwf⟩ := countSymbols_spec syms.length 0 s.clearFreq
  rw [hm'] at hm
  obtain rfl : m' = m := congrArg State.freq hm
  refine ⟨m', by rw [symbolCount, hlen, hm', hm]; rfl, hwf (Memory.wf_fill _ _), fun x => ?_⟩
  rw [hc x]
  simp [freqAt, clearFreq]

theorem symbol_toNat {i : Nat} (hi : i < alphabetSize) : (BitVec.ofNat 16 i).toNat = i := by
  rw [BitVec.toNat_ofNat]
  exact Nat.mod_eq_of_lt hi

theorem lt_of_mem_presentSymbols {s : State} {i : Nat} (hi : i ∈ s.presentSymbols) : i < alphabetSize :=
  List.mem_range.mp (List.mem_filter.mp hi).1

/-- The present symbols with their counts, as `nonzeroFreq_written` lists them. -/
def freqLeaves (s : State) : List (Nat × Weight) := s.presentSymbols.map fun i => (i, s.freqAt i)

section
variable {s : State} {syms : List Symbol} (hlen : syms.length < 2 ^ 64)
  (hc : ∀ x : Symbol, s.freq.get? x.toNat = some (BitVec.ofNat 64 (syms.count x)))
include hc

theorem freqWritten_of_counts : s.freqWritten := fun i hi => by
  have := hc (BitVec.ofNat 16 i)
  rw [symbol_toNat hi] at this
  exact Option.isSome_of_eq_some this

include hlen

theorem freqAt_toNat_of_counts (x : Symbol) : (s.freqAt x.toNat).toNat = syms.count x := by
  rw [freqAt, hc x, Option.getD_some, BitVec.toNat_ofNat]
  exact Nat.mod_eq_of_lt (lt_of_le_of_lt List.count_le_length hlen)

theorem mem_presentSymbols_of_counts (x : Symbol) : x.toNat ∈ s.presentSymbols ↔ x ∈ syms := by
  have hat : s.freqAt x.toNat ≠ 0 ↔ x ∈ syms := by
    rw [ne_eq, ← BitVec.toNat_inj, freqAt_toNat_of_counts hlen hc]
    exact List.count_eq_zero.not_left
  simp only [presentSymbols, List.mem_filter, List.mem_range, decide_eq_true_eq, hat]
  exact and_iff_right x.isLt

omit hlen hc in
theorem freqLeaves_length_le (s : State) : s.freqLeaves.length ≤ alphabetSize := by
  rw [freqLeaves, List.length_map, presentSymbols]
  exact (List.length_filter_le _ _).trans_eq List.length_range

/-- The leaves' symbols are the distinct symbols of the input. -/
theorem freqLeaves_symbols : (s.freqLeaves.map fun c => BitVec.ofNat 16 c.1).Perm syms.dedup := by
  rw [freqLeaves, List.map_map]
  refine (List.perm_ext_iff_of_nodup ?_ (List.nodup_dedup _)).mpr fun x => ?_
  · refine List.Nodup.map_on (fun i hi j hj h => ?_) (List.nodup_range.filter _)
    rw [← symbol_toNat (lt_of_mem_presentSymbols hi), ← symbol_toNat (lt_of_mem_presentSymbols hj)]
    exact congrArg BitVec.toNat h
  · rw [List.mem_dedup, ← mem_presentSymbols_of_counts hlen hc, List.mem_map]
    constructor
    · rintro ⟨i, hi, rfl⟩
      rwa [Function.comp_apply, symbol_toNat (lt_of_mem_presentSymbols hi)]
    · exact fun hx => ⟨x.toNat, hx, by simp⟩

/-- The leaves' weights add up to N (42_freq.md R462). -/
theorem totalWeight_freqLeaves : totalWeight s.freqLeaves = syms.length := by
  have hat : ∀ c ∈ s.freqLeaves, c.2.toNat = syms.count (BitVec.ofNat 16 c.1) := by
    rintro c hmem
    obtain ⟨i, hi, rfl⟩ := List.mem_map.mp hmem
    rw [← freqAt_toNat_of_counts hlen hc, symbol_toNat (lt_of_mem_presentSymbols hi)]
  calc totalWeight s.freqLeaves
      = (s.freqLeaves.map fun c => syms.count (BitVec.ofNat 16 c.1)).sum := by
        rw [totalWeight, List.map_congr_left hat]
    _ = ((s.freqLeaves.map fun c => BitVec.ofNat 16 c.1).map fun x => syms.count x).sum := by
        rw [List.map_map]; rfl
    _ = (syms.dedup.map fun x => syms.count x).sum := ((freqLeaves_symbols hlen hc).map _).sum_eq
    _ = syms.length := List.sum_map_count_dedup_eq_length syms

end

/-- The tree the builder leaves (43_tree.md R481, R483; 10_state.md R141). -/
theorem buildTree_treeIs (s : State) {leaves : List (Nat × Weight)} (hne : leaves ≠ [])
    (hcap : leaves.length ≤ alphabetSize) (ht : totalWeight leaves ≤ maxTotalWeight) :
    ∃ (nd : Memory NodeRec) (t : HTree),
      s.buildTree leaves =
        setTree (2 * leaves.length - 2) leaves.length (2 * leaves.length - 1) { s with node := nd } ∧
      TreeIs (s.buildTree leaves) t ∧ t.leaves = leaves.length ∧
      (t.paths.map Prod.fst).Perm (leaves.map fun c => BitVec.ofNat 16 c.1) := by
  obtain ⟨nd, t, hb, -, -, -, -, -, hholds, honce, hbelow, hperm⟩ := buildTree_spec s hne hcap ht
  have hK : t.leaves = leaves.length := by
    rw [← t.paths_length]
    simpa using hperm.length_eq
  have fits : ∀ n, n < 2 * leaves.length → (BitVec.ofNat 17 n).toNat = n := fun n hn => by
    rw [BitVec.toNat_ofNat]
    unfold alphabetSize at hcap
    exact Nat.mod_eq_of_lt (by omega)
  have hpos := List.length_pos_of_ne_nil hne
  have hroot := fits (2 * leaves.length - 2) (by omega)
  have hnn := fits (2 * leaves.length - 1) (by omega)
  refine ⟨nd, t, hb, ?_, hK, hperm⟩
  rw [hb]
  refine ⟨?_, ?_, ?_, ?_, ?_⟩
  · exact hroot.symm ▸ hholds
  · exact (fits _ (by omega)).trans hK.symm
  · rw [hK]
    exact hnn
  · exact hroot.symm ▸ honce
  · exact hroot.symm ▸ hnn.symm ▸ hbelow

/-- ENC_ALL's first two bodies on written input: the counts, and the tree of the input's distinct symbols
(46_codec.md R615). -/
theorem freqCount_treeBuild_written {s : State} {syms : List Symbol} (hin : s.inputIs syms) (hne : syms ≠ [])
    (hcap : syms.length ≤ s.params.symCap) :
    ∃ (m : Memory Weight) (nd : Memory NodeRec) (t : HTree) (km : Nat × Nat) (u : State),
      (s.freqCount.andThen fun _ s1 => s1.treeBuild) = .ok km u ∧
      u = setTree (2 * t.leaves - 2) t.leaves (2 * t.leaves - 1) { s with freq := m, node := nd } ∧
      (∀ x : Symbol, m.get? x.toNat = some (BitVec.ofNat 64 (syms.count x))) ∧
      u.TreeIs t ∧ t.leaves ≤ alphabetSize ∧ (t.paths.map Prod.fst).Perm syms.dedup := by
  have hN : syms.length < 2 ^ 32 := hin.1 ▸ s.nsym.isLt
  obtain ⟨m, hm, hwf, hc⟩ := countSymbols_written hin
  have hfreq : nonzeroFreq { s with freq := m } = (freqLeaves { s with freq := m }, { s with freq := m }) :=
    nonzeroFreq_written hwf (freqWritten_of_counts hc)
  have hsyms := freqLeaves_symbols (s := { s with freq := m }) (by omega) hc
  have htotal : totalWeight (freqLeaves { s with freq := m }) ≤ maxTotalWeight := by
    rw [totalWeight_freqLeaves (by omega) hc]
    unfold maxTotalWeight
    omega
  have hK : (freqLeaves { s with freq := m }).length ≤ alphabetSize := freqLeaves_length_le _
  generalize freqLeaves { s with freq := m } = leaves at hfreq hsyms htotal hK
  have hnil : leaves ≠ [] := by
    rintro rfl
    exact hne ((List.dedup_eq_nil syms).mp (List.nil_perm.mp hsyms))
  obtain ⟨nd, t, hb, htree, hleaves, hperm⟩ := buildTree_treeIs { s with freq := m } hnil hK htotal
  have hcount : s.freqCount = .ok (leaves.length, s.symbolCount) { s with freq := m } := by
    have hle : ¬ s.symbolCount > s.params.symCap := by
      rw [symbolCount, hin.1]
      omega
    rw [freqCount, if_neg hle, hm, hfreq]
  have hbuild : treeBuild { s with freq := m } =
      .ok (leaves.length, 2 * leaves.length - 1) (buildTree leaves { s with freq := m }) := by
    rw [treeBuild, hfreq]
    simp only [List.length_eq_zero_iff, hnil, if_false, Nat.not_lt.mpr htotal]
  exact ⟨m, nd, t, _, _, by rw [hcount, Res.andThen_ok, hbuild], by rw [hb, hleaves], hc, htree, hleaves ▸ hK,
    hperm.trans hsyms⟩

/-! ## The code table -/

/-- CODE_GEN's body on a tree of distinct symbols (44_codetable.md R521). -/
theorem codeGen_distinct {s : State} {t : HTree} (h : Holds s.nodeAt s.root.toNat t)
    (hd : (t.paths.map Prod.fst).Nodup) :
    ∃ km c v, s.codeGen (visits s.nodeAt s.root.toNat [] t) = .ok km v ∧ v = { s with code := c, ctValid := true } ∧
      v.CodesAre t := by
  have hleaves : leavesOf (visits s.nodeAt s.root.toNat [] t) = t.paths := by
    simpa [leavesOf] using visits_leaves t [] h
  obtain ⟨c, hv, hp, hm⟩ := visitNodes_distinct (visits s.nodeAt s.root.toNat [] t) 0 (s.setCtValid false).clearCode
    (by rwa [hleaves]) (fun _ _ => rfl)
  rw [hleaves] at hp hm
  exact ⟨_, c, _, by rw [codeGen, hv]; rfl, rfl, hd, hp, hm⟩

/-! ## The container -/

theorem appendAll_append (fields more : List Bits) : ∀ s : State,
    s.appendAll (fields ++ more) = (s.appendAll fields).andThen fun _ u => u.appendAll more := by
  induction fields with
  | nil => exact fun _ => rfl
  | cons bs fields ih =>
    intro s
    rw [List.cons_append, appendAll, appendAll]
    cases s.appendBits bs with
    | ok a u => exact ih u
    | raise e u => rfl

theorem appendAll_singleton (bs : Bits) (s : State) : s.appendAll [bs] = s.appendBits bs := by
  rw [appendAll]
  cases s.appendBits bs <;> rfl

theorem appendAll_only (fields : List Bits) : ∀ (s : State),
    ∃ n tl m, (s.appendAll fields).state = { s with bwNbits := n, bwTail := tl, bytemem := m } := by
  induction fields with
  | nil => exact fun s => ⟨_, _, _, rfl⟩
  | cons bs fields ih =>
    intro s
    rw [appendAll, appendBits]
    split
    · exact ⟨_, _, _, rfl⟩
    · obtain ⟨n, tl, m, h⟩ := foldl_pushBit_only bs s
      rw [h]
      exact ih _

/-- ENCODE's body on a tree in NODE and written symbols that have codes: the container's fields, and the end of the
stream (46_codec.md R580). -/
theorem encodeBody_eq {s : State} {t : HTree} {n : Nat} {syms : List Symbol} (h : Holds s.nodeAt n t)
    (hin : s.inputIs syms) (hv : ∀ x ∈ syms, (s.codeAt x.toNat).valid = true) :
    s.encodeBody (visits s.nodeAt n [] t) =
      (s.initWriter.appendAll (containerFields t (syms.map fun x => (s.codeAt x.toNat).bits))).andThen fun _ u =>
        .ok u.finalize.1 u.finalize.2 := by
  obtain ⟨hN, hget⟩ := hin
  have hN' : s.symbolCount = syms.length := hN
  have hcodes : ∀ u, ((s.initWriter.appendAll (t.fields ++ [bitsOf 32 syms.length])).state = u) →
      u.encodeSymbols syms.length 0 = u.appendAll (syms.map fun x => (s.codeAt x.toNat).bits) := by
    rintro u rfl
    obtain ⟨n, tl, m, hu⟩ := appendAll_only (t.fields ++ [bitsOf 32 syms.length]) s.initWriter
    rw [hu]
    exact encodeSymbols_valid syms 0 _ (fun j hj => by rw [Nat.zero_add]; exact hget j hj) hv
  have hhead : ((s.initWriter.appendAll t.fields).andThen fun _ u => u.appendBits (bitsOf 32 syms.length)) =
      s.initWriter.appendAll (t.fields ++ [bitsOf 32 syms.length]) := by
    rw [appendAll_append]
    simp only [appendAll_singleton]
  rw [encodeBody, emit_holds h, containerFields, appendAll_append, List.length_map, hN', Res.andThen_assoc,
    ← Res.andThen_assoc, hhead]
  cases hr : s.initWriter.appendAll (t.fields ++ [bitsOf 32 syms.length]) with
  | ok a u => rw [Res.andThen_ok, Res.andThen_ok, hcodes u (by rw [hr]; rfl)]
  | raise e u => rfl

/-- Fields that fit, and the end of the stream: BYTEMEM holds them from its first byte on, with their padding
(41_bitio.md R420, R421). -/
theorem initWriter_appendAll_finalize {s : State} (hp : s.params.legal) {fields : List Bits} {bits : Bits} {p : Nat}
    (hbits : fields.flatten = bits) (hpad : padTo8 bits.length = p) (hfit : bits.length ≤ 8 * s.params.byteCap) :
    ∃ m, ((s.initWriter.appendAll fields).andThen fun _ u => Res.ok u.finalize.1 u.finalize.2) =
        .ok ((bits.length + p) / 8, p)
          { s with bwNbits := word (bits.length + p), bwTail := 0, bytemem := m } ∧
      m.holds 0 (bits ++ List.replicate p false) ∧ s.bytemem.sameOutside m 0 ((bits.length + p) / 8) := by
  subst hbits hpad
  have hw : s.initWriter.WriterOk := ⟨Nat.zero_le _, fun _ _ => BitVec.getLsbD_zero⟩
  obtain ⟨u, hu, happ⟩ := appendAll_ok (s := s.initWriter) hp hw (fields := fields) (by simpa [initWriter] using hfit)
  obtain ⟨-, -, hnew⟩ := happ.extends_
  have hn : u.bwNbits.toNat = fields.flatten.length := by simpa [initWriter] using happ.nbits
  obtain ⟨m, hfin, hbits, hzeros, hsame, hout, -⟩ := finalize_spec happ.ok
  rw [hn] at hfin hbits hzeros hsame hout
  refine ⟨m, ?_, Memory.holds_append.mpr ⟨fun j hj => ?_, by simpa using hzeros⟩, fun a ha => ?_⟩
  · rw [hu, Res.andThen_ok, hfin, happ.only]
    rfl
  · rw [Nat.zero_add, hbits j hj, ← hnew j hj]
    simp [initWriter]
  · have happ_out := happ.outside
    rw [hn] at happ_out
    by_cases hz : padTo8 fields.flatten.length = 0
    · rw [hsame hz]
      exact happ_out a (by omega)
    · have hdiv : (fields.flatten.length + padTo8 fields.flatten.length) / 8 = fields.flatten.length / 8 + 1 := by
        unfold padTo8 at hz ⊢
        omega
      exact (hout a (by omega)).trans (happ_out a (by omega))

end State

/-! ## The whole command -/

theorem containerFields_flatten (t : HTree) (codes : List Bits) :
    (containerFields t codes).flatten = containerBits t codes := by
  simp [containerFields, containerBits, HTree.fields_flatten]

theorem encAllRest_of_walk {s : State} {nodes : List Visited} (h : s.walk = some nodes) :
    encAllRest s = outcome (containerResults ((s.codeGen nodes).andThen fun _ s1 => s1.encodeBody nodes)) := by
  rw [encAllRest, h]

/-- ENC_ALL on written input: after the counts, their tree and its code table, what is left is the container's fields
and the end of the stream (46_codec.md R615). -/
theorem encAll_written {s : State} {syms : List Symbol} (hin : s.inputIs syms) (hne : syms ≠ [])
    (hcap : syms.length ≤ s.params.symCap) :
    ∃ (m : Memory Weight) (nd : Memory NodeRec) (c : Memory CodeEntry) (t : HTree) (v : State),
      v = { State.setTree (2 * t.leaves - 2) t.leaves (2 * t.leaves - 1) { s with freq := m, node := nd } with
        code := c, ctValid := true } ∧
      (∀ x : Symbol, m.get? x.toNat = some (BitVec.ofNat 64 (syms.count x))) ∧
      v.TreeIs t ∧ v.CodesAre t ∧ (t.paths.map Prod.fst).Perm syms.dedup ∧
      exec .encAll s = outcome (containerResults
        ((v.initWriter.appendAll (containerFields t (syms.map fun x => (v.codeAt x.toNat).bits))).andThen fun _ u =>
          .ok u.finalize.1 u.finalize.2)) := by
  obtain ⟨m, nd, t, km, u, hbuild, hu, hc, htree, hK, hperm⟩ := State.freqCount_treeBuild_written hin hne hcap
  have hd : (t.paths.map Prod.fst).Nodup := hperm.nodup_iff.mpr (List.nodup_dedup _)
  obtain ⟨kl, c, v, hgen, hv, hcodes⟩ := State.codeGen_distinct htree.holds hd
  have hnode : v.nodeAt = u.nodeAt := by rw [hv]; rfl
  have hroot : v.root = u.root := by rw [hv]
  have htree' : v.TreeIs t := by
    rw [hv]
    exact ⟨htree.holds, htree.leaves, htree.size, htree.once, htree.below⟩
  have hcheck : s.encAllCheck = none := by
    have hN : s.symbolCount = syms.length := hin.1
    have hpos := List.length_pos_of_ne_nil hne
    rw [State.encAllCheck, hN, if_neg (by omega), if_neg (by omega)]
  have hvalid : ∀ x ∈ syms, (v.codeAt x.toNat).valid = true := by
    intro x hx
    obtain ⟨p, hp, rfl⟩ := List.mem_map.mp (hperm.mem_iff.mpr (List.mem_dedup.mpr hx))
    rw [hcodes.present p hp]
    rfl
  have hbody := State.encodeBody_eq htree'.holds (by rw [hv, hu]; exact hin) hvalid
  refine ⟨m, nd, c, t, v, by rw [hv, hu], hc, htree', hcodes, hperm, ?_⟩
  calc exec .encAll s = encAllRest u := by
        show execEncAll s = _
        rw [execEncAll, hcheck, hbuild]
    _ = outcome (containerResults (v.encodeBody (visits v.nodeAt v.root.toNat [] t))) := by
        rw [encAllRest_of_walk (State.walk_of_holds htree.holds hK), hgen, Res.andThen_ok, hnode, hroot]
    _ = _ := by rw [hbody]

/-! ## One distinct symbol -/

theorem HTree.eq_leaf_of_symbols {t : HTree} {x : Symbol} (h : (t.paths.map Prod.fst).Perm [x]) : t = .leaf x := by
  cases t with
  | leaf y => simpa [paths] using h
  | node l r =>
    have hlen := h.length_eq
    rw [List.length_map, paths_length, leaves, List.length_singleton] at hlen
    have := l.leaves_pos
    have := r.leaves_pos
    omega

/-- Settles O42: the tree of one symbol is a leaf, whose code is empty, so the container is 17 + 32 bits and 7 bits of
padding. -/
theorem singleSymbolContainerIsSevenBytes : Obligations.SingleSymbolContainerIsSevenBytes := by
  intro s x n hp hin hn hcap
  have hne : List.replicate n x ≠ [] := by simpa using hn.ne'
  obtain ⟨m, nd, c, t, v, hv, -, -, hcodes, hperm, hexec⟩ := encAll_written hin hne (by simpa using hcap)
  rw [List.replicate_dedup hn.ne'] at hperm
  obtain rfl := HTree.eq_leaf_of_symbols hperm
  have hcode : v.codeAt x.toNat = CodeEntry.ofPath [] := hcodes.present (x, []) (by simp [HTree.paths])
  have hbits : (containerFields (.leaf x) ((List.replicate n x).map fun y => (v.codeAt y.toNat).bits)).flatten =
      true :: (bitsOf 16 x.toNat ++ bitsOf 32 n) := by
    rw [containerFields_flatten, List.map_replicate, hcode]
    simp [containerBits, HTree.pre, CodeEntry.ofPath]
  have hlen : (true :: (bitsOf 16 x.toNat ++ bitsOf 32 n)).length = 49 := by simp
  have hfit : 49 ≤ 8 * v.params.byteCap := by
    have hbytes : 7 ≤ s.params.byteCap := hp.2.1
    rw [hv]
    show 49 ≤ 8 * s.params.byteCap
    omega
  obtain ⟨bm, hend, hholds, -⟩ := State.initWriter_appendAll_finalize (s := v) (p := 7) (by rw [hv]; exact hp) hbits
    (by rw [hlen]; rfl) (by rwa [hlen])
  rw [hlen] at hend
  refine ⟨_, by rw [hexec, hend]; rfl, rfl, rfl, rfl, ?_, hholds⟩
  show v.nleaves = 1
  rw [hv]
  rfl

end Sys2Proof.Machine
end

/-! NOP and BW_INIT (40_control.md R410, 41_bitio.md R425): the one legal word of a command without operands, and the
completion of a command without results. -/
section

namespace Sys2Proof

/-- A row that uses neither W nor B admits one word, its pattern (30_encoding.md R304). -/
theorem OpcodeRow.Admits.eq_pattern {r : OpcodeRow} {x : Word} (h : r.Admits x) (hr : r ∈ opcodeTable)
    (hop : opField x = r.opcode) (hw : r.usesW = false) (hb : r.usesB = false) : x = r.pattern := by
  obtain ⟨hpattern, -⟩ := OpcodeRow.fields_of_mem r hr
  rw [hpattern, ← wordOfFields_fields x, h.reserved, h.bit hb, h.width hw, hop]

namespace Machine

/-- R403 for a command that succeeds and lists no results: RES0 and RES1 keep their values. -/
theorem outcome_ok_noResults (s : State) :
    outcome (.ok {} s) = .next { s with busy := false, done := true, ecode := none } := rfl

theorem exec_nop (s : State) : exec .nop s = outcome (.ok {} s) := rfl

theorem exec_bwInit (s : State) : exec .bwInit s = outcome (.ok {} s.initWriter) := rfl

/-- Settles O14: OP = 0 is NOP's row alone, which admits only its pattern 0, and both commands complete without
results. -/
theorem nopAndBwInitEffects : Obligations.NopAndBwInitEffects := by
  have nopRow : ∀ r ∈ opcodeTable, r.opcode = 0 → r.pattern = 0 ∧ r.usesW = false ∧ r.usesB = false := by decide
  refine ⟨Laws.RoundTrip.nop rfl, Laws.RoundTrip.bwInit rfl, fun x hop hne => ?_, fun s => ⟨?_, ?_⟩⟩
  · refine (decode_error_iff x).mpr fun r hr hrow hadm => hne ?_
    obtain ⟨hpattern, hw, hb⟩ := nopRow r hr (hrow.symm.trans hop)
    exact (hadm.eq_pattern hr hrow hw hb).trans hpattern
  · rw [exec_nop, outcome_ok_noResults]
  · rw [exec_bwInit, outcome_ok_noResults]
    rfl

end Machine

end Sys2Proof
end

/-! The bit writer's and the bit reader's commands (41_bitio.md R426 to R433): each is one append or one read and its
completion, so the laws of AppendBits, Finalize and ReadBits say all it does. -/
section

namespace Sys2Proof

theorem legalWidth_iff (w : BitVec 6) : legalWidth w = true ↔ w.toNat ≤ 32 := decide_eq_true_iff

namespace Machine

/-- R403, R711 for a command that raises: only the completion's own flags change. -/
theorem outcome_raise (e : Err) (s : State) :
    outcome (.raise e s) = .next { s with busy := false, done := true, ecode := some e } := rfl

/-- R427, R433: with W > 32 a command that uses W is an illegal word's step (30_encoding.md R304). -/
theorem exec_illegalWidth {w : BitVec 6} (hw : 32 < w.toNat) (s : State) {i : Instr}
    (hi : i = .bwPutN w ∨ i = .brGetN w) :
    exec i s = .next { s with busy := false, done := true, ecode := some .illegalCommand } := by
  have illegal : ¬ legalWidth w = true := fun h => Nat.not_le.mpr hw ((legalWidth_iff w).mp h)
  rcases hi with rfl | rfl <;> exact if_neg illegal

/-! ## The writer -/

/-- R426, R427: a put command appends the string bs. -/
def IsPut (i : Instr) (s : State) (bs : Bits) : Prop :=
  (∃ b, i = .bwPut1 b ∧ bs = [b]) ∨
    ∃ w : BitVec 6, w.toNat ≤ 32 ∧ i = .bwPutN w ∧ bs = bitsOf w.toNat s.arg0.toNat

/-- A put command is AppendBits and a completion without results. -/
theorem exec_of_isPut {i : Instr} {s : State} {bs : Bits} (h : IsPut i s bs) :
    exec i s = outcome ((s.appendBits bs).andThen fun _ s1 => .ok {} s1) := by
  obtain ⟨b, rfl, rfl⟩ | ⟨w, hw, rfl, rfl⟩ := h
  · rfl
  · exact if_pos ((legalWidth_iff w).mpr hw)

/-- Settles O15: AppendBits whole where the bits fit (`appendBits_ok`), nothing where they do not
(`appendBits_raise`). -/
theorem putsAppendTheirBits : Obligations.PutsAppendTheirBits := by
  refine ⟨fun b => Laws.RoundTrip.bwPut1 b rfl, fun w hw => Laws.RoundTrip.bwPutN w ((legalWidth_iff w).mpr hw),
    fun s w hw => exec_illegalWidth hw s (.inl rfl), fun s i bs hp hok hput => ?_⟩
  rw [exec_of_isPut hput]
  constructor
  · intro hfit
    obtain ⟨t, ht, only, hext, htok, hout, -⟩ := State.appendBits_ok hp hok hfit
    obtain ⟨n, tl, m, rfl⟩ : ∃ n tl m, t = { s with bwNbits := n, bwTail := tl, bytemem := m } := ⟨_, _, _, only⟩
    exact ⟨n, tl, m, by rw [ht, Res.andThen_ok, outcome_ok_noResults], hext, htok, hout⟩
  · intro hover
    rw [State.appendBits_raise hover, Res.andThen_raise, outcome_raise]

/-- BW_FINAL is Finalize and a completion with the byte and the padding count. -/
theorem exec_bwFinal (s : State) :
    exec .bwFinal s =
      outcome (.ok { res0 := some (word s.finalize.1.1), res1 := some (word s.finalize.1.2) } s.finalize.2) := rfl

/-- Settles O16: `finalize_spec` is R421, and the completion writes its two counts to RES0 and RES1. -/
theorem bwFinalPadsAndFlushes : Obligations.BwFinalPadsAndFlushes := by
  refine ⟨Laws.RoundTrip.bwFinal rfl, fun s hok => ?_⟩
  obtain ⟨m, hfin, hold, hzeros, hsame, hout, -⟩ := State.finalize_spec hok
  exact ⟨m, by rw [exec_bwFinal, hfin]; rfl, hold, hzeros, hsame, hout⟩

/-! ## The reader -/

/-- Settles O17: BR_INIT's one check decides between the error and the new slice. -/
theorem brInitSetsSlice : Obligations.BrInitSetsSlice := by
  refine ⟨Laws.RoundTrip.brInit rfl, fun s => ⟨fun hle => ?_, fun hgt => ?_⟩⟩
  · exact congrArg outcome (if_neg (Nat.not_lt.mpr hle))
  · exact congrArg outcome (if_pos hgt)

/-- R423, R424: ReadBits(1) is ReadBit(). -/
theorem State.readBits_one (s : State) : s.readBits 1 = s.readBit.andThen fun b s1 => .ok b.toNat s1 := by
  by_cases h : s.brLimit.toNat ≤ s.brPos.toNat
  · rw [readBits_raise (Nat.lt_succ_of_le h), readBit_raise h, Res.andThen_raise]
  · rw [readBits, if_neg (by omega)]
    simp only [readBitsFrom, Nat.mul_zero, Nat.zero_add]

/-- R432, R433: a get command reads n bits. -/
def IsGet (i : Instr) (n : Nat) : Prop :=
  (i = .brGet1 ∧ n = 1) ∨ ∃ w : BitVec 6, w.toNat ≤ 32 ∧ i = .brGetN w ∧ n = w.toNat

/-- A get command is ReadBits and a completion with the value in RES0. -/
theorem exec_of_isGet {i : Instr} {n : Nat} (h : IsGet i n) (s : State) :
    exec i s = outcome ((s.readBits n).andThen fun v s1 => .ok { res0 := some (word v) } s1) := by
  obtain ⟨rfl, rfl⟩ | ⟨w, hw, rfl, rfl⟩ := h
  · rw [State.readBits_one, Res.andThen_assoc]
    rfl
  · exact if_pos ((legalWidth_iff w).mpr hw)

/-- Settles O18: ReadBits gives the bits' value inside the slice (`readBits_ok`) and raises past its end
(`readBits_raise`). -/
theorem readsReturnTheBits : Obligations.ReadsReturnTheBits := by
  refine ⟨Laws.RoundTrip.brGet1 rfl, fun w hw => Laws.RoundTrip.brGetN w ((legalWidth_iff w).mpr hw),
    fun s w hw => exec_illegalWidth hw s (.inr rfl), fun s i n hget => ⟨?_, fun hpast => ?_⟩⟩
  · rintro bs rfl hfit hholds
    rw [exec_of_isGet hget, State.readBits_ok hfit hholds, Res.andThen_ok]
    rfl
  · rw [exec_of_isGet hget, State.readBits_raise hpast, Res.andThen_raise, outcome_raise]

end Machine

end Sys2Proof
end

/-! The frequency counter (42_freq.md R460 to R462): clearing, counting, and the counts' sum over the whole alphabet. -/
section

namespace Sys2Proof.Machine

namespace State

/-- The sum over all of FREQ is the sum of its non-zero entries (43_tree.md R481). -/
theorem freqTotal_eq_totalWeight (s : State) : s.freqTotal = totalWeight s.freqLeaves := by
  have hpresent : s.presentSymbols = (List.range alphabetSize).filter ((· != 0) ∘ fun i => (s.freqAt i).toNat) := by
    refine List.filter_congr fun i _ => ?_
    rw [Function.comp_apply, Bool.eq_iff_iff, decide_eq_true_iff, bne_iff_ne]
    exact not_congr BitVec.toNat_inj.symm
  rw [freqTotal, ← List.sum_filter_bne_zero, List.filter_map, ← hpresent, totalWeight, freqLeaves, List.map_map]
  rfl

/-- FreqCountBody() past its check: K and N, after the clear, the counting loop and the scan. -/
theorem freqCount_of_le {s : State} (h : s.nsym.toNat ≤ s.params.symCap) :
    s.freqCount = .ok ((s.clearFreq.countSymbols s.symbolCount 0).nonzeroFreq.1.length, s.symbolCount)
      (s.clearFreq.countSymbols s.symbolCount 0).nonzeroFreq.2 :=
  if_neg (Nat.not_lt.mpr h)

/-- All that FreqCountBody() can do past its check: FREQ changes, and draws are made. -/
theorem freqCount_spec {s : State} (h : s.nsym.toNat ≤ s.params.symCap) :
    ∃ k m d, s.freqCount = .ok (k, s.symbolCount) { s with freq := m, draws := d } := by
  obtain ⟨m, d1, hcount, -, hwf⟩ := countSymbols_spec s.symbolCount 0 s.clearFreq
  obtain ⟨l, d, hscan, -⟩ := nonzeroFreq_spec (s := { s.clearFreq with freq := m, draws := d1 })
    (hwf (Memory.wf_fill _ _))
  exact ⟨l.length, m, d, by rw [freqCount_of_le h, hcount, hscan]; rfl⟩

/-- FreqCountBody() on written input: K is the number of distinct symbols, and FREQ holds the counts. -/
theorem freqCount_written {s : State} {syms : List Symbol} (hin : s.inputIs syms)
    (hcap : syms.length ≤ s.params.symCap) :
    ∃ m, s.freqCount = .ok (syms.dedup.length, s.symbolCount) { s with freq := m } ∧
      (∀ x : Symbol, m.get? x.toNat = some (BitVec.ofNat 64 (syms.count x))) ∧
      freqTotal { s with freq := m } = syms.length := by
  have hlen : syms.length < 2 ^ 64 := hin.1 ▸ s.nsym.isLt.trans (by decide)
  obtain ⟨m, hm, hwf, hc⟩ := countSymbols_written hin
  have hscan : nonzeroFreq { s with freq := m } = (freqLeaves { s with freq := m }, { s with freq := m }) :=
    nonzeroFreq_written hwf (freqWritten_of_counts hc)
  have hK : (freqLeaves { s with freq := m }).length = syms.dedup.length := by
    simpa using (freqLeaves_symbols hlen hc).length_eq
  refine ⟨m, ?_, hc, (freqTotal_eq_totalWeight _).trans (totalWeight_freqLeaves hlen hc)⟩
  rw [freqCount_of_le (hin.1 ▸ hcap), hm, hscan, hK]

end State

theorem exec_freqClr (s : State) : exec .freqClr s = outcome (.ok {} s.clearFreq) := rfl

/-- Settles O20: clearing fills FREQ with 0, and the command completes without results. -/
theorem freqClrZeroesEveryEntry : Obligations.FreqClrZeroesEveryEntry := by
  refine ⟨Laws.RoundTrip.freqClr rfl, fun s => ⟨Memory.fill 0, ?_, fun i _ => Memory.get?_fill 0 i⟩⟩
  rw [exec_freqClr, outcome_ok_noResults]
  rfl

/-- FREQ_COUNT is FreqCountBody() and a completion with K and N. -/
theorem exec_freqCount (s : State) :
    exec .freqCount s = outcome (s.freqCount.andThen fun kn s1 =>
      .ok { res0 := some (word kn.1), res1 := some (word kn.2) } s1) := rfl

/-- R461: where the body ends with K, the command ends with RES0 = K and RES1 = NSYM. -/
theorem exec_freqCount_of_ok {s t : State} {k : Nat} (h : s.freqCount = .ok (k, s.symbolCount) t) :
    exec .freqCount s =
      .next { t with res0 := word k, res1 := s.nsym, busy := false, done := true, ecode := none } := by
  have hN : word s.symbolCount = s.nsym := by rw [word, State.symbolCount, BitVec.ofNat_toNat, BitVec.setWidth_eq]
  rw [exec_freqCount, h, Res.andThen_ok, hN]
  rfl

/-- Settles O21: `freqCount_written` on written input, BAD_ARGUMENT by the body's one check, `freqCount_spec` on any
input. -/
theorem freqCountCountsSymbols : Obligations.FreqCountCountsSymbols := by
  refine ⟨Laws.RoundTrip.freqCount rfl, fun s => ⟨fun syms hin hcap => ?_, fun hgt => ?_, fun hle => ?_⟩⟩
  · obtain ⟨m, hrun, hcounts, htotal⟩ := State.freqCount_written hin hcap
    exact ⟨m, exec_freqCount_of_ok hrun, hcounts, htotal⟩
  · have hraise : s.freqCount = .raise .badArgument s := if_pos hgt
    rw [exec_freqCount, hraise, Res.andThen_raise, outcome_raise]
  · obtain ⟨k, m, d, hrun⟩ := State.freqCount_spec hle
    exact ⟨m, word k, d, exec_freqCount_of_ok hrun⟩

end Sys2Proof.Machine
end

/-! The tree builder (43_tree.md R481, R482): the present symbols are its leaves, and the merge loop does the rest. -/
section

namespace Sys2Proof.Machine

namespace State

/-- TreeBuildBody() where neither of its checks raises: K, 2K - 1, and the built tree. -/
theorem treeBuild_ok {s : State} (hw : Memory.wf alphabetSize s.freq) (hf : s.freqWritten) (hne : s.freqLeaves ≠ [])
    (ht : totalWeight s.freqLeaves ≤ maxTotalWeight) :
    s.treeBuild = .ok (s.freqLeaves.length, 2 * s.freqLeaves.length - 1) (s.buildTree s.freqLeaves) := by
  have hscan : s.nonzeroFreq = (s.freqLeaves, s) := nonzeroFreq_written hw hf
  simp only [treeBuild, hscan, List.length_eq_zero_iff, if_neg hne, if_neg (Nat.not_lt.mpr ht)]

end State

/-- TREE_BUILD is TreeBuildBody() and a completion with K and 2K - 1. -/
theorem exec_treeBuild (s : State) :
    exec .treeBuild s = outcome (s.treeBuild.andThen fun km s1 =>
      .ok { res0 := some (word km.1), res1 := some (word km.2) } s1) := rfl

/-- R481: where the body ends with K and 2K - 1, the command ends with them in RES0 and RES1. -/
theorem exec_treeBuild_of_ok {s t : State} {k n : Nat} (h : s.treeBuild = .ok (k, n) t) :
    exec .treeBuild s =
      .next { t with res0 := word k, res1 := word n, busy := false, done := true, ecode := none } := by
  rw [exec_treeBuild, h, Res.andThen_ok]
  rfl

/-- Settles O22: both checks pass (`treeBuild_ok`), and `buildTree_spec` on the present symbols with their counts is
R481 to R484. -/
theorem treeBuildMergesSmallest : Obligations.TreeBuildMergesSmallest := by
  intro s hwritten hwf hpresent htotal k
  have hlen : s.freqLeaves.length = k := List.length_map _
  have hne : s.freqLeaves ≠ [] := List.map_eq_nil_iff.not.mpr hpresent
  have hweight : totalWeight s.freqLeaves ≤ maxTotalWeight := s.freqTotal_eq_totalWeight ▸ htotal
  obtain ⟨nd, _, hbuild, hleaves, hmerges, habove, hroot, -⟩ :=
    buildTree_spec s hne s.freqLeaves_length_le hweight
  rw [hlen] at hbuild hmerges habove hroot
  refine ⟨nd, ?_, fun j x hj => ?_, hmerges, habove, hroot.trans s.freqTotal_eq_totalWeight.symm⟩
  · rw [exec_treeBuild_of_ok (State.treeBuild_ok hwf hwritten hne hweight), hbuild, hlen]
  · have hleaf : s.freqLeaves[j]? = some (x, s.freqAt x) := by rw [State.freqLeaves, List.getElem?_map, hj]; rfl
    exact hleaves j (x, s.freqAt x) hleaf

end Sys2Proof.Machine
end

/-! The paths of a tree's leaves (44_codetable.md R520, R522, R525): no path is a prefix of another, the weights 2^-length
add up to 1, and a path walked in an arena that holds the tree ends at its leaf. -/
section

namespace Sys2Proof.Machine

namespace HTree

/-- A path of an inner node's tree is a bit, 0 = left and 1 = right, and a path of that child. -/
theorem mem_paths_node {l r : HTree} {x : Symbol} {p : Bits} :
    (x, p) ∈ (node l r).paths ↔ ∃ b q, p = b :: q ∧ (x, q) ∈ (bif b then r else l).paths := by
  simp only [paths, List.mem_append, List.mem_map, Prod.mk.injEq, Prod.exists]
  constructor
  · rintro (⟨_, q, hq, rfl, rfl⟩ | ⟨_, q, hq, rfl, rfl⟩)
    · exact ⟨false, q, rfl, hq⟩
    · exact ⟨true, q, rfl, hq⟩
  · rintro ⟨b, q, rfl, hq⟩
    cases b with
    | false => exact .inl ⟨x, q, hq, rfl, rfl⟩
    | true => exact .inr ⟨x, q, hq, rfl, rfl⟩

theorem path_prefix_eq (t : HTree) : ∀ {x y : Symbol} {p q : Bits}, (x, p) ∈ t.paths → (y, q) ∈ t.paths → p <+: q →
    x = y := by
  induction t with
  | leaf sym =>
    intro x y p q hp hq _
    simp only [paths, List.mem_singleton, Prod.mk.injEq] at hp hq
    exact hp.1.trans hq.1.symm
  | node l r ihl ihr =>
    intro x y p q hp hq hpre
    obtain ⟨b, p', rfl, hp'⟩ := mem_paths_node.mp hp
    obtain ⟨_, q', rfl, hq'⟩ := mem_paths_node.mp hq
    obtain ⟨rfl, hpre'⟩ := List.cons_prefix_cons.mp hpre
    cases b with
    | false => exact ihl hp' hq' hpre'
    | true => exact ihr hp' hq' hpre'

theorem path_ne_nil {t : HTree} {x : Symbol} {p : Bits} (h2 : 2 ≤ t.leaves) (hp : (x, p) ∈ t.paths) : p ≠ [] := by
  cases t with
  | leaf _ => exact absurd h2 (by decide : ¬ 2 ≤ 1)
  | node l r =>
    obtain ⟨b, q, rfl, -⟩ := mem_paths_node.mp hp
    exact List.cons_ne_nil b q

theorem path_length_lt_leaves (t : HTree) : ∀ {x : Symbol} {p : Bits}, (x, p) ∈ t.paths → p.length < t.leaves := by
  induction t with
  | leaf sym =>
    intro x p hp
    simp only [paths, List.mem_singleton, Prod.mk.injEq] at hp
    simp [hp.2, leaves]
  | node l r ihl ihr =>
    intro x p hp
    obtain ⟨b, q, rfl, hq⟩ := mem_paths_node.mp hp
    have hl := l.leaves_pos
    have hr := r.leaves_pos
    rw [List.length_cons, leaves]
    cases b with
    | false => have := ihl hq; omega
    | true => have := ihr hq; omega

/-- R522: each child's paths are one bit longer below the node, so the two sums of 1 become halves. -/
theorem sum_paths_half_pow (t : HTree) : (t.paths.map fun c => (1 / 2 : ℚ) ^ c.2.length).sum = 1 := by
  induction t with
  | leaf _ => simp [paths]
  | node l r ihl ihr =>
    simp only [paths, List.map_append, List.map_map, List.sum_append, Function.comp_def, List.length_cons, pow_succ,
      List.sum_map_mul_right, ihl, ihr]
    norm_num

end HTree

/-! ## Walking by a path -/

/-- One step of the walk: the right child's index on a 1, the left child's on a 0 (44_codetable.md R525). -/
def childIndex (node : Nat → NodeRec) (n : Nat) (b : Bool) : Nat :=
  (if b then (node n).right else (node n).left).toNat

/-- A step from an inner node of a tree arrives at the child. -/
theorem holds_childIndex {node : Nat → NodeRec} {n : Nat} {l r : HTree} (h : Holds node n (.node l r)) (b : Bool) :
    Holds node (childIndex node n b) (bif b then r else l) := by
  obtain ⟨-, hl, hr⟩ := h
  cases b with
  | false => exact hl
  | true => exact hr

theorem walk_path_leaf {node : Nat → NodeRec} (p : Bits) : ∀ {t : HTree} {n : Nat} {x : Symbol}, Holds node n t →
    (x, p) ∈ t.paths →
    (node (p.foldl (childIndex node) n)).leaf = true ∧ (node (p.foldl (childIndex node) n)).sym = x := by
  induction p with
  | nil =>
    rintro (sym | ⟨l, r⟩) n x h hp
    · simp only [HTree.paths, List.mem_singleton, Prod.mk.injEq] at hp
      exact hp.1 ▸ h
    · obtain ⟨b, q, hq, -⟩ := HTree.mem_paths_node.mp hp
      cases hq
  | cons b p ih =>
    rintro (sym | ⟨l, r⟩) n x h hp
    · simp [HTree.paths] at hp
    · obtain ⟨_, _, ⟨⟩, hp⟩ := HTree.mem_paths_node.mp hp
      exact ih (holds_childIndex h b) hp

theorem walk_path_take_inner {node : Nat → NodeRec} (p : Bits) : ∀ {t : HTree} {n j : Nat} {x : Symbol},
    Holds node n t → (x, p) ∈ t.paths → j < p.length →
    (node ((p.take j).foldl (childIndex node) n)).leaf = false := by
  induction p with
  | nil => exact fun _ _ hj => absurd hj (Nat.not_lt_zero _)
  | cons b p ih =>
    rintro (sym | ⟨l, r⟩) n j x h hp hj
    · simp [HTree.paths] at hp
    · obtain ⟨_, _, ⟨⟩, hp⟩ := HTree.mem_paths_node.mp hp
      cases j with
      | zero => exact h.1
      | succ j => exact ih (holds_childIndex h b) hp (Nat.lt_of_succ_lt_succ hj)

/-! ## The table of a tree -/

/-- A sum over a range is the sum over the places where the summand may not vanish. -/
theorem sum_map_range_eq {n : Nat} {f : Nat → ℚ} {ks : List Nat} (hn : ks.Nodup) (hlt : ∀ k ∈ ks, k < n)
    (hzero : ∀ k < n, k ∉ ks → f k = 0) : ((List.range n).map f).sum = (ks.map f).sum := by
  rw [← List.sum_toFinset f List.nodup_range, ← List.sum_toFinset f hn]
  refine (Finset.sum_subset (fun k hk => ?_) fun k hk hks => ?_).symm
  · simpa using hlt k (List.mem_toFinset.mp hk)
  · exact hzero k (by simpa using hk) (by simpa using hks)

namespace State

/-- A valid table is the current tree's (10_state.md R108). -/
theorem TreeOk.table {s : State} (h : s.TreeOk) (hct : s.ctValid = true) :
    ∃ t : HTree, t.leaves ≤ alphabetSize ∧ s.TreeIs t ∧ s.CodesAre t := by
  cases hv : s.treeValid with
  | false =>
    obtain ⟨-, -, -, hnot⟩ := h.noTree hv
    rw [hct] at hnot
    cases hnot
  | true =>
    obtain ⟨t, hk, htree, hcodes⟩ := h.tree hv
    exact ⟨t, hk, htree, hcodes hct⟩

/-- The valid codes of a tree's table are its leaves' paths (44_codetable.md R521). -/
theorem CodesAre.path_of_valid {s : State} {t : HTree} (h : s.CodesAre t) {x : Symbol}
    (hv : (s.codeAt x.toNat).valid = true) : ∃ p, (x, p) ∈ t.paths ∧ s.codeAt x.toNat = CodeEntry.ofPath p := by
  by_cases hx : x ∈ t.paths.map Prod.fst
  · obtain ⟨⟨_, p⟩, hp, rfl⟩ := List.mem_map.mp hx
    exact ⟨p, hp, h.present _ hp⟩
  · rw [h.missing x hx] at hv
    cases hv

/-- The entries of a tree's table that are valid weigh as much as the tree's paths (44_codetable.md R522). -/
theorem CodesAre.sum_half_pow {s : State} {t : HTree} (h : s.CodesAre t) :
    ((List.range alphabetSize).map fun x =>
      if (s.codeAt x).valid then (1 / 2 : ℚ) ^ (s.codeAt x).bits.length else 0).sum = 1 := by
  have hnodup : (t.paths.map fun c => c.1.toNat).Nodup := by
    simpa [Function.comp_def] using h.distinct.map fun _ _ => BitVec.eq_of_toNat_eq
  refine (sum_map_range_eq hnodup ?_ ?_).trans (.trans ?_ t.sum_paths_half_pow)
  · rintro _ hk
    obtain ⟨c, -, rfl⟩ := List.mem_map.mp hk
    exact c.1.isLt
  · intro k hk hks
    have hmissing := h.missing (BitVec.ofNat 16 k) fun hmem => hks <| by
      obtain ⟨c, hc, hck⟩ := List.mem_map.mp hmem
      exact List.mem_map.mpr ⟨c, hc, by rw [hck, symbol_toNat hk]⟩
    rw [symbol_toNat hk] at hmissing
    simp [hmissing, CodeEntry.absent]
  · rw [List.map_map]
    refine congrArg List.sum (List.map_congr_left fun c hc => ?_)
    simp only [Function.comp_apply, h.present c hc, CodeEntry.ofPath, if_true]

end State

end Sys2Proof.Machine
end

/-! The code table generator (44_codetable.md R520 to R526): the one command that makes a table, and what every table it
leaves is. -/
section

namespace Sys2Proof.Machine

theorem leavesOf_visits {node : Nat → NodeRec} {n : Nat} {t : HTree} (h : Holds node n t) :
    leavesOf (visits node n [] t) = t.paths := by
  simpa [leavesOf] using visits_leaves t [] h

namespace State

section
variable {s : State} {t : HTree} (h : Holds s.nodeAt s.root.toNat t)
include h

/-- CodeGenBody() on a tree of distinct symbols ends with NLEAVES and the tree's depth (44_codetable.md R521). -/
theorem codeGen_ok (hd : (t.paths.map Prod.fst).Nodup) :
    ∃ c, s.codeGen (visits s.nodeAt s.root.toNat [] t) =
        .ok (s.nleaves.toNat, t.depth) { s with code := c, ctValid := true } ∧
      CodesAre { s with code := c } t := by
  have hleaves := leavesOf_visits h
  obtain ⟨c, hloop, hpresent, hmissing⟩ := visitNodes_distinct (visits s.nodeAt s.root.toNat [] t) 0
    (s.setCtValid false).clearCode (by rwa [hleaves]) fun _ _ => rfl
  rw [hleaves] at hloop hpresent hmissing
  rw [HTree.depth_eq_max, Nat.zero_max] at hloop
  exact ⟨c, by rw [codeGen, hloop]; rfl, hd, hpresent, hmissing⟩

/-- CodeGenBody() on a tree with a symbol on two leaves (44_codetable.md R521, R524). -/
theorem codeGen_repeated (hd : ¬ (t.paths.map Prod.fst).Nodup) :
    ∃ c, s.codeGen (visits s.nodeAt s.root.toNat [] t) =
      .raise .internalInvariant { s with code := c, ctValid := false } := by
  obtain ⟨c, hloop⟩ := visitNodes_repeated (visits s.nodeAt s.root.toNat [] t) 0 (s.setCtValid false).clearCode
    fun hall => hd (leavesOf_visits h ▸ hall.1)
  exact ⟨c, by rw [codeGen, hloop, Res.andThen_raise]; rfl⟩

end

end State

theorem exec_codeGen_noTree {s : State} (hv : s.treeValid = false) : exec .codeGen s = outcome (.raise .noTree s) :=
  if_pos hv

/-- CODE_GEN on a tree is CodeGenBody() on the tree's nodes and a completion with its two results. -/
theorem exec_codeGen_of_holds {s : State} {t : HTree} (hv : s.treeValid = true) (h : Holds s.nodeAt s.root.toNat t)
    (hk : t.leaves ≤ alphabetSize) :
    exec .codeGen s = outcome ((s.codeGen (visits s.nodeAt s.root.toNat [] t)).andThen fun km s1 =>
      .ok { res0 := some (word km.1), res1 := some (word km.2) } s1) := by
  show execCodeGen s = _
  rw [execCodeGen, if_neg (by simp [hv]), State.walk_of_holds h hk]

/-- Settles O26: CodeGenBody() records the leaves' paths (`codeGen_ok`), and the completion writes K and the depth. -/
theorem codeGenRecordsPaths : Obligations.CodeGenRecordsPaths := by
  intro s tr hv htree hk hd
  obtain ⟨c, hgen, hcodes⟩ := State.codeGen_ok htree.holds hd
  refine ⟨c, ?_, hcodes⟩
  rw [exec_codeGen_of_holds hv htree.holds hk, hgen, htree.leaves, Res.andThen_ok]
  rfl

/-- A CODE_GEN that succeeds leaves the code table of the current tree: without a tree, and on a repeated symbol, it
raises. -/
theorem codesAre_of_codeGen {s t : State} (hs : s.TreeOk) (hexec : exec .codeGen s = .next t) (hok : t.ecode = none) :
    ∃ tr : HTree, t.nleaves.toNat = tr.leaves ∧ t.CodesAre tr := by
  cases hv : s.treeValid with
  | false =>
    rw [exec_codeGen_noTree hv, outcome_raise] at hexec
    cases hexec
    cases hok
  | true =>
    obtain ⟨tr, hk, htree, -⟩ := hs.tree hv
    refine ⟨tr, ?_⟩
    by_cases hd : (tr.paths.map Prod.fst).Nodup
    · obtain ⟨c, hend, hcodes⟩ := codeGenRecordsPaths s tr hv htree hk hd
      rw [hend] at hexec
      cases hexec
      exact ⟨htree.leaves, hcodes.distinct, hcodes.present, hcodes.missing⟩
    · obtain ⟨c, hraise⟩ := State.codeGen_repeated htree.holds hd
      rw [exec_codeGen_of_holds hv htree.holds hk, hraise, Res.andThen_raise, outcome_raise] at hexec
      cases hexec
      cases hok

/-- Settles O28: the valid codes are the paths of one tree, of which all three clauses hold. -/
theorem codeTableIsPrefixFree : Obligations.CodeTableIsPrefixFree := by
  intro s t hinv hexec hok
  obtain ⟨tr, hleaves, hcodes⟩ := codesAre_of_codeGen hinv.tree hexec hok
  refine ⟨fun x y hne hx hy hpre => ?_, fun h2 x hx => ?_, hcodes.sum_half_pow⟩
  · obtain ⟨p, hp, hxp⟩ := hcodes.path_of_valid hx
    obtain ⟨q, hq, hyq⟩ := hcodes.path_of_valid hy
    rw [hxp, hyq] at hpre
    exact hne (tr.path_prefix_eq hp hq hpre)
  · obtain ⟨p, hp, hxp⟩ := hcodes.path_of_valid hx
    rw [hxp]
    exact List.length_pos_of_ne_nil (HTree.path_ne_nil (hleaves ▸ h2) hp)

/-- Settles O29: the invariant says that CODE is the table of the tree in NODE, and a path of that tree is shorter than
its at most 65536 leaves and leads to its leaf. -/
theorem codesLeadToTheirLeaves : Obligations.CodesLeadToTheirLeaves := by
  intro s x hinv hct hx c edge
  obtain ⟨t, hk, htree, hcodes⟩ := hinv.tree.table hct
  obtain ⟨p, hp, hxp⟩ := hcodes.path_of_valid hx
  have hlen : p.length < 65536 := (t.path_length_lt_leaves hp).trans_le hk
  have hc : c = CodeEntry.ofPath p := hxp
  obtain ⟨hleaf, hsym⟩ := walk_path_leaf p htree.holds hp
  rw [hc]
  refine ⟨?_, Nat.le_of_lt_succ hlen, hleaf, hsym, fun j hj => walk_path_take_inner p htree.holds hp hj⟩
  exact (BitVec.toNat_ofNat _ _).trans (Nat.mod_eq_of_lt hlen) |>.symm

end Sys2Proof.Machine
end

/-! The tree serializer and deserializer (45_serdes.md R550 to R556): Emit's fields are Pre(ROOT), Parse on Pre(t) builds
t again, and each place where Parse can stop. -/
section

namespace Sys2Proof.Machine

/-! ## The serializer -/

theorem exec_treeSer_noTree {s : State} (hv : s.treeValid = false) : exec .treeSer s = outcome (.raise .noTree s) :=
  if_pos hv

/-- TREE_SER on a tree appends the tree's fields and completes with the count of the bits appended. -/
theorem exec_treeSer_of_treeIs {s : State} {t : HTree} (hv : s.treeValid = true) (h : s.TreeIs t)
    (hk : t.leaves ≤ alphabetSize) :
    exec .treeSer s = outcome ((s.appendAll t.fields).andThen fun _ s1 =>
      .ok { res0 := some (word (s1.bwNbits.toNat - s.bwNbits.toNat)) } s1) := by
  show execTreeSer s = _
  rw [execTreeSer, if_neg (by simp [hv]), State.walk_of_holds h.holds hk]
  simp only [emit_holds h.holds]

/-- R551, R552: where the fields are appended they are Pre(ROOT), and RES0 counts its bits. -/
theorem exec_treeSer_of_appends {s u : State} {t : HTree} (hv : s.treeValid = true) (h : s.TreeIs t)
    (hk : t.leaves ≤ alphabetSize) (hu : s.appendAll t.fields = .ok () u) (ha : s.Appends u t.pre) :
    exec .treeSer s =
      .next { u with res0 := word t.pre.length, busy := false, done := true, ecode := none } := by
  rw [exec_treeSer_of_treeIs hv h hk, hu, Res.andThen_ok, ha.nbits, Nat.add_sub_cancel_left]
  rfl

/-- Settles O30: all of the tree's fields fit, and one after another they are Pre(ROOT). -/
theorem treeSerAppendsPreorder : Obligations.TreeSerAppendsPreorder := by
  intro s tr hp hw hv htree hk hfit
  rw [← tr.pre_length, ← tr.fields_flatten] at hfit
  obtain ⟨u, hu, ha⟩ := State.appendAll_ok hp hw hfit
  rw [tr.fields_flatten] at ha
  have hexec := exec_treeSer_of_appends hv htree hk hu ha
  obtain ⟨only, hext, -, hout, -⟩ := ha
  obtain ⟨n, tl, m, rfl⟩ : ∃ n tl m, u = { s with bwNbits := n, bwTail := tl, bytemem := m } := ⟨_, _, _, only⟩
  exact ⟨tr.pre_length, n, tl, m, by rw [hexec, tr.pre_length], hext, hout⟩

/-- A TREE_SER that succeeds has appended Pre(ROOT): without a tree, and where a field does not fit, it raises. -/
theorem treeSer_success {s t : State} {tr : HTree} (hinv : s.Inv) (htree : s.TreeIs tr)
    (hk : tr.leaves ≤ alphabetSize) (hexec : exec .treeSer s = .next t) (hok : t.ecode = none) :
    t.WriterOk ∧ s.extendsBy t tr.pre ∧ t.params = s.params ∧ t.res0 = word tr.pre.length := by
  cases hv : s.treeValid with
  | false =>
    rw [exec_treeSer_noTree hv, outcome_raise] at hexec
    cases hexec
    cases hok
  | true =>
    rcases State.appendAll_cases hinv.params hinv.writer (fields := tr.fields) with ⟨u, hu, ha, -⟩ | ⟨u, bs, hu, -, -⟩
    · rw [tr.fields_flatten] at ha
      rw [exec_treeSer_of_appends hv htree hk hu ha] at hexec
      cases hexec
      exact ⟨⟨ha.ok.fits, ha.ok.tail⟩, ha.extends_, ha.params, rfl⟩
    · rw [exec_treeSer_of_treeIs hv htree hk, hu, Res.andThen_raise, outcome_raise] at hexec
      cases hexec
      cases hok

/-- The current tree of a state that meets the invariant has at most 65536 leaves, TREE_VALID or not: NLEAVES counts
them. -/
theorem State.Inv.leaves_le {s : State} {tr : HTree} (hinv : s.Inv) (htree : s.TreeIs tr) :
    tr.leaves ≤ alphabetSize := by
  rw [← htree.leaves]
  cases hv : s.treeValid with
  | false =>
    obtain ⟨hzero, -⟩ := hinv.tree.noTree hv
    simp [hzero]
  | true =>
    obtain ⟨t, hk, ht, -⟩ := hinv.tree.tree hv
    rwa [ht.leaves]

/-! ## Registers and numbers -/

theorem word_toNat_self (w : Word) : word w.toNat = w := by
  rw [word, BitVec.ofNat_toNat, BitVec.setWidth_eq]

/-- R421, R428: the padded stream is whole bytes, so eight times their count, as the registers hold it, is its length. -/
theorem toNat_word_bytes {n : Nat} (h : n ≤ 8 * 536870911) :
    (word (8 * (word ((n + padTo8 n) / 8)).toNat)).toNat = n + padTo8 n := by
  have hwhole : 8 * ((n + padTo8 n) / 8) = n + padTo8 n := by
    unfold padTo8
    omega
  have hlt : n + padTo8 n < 2 ^ 32 := by
    unfold padTo8
    omega
  rw [word_toNat (n := (n + padTo8 n) / 8) (by omega), hwhole, word_toNat hlt]

/-! ## The deserializer on a slice that holds Pre(t) -/

/-- TREE_DESER is TreeDeserBody() and a completion with the bits consumed and K. -/
theorem exec_treeDeser (s : State) :
    exec .treeDeser s = outcome (s.treeDeser.andThen fun tk s1 =>
      .ok { res0 := some (word tk.1), res1 := some (word tk.2) } s1) := rfl

/-- R555: where the body ends with T and K, the command ends with them in RES0 and RES1. -/
theorem exec_treeDeser_of_ok {s t : State} {n k : Nat} (h : s.treeDeser = .ok (n, k) t) :
    exec .treeDeser s =
      .next { t with res0 := word n, res1 := word k, busy := false, done := true, ecode := none } := by
  rw [exec_treeDeser, h, Res.andThen_ok]
  rfl

/-- R553 to R555: TreeDeserBody() on a slice that holds Pre(t) from the cursor on builds t at index 0. -/
theorem State.treeDeser_of_holds {s : State} {t : HTree} (hk : t.leaves ≤ alphabetSize)
    (hholds : s.bytemem.holds s.brPos.toNat t.pre) (hfit : s.brPos.toNat + t.pre.length ≤ s.brLimit.toNat) :
    ∃ nd : Memory NodeRec,
      s.treeDeser = .ok (t.pre.length, t.leaves) (setTree 0 t.leaves (2 * t.leaves - 1)
        { s with node := nd, brPos := word (s.brPos.toNat + t.pre.length) }) ∧
      Holds nd.nodeAt 0 t ∧ indexes nd.nodeAt 0 t = List.range (2 * t.leaves - 1) ∧
      (∀ a, a < 2 * t.leaves - 1 → (nd.nodeAt a).w = 0) ∧
      ∀ a, 2 * t.leaves - 1 ≤ a → nd.get? a = s.node.get? a := by
  have hcap : 2 * t.leaves - 1 ≤ nodeCap := by
    unfold alphabetSize at hk
    unfold nodeCap
    omega
  obtain ⟨nd, hparse, hnd, hix, hweight, hsame⟩ :=
    parse_pre t s.clearTree (nodeCap - (2 * t.leaves - 1)) 0 0 [] hholds hfit (by omega)
  rw [Nat.add_sub_cancel' hcap] at hparse
  simp only [Nat.zero_add] at hparse hix hweight hsame
  have hpos : (word (s.brPos.toNat + t.pre.length)).toNat = s.brPos.toNat + t.pre.length :=
    word_toNat (hfit.trans_lt s.brLimit.isLt)
  refine ⟨nd, ?_, hnd, hix.trans List.range_eq_range'.symm, fun a => hweight a (Nat.zero_le a),
    fun a ha => hsame a (.inr ha)⟩
  rw [treeDeser, hparse]
  simp only [parseOn, returnIndex, Res.andThen_ok, clearTree_brPos, hpos, Nat.add_sub_cancel_left]
  rfl

/-- A tree in pre-order from index 0, with the registers that TreeDeserBody() sets, is the current tree. -/
theorem State.treeIs_setTree {s : State} {t : HTree} (hk : t.leaves ≤ alphabetSize) (hholds : Holds s.nodeAt 0 t)
    (hix : indexes s.nodeAt 0 t = List.range (2 * t.leaves - 1)) :
    (s.setTree 0 t.leaves (2 * t.leaves - 1)).TreeIs t := by
  unfold alphabetSize at hk
  have hleaves : (BitVec.ofNat 17 t.leaves).toNat = t.leaves := by
    rw [BitVec.toNat_ofNat]
    exact Nat.mod_eq_of_lt (by omega)
  have hnodes : (BitVec.ofNat 17 (2 * t.leaves - 1)).toNat = 2 * t.leaves - 1 := by
    rw [BitVec.toNat_ofNat]
    exact Nat.mod_eq_of_lt (by omega)
  refine ⟨hholds, hleaves, hnodes, ?_, ?_⟩
  · show (indexes s.nodeAt 0 t).Nodup
    rw [hix]
    exact List.nodup_range
  · show ∀ i ∈ indexes s.nodeAt 0 t, i < (BitVec.ofNat 17 (2 * t.leaves - 1)).toNat
    rw [hix, hnodes]
    exact fun i => List.mem_range.mp

/-- R421, R422: after BW_FINAL the bits that an append added to the stream stand in BYTEMEM. -/
theorem holds_of_bwFinal {s t u : State} {bs : Bits} (hw : t.WriterOk) (hext : s.extendsBy t bs)
    (hexec : exec .bwFinal t = .next u) :
    u.bytemem.holds s.bwNbits.toNat bs ∧
      u.res0 = word ((t.bwNbits.toNat + padTo8 t.bwNbits.toNat) / 8) := by
  obtain ⟨m, hfin, hold, -⟩ := State.finalize_spec hw
  rw [exec_bwFinal, hfin] at hexec
  cases hexec
  obtain ⟨hn, -, hnew⟩ := hext
  exact ⟨fun j hj => (hold _ (by omega)).trans (hnew j hj), rfl⟩

/-- Settles O34: BW_FINAL leaves Pre(ROOT) in BYTEMEM from the bit on where TREE_SER began, and TreeDeserBody() on
Pre(tr) builds tr. -/
theorem treeDeserReadsWhatTreeSerWrote : Obligations.TreeDeserReadsWhatTreeSerWrote := by
  intro s t u tr hinv htree hser hok hfinal
  have hk := hinv.leaves_le htree
  obtain ⟨hw, hext, hparams, hbits⟩ := treeSer_success hinv htree hk hser hok
  obtain ⟨hholds, hbytes⟩ := holds_of_bwFinal hw hext hfinal
  have hlimit : s.bwNbits.toNat + tr.pre.length ≤ (word (8 * u.res0.toNat)).toNat := by
    have hcap : s.params.byteCap ≤ 536870911 := hinv.params.2.2
    have hfits : t.bwNbits.toNat ≤ 8 * s.params.byteCap := hparams ▸ hw.fits
    rw [← hext.1, hbytes, toNat_word_bytes (by omega)]
    exact Nat.le_add_right _ _
  obtain ⟨nd, hdeser, hnd, hix, hweight, -⟩ :=
    State.treeDeser_of_holds (s := { u with brPos := s.bwNbits, brLimit := word (8 * u.res0.toNat) }) hk hholds hlimit
  obtain ⟨holds, leaves, size, once, below⟩ := State.treeIs_setTree (s := { u with node := nd }) hk hnd hix
  exact ⟨_, exec_treeDeser_of_ok hdeser, rfl, hbits.symm, rfl, rfl, ⟨holds, leaves, size, once, below⟩, rfl, hix, hweight⟩

/-! ## Where the deserializer stops -/

/-- R555, R711: where Parse raises, the command ends with that error and the tree registers cleared. -/
theorem exec_treeDeser_of_parse_raise {s t : State} {e : Err} (h : parse nodeCap 0 0 [] s.clearTree = .raise e t) :
    exec .treeDeser s = .next { t with busy := false, done := true, ecode := some e } := by
  rw [exec_treeDeser, State.treeDeser, h, Res.andThen_raise, Res.andThen_raise, outcome_raise]

/-- R423: Parse's first read raises at the end of the slice. -/
theorem parse_at_end {s : State} (h : s.brLimit.toNat ≤ s.brPos.toNat) (room next k : Nat) (frames : List Frame) :
    parse room next k frames s = .raise .malformedContainer s := by
  cases room <;> rw [parse, State.readBit_raise h, Res.andThen_raise]

/-- R553: on zero bits Parse allocates one node per bit, until the slice ends or the bit after the last free node. -/
theorem parse_zeros (room : Nat) : ∀ (next k : Nat) (frames : List Frame) (s : State) {n : Nat},
    min (s.brLimit.toNat - s.brPos.toNat) (room + 1) = n →
    s.bytemem.holds s.brPos.toNat (List.replicate n false) →
    parse room next k frames s = .raise .malformedContainer { s with brPos := word (s.brPos.toNat + n) } := by
  induction room with
  | zero =>
    intro next k frames s n hn hzeros
    cases n with
    | zero => rw [parse_at_end (by omega), Nat.add_zero, word_toNat_self]
    | succ n =>
      obtain rfl : n = 0 := by omega
      obtain ⟨hread, -, -⟩ := readSlice_ok (bs := []) hzeros (by simp only [List.length_nil]; omega)
      rw [parse, hread, Res.andThen_ok]
  | succ room ih =>
    intro next k frames s n hn hzeros
    cases n with
    | zero => rw [parse_at_end (by omega), Nat.add_zero, word_toNat_self]
    | succ n =>
      rw [List.replicate_succ] at hzeros
      obtain ⟨hread, hpos, hrest⟩ := readSlice_ok hzeros (by rw [List.length_replicate]; omega)
      rw [parse, hread, Res.andThen_ok, if_neg Bool.false_ne_true,
        ih _ _ _ { s with brPos := word (s.brPos.toNat + 1) } (n := n) (by simp only [hpos]; omega)
          (by simpa only [hpos] using hrest)]
      simp only [hpos, Nat.add_assoc, Nat.add_comm 1]

/-- Settles O33: a body that raises leaves the registers cleared (`treeDeser_spec`); `parse_stops` and `parse_zeros` say
where Parse raises. -/
theorem treeDeserFailureLeavesNoTree : Obligations.TreeDeserFailureLeavesNoTree := by
  refine ⟨fun s t hreader hexec hfail => ?_, fun s => ?_⟩
  · obtain ⟨nd, p, d, hle, hlim, -, hraise | ⟨root, tr, -, -, -, hend⟩⟩ := s.treeDeser_spec hreader.pos
    · rw [exec_treeDeser, hraise, Res.andThen_raise, outcome_raise] at hexec
      cases hexec
      exact ⟨rfl, rfl, rfl, rfl, rfl, rfl, hle, hlim, rfl⟩
    · rw [exec_treeDeser_of_ok hend] at hexec
      cases hexec
      exact absurd rfl hfail
  · intro failsAt
    refine ⟨fun tr before next after hreads hbefore hfit => ?_, fun hzeros => ?_⟩
    · have stops := fun p h => (parse_stops nodeCap [tr] 0 0 [] s.clearTree before next after p rfl
        (by simpa using hreads) hbefore hfit h).imp fun _ => exec_treeDeser_of_parse_raise
      exact ⟨fun htags hend => stops _ (.inl ⟨htags, hend, rfl⟩),
        fun htags hlen hnext hroom => stops _ (.inr ⟨htags, hlen, hnext, hroom, rfl⟩)⟩
    · exact ⟨s.node, exec_treeDeser_of_parse_raise (parse_zeros nodeCap 0 0 [] s.clearTree rfl hzeros)⟩

end Sys2Proof.Machine
end

/-! The encoder (46_codec.md R580, R581, R615, R616): ENCODE and ENC_ALL append the container's fields to an empty stream,
and either all of them fit or the stream ends before the first that does not. -/
section

namespace Sys2Proof.Machine

theorem encAllCheck_eq_none {s : State} :
    s.encAllCheck = none ↔ 0 < s.nsym.toNat ∧ s.nsym.toNat ≤ s.params.symCap := by
  rw [State.encAllCheck, State.symbolCount]
  split_ifs <;> simp <;> omega

/-- ENCODE past its four checks is EncodeBody() on the tree's nodes (46_codec.md R580). -/
theorem exec_encode_of_treeIs {s : State} {t : HTree} (hpos : 0 < s.nsym.toNat) (hcap : s.nsym.toNat ≤ s.params.symCap)
    (hv : s.treeValid = true) (hct : s.ctValid = true) (h : s.TreeIs t) (hk : t.leaves ≤ alphabetSize) :
    exec .encode s = outcome (containerResults (s.encodeBody (visits s.nodeAt s.root.toNat [] t))) := by
  have hcheck : s.encodeCheck = none := by
    simp only [State.encodeCheck, encAllCheck_eq_none.mpr ⟨hpos, hcap⟩, hv, hct, Bool.true_eq_false, if_false]
  show execEncode s = _
  rw [execEncode, hcheck, State.walk_of_holds h.holds hk]

/-- A container that ends is completed with its byte and its padding count in RES0 and RES1. -/
theorem outcome_containerResults_ok (n p : Nat) (s : State) :
    outcome (containerResults (.ok (n, p) s)) =
      .next { s with res0 := word n, res1 := word p, busy := false, done := true, ecode := none } := rfl

theorem outcome_containerResults_raise (e : Err) (s : State) :
    outcome (containerResults (.raise e s)) = .next { s with busy := false, done := true, ecode := some e } := rfl

/-- Settles O35: past the checks ENCODE appends the container's fields (`encodeBody_eq`), which one after another are the
container. -/
theorem encodeWritesContainer : Obligations.EncodeWritesContainer := by
  intro s tr syms hp hin hne hcap hv hct htree hk hvalid bits p hfit
  have hpos : 0 < s.nsym.toNat := hin.1 ▸ List.length_pos_of_ne_nil hne
  obtain ⟨m, hend, hholds, hout⟩ :=
    State.initWriter_appendAll_finalize (bits := bits) (p := p) hp (containerFields_flatten tr _) rfl hfit
  refine ⟨m, ?_, hholds, hout⟩
  rw [exec_encode_of_treeIs hpos (hin.1.trans_le hcap) hv hct htree hk, State.encodeBody_eq htree.holds hin hvalid, hend,
    outcome_containerResults_ok]

namespace State

/-- Fields that do not all fit an empty stream: those before the first that does not fit are appended
(41_bitio.md R420, 45_serdes.md R550). -/
theorem initWriter_appendAll_overflow {s : State} (hp : s.params.legal) {fields : List Bits}
    (hover : 8 * s.params.byteCap < fields.flatten.length) :
    ∃ n tl m bs,
      s.initWriter.appendAll fields = .raise .outputOverflow { s with bwNbits := n, bwTail := tl, bytemem := m } ∧
      stopsAfter (8 * s.params.byteCap) 0 fields bs ∧
      extendsBy { s with bwNbits := 0, bwTail := 0 } { s with bwNbits := n, bwTail := tl, bytemem := m } bs ∧
      s.bytemem.sameOutside m 0 (n.toNat / 8) := by
  have hw : s.initWriter.WriterOk := ⟨Nat.zero_le _, fun _ _ => BitVec.getLsbD_zero⟩
  obtain ⟨u, -, -, hfit⟩ | ⟨u, bs, hraise, ⟨only, hext, -, hout, -⟩, hstop⟩ :=
    appendAll_cases (s := s.initWriter) hp hw (fields := fields)
  · exact absurd (by simpa [initWriter] using hfit) hover.not_ge
  · obtain ⟨n, tl, m, rfl⟩ : ∃ n tl m, u = { s with bwNbits := n, bwTail := tl, bytemem := m } := ⟨_, _, _, only⟩
    exact ⟨n, tl, m, bs, hraise, hstop, hext, by simpa [initWriter] using hout⟩

/-- EncodeBody() appends the tree's fields and the length, one after another, before its loop (46_codec.md R580). -/
theorem encodeBody_of_holds {s : State} {t : HTree} {n : Nat} (h : Holds s.nodeAt n t) :
    s.encodeBody (visits s.nodeAt n [] t) =
      (s.initWriter.appendAll (t.fields ++ [bitsOf 32 s.symbolCount])).andThen fun _ u =>
        (u.encodeSymbols s.symbolCount 0).andThen fun _ w => .ok w.finalize.1 w.finalize.2 := by
  rw [encodeBody, emit_holds h, appendAll_append, Res.andThen_assoc]
  simp only [appendAll_singleton]

/-- On written input whose first symbols have codes the loop appends those codes as fields too, and goes on from the other
symbols (46_codec.md R580). -/
theorem encodeBody_append {s : State} {t : HTree} {n : Nat} {coded others : List Symbol} (h : Holds s.nodeAt n t)
    (hin : s.inputIs (coded ++ others)) (hv : ∀ x ∈ coded, (s.codeAt x.toNat).valid = true) :
    s.encodeBody (visits s.nodeAt n [] t) =
      (s.initWriter.appendAll (t.fields ++ [bitsOf 32 (coded ++ others).length] ++
          coded.map fun x => (s.codeAt x.toNat).bits)).andThen fun _ u =>
        (u.encodeSymbols others.length coded.length).andThen fun _ w => .ok w.finalize.1 w.finalize.2 := by
  obtain ⟨hN, hget⟩ := hin
  have hcount : s.symbolCount = (coded ++ others).length := hN
  have hcoded : ∀ j, j < coded.length → s.symin.get? (0 + j) = coded[j]? := fun j hj => by
    rw [Nat.zero_add, hget j (by rw [List.length_append]; omega), List.getElem?_append_left hj]
  rw [encodeBody_of_holds h, hcount, appendAll_append (t.fields ++ _), Res.andThen_assoc]
  cases hr : s.initWriter.appendAll (t.fields ++ [bitsOf 32 (coded ++ others).length]) with
  | raise e u => rfl
  | ok a u =>
    have hfirst : u.encodeSymbols coded.length 0 = u.appendAll (coded.map fun x => (s.codeAt x.toNat).bits) := by
      obtain ⟨n, tl, m, only⟩ := appendAll_only (t.fields ++ [bitsOf 32 (coded ++ others).length]) s.initWriter
      rw [hr] at only
      obtain rfl : u = { s with bwNbits := n, bwTail := tl, bytemem := m } := only
      exact encodeSymbols_valid coded 0 _ hcoded hv
    rw [Res.andThen_ok, Res.andThen_ok, List.length_append, encodeSymbols_add, hfirst, Nat.zero_add, Res.andThen_assoc]

end State

/-- Settles O38: the first field that does not fit raises before the loop reaches the symbols of which nothing is
assumed. -/
theorem encodeOverflowKeepsFieldsBefore : Obligations.EncodeOverflowKeepsFieldsBefore := by
  intro s tr coded others hp hin hne hcap hv hct htree hk hvalid fields hover
  have hpos : 0 < s.nsym.toNat := hin.1 ▸ List.length_pos_of_ne_nil hne
  obtain ⟨n, tl, m, bs, hraise, hstop, hext, hout⟩ := State.initWriter_appendAll_overflow hp hover
  refine ⟨n, tl, m, bs, ?_, hstop, hext, hout⟩
  rw [exec_encode_of_treeIs hpos (hin.1.trans_le hcap) hv hct htree hk, State.encodeBody_append htree.holds hin hvalid,
    hraise, Res.andThen_raise, outcome_containerResults_raise]

/-- t is how a container of the given fields ends from s: only the writer, the results and the completion's flags change,
and they hold what the fields leave, whether these fit or not (46_codec.md R581, R616; 60_exceptions.md R711). -/
structure State.ContainerEnd (s t : State) (fields : List Bits) : Prop where
  only : t = { s with bwNbits := t.bwNbits, bwTail := t.bwTail, bytemem := t.bytemem, res0 := t.res0, res1 := t.res1,
                      busy := false, done := true, ecode := t.ecode }
  fits : fields.flatten.length ≤ 8 * s.params.byteCap →
    t.ecode = none ∧
    t.bytemem.holds 0 (fields.flatten ++ List.replicate (padTo8 fields.flatten.length) false) ∧
    t.res0 = word ((fields.flatten.length + padTo8 fields.flatten.length) / 8) ∧
    t.res1 = word (padTo8 fields.flatten.length) ∧
    t.bwNbits = word (fields.flatten.length + padTo8 fields.flatten.length) ∧ t.bwTail = 0 ∧
    s.bytemem.sameOutside t.bytemem 0 ((fields.flatten.length + padTo8 fields.flatten.length) / 8)
  overflows : 8 * s.params.byteCap < fields.flatten.length →
    t.ecode = some .outputOverflow ∧ s.SameResults t ∧
    ∃ bs, stopsAfter (8 * s.params.byteCap) 0 fields bs ∧
      extendsBy { s with bwNbits := 0, bwTail := 0 } t bs ∧
      s.bytemem.sameOutside t.bytemem 0 (t.bwNbits.toNat / 8)

/-- The container's fields appended to an empty stream, and the end of the stream where they fit. -/
theorem outcome_container {s : State} (hp : s.params.legal) (fields : List Bits) :
    ∃ t, outcome (containerResults
        ((s.initWriter.appendAll fields).andThen fun _ u => .ok u.finalize.1 u.finalize.2)) = .next t ∧
      s.ContainerEnd t fields := by
  by_cases hfit : fields.flatten.length ≤ 8 * s.params.byteCap
  · obtain ⟨m, hend, hholds, hout⟩ := State.initWriter_appendAll_finalize hp rfl rfl hfit
    rw [hend, outcome_containerResults_ok]
    exact ⟨_, rfl, rfl, fun _ => ⟨rfl, hholds, rfl, rfl, rfl, rfl, hout⟩, fun hover => absurd hfit hover.not_ge⟩
  · obtain ⟨n, tl, m, bs, hraise, hstop, hext, hout⟩ := State.initWriter_appendAll_overflow hp (not_le.mp hfit)
    rw [hraise, Res.andThen_raise, outcome_containerResults_raise]
    exact ⟨_, rfl, rfl, fun h => absurd h hfit, fun _ => ⟨rfl, ⟨rfl, rfl⟩, bs, hstop, hext, hout⟩⟩

/-- Settles O41: past the counts, their tree and its code table (`encAll_written`) ENC_ALL appends the container's fields,
which either all fit or stop before the first that does not. -/
theorem encAllWritesContainer : Obligations.EncAllWritesContainer := by
  intro s syms hp hin hne hcap
  obtain ⟨f, nd, c, tr, v, hv, hcounts, htree, hcodes, hperm, hexec⟩ := encAll_written hin hne hcap
  obtain ⟨holds, leaves, size, once, below⟩ := htree
  obtain ⟨distinct, present, missing⟩ := hcodes
  obtain ⟨t, hend, only, hfits, hover⟩ := outcome_container (s := v) (by rw [hv]; exact hp)
    (containerFields tr (syms.map fun x => (v.codeAt x.toNat).bits))
  rw [containerFields_flatten] at hfits hover
  obtain ⟨n, tl, m, r0, r1, e, rfl⟩ : ∃ n tl m r0 r1 e, t = { v with
      bwNbits := n, bwTail := tl, bytemem := m, res0 := r0, res1 := r1, busy := false, done := true, ecode := e } :=
    ⟨_, _, _, _, _, _, only⟩
  subst hv
  refine ⟨_, tr, hexec.trans hend, rfl, rfl, ⟨holds, leaves, size, once, below⟩, ⟨distinct, present, missing⟩,
    fun x => hperm.mem_iff.trans List.mem_dedup, hcounts, ?_, ⟨rfl, rfl⟩, rfl, rfl, rfl, hfits, fun h => ?_⟩
  · constructor <;> rfl
  · obtain ⟨hcode, ⟨h0, h1⟩, hstop⟩ := hover h
    exact ⟨hcode, ⟨h0, h1⟩, hstop⟩

end Sys2Proof.Machine
end

/-! The decoder (46_codec.md R600 to R602): the tree, then the length, then the symbols; where each of them can stop; and
the codec's round trip (R601). -/
section

namespace Sys2Proof.Machine

namespace State

/-- The state DecodeBody() reads the tree in: OUT_N = 0 and a fresh reader over the slice. -/
def decodeStart (s : State) : State := { s with brPos := 0, brLimit := word (8 * s.brlen.toNat), outN := 0 }

/-- DecodeBody() from the length field on (46_codec.md R600). -/
def decodePayload (s : State) : Res (Nat × Nat) :=
  (s.readBits 32).andThen fun n s1 =>
    if n > s1.params.symCap then .raise .outputOverflow s1
    else (s1.decodeSymbols n 0).andThen fun _ s2 => .ok (n, s2.brPos.toNat) (s2.setOutN n)

/-- DecodeBody() on a slice inside BYTEMEM: TreeDeserBody(), then the length and the symbols. -/
theorem decodeBody_of_le {s : State} (h : s.brlen.toNat ≤ s.params.byteCap) :
    s.decodeBody = s.decodeStart.treeDeser.andThen fun _ s1 => s1.decodePayload := if_neg h.not_gt

theorem decodeBody_of_gt {s : State} (h : s.params.byteCap < s.brlen.toNat) :
    s.decodeBody = .raise .badArgument { s with outN := 0 } := if_pos h

end State

/-- DECODE is DecodeBody() and a completion with N and the bits consumed. -/
theorem exec_decode (s : State) :
    exec .decode s = outcome (s.decodeBody.andThen fun nq s1 =>
      .ok { res0 := some (word nq.1), res1 := some (word nq.2) } s1) := rfl

theorem exec_decode_of_ok {s t : State} {n q : Nat} (h : s.decodeBody = .ok (n, q) t) :
    exec .decode s =
      .next { t with res0 := word n, res1 := word q, busy := false, done := true, ecode := none } := by
  rw [exec_decode, h, Res.andThen_ok]
  rfl

theorem exec_decode_of_raise {s t : State} {e : Err} (h : s.decodeBody = .raise e t) :
    exec .decode s = .next { t with busy := false, done := true, ecode := some e } := by
  rw [exec_decode, h, Res.andThen_raise, outcome_raise]

namespace State

/-! ## The length field -/

section
variable {s u : State} {n : Nat} (hread : s.readBits 32 = .ok n u)
include hread

/-- A length above SYM_CAP raises before any symbol is read (46_codec.md R600). -/
theorem decodePayload_over (hcap : u.params.symCap < n) : s.decodePayload = .raise .outputOverflow u := by
  rw [decodePayload, hread, Res.andThen_ok, if_pos hcap]

theorem decodePayload_within (hcap : n ≤ u.params.symCap) :
    s.decodePayload = (u.decodeSymbols n 0).andThen fun _ w => .ok (n, w.brPos.toNat) (w.setOutN n) := by
  rw [decodePayload, hread, Res.andThen_ok, if_neg hcap.not_gt]

end

/-- With fewer than 32 bits left the length field raises and consumes nothing (46_codec.md R600, 41_bitio.md R424). -/
theorem decodePayload_short {s : State} (h : s.brLimit.toNat < s.brPos.toNat + 32) :
    s.decodePayload = .raise .malformedContainer s := by
  rw [decodePayload, readBits_raise h, Res.andThen_raise]

/-- The length field where its 32 bits are written. -/
theorem readBits_length {s : State} {n : Nat} (hn : n < 2 ^ 32) (hholds : s.bytemem.holds s.brPos.toNat (bitsOf 32 n))
    (hfit : s.brPos.toNat + 32 ≤ s.brLimit.toNat) :
    s.readBits 32 = .ok n { s with brPos := word (s.brPos.toNat + 32) } := by
  have hread := readBits_ok (s := s) (bs := bitsOf 32 n) (by rwa [bitsOf_length]) hholds
  rwa [bitsOf_length, valOf_bitsOf, Nat.mod_eq_of_lt hn] at hread

/-! ## All that the decoder can do -/

/-- The decoder's loop keeps OUT_N, RES0 and RES1 where it raises, and has written n symbols where it ends
(46_codec.md R600). -/
theorem decodeSymbols_cases (n : Nat) {s : State} (hpos : s.brPos.toNat ≤ s.brLimit.toNat) :
    (∃ e t, s.decodeSymbols n 0 = .raise e t ∧ t.outN = s.outN ∧ s.SameResults t) ∨
    (∃ t, s.decodeSymbols n 0 = .ok () t ∧ ∀ i, i < n → (t.symout.get? i).isSome) := by
  obtain ⟨so, p, d, hstate, -, -, -, -, -, hwritten⟩ := decodeSymbols_spec n 0 s hpos
  cases hloop : s.decodeSymbols n 0 with
  | raise e t =>
    rw [hloop, Res.state] at hstate
    subst hstate
    exact .inl ⟨e, _, rfl, rfl, rfl, rfl⟩
  | ok a t =>
    have hsymout : t.symout = so := by simpa [hloop, Res.state] using congrArg State.symout hstate
    exact .inr ⟨t, rfl, fun i hi => hsymout ▸ hwritten t hloop i (Nat.zero_le i) (by omega)⟩

/-- All that DecodeBody() can do from the length field on: on an error OUT_N, RES0 and RES1 are as before, on success OUT_N
symbols are written. -/
theorem decodePayload_cases (s : State) :
    (∃ e t, s.decodePayload = .raise e t ∧ t.outN = s.outN ∧ s.SameResults t) ∨
    (∃ n t, s.decodePayload = .ok (n, t.brPos.toNat) t ∧ n < 2 ^ 32 ∧ n ≤ s.params.symCap ∧ t.outN = word n ∧
      ∀ i, i < n → (t.symout.get? i).isSome) := by
  obtain ⟨n, d, hread, hn, hfit⟩ | ⟨hraise, -⟩ := readBits_cases 32 s
  · by_cases hcap : s.params.symCap < n
    · exact .inl ⟨_, _, decodePayload_over hread hcap, rfl, rfl, rfl⟩
    · have hcursor : (word (s.brPos.toNat + 32)).toNat = s.brPos.toNat + 32 :=
        word_toNat (hfit.trans_lt s.brLimit.isLt)
      rw [decodePayload_within hread (not_lt.mp hcap)]
      obtain ⟨e, t, hloop, hout, h0, h1⟩ | ⟨t, hloop, hwritten⟩ := decodeSymbols_cases n
        (s := { s with brPos := word (s.brPos.toNat + 32), draws := d }) (hcursor.trans_le hfit)
      · exact .inl ⟨e, t, by rw [hloop, Res.andThen_raise], hout, h0, h1⟩
      · exact .inr ⟨n, t.setOutN n, by rw [hloop, Res.andThen_ok]; rfl, hn, not_lt.mp hcap, rfl, hwritten⟩
  · exact .inl ⟨_, _, by rw [decodePayload, hraise, Res.andThen_raise], rfl, rfl, rfl⟩

/-- All that DecodeBody() can do (46_codec.md R600, R602): an error leaves OUT_N = 0 and no result, a success OUT_N symbols,
all of them written. -/
theorem decodeBody_cases (s : State) :
    (∃ e t, s.decodeBody = .raise e t ∧ t.outN = 0 ∧ s.SameResults t) ∨
    (∃ n t, s.decodeBody = .ok (n, t.brPos.toNat) t ∧ n < 2 ^ 32 ∧ n ≤ s.params.symCap ∧ t.outN = word n ∧
      ∀ i, i < n → (t.symout.get? i).isSome) := by
  by_cases hlen : s.params.byteCap < s.brlen.toNat
  · exact .inl ⟨_, _, decodeBody_of_gt hlen, rfl, rfl, rfl⟩
  · rw [decodeBody_of_le (not_lt.mp hlen)]
    obtain ⟨nd, p, d, -, -, -, hraise | ⟨root, tr, -, -, -, hok⟩⟩ := s.decodeStart.treeDeser_spec (Nat.zero_le _)
    · exact .inl ⟨_, _, congrArg (fun r => Res.andThen r fun _ u => u.decodePayload) hraise, rfl, rfl, rfl⟩
    · rw [hok, Res.andThen_ok]
      obtain ⟨e, t, hend, hout, h0, h1⟩ | hend := decodePayload_cases { s.decodeStart with
        node := nd, brPos := p, draws := d, root := BitVec.ofNat 17 root, nleaves := BitVec.ofNat 17 tr.leaves
        nnodes := BitVec.ofNat 17 (2 * tr.leaves - 1), treeValid := true, ctValid := false }
      · exact .inl ⟨e, t, hend, hout, h0, h1⟩
      · exact .inr hend

/-! ## The tree in the slice -/

/-- The state after DecodeBody() has read a whole tree t into the arena nd. -/
def decodeTree (t : HTree) (nd : Memory NodeRec) (s : State) : State :=
  { s.decodeStart with
    node := nd, root := 0, nleaves := BitVec.ofNat 17 t.leaves, nnodes := BitVec.ofNat 17 (2 * t.leaves - 1)
    treeValid := true, ctValid := false, brPos := word t.pre.length }

section
variable {s : State} (hp : s.params.legal) (hlen : s.brlen.toNat ≤ s.params.byteCap)
include hp hlen

/-- A bit position inside a slice inside BYTEMEM fits a 32-bit register. -/
theorem word_toNat_of_slice {n : Nat} (h : n ≤ 8 * s.brlen.toNat) : (word n).toNat = n := by
  have hcap : s.params.byteCap ≤ 536870911 := hp.2.2
  exact word_toNat (by omega)

/-- The limit of the reader, as the 32-bit register holds it. -/
theorem decodeStart_brLimit : s.decodeStart.brLimit.toNat = 8 * s.brlen.toNat := word_toNat_of_slice hp hlen le_rfl

variable {t : HTree} {nd : Memory NodeRec}

/-- DecodeBody() on a slice that holds Pre(t) at its start goes on from the length field, with t in NODE. -/
theorem decodeBody_of_holds (hk : t.leaves ≤ alphabetSize) (hholds : s.bytemem.holds 0 t.pre)
    (hfit : t.pre.length ≤ 8 * s.brlen.toNat) :
    ∃ nd : Memory NodeRec, s.decodeBody = (s.decodeTree t nd).decodePayload ∧ Holds nd.nodeAt 0 t := by
  have hroom : 0 + t.pre.length ≤ s.decodeStart.brLimit.toNat := by
    rw [decodeStart_brLimit hp hlen, Nat.zero_add]
    exact hfit
  obtain ⟨nd, hdeser, hnd, -⟩ := treeDeser_of_holds (s := s.decodeStart) hk hholds hroom
  refine ⟨nd, ?_, hnd⟩
  rw [decodeBody_of_le hlen, hdeser, Res.andThen_ok]
  exact congrArg (fun p => decodePayload { s.decodeTree t nd with brPos := word p }) (Nat.zero_add _)

/-- With fewer than 32 bits after the tree the length field raises (46_codec.md R600). -/
theorem decodeTree_short (hfit : t.pre.length ≤ 8 * s.brlen.toNat) (hshort : 8 * s.brlen.toNat < t.pre.length + 32) :
    (s.decodeTree t nd).decodePayload = .raise .malformedContainer (s.decodeTree t nd) := by
  refine decodePayload_short ?_
  rw [show (s.decodeTree t nd).brLimit.toNat = _ from decodeStart_brLimit hp hlen,
    show (s.decodeTree t nd).brPos.toNat = _ from word_toNat_of_slice hp hlen hfit]
  exact hshort

/-- The length field after the tree, where its 32 bits are written. -/
theorem decodeTree_readLength {n : Nat} (hn : n < 2 ^ 32) (hholds : s.bytemem.holds t.pre.length (bitsOf 32 n))
    (hfit : t.pre.length + 32 ≤ 8 * s.brlen.toNat) :
    (s.decodeTree t nd).readBits 32 = .ok n { s.decodeTree t nd with brPos := word (t.pre.length + 32) } := by
  have hpos : (s.decodeTree t nd).brPos.toNat = t.pre.length := word_toNat_of_slice hp hlen (by omega)
  have hlimit : (s.decodeTree t nd).brLimit.toNat = 8 * s.brlen.toNat := decodeStart_brLimit hp hlen
  rw [readBits_length hn (hpos.symm ▸ hholds) (by rwa [hpos, hlimit]), hpos]

end

/-! ## The symbols -/

/-- The walk at the last bits of the slice, which are a proper part of a code, raises with the cursor at the limit
(46_codec.md R600). -/
theorem decodeSymbol_cut {s : State} {t : HTree} {inner : Bits} (ht : Holds s.nodeAt s.root.toNat t)
    (hinner : ∃ c ∈ t.paths, inner <+: c.2 ∧ inner ≠ c.2) (hholds : s.bytemem.holds s.brPos.toNat inner)
    (hend : s.brPos.toNat + inner.length = s.brLimit.toNat) :
    s.decodeSymbol s.bitsLeft s.root.toNat = .raise .malformedContainer { s with brPos := s.brLimit } := by
  have hleft : s.bitsLeft = inner.length := by
    rw [bitsLeft, ← hend, Nat.add_sub_cancel_left]
  rw [hleft, decodeSymbol_inner t ht hinner hholds hend, hend, word_toNat_self]

/-- The decoder's loop at the last bits of the slice, which are a proper part of a code: after any number of whole codes
it raises with the cursor at the limit, and the symbols before are delivered (46_codec.md R600). -/
theorem decodeSymbols_cut {s : State} {t : HTree} {picks : List (Symbol × Bits)} {inner : Bits} {n : Nat}
    (ht : Holds s.nodeAt s.root.toNat t) (hn : picks.length < n) (hpicks : ∀ c ∈ picks, c ∈ t.paths)
    (hinner : ∃ c ∈ t.paths, inner <+: c.2 ∧ inner ≠ c.2)
    (hholds : s.bytemem.holds s.brPos.toNat ((picks.map Prod.snd).flatten ++ inner))
    (hend : s.brPos.toNat + ((picks.map Prod.snd).flatten ++ inner).length = s.brLimit.toNat) :
    ∃ so, s.decodeSymbols n 0 = .raise .malformedContainer { s with symout := so, brPos := s.brLimit } ∧
      (∀ j, j < picks.length → so.get? j = (picks.map Prod.fst)[j]?) ∧ s.symout.sameOutside so 0 picks.length := by
  rw [List.length_append] at hend
  obtain ⟨hcodes, hcut⟩ := Memory.holds_append.mp hholds
  obtain ⟨so, hloop, hnew, hold⟩ := decodeSymbols_picks t picks 0 s ht hpicks hcodes (by omega)
  simp only [Nat.zero_add] at hnew hold
  have hcursor : (word (s.brPos.toNat + (picks.map Prod.snd).flatten.length)).toNat =
      s.brPos.toNat + (picks.map Prod.snd).flatten.length := word_toNat (by have := s.brLimit.isLt; omega)
  have hlast := decodeSymbol_cut
    (s := { s with symout := so, brPos := word (s.brPos.toNat + (picks.map Prod.snd).flatten.length) }) ht hinner
    (by rwa [← hcursor] at hcut) (by rw [hcursor, Nat.add_assoc, hend])
  obtain ⟨m, rfl⟩ : ∃ m, n = picks.length + (m + 1) := ⟨n - picks.length - 1, by omega⟩
  refine ⟨so, ?_, hnew, hold⟩
  rw [decodeSymbols_add, hloop, Res.andThen_ok, decodeSymbols, hlast, Res.andThen_raise]

end State

/-- R600: where the tree ends in an error, DECODE ends exactly as TREE_DESER does. -/
theorem exec_decode_of_treeDeser_error {s t : State} (hlen : s.brlen.toNat ≤ s.params.byteCap)
    (hexec : exec .treeDeser s.decodeStart = .next t) (hfail : t.ecode ≠ none) : exec .decode s = .next t := by
  cases hdeser : s.decodeStart.treeDeser with
  | ok nk u =>
    rw [exec_treeDeser_of_ok hdeser] at hexec
    cases hexec
    exact absurd rfl hfail
  | raise e u =>
    rw [exec_treeDeser, hdeser, Res.andThen_raise, outcome_raise] at hexec
    cases hexec
    exact exec_decode_of_raise (by rw [State.decodeBody_of_le hlen, hdeser, Res.andThen_raise])

/-- Settles O40: `decodeBody_cases` is all that DECODE can do; past the tree the length field and the loop say where it
stops. -/
theorem decodeFailureDeliversNothing : Obligations.DecodeFailureDeliversNothing := by
  intro s hp
  refine ⟨?_, fun hlen => exec_decode_of_raise (State.decodeBody_of_gt hlen), fun hlen =>
    ⟨fun t => exec_decode_of_treeDeser_error hlen, fun tr hk hholds hfit => ?_⟩⟩
  · obtain ⟨e, t, hend, hout, h0, h1⟩ | ⟨n, t, hend, hn, hcap, hout, hwritten⟩ := s.decodeBody_cases
    · exact ⟨_, exec_decode_of_raise hend, fun _ => ⟨hout, h0, h1⟩, fun h => nomatch h⟩
    · have hcount : t.outN.toNat = n := by rw [hout, word_toNat hn]
      exact ⟨_, exec_decode_of_ok hend, fun h => absurd rfl h, fun _ =>
        ⟨hout, hcount.trans_le hcap, word_toNat_self _, fun i hi => hwritten i (hcount ▸ hi)⟩⟩
  · intro failsWith
    obtain ⟨nd, hbody, hnd⟩ := State.decodeBody_of_holds hp hlen hk hholds hfit
    have fails : ∀ {e p so}, (s.decodeTree tr nd).decodePayload =
        .raise e { s.decodeTree tr nd with brPos := word p, symout := so } → failsWith e p so := fun h =>
      ⟨nd, exec_decode_of_raise (hbody.trans h), hnd⟩
    refine ⟨fun hshort => fails (State.decodeTree_short hp hlen hfit hshort), fun n hn hlength =>
      ⟨fun hroom hover => ?_, fun picks inner hcap hpicks hpaths hinner hcodes hend => ?_⟩⟩
    · exact fails (State.decodePayload_over (State.decodeTree_readLength hp hlen hn hlength hroom) hover)
    · have hroom : tr.pre.length + 32 ≤ 8 * s.brlen.toNat := by omega
      have hcursor := State.word_toNat_of_slice hp hlen hroom
      rw [← hcursor] at hcodes hend
      obtain ⟨so, hcut, hnew, hold⟩ := State.decodeSymbols_cut
        (s := { s.decodeTree tr nd with brPos := word (tr.pre.length + 32) }) hnd hpicks hpaths hinner hcodes
        (hend.trans (State.decodeStart_brLimit hp hlen).symm)
      refine ⟨so, fails ?_, hnew, fun i hi => hold i (.inr hi)⟩
      rw [State.decodePayload_within (State.decodeTree_readLength hp hlen hn hlength hroom) hcap, hcut, Res.andThen_raise]
      rfl

/-! ## The round trip -/

/-- DECODE's body on a slice that holds a container: the leaves' symbols in order, and the cursor after the last code
(46_codec.md R600). -/
theorem State.decodeBody_of_container {s : State} {t : HTree} (hp : s.params.legal)
    (hlen : s.brlen.toNat ≤ s.params.byteCap) (hk : t.leaves ≤ alphabetSize) {picks : List (Symbol × Bits)}
    (hpaths : ∀ c ∈ picks, c ∈ t.paths)
    (hcap : picks.length ≤ s.params.symCap)
    (hfit : (containerBits t (picks.map Prod.snd)).length ≤ 8 * s.brlen.toNat)
    (hholds : s.bytemem.holds 0 (containerBits t (picks.map Prod.snd))) :
    ∃ nd so,
      s.decodeBody = .ok (picks.length, (containerBits t (picks.map Prod.snd)).length) { s.decodeTree t nd with
        brPos := word (containerBits t (picks.map Prod.snd)).length, symout := so, outN := word picks.length } ∧
      Holds nd.nodeAt 0 t ∧ (∀ i, i < picks.length → so.get? i = (picks.map Prod.fst)[i]?) ∧
      ∀ i, picks.length ≤ i → so.get? i = s.symout.get? i := by
  have hsplit : (containerBits t (picks.map Prod.snd)).length =
      t.pre.length + 32 + (picks.map Prod.snd).flatten.length := by
    rw [containerBits, List.length_append, List.length_append, bitsOf_length]
  rw [hsplit] at hfit ⊢
  rw [containerBits, Memory.holds_append, Memory.holds_append, List.length_append, bitsOf_length, List.length_map,
    Nat.zero_add, Nat.zero_add] at hholds
  obtain ⟨⟨hpre, hlength⟩, hcodes⟩ := hholds
  obtain ⟨nd, hbody, hnd⟩ := decodeBody_of_holds hp hlen hk hpre (by omega)
  have hroom : t.pre.length + 32 ≤ 8 * s.brlen.toNat := by omega
  have hcursor := word_toNat_of_slice hp hlen hroom
  have hread := decodeTree_readLength hp hlen (n := picks.length) (nd := nd) (hcap.trans_lt (Nat.lt_succ_of_le hp.1.2))
    hlength hroom
  rw [← hcursor] at hcodes
  obtain ⟨so, hloop, hnew, hold⟩ := decodeSymbols_picks t picks 0
    { s.decodeTree t nd with brPos := word (t.pre.length + 32) } hnd hpaths hcodes (by
      rw [hcursor]
      exact hfit.trans_eq (decodeStart_brLimit hp hlen).symm)
  simp only [Nat.zero_add, hcursor] at hloop hnew hold
  refine ⟨nd, so, ?_, hnd, hnew, fun i hi => hold i (.inr hi)⟩
  rw [hbody, decodePayload_within hread hcap, hloop, Res.andThen_ok, word_toNat_of_slice hp hlen hfit]
  rfl

/-- A code table has distinct symbols, so its tree has at most 65536 leaves. -/
theorem State.CodesAre.leaves_le {s : State} {t : HTree} (h : s.CodesAre t) : t.leaves ≤ alphabetSize := by
  have hcard := h.distinct.length_le_card
  rwa [List.length_map, t.paths_length, ← FinEnum.card_eq_fintypeCard, FinEnum.card_bitVec] at hcard

/-- The symbols syms, each with its code in CODE. -/
def pickCodes (s : State) (syms : List Symbol) : List (Symbol × Bits) := syms.map fun x => (x, (s.codeAt x.toNat).bits)

theorem pickCodes_snd (s : State) (syms : List Symbol) :
    (pickCodes s syms).map Prod.snd = syms.map fun x => (s.codeAt x.toNat).bits := List.map_map

theorem pickCodes_fst (s : State) (syms : List Symbol) : (pickCodes s syms).map Prod.fst = syms := by
  rw [pickCodes, List.map_map]
  exact List.map_id syms

theorem pickCodes_length (s : State) (syms : List Symbol) : (pickCodes s syms).length = syms.length := List.length_map _

/-- A symbol of the table with its code is a leaf with its path (44_codetable.md R520). -/
theorem mem_paths_of_pickCodes {s : State} {t : HTree} {syms : List Symbol} (h : s.CodesAre t)
    (hsyms : ∀ x ∈ syms, x ∈ t.paths.map Prod.fst) : ∀ c ∈ pickCodes s syms, c ∈ t.paths := by
  intro c hc
  obtain ⟨x, hx, rfl⟩ := List.mem_map.mp hc
  obtain ⟨c, hmem, rfl⟩ := List.mem_map.mp (hsyms x hx)
  rw [h.present c hmem]
  exact hmem

/-- ENC_ALL that succeeds has passed its checks (46_codec.md R615). -/
theorem input_of_encAll_success {s t : State} (hexec : exec .encAll s = .next t) (hok : t.ecode = none) :
    0 < s.nsym.toNat ∧ s.nsym.toNat ≤ s.params.symCap := by
  rw [← encAllCheck_eq_none]
  cases hcheck : s.encAllCheck with
  | none => rfl
  | some e =>
    have : exec .encAll s = outcome (.raise e s) := by
      show execEncAll s = _
      rw [execEncAll, hcheck]
    rw [this, outcome_raise] at hexec
    cases hexec
    cases hok

/-- R421, R581: the byte and the padding count of a container of n bits, as the registers hold them. -/
theorem slice_of_results {cap n : Nat} {res0 res1 : Word} (hcap : cap ≤ 536870911) (hfit : n ≤ 8 * cap)
    (h0 : res0 = word ((n + padTo8 n) / 8)) (h1 : res1 = word (padTo8 n)) :
    res0.toNat ≤ cap ∧ n ≤ 8 * res0.toNat ∧ 8 * res0.toNat - res1.toNat = n := by
  rw [h0, h1, word_toNat (by unfold padTo8; omega), word_toNat (by unfold padTo8; omega)]
  unfold padTo8
  omega

/-- What a success of ENC_ALL leaves for DECODE: the code table of a tree with every input symbol, and in BYTEMEM the
container, with its byte and padding counts (46_codec.md R615). -/
theorem encAll_success {s t : State} {syms : List Symbol} (hp : s.params.legal) (hin : s.inputIs syms)
    (hexec : exec .encAll s = .next t) (hok : t.ecode = none) :
    ∃ (tr : HTree) (bits : Bits), containerBits tr ((pickCodes t syms).map Prod.snd) = bits ∧ t.CodesAre tr ∧
      (∀ x ∈ syms, x ∈ tr.paths.map Prod.fst) ∧ t.params = s.params ∧ bits.length ≤ 8 * s.params.byteCap ∧
      t.bytemem.holds 0 bits ∧ t.res0 = word ((bits.length + padTo8 bits.length) / 8) ∧
      t.res1 = word (padTo8 bits.length) := by
  obtain ⟨hpos, hcap⟩ := input_of_encAll_success hexec hok
  rw [hin.1] at hpos hcap
  obtain ⟨t', tr, hexec', -, -, -, hcodes, hsyms, -, hhost, -, -, -, -, hfits, hover⟩ :=
    encAllWritesContainer s syms hp hin (List.ne_nil_of_length_pos hpos) hcap
  obtain rfl : t = t' := Host.Outcome.next.inj (hexec.symm.trans hexec')
  rw [← pickCodes_snd] at hfits hover
  rcases le_or_gt (containerBits tr ((pickCodes t syms).map Prod.snd)).length (8 * s.params.byteCap) with hfit | hlong
  · obtain ⟨-, hholds, h0, h1, -⟩ := hfits hfit
    exact ⟨tr, _, rfl, hcodes, fun x => (hsyms x).mpr, hhost.params, hfit, (Memory.holds_append.mp hholds).1, h0, h1⟩
  · obtain ⟨hcode, -⟩ := hover hlong
    rw [hcode] at hok
    cases hok

/-- Settles O43: ENC_ALL leaves the container of a tree and the input's codes (`encAll_success`), and DECODE reads the
symbols of such codes back (`decodeBody_of_container`). -/
theorem decodeOfEncodeIsInput : Obligations.DecodeOfEncodeIsInput := by
  intro s t syms hp hin hexec hok
  obtain ⟨-, hcap⟩ := input_of_encAll_success hexec hok
  obtain ⟨tr, bits, hbits, hcodes, hsyms, hparams, hfit, hholds, h0, h1⟩ := encAll_success hp hin hexec hok
  obtain ⟨hlen, hroom, hread⟩ := slice_of_results hp.2.2 hfit h0 h1
  have hcount : (pickCodes t syms).length = s.nsym.toNat := (pickCodes_length t syms).trans hin.1.symm
  have hN : word (pickCodes t syms).length = s.nsym := by rw [hcount, word_toNat_self]
  obtain ⟨nd, so, hbody, -, hout, -⟩ := State.decodeBody_of_container (s := { t with brlen := t.res0 })
    (hparams ▸ hp) (hparams ▸ hlen) hcodes.leaves_le (mem_paths_of_pickCodes hcodes hsyms)
    (hparams ▸ hcount.trans_le hcap) (hbits ▸ hroom) (hbits ▸ hholds)
  refine ⟨_, exec_decode_of_ok hbody, rfl, hN, hN, ?_, fun i hi => ?_⟩
  · rw [hbits]
    exact (word_toNat (hroom.trans_lt (by have := hp.2.2; omega))).trans hread.symm
  · exact (hout i (by rwa [pickCodes_length])).trans (by rw [pickCodes_fst])

end Sys2Proof.Machine
end

/-! The round trips: decoding and encoding of a command word (30_encoding.md R302, R306), and the two deserializing
commands on what the serializing ones write (45_serdes.md R553, 46_codec.md R600). -/
section

namespace Sys2Proof

theorem commandOf_wf (op : BitVec 8) {w : BitVec 6} (b : Bool) (hw : w.toNat ≤ 32) :
    (commandOf op w b).wf = true := by
  unfold commandOf
  split <;> simp [Instr.wf, legalWidth, hw]

/-- The width of an admitted word is legal, used or 0 (30_encoding.md R304). -/
theorem OpcodeRow.Admits.width_le {r : OpcodeRow} {x : Word} (h : r.Admits x) : (wField x).toNat ≤ 32 := by
  cases hu : r.usesW with
  | false => simp [h.width hu]
  | true => exact h.legal hu

/-- R302, command by command: the word of a well-formed command decodes to it. -/
theorem decode_encode {i : Instr} (h : i.wf = true) : Sys2Proof.decode (Sys2Proof.encode i) = .ok i := by
  cases i with
  | nop => exact Laws.RoundTrip.nop h
  | bwInit => exact Laws.RoundTrip.bwInit h
  | bwPut1 b => exact Laws.RoundTrip.bwPut1 b h
  | bwPutN w => exact Laws.RoundTrip.bwPutN w h
  | bwFinal => exact Laws.RoundTrip.bwFinal h
  | brInit => exact Laws.RoundTrip.brInit h
  | brGet1 => exact Laws.RoundTrip.brGet1 h
  | brGetN w => exact Laws.RoundTrip.brGetN w h
  | freqClr => exact Laws.RoundTrip.freqClr h
  | freqCount => exact Laws.RoundTrip.freqCount h
  | treeBuild => exact Laws.RoundTrip.treeBuild h
  | treeSer => exact Laws.RoundTrip.treeSer h
  | treeDeser => exact Laws.RoundTrip.treeDeser h
  | codeGen => exact Laws.RoundTrip.codeGen h
  | encode => exact Laws.RoundTrip.encode h
  | decode => exact Laws.RoundTrip.decode h
  | encAll => exact Laws.RoundTrip.encAll h

/-- Settles O1: a word that decodes is admitted by a row, whose command has a legal width and encodes to the word; the
other direction goes command by command. -/
theorem decodeInvertsEncode : Obligations.DecodeInvertsEncode := by
  intro x i
  constructor
  · intro h
    obtain ⟨r, hr, hop, hadm, rfl⟩ := (decode_eq_ok_iff x i).mp h
    exact ⟨commandOf_wf _ _ hadm.width_le, OpcodeRow.encode_of_admits hr hop hadm⟩
  · rintro ⟨hwf, rfl⟩
    exact decode_encode hwf

namespace Machine

/-- Settles O32: TreeDeserBody() on Pre(tr) builds tr (`treeDeser_of_holds`), and the completion writes the two
results. -/
theorem treeDeserRebuildsTree : Obligations.TreeDeserRebuildsTree := by
  intro s tr hk hholds hfit
  obtain ⟨nd, hdeser, hnd, hix, hweight, hsame⟩ := State.treeDeser_of_holds hk hholds hfit
  refine ⟨nd, ?_, hnd, hix, hweight, hsame⟩
  rw [exec_treeDeser_of_ok hdeser, tr.pre_length]
  rfl

/-- Settles O39: `decodeBody_of_container` is R600 on a container, whatever follows it in the slice. -/
theorem decodeReadsContainer : Obligations.DecodeReadsContainer := by
  intro s tr picks hp hlen hk hpaths hcap bits hfit hholds
  obtain ⟨nd, so, hbody, hnd, hnew, hold⟩ := State.decodeBody_of_container hp hlen hk hpaths hcap hfit hholds
  exact ⟨nd, so, exec_decode_of_ok hbody, hnd, hnew, hold⟩

end Machine

end Sys2Proof
end

/-! The register port (10_state.md R102 to R127; 20_memory.md R205 to R222; 70_reset_and_hazards.md R802, R803, R830): a
step on a host transaction is the register's own rule, unless the access is a hazard or outside the interface. -/
section

namespace Sys2Proof.Machine

open State

/-! ## The register map -/

/-- The map's offsets are multiples of 4 in 0x00 .. 0x7C, and those of the hazardous registers are 0x0C .. 0x54
(10_state.md R102; 70_reset_and_hazards.md R830). -/
theorem ofOffset_bounds {off : Nat} {r : Reg} (h : Reg.ofOffset off = some r) :
    off % 4 = 0 ∧ off ≤ 0x7C ∧ (r.hazardous = true → 0x0C ≤ off ∧ off ≤ 0x54) := by
  unfold Reg.ofOffset at h
  split at h
  case h_23 =>
    split at h
    · next hres =>
      cases h
      exact ⟨hres.1, hres.2.2, nofun⟩
    · cases h
  all_goals cases h; simp [Reg.hazardous]

theorem ofOffset_reserved {off : Nat} (h4 : off % 4 = 0) (hlo : 0x58 ≤ off) (hhi : off ≤ 0x7C) :
    Reg.ofOffset off = some .reserved := by
  unfold Reg.ofOffset
  split
  case h_23 => exact if_pos ⟨h4, hlo, hhi⟩
  all_goals exact absurd hlo (by decide)

theorem ofOffset_hazardous {off : Nat} (h4 : off % 4 = 0) (hlo : 0x0C ≤ off) (hhi : off ≤ 0x54) :
    ∃ r, Reg.ofOffset off = some r ∧ r.hazardous = true := by
  obtain ⟨k, rfl⟩ : ∃ k, off = 4 * k := ⟨off / 4, by omega⟩
  have hk : 3 ≤ k ∧ k ≤ 21 := by omega
  obtain ⟨h3, h21⟩ := hk
  interval_cases k <;> exact ⟨_, rfl, rfl⟩

/-- The offsets of the three registers that a step's rules name (10_state.md R102). -/
theorem offset_of_reg {off : Nat} {r : Reg} (h : Reg.ofOffset off = some r) :
    (r = .ctrl → off = 0x04) ∧ (r = .status → off = 0x08) ∧ (r = .cmd → off = 0x0C) := by
  unfold Reg.ofOffset at h
  split at h
  case h_23 => split at h <;> cases h; exact ⟨nofun, nofun, nofun⟩
  all_goals cases h; simp

/-! ## One transaction -/

section
variable {s : State} {rest : List Event} {off : Nat} {r : Reg} {v : Word}

theorem step_host {a : Access} (h : s.pending = .host a :: rest) : step s = hostAccess a { s with pending := rest } := by
  simp only [step, nextMove, h]

theorem step_read (h : s.pending = .host ⟨off, 4, .read⟩ :: rest) (hr : Reg.ofOffset off = some r) :
    step s = .next (hostRead r { s with pending := rest }) := by
  obtain ⟨h4, -⟩ := ofOffset_bounds hr
  rw [step_host h, hostAccess, if_neg (by simp [h4]), hr]

theorem step_write (h : s.pending = .host ⟨off, 4, .write v⟩ :: rest) (hr : Reg.ofOffset off = some r) :
    step s = .next (hostWrite r v { s with pending := rest }) := by
  obtain ⟨h4, -⟩ := ofOffset_bounds hr
  rw [step_host h, hostAccess, if_neg (by simp [h4]), hr]

theorem hostRead_of_no_hazard (h : s.busy = false ∨ r.hazardous = false) : s.hostRead r = returned (s.readReg r) :=
  if_neg fun ⟨hbusy, hr⟩ => by rcases h with h | h <;> simp_all

theorem hostWrite_of_no_hazard (h : s.busy = false ∨ r.hazardous = false) : s.hostWrite r v = s.writeReg r v :=
  if_neg fun ⟨hbusy, hr⟩ => by rcases h with h | h <;> simp_all

/-- A read by the register's own rule that leaves the state alone (20_memory.md R209). -/
theorem step_read_register (hz : s.busy = false ∨ r.hazardous = false)
    (h : s.pending = .host ⟨off, 4, .read⟩ :: rest) (hr : Reg.ofOffset off = some r)
    (hread : readReg r { s with pending := rest } = (v, { s with pending := rest })) :
    step s = .next { s with pending := rest, rdata := v } := by
  rw [step_read h hr, hostRead_of_no_hazard (s := { s with pending := rest }) hz, hread]
  rfl

/-- A write by the register's own rule. -/
theorem step_write_register (hz : s.busy = false ∨ r.hazardous = false)
    (h : s.pending = .host ⟨off, 4, .write v⟩ :: rest) (hr : Reg.ofOffset off = some r) :
    step s = .next (writeReg r v { s with pending := rest }) := by
  rw [step_write h hr, hostWrite_of_no_hazard (s := { s with pending := rest }) hz]

end

/-- Settles O46, offset by offset: no register but MDATA changes by a read. -/
theorem idleReadsReturnRegisters : Obligations.IdleReadsReturnRegisters := by
  intro s rest off v hbusy hp hread
  rcases hread with hmem | ⟨h4, hlo, hhi, rfl⟩
  · suffices h : ∀ p : Nat × Word, p ∈ _ → s.pending = .host ⟨p.1, 4, .read⟩ :: rest →
        step s = .next { s with pending := rest, rdata := p.2 } from h (off, v) hmem hp
    rw [← List.forall_iff_forall_mem]
    and_intros <;> exact fun hp => step_read_register (.inl hbusy) hp rfl rfl
  · exact step_read_register (.inl hbusy) hp (ofOffset_reserved h4 hlo hhi) rfl

/-- Settles O48, offset by offset; STATUS by `writeStatus_spec`. -/
theorem idleWritesSetRegisters : Obligations.IdleWritesSetRegisters := by
  intro s rest off v t hbusy hp hwrite
  have hstep {r : Reg} (hr : Reg.ofOffset off = some r) : step s = .next (writeReg r v { s with pending := rest }) :=
    step_write_register (.inl hbusy) hp hr
  rcases hwrite with hmem | ⟨rfl, hbit, rfl⟩ | ⟨hoff | ⟨h4, hlo, hhi⟩, rfl⟩
  · simp only [List.mem_cons, Prod.mk.injEq, List.not_mem_nil, or_false] at hmem
    obtain ⟨rfl, rfl⟩ | ⟨rfl, rfl⟩ | ⟨rfl, rfl⟩ | ⟨rfl, rfl⟩ | ⟨rfl, rfl⟩ | ⟨rfl, rfl⟩ | ⟨rfl, rfl⟩ := hmem
    · rw [hstep (r := .status) rfl, writeReg, writeStatus_spec]
    all_goals exact hstep rfl
  · rw [hstep (r := .ctrl) rfl, writeReg, writeCtrl, if_neg (Bool.eq_false_iff.mp hbit)]
  · suffices h : ∀ o ∈ _, off = o → step s = .next { s with pending := rest } from h off hoff rfl
    rw [← List.forall_iff_forall_mem]
    and_intros <;> (rintro rfl; exact hstep rfl)
  · exact hstep (ofOffset_reserved h4 hlo hhi)

/-- Settles O49: the offsets are those of the hazardous registers. -/
theorem hazardAccessSetsHazOnly : Obligations.HazardAccessSetsHazOnly := by
  intro s rest off hbusy h4 hlo hhi
  obtain ⟨r, hr, hz⟩ := ofOffset_hazardous h4 hlo hhi
  refine ⟨fun v hp => ?_, fun hp => ⟨(s.draw 32).1, s.draws + 1, ?_⟩⟩
  · rw [step_write hp hr, hostWrite, if_pos ⟨hbusy, hz⟩]
    rfl
  · rw [step_read hp hr, hostRead, if_pos ⟨hbusy, hz⟩]
    rfl

/-- Settles O50: the four kinds of offset are not hazardous. -/
theorem busyAccessOutsideHazardRange : Obligations.BusyAccessOutsideHazardRange := by
  intro s rest off hbusy h4 hoff
  constructor
  · intro hp
    rcases hoff with rfl | rfl | rfl | ⟨hlo, hhi⟩
    · exact step_read_register (r := .id) (.inr rfl) hp rfl rfl
    · exact step_read_register (r := .ctrl) (.inr rfl) hp rfl rfl
    · exact step_read_register (r := .status) (.inr rfl) hp rfl rfl
    · rw [if_neg (by omega), if_neg (by omega), if_neg (by omega)]
      exact step_read_register (r := .reserved) (.inr rfl) hp (ofOffset_reserved h4 hlo hhi) rfl
  · intro v hp hbit
    rcases hoff with rfl | rfl | rfl | ⟨hlo, hhi⟩
    · exact step_write_register (r := .id) (.inr rfl) hp rfl
    · rw [step_write_register (r := .ctrl) (.inr rfl) hp rfl, writeReg, writeCtrl, if_neg (Bool.eq_false_iff.mp (hbit rfl))]
      rfl
    · rw [step_write_register (r := .status) (.inr rfl) hp rfl, writeReg, writeStatus_spec]
      rfl
    · rw [if_neg (by omega), if_neg (by omega)]
      exact step_write_register (r := .reserved) (.inr rfl) hp (ofOffset_reserved h4 hlo hhi)

/-- Settles O51: the width and the alignment are checked first, and no register lies at 0x80 or above. -/
theorem accessOutsideInterfaceIsRefused : Obligations.AccessOutsideInterfaceIsRefused := by
  intro s a rest hp
  rw [step_host hp]
  refine ⟨fun hbad => if_pos hbad, fun hbytes h4 hoff => ?_⟩
  have hnone : Reg.ofOffset a.offset = none :=
    Option.eq_none_iff_forall_ne_some.mpr fun r hr => by
      obtain ⟨-, hle, -⟩ := ofOffset_bounds hr
      omega
  rw [hostAccess, if_neg (by simp [hbytes, h4]), hnone]

/-! ## The memory window -/

section
variable {s : State} {rest : List Event} {v : Word} {vw : View}

/-- An idle MDATA write is the selected view's write at MADDR (20_memory.md R212). -/
theorem step_mdataWrite (hbusy : s.busy = false) (hp : s.pending = .host ⟨0x4C, 4, .write v⟩ :: rest)
    (hv : View.ofMsel s.msel = vw) :
    step s = .next (stepMaddr (viewWrite vw s.maddr.toNat v { s with pending := rest })) := by
  subst hv
  exact step_write_register (r := .mdata) (.inl hbusy) hp rfl

/-- An idle MDATA read of a view whose word needs no draw (20_memory.md R212). -/
theorem step_mdataRead (hbusy : s.busy = false) (hp : s.pending = .host ⟨0x4C, 4, .read⟩ :: rest)
    (hv : View.ofMsel s.msel = vw)
    (hread : viewRead vw s.maddr.toNat { s with pending := rest } = (v, { s with pending := rest })) :
    step s = .next { s with pending := rest, maddr := s.maddr + 1, rdata := v } := by
  subst hv
  rw [step_read (r := .mdata) hp rfl, hostRead_of_no_hazard (s := { s with pending := rest }) (.inl hbusy), readReg,
    mdataRead]
  simp only [hread]
  rfl

theorem ofMsel_reserved {m : BitVec 4} (h : 12 ≤ m.toNat) : View.ofMsel m = .reserved := by
  revert m
  decide

/-- R211, R214 to R221: what lies outside a view's range reads as 0 and ignores writes. -/
theorem viewRead_outside {i : Nat} (h : vw.size s.params ≤ i) : s.viewRead vw i = (0, s) := if_pos h

theorem viewWrite_outside {i : Nat} (h : vw.size s.params ≤ i) : s.viewWrite vw i v = s := if_pos h

/-- The views that MSEL = 5 and above select ignore writes (20_memory.md R218 to R222). -/
theorem viewWrite_readOnly {m : BitVec 4} (h : 5 ≤ m.toNat) (i : Nat) (s : State) :
    s.viewWrite (View.ofMsel m) i v = s := by
  have hview : ∀ m : BitVec 4, 5 ≤ m.toNat → View.ofMsel m ∈ [View.nodeInfo, .nodeLeft, .nodeRight, .nodeWlo, .nodeWhi,
      .codeLen, .codeBits, .reserved] := by decide
  have hmem := hview m h
  unfold viewWrite
  split
  · rfl
  · split <;> simp_all

end

/-! ### The views' own rules (20_memory.md R213 to R221) -/

section
variable {s : State} {i : Nat} (v : Word)

theorem viewWrite_symin (h : i < s.params.symCap) :
    s.viewWrite .symin i v = { s with symin := s.symin.write i (v.extractLsb' 0 16) } := if_neg (not_le.mpr h)

theorem viewWrite_symout (h : i < s.params.symCap) :
    s.viewWrite .symout i v = s.writeSymout i (v.extractLsb' 0 16) := if_neg (not_le.mpr h)

theorem viewWrite_bytemem (h : i < s.params.byteCap) :
    s.viewWrite .bytemem i v = s.writeByte i (v.extractLsb' 0 8) := if_neg (not_le.mpr h)

theorem viewWrite_freqLo {f : Weight} (h : i < alphabetSize) (hf : s.freq.get? i = some f) :
    s.viewWrite .freqLo i v = s.writeFreq i (f.extractLsb' 32 32 ++ v) := by
  have hsize : ¬ View.size s.params .freqLo ≤ i := not_le.mpr h
  rw [viewWrite, if_neg hsize]
  simp only [readFreq_some hf]

theorem viewWrite_freqHi {f : Weight} (h : i < alphabetSize) (hf : s.freq.get? i = some f) :
    s.viewWrite .freqHi i v = s.writeFreq i (v ++ f.extractLsb' 0 32) := by
  have hsize : ¬ View.size s.params .freqHi ≤ i := not_le.mpr h
  rw [viewWrite, if_neg hsize]
  simp only [readFreq_some hf]

/-- A read of a written entry draws nothing. -/
theorem entry_of_some {w : Nat} {o : Option (BitVec w)} {x : BitVec w} (h : o = some x) : s.entry o = (x, s) := by
  rw [h, entry_some]

theorem viewRead_symin {x : Symbol} (h : i < s.params.symCap) (hx : s.symin.get? i = some x) :
    s.viewRead .symin i = (x.setWidth 32, s) :=
  (if_neg (not_le.mpr h)).trans (congrArg (fun p : Symbol × State => (p.1.setWidth 32, p.2)) (readSymin_some hx))

theorem viewRead_symout {x : Symbol} (h : i < s.params.symCap) (hx : s.symout.get? i = some x) :
    s.viewRead .symout i = (x.setWidth 32, s) :=
  (if_neg (not_le.mpr h)).trans (congrArg (fun p : Symbol × State => (p.1.setWidth 32, p.2)) (entry_of_some hx))

theorem viewRead_bytemem {x : Byte} (h : i < s.params.byteCap) (hx : s.bytemem.get? i = some x) :
    s.viewRead .bytemem i = (x.setWidth 32, s) :=
  (if_neg (not_le.mpr h)).trans (congrArg (fun p : Byte × State => (p.1.setWidth 32, p.2)) (entry_of_some hx))

theorem viewRead_freqLo {x : Weight} (h : i < alphabetSize) (hx : s.freq.get? i = some x) :
    s.viewRead .freqLo i = (x.extractLsb' 0 32, s) := by
  have hsize : ¬ View.size s.params .freqLo ≤ i := not_le.mpr h
  rw [viewRead, if_neg hsize]
  simp only [readFreq_some hx]

theorem viewRead_freqHi {x : Weight} (h : i < alphabetSize) (hx : s.freq.get? i = some x) :
    s.viewRead .freqHi i = (x.extractLsb' 32 32, s) := by
  have hsize : ¬ View.size s.params .freqHi ≤ i := not_le.mpr h
  rw [viewRead, if_neg hsize]
  simp only [readFreq_some hx]

/-- A node view's word, from NNODES on and without a tree 0 (20_memory.md R218, R219). -/
theorem nodeView_eq (s : State) (i : Nat) (f : NodeRec → Word) :
    s.nodeView i f = if s.treeValid = true ∧ i < s.nnodes.toNat then f (s.nodeAt i) else 0 := by
  rw [nodeView]
  by_cases hv : s.treeValid = true <;> by_cases hi : i < s.nnodes.toNat <;> simp [hv, hi, Nat.not_lt.mp]

/-- A code view's word, for an absent symbol and without a table 0 (20_memory.md R220, R221). -/
theorem codeView_eq (s : State) (sym : Nat) (f : CodeEntry → Word) :
    s.codeView sym f = if s.ctValid = true ∧ (s.codeAt sym).valid = true then f (s.codeAt sym) else 0 := by
  rw [codeView]
  cases s.ctValid <;> cases (s.codeAt sym).valid <;> rfl

end

/-- A write changes one entry. -/
theorem sameOutside_write {α : Type} [DecidableEq α] (m : Memory α) (a : Nat) (v : α) :
    m.sameOutside (m.write a v) a (a + 1) :=
  fun _ hb => Memory.get?_write_other _ _ (by omega)

/-- Settles O52, view by view. -/
theorem windowWriteSetsEntry : Obligations.WindowWriteSetsEntry := by
  intro s rest v hbusy hp a
  have hview {m : BitVec 4} (hm : s.msel = m) : View.ofMsel s.msel = View.ofMsel m := congrArg _ hm
  refine ⟨fun hm ha => ?_, fun hm ha => ?_, fun hm ha => ?_, fun f hm ha hf => ?_, fun f hm ha hf => ?_⟩ <;>
    refine ⟨_, (step_mdataWrite hbusy hp (hview hm)).trans ?_, Memory.get?_write_same _ _ _, sameOutside_write _ _ _⟩
  · exact congrArg (fun u => Host.Outcome.next (stepMaddr u)) (viewWrite_symin (s := { s with pending := rest }) v ha)
  · exact congrArg (fun u => Host.Outcome.next (stepMaddr u)) (viewWrite_symout (s := { s with pending := rest }) v ha)
  · exact congrArg (fun u => Host.Outcome.next (stepMaddr u)) (viewWrite_bytemem (s := { s with pending := rest }) v ha)
  · exact congrArg (fun u => Host.Outcome.next (stepMaddr u)) (viewWrite_freqLo (s := { s with pending := rest }) v ha hf)
  · exact congrArg (fun u => Host.Outcome.next (stepMaddr u)) (viewWrite_freqHi (s := { s with pending := rest }) v ha hf)

/-- Settles O53: read-only views and indexes outside a view's range ignore the write. -/
theorem windowWriteIgnored : Obligations.WindowWriteIgnored := by
  intro s rest v hbusy hp hcases
  have hignored (h : viewWrite (View.ofMsel s.msel) s.maddr.toNat v { s with pending := rest } =
      { s with pending := rest }) : step s = .next { s with pending := rest, maddr := s.maddr + 1 } := by
    rw [step_mdataWrite hbusy hp rfl, h]
    rfl
  refine hignored ?_
  rcases hcases with h | ⟨hm | hm, ha⟩ | ⟨hm, ha⟩ | ⟨hm | hm, ha⟩
  · exact viewWrite_readOnly h _ _
  all_goals rw [hm]; exact viewWrite_outside ha

/-- Settles O54, view by view. -/
theorem windowReadReturnsEntry : Obligations.WindowReadReturnsEntry := by
  intro s rest v hbusy hp a nodeWord hcases
  have hview {m : BitVec 4} (hm : s.msel = m) : View.ofMsel s.msel = View.ofMsel m := congrArg _ hm
  have hstep {vw : View} (hv : View.ofMsel s.msel = vw)
      (hread : viewRead vw a { s with pending := rest } = (v, { s with pending := rest })) :
      step s = .next { s with pending := rest, maddr := s.maddr + 1, rdata := v } := step_mdataRead hbusy hp hv hread
  have houtside (hsize : (View.ofMsel s.msel).size s.params ≤ a) (hv : v = 0) :
      step s = .next { s with pending := rest, maddr := s.maddr + 1, rdata := v } :=
    hstep rfl (hv ▸ viewRead_outside hsize)
  rcases hcases with ⟨x, hm, ha, hx, rfl⟩ | ⟨x, hm, ha, hx, rfl⟩ | ⟨x, hm, ha, hx, rfl⟩ | ⟨x, hm, ha, hx, rfl⟩ |
    ⟨x, hm, ha, hx, rfl⟩ | ⟨ha, hnode⟩ | ⟨hv, hout⟩
  · exact hstep (hview hm) (viewRead_symin ha hx)
  · exact hstep (hview hm) (viewRead_symout ha hx)
  · exact hstep (hview hm) (viewRead_bytemem ha hx)
  · exact hstep (hview hm) (viewRead_freqLo ha hx)
  · exact hstep (hview hm) (viewRead_freqHi ha hx)
  · have hword (f : NodeRec → Word) : nodeView { s with pending := rest } a f = nodeWord f := nodeView_eq _ a f
    rcases hnode with ⟨hm, rfl⟩ | ⟨hm, rfl⟩ | ⟨hm, rfl⟩ | ⟨hm, rfl⟩ | ⟨hm, rfl⟩ <;>
      exact hstep (hview hm) ((if_neg (not_le.mpr ha)).trans (congrArg (·, _) (hword _)))
  · refine houtside ?_ hv
    rcases hout with h | ⟨h, ha⟩ | ⟨hm, ha⟩ | ⟨hm | hm | hm, ha⟩ | ⟨hlo, hhi, ha⟩ | ⟨hm, ha⟩
    · rw [ofMsel_reserved h]
      exact Nat.zero_le _
    · have hmsel : ∀ m : BitVec 4, m.toNat < 2 → m = 0 ∨ m = 1 := by decide
      rcases hmsel _ h with hm | hm <;> rw [hm] <;> exact ha
    · rw [hm]; exact ha
    · rw [hm]; exact ha
    · rw [hm]; exact ha
    · rw [hm]; exact ha
    · have hmsel : ∀ m : BitVec 4, 5 ≤ m.toNat → m.toNat ≤ 9 → m = 5 ∨ m = 6 ∨ m = 7 ∨ m = 8 ∨ m = 9 := by decide
      rcases hmsel _ hlo hhi with hm | hm | hm | hm | hm <;> rw [hm] <;> exact ha
    · rw [hm]; exact ha

/-! ### The code views -/

theorem bitsOf_getElem? (w n k : Nat) (hk : k < w) : (bitsOf w n)[k]? = some (n.testBit (w - 1 - k)) := by
  induction w generalizing k with
  | zero => exact absurd hk (Nat.not_lt_zero k)
  | succ w ih =>
    cases k with
    | zero => rfl
    | succ k =>
      rw [bitsOf, List.getElem?_cons_succ, ih k (by omega)]
      congr 2
      omega

/-- The bits of val(bs), the first one on top (00_scope.md R21). -/
theorem testBit_valOf {bs : Bits} {k : Nat} (hk : k < bs.length) :
    some ((valOf bs).testBit (bs.length - 1 - k)) = bs[k]? := by
  rw [← bitsOf_getElem? bs.length (valOf bs) k hk, bitsOf_valOf]

/-- R221: bit 31 - k of word j of a code is code bit 32 j + k below its length. -/
theorem codeWord_getLsbD (c : CodeEntry) (j : Nat) {k : Nat} (hk : k < 32) :
    (codeWord c j).getLsbD (31 - k) = (decide (32 * j + k < c.len.toNat) && c.bits.getD (32 * j + k) false) := by
  have hbit := testBit_valOf (bs := (List.range 32).map fun t =>
    if 32 * j + t < c.len.toNat then c.bits.getD (32 * j + t) false else false) (k := k) (by simpa using hk)
  rw [List.length_map, List.length_range, List.getElem?_map, List.getElem?_range hk, Option.map_some,
    Option.some.injEq] at hbit
  rw [codeWord, word, BitVec.getLsbD_ofNat, hbit]
  by_cases hlen : 32 * j + k < c.len.toNat <;> simp [hlen, show 31 - k < 32 by omega]

/-- Settles O55: CODE_LEN's word by the view's rule, CODE_BITS' word bit by bit. -/
theorem codeViewsReadTheTable : Obligations.CodeViewsReadTheTable := by
  intro s rest v hbusy hp a c hcases
  have hview {m : BitVec 4} (hm : s.msel = m) : View.ofMsel s.msel = View.ofMsel m := congrArg _ hm
  rcases hcases with ⟨hm, ha, hv⟩ | ⟨hm, ha, hbits⟩
  · refine step_mdataRead hbusy hp (hview hm) ((if_neg (not_le.mpr ha)).trans (congrArg (·, _) ?_))
    rw [hv]
    exact codeView_eq { s with pending := rest } a _
  · refine step_mdataRead hbusy hp (hview hm) ((if_neg (not_le.mpr ha)).trans (congrArg (·, _) ?_))
    refine (codeView_eq { s with pending := rest } _ _).trans (BitVec.eq_of_getLsbD_eq fun j hj => ?_)
    have hbit := hbits (31 - j) (by omega)
    rw [show 31 - (31 - j) = j by omega] at hbit
    have hword := codeWord_getLsbD c (a % 2 ^ 11) (k := 31 - j) (by omega)
    rw [show 31 - (31 - j) = j by omega] at hword
    rw [hbit]
    split
    · next hvalid =>
      obtain ⟨hct, hc⟩ := hvalid
      refine hword.trans ?_
      rw [show s.ctValid = true from hct, show c.valid = true from hc]
      rfl
    · next hvalid =>
      have hnot : (s.ctValid && c.valid) = false := by
        rw [Bool.and_eq_false_iff]
        exact not_and_or.mp hvalid |>.imp Bool.eq_false_iff.mpr Bool.eq_false_iff.mpr
      rw [hnot]
      simp

end Sys2Proof.Machine
end

/-! What each command can do from any state at all: the units it may write, the errors it can raise, the results it lists
(10_state.md R107, R113, R121 to R150; 60_exceptions.md R703, R710). -/
section

namespace Sys2Proof

/-! ## The units a command writes -/

namespace Instr

/-- NODE and the registers that describe its tree (10_state.md R107, R145). -/
def writesTree : Instr → Bool
  | .treeBuild | .treeDeser | .decode | .encAll => true
  | _ => false

/-- CT_VALID (10_state.md R107). -/
def writesCtValid : Instr → Bool
  | .treeBuild | .treeDeser | .codeGen | .decode | .encAll => true
  | _ => false

/-- CODE (10_state.md R150). -/
def writesCode : Instr → Bool
  | .codeGen | .encAll => true
  | _ => false

/-- FREQ (10_state.md R133). -/
def writesFreq : Instr → Bool
  | .freqClr | .freqCount | .encAll => true
  | _ => false

/-- OUT_N and SYMOUT (10_state.md R121, R131). -/
def writesOutput : Instr → Bool
  | .decode => true
  | _ => false

/-- The writer (10_state.md R117, R118, R132). -/
def writesWriter : Instr → Bool
  | .bwInit | .bwPut1 _ | .bwPutN _ | .bwFinal | .treeSer | .encode | .encAll => true
  | _ => false

/-- The reader (10_state.md R119, R120). -/
def writesReader : Instr → Bool
  | .brInit | .brGet1 | .brGetN _ | .treeDeser | .decode => true
  | _ => false

/-- RES0 (10_state.md R113). -/
def listsRes0 : Instr → Bool
  | .nop | .bwInit | .bwPut1 _ | .bwPutN _ | .brInit | .freqClr => false
  | _ => true

/-- RES1 (10_state.md R113). -/
def listsRes1 : Instr → Bool
  | .nop | .bwInit | .bwPut1 _ | .bwPutN _ | .brInit | .freqClr | .brGet1 | .brGetN _ | .treeSer => false
  | _ => true

end Instr

namespace Machine

/-! ## Outcomes of pseudocode -/

/-- What the pseudocode comes to meets Q at its end and E at a `raise`. -/
def Res.Sat {α : Type} (r : Res α) (Q : α → State → Prop) (E : Err → State → Prop) : Prop :=
  match r with
  | .ok a u => Q a u
  | .raise e u => E e u

namespace Res

variable {α β : Type} {r : Res α} {Q Q' : α → State → Prop} {E E' : Err → State → Prop}

theorem Sat.mono (h : r.Sat Q E) (hQ : ∀ a u, Q a u → Q' a u) (hE : ∀ e u, E e u → E' e u) : r.Sat Q' E' := by
  cases r with
  | ok a u => exact hQ a u h
  | raise e u => exact hE e u h

theorem Sat.and (h : r.Sat Q E) (h' : r.Sat Q' E') :
    r.Sat (fun a u => Q a u ∧ Q' a u) (fun e u => E e u ∧ E' e u) := by
  cases r <;> exact ⟨h, h'⟩

theorem Sat.andThen {R : β → State → Prop} {k : α → State → Res β} (h : r.Sat Q E)
    (hk : ∀ a u, Q a u → (k a u).Sat R E) : (r.andThen k).Sat R E := by
  cases r with
  | ok a u => exact hk a u h
  | raise e u => exact h

end Res

/-! ## The outcome of a command -/

/-- The state s, with the units that command i writes taken from u, and the draws. -/
def State.footprint (s : State) (i : Instr) (u : State) : State :=
  { s with
    nleaves := bif i.writesTree then u.nleaves else s.nleaves
    nnodes := bif i.writesTree then u.nnodes else s.nnodes
    root := bif i.writesTree then u.root else s.root
    treeValid := bif i.writesTree then u.treeValid else s.treeValid
    node := bif i.writesTree then u.node else s.node
    ctValid := bif i.writesCtValid then u.ctValid else s.ctValid
    code := bif i.writesCode then u.code else s.code
    freq := bif i.writesFreq then u.freq else s.freq
    outN := bif i.writesOutput then u.outN else s.outN
    symout := bif i.writesOutput then u.symout else s.symout
    bwNbits := bif i.writesWriter then u.bwNbits else s.bwNbits
    bwTail := bif i.writesWriter then u.bwTail else s.bwTail
    bytemem := bif i.writesWriter then u.bytemem else s.bytemem
    brPos := bif i.writesReader then u.brPos else s.brPos
    brLimit := bif i.writesReader then u.brLimit else s.brLimit
    draws := u.draws }

/-- The results that command i's rule does not list are left alone (10_state.md R113). -/
def Results.listedBy (q : Results) (i : Instr) : Prop :=
  (i.listsRes0 = false → q.res0 = none) ∧ (i.listsRes1 = false → q.res1 = none)

/-- The errors of command i on any input; for ENC_ALL also those that only unwritten symbols could lead to (log 14). -/
def errorsOf : Instr → List Err
  | .encAll => .weightOverflow :: .internalInvariant :: canRaise .encAll
  | i => canRaise i

/-- The outcome r of command i from state s: inside i's units, with i's results and i's errors. -/
def Ends (i : Instr) (s : State) (r : Res Results) : Prop :=
  r.Sat (fun q u => u = s.footprint i u ∧ q.listedBy i) (fun e u => u = s.footprint i u ∧ e ∈ errorsOf i)

/-! ## The writer -/

namespace State

/-- u is s but for the writer and the draws. -/
def WriterOnly (s u : State) : Prop :=
  u = { s with bwNbits := u.bwNbits, bwTail := u.bwTail, bytemem := u.bytemem, draws := u.draws }

theorem WriterOnly.trans {s t u : State} (h1 : s.WriterOnly t) (h2 : t.WriterOnly u) : s.WriterOnly u := by
  unfold WriterOnly at h1 h2 ⊢
  rw [h1] at h2
  exact h2

theorem appendAll_sat (fields : List Bits) (s : State) :
    (s.appendAll fields).Sat (fun _ u => s.WriterOnly u) (fun e u => s.WriterOnly u ∧ e = .outputOverflow) := by
  induction fields generalizing s with
  | nil => exact (rfl : s.WriterOnly s)
  | cons bs fields ih =>
    rw [appendAll, appendBits]
    split
    · exact ⟨rfl, rfl⟩
    · obtain ⟨n, tl, m, hpush⟩ := foldl_pushBit_only bs s
      have hu : s.WriterOnly (bs.foldl pushBit s) := by rw [hpush]; exact rfl
      exact (ih _).mono (fun _ _ h => hu.trans h) (fun _ _ h => ⟨hu.trans h.1, h.2⟩)

theorem appendBits_sat (bs : Bits) (s : State) :
    (s.appendBits bs).Sat (fun _ u => s.WriterOnly u) (fun e u => s.WriterOnly u ∧ e = .outputOverflow) :=
  appendAll_singleton bs s ▸ appendAll_sat [bs] s

theorem finalize_only (s : State) : s.WriterOnly s.finalize.2 := by
  simp only [finalize]
  split <;> rfl

theorem encodeSymbols_sat (n : Nat) : ∀ (i : Nat) (s : State), (s.encodeSymbols n i).Sat (fun _ u => s.WriterOnly u)
    (fun e u => s.WriterOnly u ∧ (e = .outputOverflow ∨ e = .internalInvariant)) := by
  induction n with
  | zero => exact fun _ s => (rfl : s.WriterOnly s)
  | succ n ih =>
    intro i s
    obtain ⟨sym, d, hread, -⟩ := readSymin_spec i s
    have hdraw : s.WriterOnly { s with draws := d } := rfl
    rw [encodeSymbols, hread]
    simp only
    split
    · refine Res.Sat.andThen (Q := fun _ u => s.WriterOnly u) ?_ fun _ u hu => ?_
      · exact (appendBits_sat _ _).mono (fun _ _ h => hdraw.trans h) fun _ _ h => ⟨hdraw.trans h.1, .inl h.2⟩
      · exact (ih _ u).mono (fun _ _ h => hu.trans h) fun _ _ h => ⟨hu.trans h.1, h.2⟩
    · exact ⟨hdraw, .inr rfl⟩

theorem encodeBody_sat (nodes : List Visited) (s : State) : (s.encodeBody nodes).Sat (fun _ u => s.WriterOnly u)
    (fun e u => s.WriterOnly u ∧ (e = .outputOverflow ∨ e = .internalInvariant)) := by
  have hinit : s.WriterOnly s.initWriter := rfl
  refine Res.Sat.andThen (Q := fun _ u => s.WriterOnly u) ?_ fun _ u hu => ?_
  · exact (appendAll_sat _ _).mono (fun _ _ h => hinit.trans h) fun _ _ h => ⟨hinit.trans h.1, .inl h.2⟩
  refine Res.Sat.andThen (Q := fun _ v => s.WriterOnly v) ?_ fun _ v hv => ?_
  · exact (appendBits_sat _ _).mono (fun _ _ h => hu.trans h) fun _ _ h => ⟨hu.trans h.1, .inl h.2⟩
  refine Res.Sat.andThen (Q := fun _ w => s.WriterOnly w) ?_ fun _ w hw => hw.trans w.finalize_only
  exact (encodeSymbols_sat _ _ v).mono (fun _ _ h => hv.trans h) fun _ _ h => ⟨hv.trans h.1, h.2⟩

/-! ## The reader, the frequency counter, the tree and the code table -/

theorem readBits_sat (n : Nat) (s : State) :
    (s.readBits n).Sat (fun _ u => u = { s with brPos := u.brPos, draws := u.draws })
      (fun e u => u = s ∧ e = .malformedContainer) := by
  obtain ⟨x, d, hread, -⟩ | ⟨hraise, -⟩ := readBits_cases n s
  · rw [hread]; exact rfl
  · rw [hraise]; exact ⟨rfl, rfl⟩

theorem freqCount_sat (s : State) :
    s.freqCount.Sat (fun _ u => u = { s with freq := u.freq, draws := u.draws } ∧ Memory.wf alphabetSize u.freq)
      (fun e u => u = s ∧ e = .badArgument) := by
  by_cases h : s.nsym.toNat ≤ s.params.symCap
  · obtain ⟨m, d, hcount, -, hwf⟩ := countSymbols_spec s.symbolCount 0 s.clearFreq
    have hm : Memory.wf alphabetSize m := hwf (Memory.wf_fill _ _)
    obtain ⟨l, d, hscan, -⟩ := nonzeroFreq_spec (s := { s.clearFreq with freq := m, draws := d }) hm
    rw [freqCount_of_le h, hcount, hscan]
    exact ⟨rfl, hm⟩
  · have hraise : s.freqCount = .raise .badArgument s := if_pos (not_le.mp h)
    rw [hraise]
    exact ⟨rfl, rfl⟩

/-- u is s but for the tree, the validity of the code table, and the draws. -/
def TreeOnly (s u : State) : Prop :=
  u = { s with
    node := u.node, root := u.root, nleaves := u.nleaves, nnodes := u.nnodes, treeValid := u.treeValid
    ctValid := u.ctValid, draws := u.draws }

theorem nonzeroFreq_only (s : State) : ∃ l d, s.nonzeroFreq = (l, { s with draws := d }) := by
  unfold nonzeroFreq
  split
  · exact ⟨_, s.draws, rfl⟩
  · obtain ⟨l, d, h, -⟩ := scanFreq_spec alphabetSize 0 s
    exact ⟨l, d, h⟩

theorem buildTree_only (leaves : List (Nat × Weight)) (s : State) : s.TreeOnly (s.buildTree leaves) := by
  unfold buildTree
  cases leafQueue 0 leaves <;> rfl

theorem treeBuild_sat (s : State) : s.treeBuild.Sat (fun _ u => s.TreeOnly u)
    (fun e u => s.TreeOnly u ∧ e ∈ canRaise .treeBuild) := by
  obtain ⟨l, d, hscan⟩ := s.nonzeroFreq_only
  rw [treeBuild, hscan]
  simp only
  split
  · exact ⟨rfl, by simp [canRaise]⟩
  · split
    · exact ⟨rfl, by simp [canRaise]⟩
    · have h := buildTree_only l { s with draws := d }
      unfold TreeOnly at h
      rw [h]
      exact rfl

/-- A list of distinct symbols below the alphabet's size, as FREQ's scan gives them. -/
theorem nodup_symbols {leaves : List (Nat × Weight)} (hsorted : leaves.Pairwise fun c e => c.1 < e.1)
    (hlt : ∀ c ∈ leaves, c.1 < alphabetSize) : (leaves.map fun c => BitVec.ofNat 16 c.1).Nodup := by
  rw [List.Nodup, List.pairwise_map]
  refine hsorted.imp_of_mem fun {c e} hc he hce heq => ?_
  rw [← symbol_toNat (hlt c hc), ← symbol_toNat (hlt e he), heq] at hce
  exact lt_irrefl _ hce

/-- The tree in NODE, and that it has distinct symbols, as TREE_BUILD leaves it (43_tree.md R483; 10_state.md R141). -/
structure BuiltTree (u : State) (t : HTree) : Prop where
  valid : u.treeValid = true
  noTable : u.ctValid = false
  tree : u.TreeIs t
  leaves : t.leaves ≤ alphabetSize
  distinct : (t.paths.map Prod.fst).Nodup

/-- What TreeBuildBody() leaves at its end, from a FREQ in canonical form, written or not. -/
theorem treeBuild_builds {s : State} (hw : Memory.wf alphabetSize s.freq) :
    s.treeBuild.Sat (fun _ u => (∃ t, u.BuiltTree t) ∧ (Memory.wf nodeCap s.node → Memory.wf nodeCap u.node))
      (fun _ u => u = { s with draws := u.draws }) := by
  obtain ⟨leaves, d, hscan, hsorted, hlt⟩ := nonzeroFreq_spec hw
  have hdistinct := nodup_symbols hsorted fun c hc => (hlt c hc).1
  have hcap : leaves.length ≤ alphabetSize := by
    have := hdistinct.length_le_card
    rwa [List.length_map, ← FinEnum.card_eq_fintypeCard, FinEnum.card_bitVec] at this
  rw [treeBuild, hscan]
  simp only
  split
  · exact rfl
  · next hne =>
    split
    · exact rfl
    · next hweight =>
      have hnil : leaves ≠ [] := fun h => hne (by simp [h])
      obtain ⟨nd, t, hb, htree, hK, hperm⟩ := buildTree_treeIs { s with draws := d } hnil hcap (not_lt.mp hweight)
      obtain ⟨nd', -, hb', -, -, -, -, hwf, -⟩ := buildTree_spec { s with draws := d } hnil hcap (not_lt.mp hweight)
      refine ⟨⟨t, ?_, ?_, htree, hK.trans_le hcap, hperm.nodup_iff.mpr hdistinct⟩, fun h => ?_⟩
      · rw [hb]; rfl
      · rw [hb]; rfl
      · rw [hb']; exact hwf h

/-- u is s but for the tree, the validity of the code table, the cursor, and the draws. -/
def ParseOnly (s u : State) : Prop :=
  u = { s with
    node := u.node, root := u.root, nleaves := u.nleaves, nnodes := u.nnodes, treeValid := u.treeValid
    ctValid := u.ctValid, brPos := u.brPos, draws := u.draws }

theorem treeDeser_sat (s : State) : s.treeDeser.Sat (fun _ u => s.ParseOnly u)
    (fun e u => s.ParseOnly u ∧ e = .malformedContainer) := by
  by_cases hpos : s.brPos.toNat ≤ s.brLimit.toNat
  · obtain ⟨nd, p, d, -, -, -, hraise | ⟨root, t, -, -, -, hok⟩⟩ := s.treeDeser_spec hpos
    · rw [hraise]; exact ⟨rfl, rfl⟩
    · rw [hok]; exact rfl
  · have hraise := parse_at_end (s := s.clearTree) (not_le.mp hpos).le nodeCap 0 0 []
    rw [treeDeser, hraise]; exact ⟨rfl, rfl⟩

theorem codeGen_sat (nodes : List Visited) (s : State) :
    (s.codeGen nodes).Sat
      (fun _ u => u = { s with code := u.code, ctValid := u.ctValid } ∧ Memory.wf alphabetSize u.code)
      (fun e u => u = { s with code := u.code, ctValid := u.ctValid } ∧ Memory.wf alphabetSize u.code ∧
        e = .internalInvariant) := by
  obtain ⟨c, hstate, hwf, hraises⟩ := visitNodes_spec nodes 0 (s.setCtValid false).clearCode
  have hc : Memory.wf alphabetSize c := hwf (Memory.wf_fill _ _)
  rw [codeGen]
  cases hloop : visitNodes nodes 0 (s.setCtValid false).clearCode with
  | ok mx u =>
    rw [hloop] at hstate
    obtain rfl : u = _ := hstate
    exact ⟨rfl, hc⟩
  | raise e u =>
    rw [hloop] at hstate
    obtain rfl : u = _ := hstate
    exact ⟨rfl, hc, hraises _ _ hloop⟩

/-! ## The decoder -/

/-- u is s but for the cursor, the output, and the draws. -/
def PayloadOnly (s u : State) : Prop :=
  u = { s with brPos := u.brPos, outN := u.outN, symout := u.symout, draws := u.draws }

theorem PayloadOnly.trans {s t u : State} (h1 : s.PayloadOnly t) (h2 : t.PayloadOnly u) : s.PayloadOnly u := by
  unfold PayloadOnly at h1 h2 ⊢
  rw [h1] at h2
  exact h2

theorem decodeSymbols_sat (n i : Nat) {s : State} (hpos : s.brPos.toNat ≤ s.brLimit.toNat) :
    (s.decodeSymbols n i).Sat (fun _ u => s.PayloadOnly u) (fun e u => s.PayloadOnly u ∧ e = .malformedContainer) := by
  obtain ⟨so, p, d, hstate, -, -, -, -, hraises, -⟩ := decodeSymbols_spec n i s hpos
  cases hloop : s.decodeSymbols n i with
  | ok a u =>
    rw [hloop] at hstate
    obtain rfl : u = _ := hstate
    exact rfl
  | raise e u =>
    rw [hloop] at hstate
    obtain rfl : u = _ := hstate
    exact ⟨rfl, hraises _ _ hloop⟩

theorem decodePayload_sat (s : State) : s.decodePayload.Sat (fun _ u => s.PayloadOnly u)
    (fun e u => s.PayloadOnly u ∧ (e = .malformedContainer ∨ e = .outputOverflow)) := by
  obtain ⟨n, d, hread, -, hfit⟩ | ⟨hraise, -⟩ := readBits_cases 32 s
  · have hu : s.PayloadOnly { s with brPos := word (s.brPos.toNat + 32), draws := d } := rfl
    by_cases hcap : s.params.symCap < n
    · rw [decodePayload_over hread hcap]
      exact ⟨hu, .inr rfl⟩
    · have hcursor : (word (s.brPos.toNat + 32)).toNat = s.brPos.toNat + 32 := word_toNat (hfit.trans_lt s.brLimit.isLt)
      rw [decodePayload_within hread (not_lt.mp hcap)]
      refine Res.Sat.andThen (Q := fun _ v => s.PayloadOnly v) ?_ fun _ v hv => hv.trans rfl
      exact (decodeSymbols_sat n 0 (hcursor.trans_le hfit)).mono (fun _ _ h => hu.trans h)
        fun _ _ h => ⟨hu.trans h.1, .inl h.2⟩
  · rw [decodePayload, hraise]
    exact ⟨rfl, .inl rfl⟩

/-- u is s but for the tree, the validity of the code table, the reader, the output, and the draws. -/
def DecodeOnly (s u : State) : Prop :=
  u = { s with
    node := u.node, root := u.root, nleaves := u.nleaves, nnodes := u.nnodes, treeValid := u.treeValid
    ctValid := u.ctValid, brPos := u.brPos, brLimit := u.brLimit, outN := u.outN, symout := u.symout, draws := u.draws }

theorem DecodeOnly.payload {s t u : State} (h1 : s.DecodeOnly t) (h2 : t.PayloadOnly u) : s.DecodeOnly u := by
  unfold PayloadOnly at h2
  unfold DecodeOnly at h1 ⊢
  rw [h1] at h2
  rw [h2]

theorem decodeBody_sat (s : State) : s.decodeBody.Sat (fun _ u => s.DecodeOnly u)
    (fun e u => s.DecodeOnly u ∧ e ∈ canRaise .decode) := by
  by_cases hlen : s.brlen.toNat ≤ s.params.byteCap
  · rw [decodeBody_of_le hlen]
    have hparse {u : State} (h : s.decodeStart.ParseOnly u) : s.DecodeOnly u := by
      unfold ParseOnly at h
      rw [h]
      exact rfl
    refine Res.Sat.andThen (Q := fun _ u => s.DecodeOnly u) ?_ fun _ u hu => ?_
    · exact (treeDeser_sat _).mono (fun _ _ h => hparse h) fun e u h => ⟨hparse h.1, by simp [h.2, canRaise]⟩
    · refine u.decodePayload_sat.mono (fun _ _ h => hu.payload h) fun e v h => ⟨hu.payload h.1, ?_⟩
      obtain he | he := h.2 <;> simp [he, canRaise]
  · rw [decodeBody_of_gt (not_le.mp hlen)]
    exact ⟨rfl, by simp [canRaise]⟩

end State

/-! ## ENC_ALL -/

namespace State

/-- ENC_ALL's first two bodies (46_codec.md R615). -/
def encAllBuild (s : State) : Res (Nat × Nat) := s.freqCount.andThen fun _ s1 => s1.treeBuild

/-- u is s but for FREQ, the tree, the validity of the code table, and the draws. -/
def BuildOnly (s u : State) : Prop :=
  u = { s with
    freq := u.freq, node := u.node, root := u.root, nleaves := u.nleaves, nnodes := u.nnodes, treeValid := u.treeValid
    ctValid := u.ctValid, draws := u.draws }

theorem encAllBuild_sat (s : State) : s.encAllBuild.Sat (fun _ u => s.BuildOnly u ∧ Memory.wf alphabetSize u.freq ∧
      (∃ t, u.BuiltTree t) ∧ (Memory.wf nodeCap s.node → Memory.wf nodeCap u.node))
    (fun e u => u = { s with freq := u.freq, draws := u.draws } ∧ e ∈ errorsOf .encAll ∧
      (Memory.wf alphabetSize s.freq → Memory.wf alphabetSize u.freq)) := by
  refine Res.Sat.andThen (Q := fun _ u => u = { s with freq := u.freq, draws := u.draws } ∧
    Memory.wf alphabetSize u.freq) ?_ fun _ u ⟨hu, hwf⟩ => ?_
  · refine s.freqCount_sat.mono (fun _ _ h => h) fun e u ⟨hu, he⟩ => ?_
    subst hu he
    exact ⟨rfl, by simp [errorsOf, canRaise], id⟩
  · have hmove {v : State} (h : u.TreeOnly v) : s.BuildOnly v ∧ v.freq = u.freq := by
      unfold TreeOnly at h
      rw [hu] at h
      rw [h]
      exact ⟨rfl, rfl⟩
    refine (u.treeBuild_sat.and (treeBuild_builds hwf)).mono (fun _ v ⟨honly, htree, hnode⟩ => ?_)
      fun e v ⟨⟨_, he⟩, hv⟩ => ?_
    · obtain ⟨hv, hfreq⟩ := hmove honly
      have hsame : u.node = s.node := by rw [hu]
      exact ⟨hv, hfreq ▸ hwf, htree, hsame ▸ hnode⟩
    · refine ⟨?_, ?_, fun _ => ?_⟩
      · rw [hu] at hv
        rw [hv]
      · simp only [canRaise, List.mem_cons, List.not_mem_nil, or_false] at he
        obtain rfl | rfl := he <;> simp [errorsOf, canRaise]
      · rw [hv]
        exact hwf

/-- ENC_ALL as one pseudocode: the checks, and the four bodies (46_codec.md R615). -/
def encAllBody (s : State) : Res (Nat × Nat) :=
  match s.encAllCheck with
  | some e => .raise e s
  | none => s.encAllBuild.andThen fun _ u =>
    (u.codeGen (u.walk.getD [])).andThen fun _ v => v.encodeBody (u.walk.getD [])

end State

/-- The walk after the build always ends (log 7), so that ENC_ALL is its pseudocode. -/
theorem exec_encAll (s : State) : exec .encAll s = outcome (containerResults s.encAllBody) := by
  show execEncAll s = _
  rw [execEncAll, State.encAllBody]
  cases s.encAllCheck with
  | some e => rfl
  | none =>
    have hbuild := s.encAllBuild_sat
    show (match s.encAllBuild with | .raise e u => outcome (.raise e u) | .ok _ u => encAllRest u) = _
    cases hr : s.encAllBuild with
    | raise e u => rfl
    | ok km u =>
      rw [hr] at hbuild
      obtain ⟨-, -, ⟨t, ht⟩, -⟩ := hbuild
      have hwalk := State.walk_of_holds ht.tree.holds ht.leaves
      show encAllRest u = _
      rw [encAllRest_of_walk hwalk]
      simp only [hwalk, Res.andThen_ok, Option.getD_some]

/-! ## All the commands -/

theorem ends_ok (i : Instr) (s u : State) {q : Results} (hu : u = s.footprint i u) (hq : q.listedBy i) :
    Ends i s (.ok q u) := ⟨hu, hq⟩

/-- A body inside a command's units and errors, and the completion with results that the command lists. -/
theorem Ends.of_body {α : Type} {i : Instr} {s : State} {r : Res α} {f : α → State → Results}
    (h : r.Sat (fun _ u => u = s.footprint i u) (fun e u => u = s.footprint i u ∧ e ∈ errorsOf i))
    (hf : ∀ a u, (f a u).listedBy i) : Ends i s (r.andThen fun a u => .ok (f a u) u) :=
  Res.Sat.andThen h fun a u hu => ⟨hu, hf a u⟩

/-- A command that lists both results may write both. -/
theorem listedBy_of_lists {i : Instr} (h0 : i.listsRes0 = true) (h1 : i.listsRes1 = true) (q : Results) :
    q.listedBy i :=
  ⟨fun h => absurd h (by simp [h0]), fun h => absurd h (by simp [h1])⟩

/-- A command that lists RES0 alone leaves RES1. -/
theorem listedBy_of_lists_res0 {i : Instr} (h0 : i.listsRes0 = true) (w : Word) :
    ({ res0 := some w } : Results).listedBy i :=
  ⟨fun h => absurd h (by simp [h0]), fun _ => rfl⟩

theorem listedBy_none (i : Instr) : ({} : Results).listedBy i := ⟨fun _ => rfl, fun _ => rfl⟩

/-- The three commands that walk an arena that they have not just built (log 7). -/
def walksArena : Instr → Bool
  | .treeSer | .codeGen | .encode => true
  | _ => false

/-- The walk does not end although TREE_VALID = 1 (log 7). -/
def State.NotATree (s : State) : Prop := s.treeValid = true ∧ s.walk = none

section
variable {i : Instr} {s : State}

theorem ends_of_isPut {bs : Bits} (h : IsPut i s bs) : Ends i s ((s.appendBits bs).andThen fun _ u => .ok {} u) := by
  refine Ends.of_body ((s.appendBits_sat bs).mono (fun _ u hu => ?_) fun e u hu => ?_) fun _ _ => listedBy_none i
  all_goals obtain ⟨_, rfl, -⟩ | ⟨_, -, rfl, -⟩ := h
  · exact hu
  · exact hu
  · exact ⟨hu.1, by simp [errorsOf, canRaise, hu.2]⟩
  · exact ⟨hu.1, by simp [errorsOf, canRaise, hu.2]⟩

theorem ends_of_isGet {n : Nat} (h : IsGet i n) :
    Ends i s ((s.readBits n).andThen fun v u => .ok { res0 := some (word v) } u) := by
  have hlists : i.listsRes0 = true := by obtain ⟨rfl, -⟩ | ⟨_, -, rfl, -⟩ := h <;> rfl
  refine Ends.of_body ((s.readBits_sat n).mono (fun _ u hu => ?_) fun e u hu => ?_) fun _ _ =>
    listedBy_of_lists_res0 hlists _
  all_goals obtain ⟨rfl, -⟩ | ⟨_, -, rfl, -⟩ := h
  · rw [hu]; rfl
  · rw [hu]; rfl
  · rw [hu.1, hu.2]; exact ⟨rfl, by simp [errorsOf, canRaise]⟩
  · rw [hu.1, hu.2]; exact ⟨rfl, by simp [errorsOf, canRaise]⟩

end

/-! ## The commands that walk the arena -/

section
variable {s : State} {nodes : List Visited}

theorem exec_treeSer_fault (hv : s.treeValid = true) (hwalk : s.walk = none) :
    exec .treeSer s = .fault .arenaNotATree := by
  show execTreeSer s = _
  rw [execTreeSer, if_neg (by simp [hv]), hwalk]

theorem exec_treeSer_of_walk (hv : s.treeValid = true) (hwalk : s.walk = some nodes) :
    exec .treeSer s = outcome ((s.emit nodes).andThen fun _ u =>
      .ok { res0 := some (word (u.bwNbits.toNat - s.bwNbits.toNat)) } u) := by
  show execTreeSer s = _
  rw [execTreeSer, if_neg (by simp [hv]), hwalk]

theorem exec_codeGen_fault (hv : s.treeValid = true) (hwalk : s.walk = none) :
    exec .codeGen s = .fault .arenaNotATree := by
  show execCodeGen s = _
  rw [execCodeGen, if_neg (by simp [hv]), hwalk]

theorem exec_codeGen_of_walk (hv : s.treeValid = true) (hwalk : s.walk = some nodes) :
    exec .codeGen s = outcome ((s.codeGen nodes).andThen fun km u =>
      .ok { res0 := some (word km.1), res1 := some (word km.2) } u) := by
  show execCodeGen s = _
  rw [execCodeGen, if_neg (by simp [hv]), hwalk]

theorem exec_encode_of_check {e : Err} (h : s.encodeCheck = some e) : exec .encode s = outcome (.raise e s) := by
  show execEncode s = _
  rw [execEncode, h]

theorem exec_encode_fault (h : s.encodeCheck = none) (hwalk : s.walk = none) :
    exec .encode s = .fault .arenaNotATree := by
  show execEncode s = _
  rw [execEncode, h]
  simp only [hwalk]

theorem exec_encode_of_walk (h : s.encodeCheck = none) (hwalk : s.walk = some nodes) :
    exec .encode s = outcome (containerResults (s.encodeBody nodes)) := by
  show execEncode s = _
  rw [execEncode, h]
  simp only [hwalk]

theorem encodeCheck_eq_none :
    s.encodeCheck = none ↔ s.encAllCheck = none ∧ s.treeValid = true ∧ s.ctValid = true := by
  rw [State.encodeCheck]
  cases s.encAllCheck <;> cases s.treeValid <;> cases s.ctValid <;> simp

theorem canRaise_of_encAllCheck {e : Err} (h : s.encAllCheck = some e) : e ∈ canRaise .encAll := by
  rw [State.encAllCheck] at h
  split_ifs at h <;> cases h <;> simp [canRaise]

theorem canRaise_of_encodeCheck {e : Err} (h : s.encodeCheck = some e) : e ∈ canRaise .encode := by
  rw [State.encodeCheck] at h
  split at h
  · next e' hcheck =>
    cases h
    have := canRaise_of_encAllCheck hcheck
    simp only [canRaise, List.mem_cons, List.not_mem_nil, or_false] at this ⊢
    tauto
  · split_ifs at h <;> cases h <;> simp [canRaise]

end

theorem ends_encAll (s : State) : Ends .encAll s (containerResults s.encAllBody) := by
  refine Ends.of_body ?_ fun _ _ => listedBy_of_lists rfl rfl _
  rw [State.encAllBody]
  split
  · next e he =>
    exact ⟨rfl, .tail _ (.tail _ (canRaise_of_encAllCheck he))⟩
  · refine Res.Sat.andThen (Q := fun _ u => s.BuildOnly u) ?_ fun _ u hu => ?_
    · exact s.encAllBuild_sat.mono (fun _ _ h => h.1) fun e u h => ⟨by rw [h.1]; rfl, h.2.1⟩
    unfold State.BuildOnly at hu
    refine Res.Sat.andThen (Q := fun _ v => v = { u with code := v.code, ctValid := v.ctValid }) ?_ fun _ v hv => ?_
    · refine (u.codeGen_sat _).mono (fun _ _ h => h.1) fun e v h => ⟨?_, by simp [h.2.2, errorsOf]⟩
      rw [h.1, hu]
      rfl
    · have hwriter {w : State} (h : v.WriterOnly w) : w = s.footprint .encAll w := by
        unfold State.WriterOnly at h
        rw [h, hv, hu]
        rfl
      refine (v.encodeBody_sat _).mono (fun _ _ h => hwriter h) fun e w h => ⟨hwriter h.1, ?_⟩
      obtain he | he := h.2 <;> simp [he, errorsOf, canRaise]

/-- All that a command can do, from any state: the fault of log 7, the outcome of an illegal word, or an outcome inside
its units, with its results and its errors. -/
theorem exec_cases (i : Instr) (s : State) :
    (walksArena i = true ∧ s.NotATree ∧ exec i s = .fault .arenaNotATree) ∨
    (i.wf = false ∧ exec i s = outcome (.raise .illegalCommand s)) ∨
    ∃ r, exec i s = outcome r ∧ Ends i s r := by
  cases i with
  | nop => exact .inr (.inr ⟨_, exec_nop s, rfl, listedBy_none _⟩)
  | bwInit => exact .inr (.inr ⟨_, exec_bwInit s, rfl, listedBy_none _⟩)
  | bwPut1 b =>
    have h : IsPut (.bwPut1 b) s [b] := .inl ⟨b, rfl, rfl⟩
    exact .inr (.inr ⟨_, exec_of_isPut h, ends_of_isPut h⟩)
  | bwPutN w =>
    by_cases hw : w.toNat ≤ 32
    · have h : IsPut (.bwPutN w) s _ := .inr ⟨w, hw, rfl, rfl⟩
      exact .inr (.inr ⟨_, exec_of_isPut h, ends_of_isPut h⟩)
    · exact .inr (.inl ⟨decide_eq_false hw, exec_illegalWidth (not_le.mp hw) s (.inl rfl)⟩)
  | bwFinal =>
    exact .inr (.inr ⟨_, exec_bwFinal s, ends_ok _ _ _ s.finalize_only (listedBy_of_lists rfl rfl _)⟩)
  | brInit =>
    refine .inr (.inr ⟨_, rfl, ?_⟩)
    split
    · exact ⟨rfl, by simp [errorsOf, canRaise]⟩
    · exact ⟨rfl, listedBy_none _⟩
  | brGet1 =>
    have h : IsGet .brGet1 1 := .inl ⟨rfl, rfl⟩
    exact .inr (.inr ⟨_, exec_of_isGet h s, ends_of_isGet h⟩)
  | brGetN w =>
    by_cases hw : w.toNat ≤ 32
    · have h : IsGet (.brGetN w) _ := .inr ⟨w, hw, rfl, rfl⟩
      exact .inr (.inr ⟨_, exec_of_isGet h s, ends_of_isGet h⟩)
    · exact .inr (.inl ⟨decide_eq_false hw, exec_illegalWidth (not_le.mp hw) s (.inr rfl)⟩)
  | freqClr => exact .inr (.inr ⟨_, exec_freqClr s, rfl, listedBy_none _⟩)
  | freqCount =>
    refine .inr (.inr ⟨_, exec_freqCount s, Ends.of_body ?_ fun _ _ => listedBy_of_lists rfl rfl _⟩)
    exact s.freqCount_sat.mono (fun _ _ h => by rw [h.1]; rfl) fun e u h => by
      rw [h.1, h.2]
      exact ⟨rfl, by simp [errorsOf, canRaise]⟩
  | treeBuild =>
    refine .inr (.inr ⟨_, exec_treeBuild s, Ends.of_body ?_ fun _ _ => listedBy_of_lists rfl rfl _⟩)
    exact s.treeBuild_sat.mono (fun _ _ h => h) fun _ _ h => h
  | treeSer =>
    cases hv : s.treeValid with
    | false =>
      exact .inr (.inr ⟨_, exec_treeSer_noTree hv, rfl, by simp [errorsOf, canRaise]⟩)
    | true =>
      cases hwalk : s.walk with
      | none => exact .inl ⟨rfl, ⟨hv, hwalk⟩, exec_treeSer_fault hv hwalk⟩
      | some nodes =>
        refine .inr (.inr ⟨_, exec_treeSer_of_walk hv hwalk, Ends.of_body ?_ fun _ _ =>
          listedBy_of_lists_res0 rfl _⟩)
        exact (s.appendAll_sat _).mono (fun _ _ h => h) fun e u h => ⟨h.1, by simp [h.2, errorsOf, canRaise]⟩
  | treeDeser =>
    refine .inr (.inr ⟨_, exec_treeDeser s, Ends.of_body ?_ fun _ _ => listedBy_of_lists rfl rfl _⟩)
    have hparse {u : State} (h : s.ParseOnly u) : u = s.footprint .treeDeser u := by
      unfold State.ParseOnly at h
      rw [h]
      rfl
    exact s.treeDeser_sat.mono (fun _ _ h => hparse h) fun e u h =>
      ⟨hparse h.1, by simp [h.2, errorsOf, canRaise]⟩
  | codeGen =>
    cases hv : s.treeValid with
    | false => exact .inr (.inr ⟨_, exec_codeGen_noTree hv, rfl, by simp [errorsOf, canRaise]⟩)
    | true =>
      cases hwalk : s.walk with
      | none => exact .inl ⟨rfl, ⟨hv, hwalk⟩, exec_codeGen_fault hv hwalk⟩
      | some nodes =>
        refine .inr (.inr ⟨_, exec_codeGen_of_walk hv hwalk, Ends.of_body ?_ fun _ _ =>
          listedBy_of_lists rfl rfl _⟩)
        exact (s.codeGen_sat _).mono (fun _ _ h => by rw [h.1]; rfl) fun e u h =>
          ⟨by rw [h.1]; rfl, by simp [h.2.2, errorsOf, canRaise]⟩
  | encode =>
    cases hcheck : s.encodeCheck with
    | some e => exact .inr (.inr ⟨_, exec_encode_of_check hcheck, rfl, canRaise_of_encodeCheck hcheck⟩)
    | none =>
      cases hwalk : s.walk with
      | none => exact .inl ⟨rfl, ⟨(encodeCheck_eq_none.mp hcheck).2.1, hwalk⟩, exec_encode_fault hcheck hwalk⟩
      | some nodes =>
        refine .inr (.inr ⟨_, exec_encode_of_walk hcheck hwalk, Ends.of_body ?_ fun _ _ => listedBy_of_lists rfl rfl _⟩)
        refine (s.encodeBody_sat _).mono (fun _ _ h => h) fun e u h => ⟨h.1, ?_⟩
        obtain he | he := h.2 <;> simp [he, errorsOf, canRaise]
  | decode =>
    refine .inr (.inr ⟨_, exec_decode s, Ends.of_body ?_ fun _ _ => listedBy_of_lists rfl rfl _⟩)
    exact s.decodeBody_sat.mono (fun _ _ h => h) fun _ _ h => h
  | encAll => exact .inr (.inr ⟨_, exec_encAll s, ends_encAll s⟩)

end Machine

end Sys2Proof
end

/-! The rules that hold of every command (40_control.md R402, R403; 60_exceptions.md R703, R710, R720; 10_state.md R107,
R113): each is read off the units, results and errors of `exec_cases`. -/
section

namespace Sys2Proof.Machine

open State

/-- What a command's completion may leave different: its units, its results where it succeeds and lists them, the
completion's own flags. -/
structure Completes (i : Instr) (s t : State) : Prop where
  frame : t = { s.footprint i t with res0 := t.res0, res1 := t.res1, busy := false, done := true, ecode := t.ecode }
  failure : t.ecode ≠ none → s.SameResults t
  res0 : i.listsRes0 = false → t.res0 = s.res0
  res1 : i.listsRes1 = false → t.res1 = s.res1
  errors : ∀ e, t.ecode = some e → i.wf = true → e ∈ errorsOf i

theorem footprint_self (i : Instr) (s : State) : s.footprint i s = s := by
  simp [footprint]

/-- The completion of a state u inside i's units stays inside them. -/
theorem frame_of_footprint {i : Instr} {s t u : State} (hu : u = s.footprint i u)
    (ht : t = { u with res0 := t.res0, res1 := t.res1, busy := false, done := true, ecode := t.ecode }) :
    t = { s.footprint i t with res0 := t.res0, res1 := t.res1, busy := false, done := true, ecode := t.ecode } := by
  have hunits : s.footprint i t = u := by
    rw [ht]
    exact hu.symm
  rw [hunits]
  exact ht

section
variable {i : Instr} {s u : State} (hu : u = s.footprint i u)
include hu

theorem sameResults_of_footprint : s.SameResults u := by
  constructor <;> rw [hu] <;> rfl

theorem completes_ok {q : Results} (hq : q.listedBy i) : Completes i s (finish (.ok q u)) where
  frame := frame_of_footprint hu rfl
  failure h := absurd rfl h
  res0 h := by
    rw [← (sameResults_of_footprint hu).res0]
    exact congrArg (Option.getD · u.res0) (hq.1 h)
  res1 h := by
    rw [← (sameResults_of_footprint hu).res1]
    exact congrArg (Option.getD · u.res1) (hq.2 h)
  errors _ h := nomatch h

theorem completes_raise {e : Err} (he : i.wf = true → e ∈ errorsOf i) : Completes i s (finish (.raise e u)) where
  frame := frame_of_footprint hu rfl
  failure _ := ⟨(sameResults_of_footprint hu).res0, (sameResults_of_footprint hu).res1⟩
  res0 _ := (sameResults_of_footprint hu).res0
  res1 _ := (sameResults_of_footprint hu).res1
  errors _ h := Option.some.inj h ▸ he

end

/-- All that a command that ends can do. -/
theorem completes_of_exec {i : Instr} {s t : State} (h : exec i s = .next t) : Completes i s t := by
  obtain ⟨-, -, hfault⟩ | ⟨hwf, hillegal⟩ | ⟨r, hr, hends⟩ := exec_cases i s
  · rw [hfault] at h
    cases h
  · rw [hillegal, outcome_eq_next] at h
    subst h
    exact completes_raise (footprint_self i s).symm fun hwf' => by simp [hwf] at hwf'
  · rw [hr, outcome_eq_next] at h
    subst h
    cases r with
    | ok q u => exact completes_ok hends.1 hends.2
    | raise e u => exact completes_raise hends.1 fun _ => hends.2

namespace Completes

variable {i : Instr} {s t : State} (h : Completes i s t)
include h

theorem sameHostState : s.SameHostState t := by
  constructor <;> rw [h.frame] <;> rfl

theorem sameTree (hi : i.writesTree = false) : s.SameTree t := by
  constructor <;> rw [h.frame] <;> simp [footprint, hi]

theorem sameCtValid (hi : i.writesCtValid = false) : t.ctValid = s.ctValid := by
  rw [h.frame]; simp [footprint, hi]

theorem sameCode (hi : i.writesCode = false) : t.code = s.code := by
  rw [h.frame]; simp [footprint, hi]

theorem sameFreq (hi : i.writesFreq = false) : t.freq = s.freq := by
  rw [h.frame]; simp [footprint, hi]

theorem sameOutput (hi : i.writesOutput = false) : t.outN = s.outN ∧ t.symout = s.symout := by
  constructor <;> rw [h.frame] <;> simp [footprint, hi]

theorem sameWriter (hi : i.writesWriter = false) : s.SameWriter t := by
  constructor <;> rw [h.frame] <;> simp [footprint, hi]

theorem sameReader (hi : i.writesReader = false) : s.SameReader t := by
  constructor <;> rw [h.frame] <;> simp [footprint, hi]

end Completes

/-- Settles O9: the completion sets the two flags, and no unit of a command holds a host register. -/
theorem completionKeepsHostState : Obligations.CompletionKeepsHostState := by
  intro i s t hexec
  have h := completes_of_exec hexec
  have hdone : t.done = true := by rw [h.frame]
  refine ⟨by rw [h.frame], hdone, ?_, h.sameHostState⟩
  rw [irq, hdone, h.sameHostState.ie, Bool.and_true]

/-- In a state that meets the invariant the arena holds a tree wherever TREE_VALID = 1 (10_state.md R141). -/
theorem State.Inv.not_notATree {s : State} (hinv : s.Inv) : ¬ s.NotATree := by
  rintro ⟨hv, hwalk⟩
  obtain ⟨t, hk, htree, -⟩ := hinv.tree.tree hv
  rw [walk_of_holds htree.holds hk] at hwalk
  cases hwalk

/-- A command ends unless it walks an arena that holds no tree. -/
theorem exec_ends_or_walks (i : Instr) (s : State) :
    (∃ t, exec i s = .next t) ∨ (walksArena i = true ∧ s.NotATree ∧ exec i s = .fault .arenaNotATree) := by
  obtain hfault | ⟨-, hillegal⟩ | ⟨r, hr, -⟩ := exec_cases i s
  · exact .inr hfault
  · exact .inl ⟨_, hillegal⟩
  · exact .inl ⟨_, hr⟩

/-- Settles O10: the one way not to end is the walk of `walksArena`, on an arena that the invariant excludes. -/
theorem everyCommandEnds : Obligations.EveryCommandEnds := by
  intro i s
  obtain ⟨t, ht⟩ | ⟨hi, hnot, hfault⟩ := exec_ends_or_walks i s
  · exact ⟨fun r hr => by simp [ht] at hr, fun _ _ _ => ⟨t, ht⟩, fun _ => ⟨t, ht⟩⟩
  · refine ⟨fun r hr => by simp [hfault] at hr, fun h1 h2 h3 => ?_, fun hinv => absurd hnot hinv.not_notATree⟩
    cases i <;> simp_all [walksArena]

/-- On written input the only error of ENC_ALL past its checks is that the container does not fit (46_codec.md R616). -/
theorem encAll_errors_of_written {s t : State} {e : Err} {syms : List Symbol} (hin : s.inputIs syms)
    (hexec : exec .encAll s = .next t) (he : t.ecode = some e) : e ∈ canRaise .encAll := by
  cases hcheck : s.encAllCheck with
  | some e' =>
    rw [exec_encAll, State.encAllBody, hcheck] at hexec
    cases hexec
    cases he
    exact canRaise_of_encAllCheck hcheck
  | none =>
    obtain ⟨hpos, hcap⟩ := encAllCheck_eq_none.mp hcheck
    rw [hin.1] at hpos hcap
    obtain ⟨-, -, -, tr, v, -, -, -, -, -, hend⟩ := encAll_written hin (List.ne_nil_of_length_pos hpos) hcap
    have hsat := appendAll_sat (containerFields tr (syms.map fun x => (v.codeAt x.toNat).bits)) v.initWriter
    rw [hend] at hexec
    cases happend : v.initWriter.appendAll (containerFields tr (syms.map fun x => (v.codeAt x.toNat).bits)) with
    | ok a u =>
      rw [happend] at hexec
      cases hexec
      cases he
    | raise e' u =>
      rw [happend] at hexec hsat
      cases hexec
      cases he
      rw [hsat.2]
      simp [canRaise]

/-- Settles O11: `Completes.errors`, and for ENC_ALL the written input. -/
theorem commandsRaiseOnlyTheirCodes : Obligations.CommandsRaiseOnlyTheirCodes := by
  intro i s t e hwf hwritten hexec he
  have hmem := (completes_of_exec hexec).errors e he hwf
  cases i with
  | encAll =>
    obtain ⟨syms, hin⟩ := hwritten rfl
    exact encAll_errors_of_written hin hexec he
  | _ => exact hmem

/-- Settles O12: a command writes only results that it lists, and none where it raises. -/
theorem resultsOnlyOnSuccess : Obligations.ResultsOnlyOnSuccess := by
  intro i s t hexec
  have h := completes_of_exec hexec
  refine ⟨h.failure, fun hi => ⟨h.res0 ?_, h.res1 ?_⟩, fun hi => h.res1 ?_⟩
  · obtain rfl | rfl | ⟨b, rfl⟩ | ⟨w, rfl⟩ | rfl | rfl := hi <;> rfl
  · obtain rfl | rfl | ⟨b, rfl⟩ | ⟨w, rfl⟩ | rfl | rfl := hi <;> rfl
  · obtain rfl | ⟨w, rfl⟩ | rfl := hi <;> rfl

/-- Settles O13: each clause names the commands whose units leave a unit out. -/
theorem unitsWrittenOnlyByTheirCommands : Obligations.UnitsWrittenOnlyByTheirCommands := by
  intro i s t hexec
  have h := completes_of_exec hexec
  refine ⟨fun _ _ _ _ => h.sameTree ?_, fun _ _ _ _ _ => h.sameCtValid ?_, fun _ _ => h.sameCode ?_,
    fun _ _ _ => h.sameFreq ?_, fun _ => h.sameOutput ?_, fun hi => h.sameWriter ?_, fun _ _ _ _ _ => h.sameReader ?_⟩
  case refine_6 => obtain rfl | rfl | rfl | ⟨w, rfl⟩ | rfl | rfl | rfl | rfl | rfl | rfl := hi <;> rfl
  all_goals cases i <;> simp_all [Instr.writesTree, Instr.writesCtValid, Instr.writesCode, Instr.writesFreq,
    Instr.writesOutput, Instr.writesReader]

end Sys2Proof.Machine
end

/-! The invariant (10_state.md R108, R114 to R121, R141; 20_memory.md R201), unit by unit: what does not write a unit keeps
its part, and each command that writes it leaves that part in order. -/
section

namespace Sys2Proof.Machine

namespace State

/-! ## The parts of the invariant, by the fields they read -/

section
variable {s t : State}

theorem WriterOk.congr (h : s.WriterOk) (hw : s.SameWriter t) (hp : t.params = s.params) : t.WriterOk := by
  obtain ⟨hnbits, htail, -⟩ := hw
  constructor
  · rw [hnbits, hp]
    exact h.fits
  · rw [hnbits, htail]
    exact h.tail

theorem ReaderOk.congr (h : s.ReaderOk) (hr : s.SameReader t) (hp : t.params = s.params) : t.ReaderOk := by
  obtain ⟨hpos, hlimit⟩ := hr
  constructor
  · rw [hpos, hlimit]
    exact h.pos
  · rw [hlimit, hp]
    exact h.limit
  · rw [hlimit]
    exact h.whole

theorem nodeAt_congr (h : t.node = s.node) : t.nodeAt = s.nodeAt := by
  unfold nodeAt
  rw [h]

theorem codeAt_congr (h : t.code = s.code) : t.codeAt = s.codeAt := by
  unfold codeAt
  rw [h]

theorem TreeIs.congr {tr : HTree} (h : s.TreeIs tr) (ht : s.SameTree t) : t.TreeIs tr := by
  obtain ⟨hleaves, hnodes, hroot, -, hnode⟩ := ht
  obtain ⟨holds, leaves, size, once, below⟩ := h
  constructor <;> rw [← nodeAt_congr hnode, ← hroot] at * <;> simp_all

theorem CodesAre.congr {tr : HTree} (h : s.CodesAre tr) (hc : t.code = s.code) : t.CodesAre tr := by
  obtain ⟨distinct, present, missing⟩ := h
  rw [← codeAt_congr hc] at present missing
  exact ⟨distinct, present, missing⟩

theorem TreeOk.congr (h : s.TreeOk) (ht : s.SameTree t) (hct : t.ctValid = s.ctValid) (hc : t.code = s.code) :
    t.TreeOk := by
  constructor
  · rw [ht.valid, ht.nleaves, ht.nnodes, ht.root, hct]
    exact h.noTree
  · rw [ht.valid, hct]
    intro hv
    obtain ⟨tr, hk, htree, hcodes⟩ := h.tree hv
    exact ⟨tr, hk, htree.congr ht, fun hv => (hcodes hv).congr hc⟩

theorem OutputOk.congr (h : s.OutputOk) (hn : t.outN = s.outN) (hs : t.symout = s.symout) (hp : t.params = s.params) :
    t.OutputOk := by
  constructor
  · rw [hn, hp]
    exact h.count
  · rw [hn, hs]
    exact h.written

end

/-- All that the invariant reads is the same in s and t. -/
structure SameUnits (s t : State) : Prop where
  tree : s.SameTree t
  ctValid : t.ctValid = s.ctValid
  code : t.code = s.code
  freq : t.freq = s.freq
  outN : t.outN = s.outN
  symout : t.symout = s.symout
  writer : s.SameWriter t
  reader : s.SameReader t
  symin : t.symin = s.symin
  params : t.params = s.params

theorem Inv.congr {s t : State} (h : s.Inv) (hs : s.SameUnits t) : t.Inv where
  params := hs.params ▸ h.params
  writer := h.writer.congr hs.writer hs.params
  reader := h.reader.congr hs.reader hs.params
  tree := h.tree.congr hs.tree hs.ctValid hs.code
  memory := by
    obtain ⟨symin, symout, bytemem, freq, node, code⟩ := h.memory
    constructor
    · rwa [hs.params, hs.symin]
    · rwa [hs.params, hs.symout]
    · rwa [hs.params, hs.writer.bytemem]
    · rwa [hs.freq]
    · rwa [hs.tree.node]
    · rwa [hs.code]
  output := h.output.congr hs.outN hs.symout hs.params

/-! ## The writer -/

/-- The writer's part of the invariant. -/
structure WriterInv (s : State) : Prop where
  params : s.params.legal
  writer : s.WriterOk
  bytemem : Memory.wf s.params.byteCap s.bytemem

theorem WriterInv.congr {s t : State} (h : s.WriterInv) (hw : s.SameWriter t) (hp : t.params = s.params) :
    t.WriterInv where
  params := hp ▸ h.params
  writer := h.writer.congr hw hp
  bytemem := by
    rw [hp, hw.bytemem]
    exact h.bytemem

theorem WriterMoves.inv {s t : State} (h : s.WriterMoves t) (hs : s.WriterInv) : t.WriterInv where
  params := h.params ▸ hs.params
  writer := h.ok
  bytemem := by
    rw [h.params]
    exact h.wf hs.bytemem

theorem initWriter_inv {s : State} (h : s.WriterInv) : s.initWriter.WriterInv :=
  ⟨h.params, ⟨Nat.zero_le _, fun _ _ => BitVec.getLsbD_zero⟩, h.bytemem⟩

theorem appendAll_inv {s : State} (h : s.WriterInv) (fields : List Bits) : (s.appendAll fields).state.WriterInv := by
  obtain ⟨t, ht, ha, -⟩ | ⟨t, bs, ht, ha, -⟩ := appendAll_cases h.params h.writer (fields := fields)
  · rw [ht]
    exact ha.moves.inv h
  · rw [ht]
    exact ha.moves.inv h

theorem appendBits_inv {s : State} (h : s.WriterInv) (bs : Bits) : (s.appendBits bs).state.WriterInv :=
  appendAll_singleton bs s ▸ appendAll_inv h [bs]

theorem finalize_inv {s : State} (h : s.WriterInv) : s.finalize.2.WriterInv := by
  obtain ⟨m, hfin, -, -, -, -, hwf⟩ := finalize_spec h.writer
  have hcap : s.params.byteCap ≤ 536870911 := h.params.2.2
  have hfits := h.writer.fits
  have hn : s.bwNbits.toNat + padTo8 s.bwNbits.toNat ≤ 8 * s.params.byteCap := by
    unfold padTo8
    omega
  rw [hfin]
  refine ⟨h.params, ⟨?_, fun _ _ => BitVec.getLsbD_zero⟩, hwf h.bytemem⟩
  simp only
  rwa [word_toNat (by omega)]

theorem encodeBody_inv {s : State} (h : s.WriterInv) (nodes : List Visited) : (s.encodeBody nodes).state.WriterInv := by
  refine Res.andThen_state (appendAll_inv (initWriter_inv h) _) fun _ u hu => ?_
  refine Res.andThen_state (appendBits_inv hu _) fun _ v hv => ?_
  refine Res.andThen_state ?_ fun _ w hw => finalize_inv hw
  exact (encodeSymbols_spec _ 0 v hv.params hv.writer).1.inv hv

/-! ## The reader -/

/-- The reader's part of the invariant. -/
structure ReaderInv (s : State) : Prop where
  params : s.params.legal
  reader : s.ReaderOk

theorem ReaderInv.congr {s t : State} (h : s.ReaderInv) (hr : s.SameReader t) (hp : t.params = s.params) :
    t.ReaderInv := ⟨hp ▸ h.params, h.reader.congr hr hp⟩

/-- A cursor that stays within the limit. -/
theorem ReaderInv.move {s t : State} (h : s.ReaderInv) (hpos : t.brPos.toNat ≤ s.brLimit.toNat)
    (hlimit : t.brLimit = s.brLimit) (hp : t.params = s.params) : t.ReaderInv := by
  refine ⟨hp ▸ h.params, hlimit ▸ hpos, ?_, ?_⟩
  · rw [hlimit, hp]
    exact h.reader.limit
  · rw [hlimit]
    exact h.reader.whole

theorem initReader_inv {s : State} (hp : s.params.legal) (hlen : s.brlen.toNat ≤ s.params.byteCap) :
    s.initReader.ReaderInv := by
  have hcap : s.params.byteCap ≤ 536870911 := hp.2.2
  have hlimit : s.initReader.brLimit.toNat = 8 * s.brlen.toNat := word_toNat (by unfold sliceLength; omega)
  refine ⟨hp, Nat.zero_le _, ?_, ?_⟩
  · rw [hlimit]
    exact Nat.mul_le_mul_left 8 hlen
  · rw [hlimit, Nat.mul_mod_right]

theorem readBits_inv {s : State} (h : s.ReaderInv) (n : Nat) : (s.readBits n).state.ReaderInv := by
  obtain ⟨x, d, hread, -, hfit⟩ | ⟨hraise, -⟩ := readBits_cases n s
  · rw [hread]
    exact h.move ((word_toNat (hfit.trans_lt s.brLimit.isLt)).trans_le hfit) rfl rfl
  · rw [hraise]
    exact h

theorem treeDeser_readerInv {s : State} (h : s.ReaderInv) : s.treeDeser.state.ReaderInv := by
  obtain ⟨nd, p, d, -, hle, -, hraise | ⟨root, t, -, -, -, hok⟩⟩ := s.treeDeser_spec h.reader.pos
  · rw [hraise]
    exact h.move hle rfl rfl
  · rw [hok]
    exact h.move hle rfl rfl

theorem decodeSymbols_inv {s : State} (h : s.ReaderInv) (n : Nat) : (s.decodeSymbols n 0).state.ReaderInv := by
  obtain ⟨so, p, d, hstate, -, hle, -⟩ := decodeSymbols_spec n 0 s h.reader.pos
  rw [hstate]
  exact h.move hle rfl rfl

theorem decodePayload_readerInv {s : State} (h : s.ReaderInv) : s.decodePayload.state.ReaderInv := by
  refine Res.andThen_state (readBits_inv h 32) fun n u hu => ?_
  split
  · exact hu
  · exact Res.andThen_state (decodeSymbols_inv hu n) fun _ v hv => hv.congr ⟨rfl, rfl⟩ rfl

theorem decodeBody_readerInv {s : State} (h : s.ReaderInv) : s.decodeBody.state.ReaderInv := by
  by_cases hlen : s.brlen.toNat ≤ s.params.byteCap
  · rw [decodeBody_of_le hlen]
    have hstart : s.decodeStart.ReaderInv := (initReader_inv h.params hlen).congr ⟨rfl, rfl⟩ rfl
    exact Res.andThen_state (treeDeser_readerInv hstart) fun _ u hu => decodePayload_readerInv hu
  · rw [decodeBody_of_gt (not_le.mp hlen)]
    exact h.congr ⟨rfl, rfl⟩ rfl

/-! ## The tree and the code table -/

/-- The tree's part of the invariant. -/
structure TreeInv (s : State) : Prop where
  tree : s.TreeOk
  node : Memory.wf nodeCap s.node
  code : Memory.wf alphabetSize s.code

theorem TreeInv.congr {s t : State} (h : s.TreeInv) (ht : s.SameTree t) (hct : t.ctValid = s.ctValid)
    (hc : t.code = s.code) : t.TreeInv where
  tree := h.tree.congr ht hct hc
  node := ht.node ▸ h.node
  code := hc ▸ h.code

/-- A tree in NODE without a table. -/
theorem TreeOk.of_tree {s : State} {t : HTree} (hv : s.treeValid = true) (hct : s.ctValid = false) (h : s.TreeIs t)
    (hk : t.leaves ≤ alphabetSize) : s.TreeOk :=
  ⟨fun hnot => by simp [hv] at hnot, fun _ => ⟨t, hk, h, fun hvalid => by simp [hct] at hvalid⟩⟩

/-- No tree. -/
theorem TreeOk.of_clear {s : State} (hv : s.treeValid = false)
    (h : s.nleaves = 0 ∧ s.nnodes = 0 ∧ s.root = 0 ∧ s.ctValid = false) : s.TreeOk :=
  ⟨fun _ => h, fun hnot => by simp [hv] at hnot⟩

theorem treeBuild_treeInv {s : State} (h : s.TreeInv) (hfreq : Memory.wf alphabetSize s.freq) :
    s.treeBuild.state.TreeInv := by
  have hsat := s.treeBuild_sat.and (treeBuild_builds hfreq)
  cases hbuild : s.treeBuild with
  | ok km u =>
    rw [hbuild] at hsat
    obtain ⟨honly, ⟨t, ht⟩, hnode⟩ := hsat
    have hcode : u.code = s.code := by rw [honly]
    exact ⟨.of_tree ht.valid ht.noTable ht.tree ht.leaves, hnode h.node, hcode ▸ h.code⟩
  | raise e u =>
    rw [hbuild] at hsat
    obtain ⟨-, hu⟩ := hsat
    show u.TreeInv
    rw [hu]
    exact h.congr ⟨rfl, rfl, rfl, rfl, rfl⟩ rfl rfl

/-- The registers of a tree whose nodes are the arena's first ones describe it (45_serdes.md R555). -/
theorem treeIs_of_perm {s : State} {root : Nat} {t : HTree} (hk : t.leaves ≤ alphabetSize)
    (hholds : Holds s.nodeAt root t) (hperm : (indexes s.nodeAt root t).Perm (List.range (2 * t.leaves - 1))) :
    (s.setTree root t.leaves (2 * t.leaves - 1)).TreeIs t := by
  unfold alphabetSize at hk
  have hfit : ∀ n, n < 2 ^ 17 → (BitVec.ofNat 17 n).toNat = n := fun n hn => by
    rw [BitVec.toNat_ofNat]
    exact Nat.mod_eq_of_lt hn
  have hmem : ∀ i ∈ indexes s.nodeAt root t, i < 2 * t.leaves - 1 := fun i hi =>
    List.mem_range.mp (hperm.mem_iff.mp hi)
  have hroot := hfit root (by have := hmem root (mem_indexes_self _ _ _); omega)
  have hnodes := hfit (2 * t.leaves - 1) (by omega)
  refine ⟨?_, hfit t.leaves (by omega), hnodes, ?_, ?_⟩
  · exact hroot.symm ▸ hholds
  · exact hroot.symm ▸ hperm.nodup_iff.mpr List.nodup_range
  · exact hroot.symm ▸ hnodes.symm ▸ hmem

theorem treeDeser_treeInv {s : State} (h : s.TreeInv) (hpos : s.brPos.toNat ≤ s.brLimit.toNat) :
    s.treeDeser.state.TreeInv := by
  obtain ⟨nd, p, d, -, -, hnode, hraise | ⟨root, t, hholds, hperm, hk, hok⟩⟩ := s.treeDeser_spec hpos
  · rw [hraise]
    exact ⟨.of_clear rfl ⟨rfl, rfl, rfl, rfl⟩, hnode h.node, h.code⟩
  · rw [hok]
    have htree := treeIs_of_perm (s := { s with node := nd }) hk hholds hperm
    exact ⟨.of_tree rfl rfl (htree.congr ⟨rfl, rfl, rfl, rfl, rfl⟩) hk, hnode h.node, h.code⟩

theorem decodePayload_treeInv {s : State} (h : s.TreeInv) : s.decodePayload.state.TreeInv := by
  have hkeep {u : State} (hu : s.PayloadOnly u) : u.TreeInv := by
    refine h.congr ?_ ?_ ?_
    · constructor <;> rw [hu]
    · rw [hu]
    · rw [hu]
  have hsat := s.decodePayload_sat
  cases hpayload : s.decodePayload with
  | ok nq u => exact hkeep (by rwa [hpayload] at hsat)
  | raise e u => exact hkeep (by rw [hpayload] at hsat; exact hsat.1)

theorem decodeBody_treeInv {s : State} (h : s.TreeInv) : s.decodeBody.state.TreeInv := by
  by_cases hlen : s.brlen.toNat ≤ s.params.byteCap
  · rw [decodeBody_of_le hlen]
    have hstart : s.decodeStart.TreeInv := h.congr ⟨rfl, rfl, rfl, rfl, rfl⟩ rfl rfl
    exact Res.andThen_state (treeDeser_treeInv hstart (Nat.zero_le _)) fun _ u hu => decodePayload_treeInv hu
  · rw [decodeBody_of_gt (not_le.mp hlen)]
    exact h.congr ⟨rfl, rfl, rfl, rfl, rfl⟩ rfl rfl

/-- CodeGenBody() on the tree in NODE: its table, or no table (44_codetable.md R521). -/
theorem codeGen_treeInv {s : State} {t : HTree} (hv : s.treeValid = true) (h : s.TreeIs t) (hk : t.leaves ≤ alphabetSize)
    (hnode : Memory.wf nodeCap s.node) : (s.codeGen (visits s.nodeAt s.root.toNat [] t)).state.TreeInv := by
  have hsat := s.codeGen_sat (visits s.nodeAt s.root.toNat [] t)
  by_cases hd : (t.paths.map Prod.fst).Nodup
  · obtain ⟨c, hgen, hcodes⟩ := codeGen_ok h.holds hd
    rw [hgen] at hsat ⊢
    refine ⟨⟨fun hnot => ?_, fun _ => ⟨t, hk, h.congr ⟨rfl, rfl, rfl, rfl, rfl⟩, fun _ => hcodes.congr rfl⟩⟩, hnode, hsat.2⟩
    exact absurd hnot (by simp [Res.state, hv])
  · obtain ⟨c, hgen⟩ := codeGen_repeated h.holds hd
    rw [hgen] at hsat ⊢
    exact ⟨.of_tree hv rfl (h.congr ⟨rfl, rfl, rfl, rfl, rfl⟩) hk, hnode, hsat.2.1⟩

/-! ## The output -/

/-- DecodeBody() writes SYMOUT inside its size (46_codec.md R600). -/
theorem decodeBody_symout {s : State} (h : Memory.wf s.params.symCap s.symout) :
    Memory.wf s.params.symCap s.decodeBody.state.symout := by
  by_cases hlen : s.brlen.toNat ≤ s.params.byteCap
  · rw [decodeBody_of_le hlen]
    obtain ⟨nd, p, d, -, hpos, -, hraise | ⟨root, t, -, -, -, hok⟩⟩ := s.decodeStart.treeDeser_spec (Nat.zero_le _)
    · rw [hraise]
      exact h
    · rw [hok, Res.andThen_ok, decodePayload]
      obtain ⟨n, d', hread, -, hfit⟩ | ⟨hraise, -⟩ := readBits_cases 32 { s.decodeStart with
        node := nd, brPos := p, draws := d, root := BitVec.ofNat 17 root, nleaves := BitVec.ofNat 17 t.leaves
        nnodes := BitVec.ofNat 17 (2 * t.leaves - 1), treeValid := true, ctValid := false }
      · rw [hread, Res.andThen_ok]
        split
        · exact h
        · next hcap =>
          obtain ⟨so, p', d'', hstate, -, -, -, hwf, -⟩ := decodeSymbols_spec n 0 { s.decodeStart with
            node := nd, brPos := word (p.toNat + 32), draws := d', root := BitVec.ofNat 17 root
            nleaves := BitVec.ofNat 17 t.leaves, nnodes := BitVec.ofNat 17 (2 * t.leaves - 1), treeValid := true
            ctValid := false } ((word_toNat (hfit.trans_lt s.decodeStart.brLimit.isLt)).trans_le hfit)
          refine Res.andThen_state (P := fun u => Memory.wf s.params.symCap u.symout) ?_ fun _ _ hu => hu
          rw [hstate]
          exact hwf _ ((Nat.zero_add n).trans_le (not_lt.mp hcap)) h
      · rw [hraise]
        exact h
  · rw [decodeBody_of_gt (not_le.mp hlen)]
    exact h

end State

/-! ## ENC_ALL -/

theorem Res.sat_state_iff {α : Type} {r : Res α} {P : State → Prop} :
    r.Sat (fun _ u => P u) (fun _ u => P u) ↔ P r.state := by
  cases r <;> rfl

namespace State

/-- The parts of the invariant that ENC_ALL has a hand in. -/
structure EncAllInv (s : State) : Prop where
  writer : s.WriterInv
  tree : s.TreeInv
  freq : Memory.wf alphabetSize s.freq

theorem encAllBody_inv {s : State} (h : s.EncAllInv) : s.encAllBody.state.EncAllInv := by
  obtain ⟨hwriter, htree, hfreq⟩ := h
  rw [encAllBody]
  split
  · exact ⟨hwriter, htree, hfreq⟩
  refine Res.sat_state_iff.mp (Res.Sat.andThen (s.encAllBuild_sat.mono (fun _ _ h => h) fun e u ⟨hu, _, hwf⟩ => ?_)
    fun _ u ⟨hu, hwf, ⟨t, ht⟩, hnode⟩ => ?_)
  · refine ⟨hwriter.congr ?_ ?_, htree.congr ?_ ?_ ?_, hwf hfreq⟩
    · constructor <;> rw [hu]
    · rw [hu]
    · constructor <;> rw [hu]
    · rw [hu]
    · rw [hu]
  have hwriter' : u.WriterInv := by
    refine hwriter.congr ?_ ?_
    · constructor <;> rw [hu]
    · rw [hu]
  rw [Res.sat_state_iff, walk_of_holds ht.tree.holds ht.leaves, Option.getD_some]
  have hgen : ((u.codeGen (visits u.nodeAt u.root.toNat [] t)).state).EncAllInv := by
    have hsat := u.codeGen_sat (visits u.nodeAt u.root.toNat [] t)
    have honly : (u.codeGen (visits u.nodeAt u.root.toNat [] t)).state =
        { u with code := (u.codeGen (visits u.nodeAt u.root.toNat [] t)).state.code
                 ctValid := (u.codeGen (visits u.nodeAt u.root.toNat [] t)).state.ctValid } :=
      Res.sat_state_iff.mp (hsat.mono (fun _ _ h => h.1) fun _ _ h => h.1)
    refine ⟨hwriter'.congr ?_ ?_, codeGen_treeInv ht.valid ht.tree ht.leaves (hnode htree.node), ?_⟩
    · constructor <;> rw [honly]
    · rw [honly]
    · rwa [honly]
  refine Res.andThen_state hgen fun _ v ⟨hvw, hvt, hvf⟩ => ?_
  have hwrites : v.WriterOnly (v.encodeBody (visits u.nodeAt u.root.toNat [] t)).state :=
    Res.sat_state_iff.mp ((v.encodeBody_sat _).mono (fun _ _ h => h) fun _ _ h => h.1)
  unfold WriterOnly at hwrites
  refine ⟨encodeBody_inv hvw _, hvt.congr ?_ ?_ ?_, ?_⟩
  · constructor <;> rw [hwrites]
  · rw [hwrites]
  · rw [hwrites]
  · rwa [hwrites]

end State

/-! ## Every command -/

open State

theorem Res.andThen_results_state {α : Type} (r : Res α) (f : α → State → Results) :
    (r.andThen fun a u => .ok (f a u) u).state = r.state := by
  cases r <;> rfl

section
variable {r : Res Results} {t : State} (h : outcome r = .next t)
include h

theorem writerInv_of_outcome (hr : r.state.WriterInv) : t.WriterInv := by
  obtain rfl := outcome_eq_next.mp h
  exact hr.congr (by cases r <;> constructor <;> rfl) (by cases r <;> rfl)

theorem readerInv_of_outcome (hr : r.state.ReaderInv) : t.ReaderInv := by
  obtain rfl := outcome_eq_next.mp h
  exact hr.congr (by cases r <;> constructor <;> rfl) (by cases r <;> rfl)

theorem treeInv_of_outcome (hr : r.state.TreeInv) : t.TreeInv := by
  obtain rfl := outcome_eq_next.mp h
  exact hr.congr (by cases r <;> constructor <;> rfl) (by cases r <;> rfl) (by cases r <;> rfl)

theorem freq_of_outcome : t.freq = r.state.freq := by
  obtain rfl := outcome_eq_next.mp h
  cases r <;> rfl

theorem symout_of_outcome : t.symout = r.state.symout := by
  obtain rfl := outcome_eq_next.mp h
  cases r <;> rfl

end

section
variable {i : Instr} {s t : State} (hinv : s.Inv) (hexec : exec i s = .next t)
include hinv

theorem State.Inv.writerInv : s.WriterInv := ⟨hinv.params, hinv.writer, hinv.memory.bytemem⟩

theorem State.Inv.readerInv : s.ReaderInv := ⟨hinv.params, hinv.reader⟩

theorem State.Inv.treeInv : s.TreeInv := ⟨hinv.tree, hinv.memory.node, hinv.memory.code⟩

theorem State.Inv.encAllInv : s.EncAllInv := ⟨hinv.writerInv, hinv.treeInv, hinv.memory.freq⟩

include hexec

theorem exec_writerInv : t.WriterInv := by
  have hc := completes_of_exec hexec
  have hw := hinv.writerInv
  have hput {bs : Bits} (h : IsPut i s bs) : t.WriterInv := by
    rw [exec_of_isPut h] at hexec
    refine writerInv_of_outcome hexec ?_
    rw [Res.andThen_results_state]
    exact appendBits_inv hw bs
  cases i with
  | bwInit => exact writerInv_of_outcome hexec (initWriter_inv hw)
  | bwPut1 b => exact hput (.inl ⟨b, rfl, rfl⟩)
  | bwPutN w =>
    by_cases hle : w.toNat ≤ 32
    · exact hput (.inr ⟨w, hle, rfl, rfl⟩)
    · rw [exec_illegalWidth (not_le.mp hle) s (.inl rfl), ← outcome_raise] at hexec
      exact writerInv_of_outcome hexec hw
  | bwFinal => exact writerInv_of_outcome hexec (finalize_inv hw)
  | treeSer =>
    cases hv : s.treeValid with
    | false =>
      rw [exec_treeSer_noTree hv] at hexec
      exact writerInv_of_outcome hexec hw
    | true =>
      obtain ⟨tr, hk, htree, -⟩ := hinv.tree.tree hv
      rw [exec_treeSer_of_treeIs hv htree hk] at hexec
      refine writerInv_of_outcome hexec ?_
      rw [Res.andThen_results_state]
      exact appendAll_inv hw _
  | encode =>
    cases hcheck : s.encodeCheck with
    | some e =>
      rw [exec_encode_of_check hcheck] at hexec
      exact writerInv_of_outcome hexec hw
    | none =>
      obtain ⟨-, hv, -⟩ := encodeCheck_eq_none.mp hcheck
      obtain ⟨tr, hk, htree, -⟩ := hinv.tree.tree hv
      rw [exec_encode_of_walk hcheck (walk_of_holds htree.holds hk)] at hexec
      refine writerInv_of_outcome hexec ?_
      rw [containerResults, Res.andThen_results_state]
      exact encodeBody_inv hw _
  | encAll =>
    rw [exec_encAll] at hexec
    refine writerInv_of_outcome hexec ?_
    rw [containerResults, Res.andThen_results_state]
    exact (encAllBody_inv hinv.encAllInv).writer
  | _ => exact hw.congr (hc.sameWriter rfl) hc.sameHostState.params

theorem exec_readerInv : t.ReaderInv := by
  have hc := completes_of_exec hexec
  have hr := hinv.readerInv
  have hget {n : Nat} (h : IsGet i n) : t.ReaderInv := by
    rw [exec_of_isGet h] at hexec
    refine readerInv_of_outcome hexec ?_
    rw [Res.andThen_results_state]
    exact readBits_inv hr n
  cases i with
  | brInit =>
    refine readerInv_of_outcome hexec ?_
    split
    · exact hr
    · next hlen => exact initReader_inv hinv.params (not_lt.mp hlen)
  | brGet1 => exact hget (.inl ⟨rfl, rfl⟩)
  | brGetN w =>
    by_cases hle : w.toNat ≤ 32
    · exact hget (.inr ⟨w, hle, rfl, rfl⟩)
    · rw [exec_illegalWidth (not_le.mp hle) s (.inr rfl), ← outcome_raise] at hexec
      exact readerInv_of_outcome hexec hr
  | treeDeser =>
    refine readerInv_of_outcome hexec ?_
    rw [Res.andThen_results_state]
    exact treeDeser_readerInv hr
  | decode =>
    refine readerInv_of_outcome hexec ?_
    rw [Res.andThen_results_state]
    exact decodeBody_readerInv hr
  | _ => exact hr.congr (hc.sameReader rfl) hc.sameHostState.params

theorem exec_treeInv : t.TreeInv := by
  have hc := completes_of_exec hexec
  have ht := hinv.treeInv
  cases i with
  | treeBuild =>
    refine treeInv_of_outcome hexec ?_
    rw [Res.andThen_results_state]
    exact treeBuild_treeInv ht hinv.memory.freq
  | treeDeser =>
    refine treeInv_of_outcome hexec ?_
    rw [Res.andThen_results_state]
    exact treeDeser_treeInv ht hinv.reader.pos
  | codeGen =>
    cases hv : s.treeValid with
    | false =>
      rw [exec_codeGen_noTree hv] at hexec
      exact treeInv_of_outcome hexec ht
    | true =>
      obtain ⟨tr, hk, htree, -⟩ := hinv.tree.tree hv
      rw [exec_codeGen_of_holds hv htree.holds hk] at hexec
      refine treeInv_of_outcome hexec ?_
      rw [Res.andThen_results_state]
      exact codeGen_treeInv hv htree hk ht.node
  | decode =>
    refine treeInv_of_outcome hexec ?_
    rw [Res.andThen_results_state]
    exact decodeBody_treeInv ht
  | encAll =>
    rw [exec_encAll] at hexec
    refine treeInv_of_outcome hexec ?_
    rw [containerResults, Res.andThen_results_state]
    exact (encAllBody_inv hinv.encAllInv).tree
  | _ => exact ht.congr (hc.sameTree rfl) (hc.sameCtValid rfl) (hc.sameCode rfl)

theorem exec_freq_wf : Memory.wf alphabetSize t.freq := by
  have hc := completes_of_exec hexec
  have hf := hinv.memory.freq
  cases i with
  | freqClr =>
    rw [freq_of_outcome hexec]
    exact Memory.wf_fill _ _
  | freqCount =>
    rw [freq_of_outcome hexec, Res.andThen_results_state]
    exact (Res.sat_state_iff (P := fun u => Memory.wf alphabetSize u.freq)).mp
      (s.freqCount_sat.mono (fun _ _ h => h.2) fun _ _ h => h.1 ▸ hf)
  | encAll =>
    rw [exec_encAll] at hexec
    rw [freq_of_outcome hexec, containerResults, Res.andThen_results_state]
    exact (encAllBody_inv hinv.encAllInv).freq
  | _ => rwa [hc.sameFreq rfl]

theorem exec_outputOk : t.OutputOk := by
  have hc := completes_of_exec hexec
  cases i with
  | decode =>
    obtain ⟨e, u, hend, hout, -⟩ | ⟨n, u, hend, hn, hcap, hout, hwritten⟩ := s.decodeBody_cases
    · rw [exec_decode_of_raise hend] at hexec
      cases hexec
      constructor <;> simp [hout]
    · have hparams := hc.sameHostState.params
      rw [exec_decode_of_ok hend] at hexec
      cases hexec
      have hcount : u.outN.toNat = n := by rw [hout, word_toNat hn]
      refine ⟨?_, fun i hi => hwritten i (hcount ▸ hi)⟩
      rw [hparams]
      exact hcount.trans_le hcap
  | _ => exact hinv.output.congr (hc.sameOutput rfl).1 (hc.sameOutput rfl).2 hc.sameHostState.params

theorem exec_symout_wf : Memory.wf s.params.symCap t.symout := by
  have hc := completes_of_exec hexec
  cases i with
  | decode =>
    rw [symout_of_outcome hexec, Res.andThen_results_state]
    exact decodeBody_symout hinv.memory.symout
  | _ =>
    rw [(hc.sameOutput rfl).2]
    exact hinv.memory.symout

/-- Every command keeps the invariant. -/
theorem exec_inv : t.Inv := by
  have hhost := (completes_of_exec hexec).sameHostState
  have hw := exec_writerInv hinv hexec
  have ht := exec_treeInv hinv hexec
  refine ⟨hw.params, hw.writer, (exec_readerInv hinv hexec).reader, ht.tree, ⟨?_, ?_, hw.bytemem, ?_, ht.node, ht.code⟩,
    exec_outputOk hinv hexec⟩
  · rw [hhost.params, hhost.symin]
    exact hinv.memory.symin
  · rw [hhost.params]
    exact exec_symout_wf hinv hexec
  · exact exec_freq_wf hinv hexec

end

end Sys2Proof.Machine
end

/-! The invariant at reset, in a host transaction and in every step (10_state.md R190; 20_memory.md R209, R212;
70_reset_and_hazards.md R801 to R803), and that a polled command completes (40_control.md R402). -/
section

namespace Sys2Proof.Machine

open State

/-! ## The resets -/

/-- The registers that the invariant reads, at their reset values (10_state.md R190). -/
structure State.Cleared (s : State) : Prop where
  writer : s.bwNbits = 0 ∧ s.bwTail = 0
  reader : s.brPos = 0 ∧ s.brLimit = 0
  tree : s.treeValid = false ∧ s.ctValid = false
  registers : s.nleaves = 0 ∧ s.nnodes = 0 ∧ s.root = 0
  output : s.outN = 0

theorem State.Cleared.inv {s : State} (h : s.Cleared) (hp : s.params.legal) (hm : s.MemoryOk) : s.Inv := by
  obtain ⟨⟨hnbits, htail⟩, ⟨hpos, hlimit⟩, ⟨hv, hct⟩, ⟨hleaves, hnodes, hroot⟩, hout⟩ := h
  refine ⟨hp, ⟨?_, ?_⟩, ⟨?_, ?_, ?_⟩, .of_clear hv ⟨hleaves, hnodes, hroot, hct⟩, hm, ⟨?_, ?_⟩⟩
  · simp [hnbits]
  · simp [htail]
  · simp [hpos]
  · simp [hlimit]
  · simp [hlimit]
  · simp [hout]
  · simp [hout]

theorem resetWith_cleared (p : Params) : (resetWith p).Cleared :=
  ⟨⟨rfl, rfl⟩, ⟨rfl, rfl⟩, ⟨rfl, rfl⟩, ⟨rfl, rfl, rfl⟩, rfl⟩

theorem resetWith_memoryOk (p : Params) : (resetWith p).MemoryOk := by
  constructor <;> simp [resetWith, Memory.wf]

theorem resetWith_inv {p : Params} (hp : p.legal) : (resetWith p).Inv :=
  (resetWith_cleared p).inv hp (resetWith_memoryOk p)

/-- Settles O59: after reset every register is 0 and every memory is empty. -/
theorem resetMeetsInvariant : Obligations.ResetMeetsInvariant :=
  ⟨resetWith_inv (by decide), fun _ => resetWith_inv⟩

section
variable {s : State}

theorem powerOnReset_inv (hp : s.params.legal) : s.powerOnReset.Inv := by
  refine (resetWith_inv hp).congr ?_
  exact ⟨⟨rfl, rfl, rfl, rfl, rfl⟩, rfl, rfl, rfl, rfl, rfl, ⟨rfl, rfl, rfl⟩, ⟨rfl, rfl⟩, rfl, rfl⟩

/-- A spoiled memory, every entry of which is unwritten again, is in canonical form. -/
theorem wf_of_spoiled {α : Type} [DecidableEq α] {size : Nat} {m : Memory α} (h : Memory.wf size m) (b : Bool) :
    Memory.wf size (if b then Memory.unknown else m) := by
  cases b with
  | false => exact h
  | true => exact Memory.wf_unknown size

theorem softReset_inv (h : s.Inv) : s.softReset.Inv := by
  obtain ⟨symin, symout, bytemem, freq, node, code⟩ := h.memory
  exact Cleared.inv ⟨⟨rfl, rfl⟩, ⟨rfl, rfl⟩, ⟨rfl, rfl⟩, ⟨rfl, rfl, rfl⟩, rfl⟩ h.params
    ⟨symin, wf_of_spoiled symout _, wf_of_spoiled bytemem _, wf_of_spoiled freq _, node, code⟩

/-! ## Host transactions -/

theorem mdataWrite_inv (h : s.Inv) (v : Word) : (s.mdataWrite v).Inv := by
  obtain ⟨si, so, bm, fr, d, hwrite, hsi, hso, hbm, hfr, hwritten⟩ :=
    viewWrite_spec (View.ofMsel s.msel) s.maddr.toNat v s
  obtain ⟨symin, symout, bytemem, freq, node, code⟩ := h.memory
  rw [mdataWrite, hwrite]
  refine ⟨h.params, ⟨h.writer.fits, h.writer.tail⟩, ⟨h.reader.pos, h.reader.limit, h.reader.whole⟩,
    h.tree.congr ⟨rfl, rfl, rfl, rfl, rfl⟩ rfl rfl, ⟨hsi symin, hso symout, hbm bytemem, hfr freq, node, code⟩,
    h.output.count, fun j hj => hwritten j (h.output.written j hj)⟩

/-- A change of none of the fields that the invariant reads. -/
theorem sameUnits_of_eq {t : State} (h : t = { s with
      ie := t.ie, busy := t.busy, done := t.done, haz := t.haz, ecode := t.ecode, cmdl := t.cmdl, arg0 := t.arg0
      nsym := t.nsym, brlen := t.brlen, res0 := t.res0, res1 := t.res1, msel := t.msel, maddr := t.maddr
      pending := t.pending, rdata := t.rdata, draws := t.draws }) : s.SameUnits t := by
  rw [h]
  exact ⟨⟨rfl, rfl, rfl, rfl, rfl⟩, rfl, rfl, rfl, rfl, rfl, ⟨rfl, rfl, rfl⟩, ⟨rfl, rfl⟩, rfl, rfl⟩

theorem writeReg_inv (h : s.Inv) (r : Reg) (v : Word) : (s.writeReg r v).Inv := by
  cases r with
  | ctrl =>
    show (s.writeCtrl v).Inv
    rw [writeCtrl]
    split
    · exact softReset_inv h
    · exact h.congr (sameUnits_of_eq rfl)
  | status =>
    show (s.writeStatus v).Inv
    rw [writeStatus_spec]
    exact h.congr (sameUnits_of_eq rfl)
  | mdata => exact mdataWrite_inv h v
  | _ => exact h.congr (sameUnits_of_eq rfl)

theorem hostAccess_inv {t : State} {a : Access} (h : s.Inv) (hexec : hostAccess a s = .next t) : t.Inv := by
  obtain ⟨r, hr⟩ | ⟨r, -, -, -, hr⟩ | ⟨r, v, -, -, -, hr⟩ := hostAccess_cases a s <;> rw [hr] at hexec <;> cases hexec
  · obtain ⟨x, z, m, d, hread, -⟩ := hostRead_spec r s
    rw [hread]
    exact h.congr (sameUnits_of_eq rfl)
  · rw [hostWrite]
    split
    · exact h.congr (sameUnits_of_eq rfl)
    · exact writeReg_inv h r v

/-! ## Every step -/

theorem engineStep_inv {t : State} (h : s.Inv) (hstep : engineStep s = .next t) : t.Inv := by
  rw [engineStep] at hstep
  split at hstep
  · exact exec_inv h hstep
  · cases hstep
    exact h.congr (sameUnits_of_eq rfl)

theorem dropEvent_inv (h : s.Inv) (rest : List Event) : State.Inv { s with pending := rest } :=
  h.congr (sameUnits_of_eq rfl)

end

/-- Settles O60: the engine's step is `exec_inv`, the host's `hostAccess_inv`, and the resets clear what the invariant
reads. -/
theorem everyStepKeepsInvariant : Obligations.EveryStepKeepsInvariant := by
  intro s t h hstep
  obtain ⟨-, ⟨-, heq⟩ | ⟨rest, -, heq⟩⟩ | ⟨-, ⟨-, heq⟩ | ⟨rest, -, heq⟩⟩ | ⟨a, rest, -, heq⟩ | ⟨rest, -, heq⟩ :=
    step_cases s <;> rw [heq] at hstep
  · exact engineStep_inv h hstep
  · exact engineStep_inv (dropEvent_inv h rest) hstep
  · cases hstep
    exact h
  · cases hstep
    exact dropEvent_inv h rest
  · exact hostAccess_inv (dropEvent_inv h rest) hstep
  · cases hstep
    exact powerOnReset_inv (s := { s with pending := rest }) h.params

/-! ## Polling -/

/-- A read of STATUS changes nothing but `rdata` (70_reset_and_hazards.md R830, log 5). -/
theorem step_statusRead {s : State} {rest : List Event} (h : s.pending = .host ⟨0x08, 4, .read⟩ :: rest) :
    step s = .next { s with pending := rest, rdata := s.statusWord } :=
  step_read_register (r := .status) (.inr rfl) h rfl rfl

/-- The engine's step of a busy block completes its command (40_control.md R402, R403). -/
theorem engineStep_completes {s : State} (h : s.Inv) :
    ∃ t, engineStep s = .next t ∧ t.busy = false ∧ t.done = true := by
  rw [engineStep]
  cases Sys2Proof.decode s.cmdl with
  | error e => exact ⟨_, rfl, rfl, rfl⟩
  | ok i =>
    obtain ⟨-, -, hends⟩ := everyCommandEnds i s
    obtain ⟨t, ht⟩ := hends h
    obtain ⟨hbusy, hdone, -⟩ := completionKeepsHostState i s t ht
    exact ⟨t, ht, hbusy, hdone⟩

theorem run_succ_of_next {k : Nat} {s t : State} (h : step s = .next t) :
    Host.Core.run Sys2Proof.core (k + 1) s = Host.Core.run Sys2Proof.core k t := by
  have hcore : Sys2Proof.core.step s = .next t := h
  simp only [Host.Core.run, hcore]

/-- Settles O8, by induction on the pending reads: each keeps the invariant and BUSY, and after them the engine moves. -/
theorem polledCommandCompletes : Obligations.PolledCommandCompletes := by
  intro s hinv hbusy hpolls
  generalize hp : s.pending = events at hpolls ⊢
  induction events generalizing s with
  | nil =>
    obtain ⟨t, ht, hdone⟩ := engineStep_completes hinv
    have hstep : step s = .next t := by simp [step, nextMove, hp, engineMove, hbusy, ht]
    exact ⟨t, run_succ_of_next hstep, hdone⟩
  | cons e events ih =>
    obtain rfl := hpolls e (.head _)
    have hstep := step_statusRead hp
    obtain ⟨t, hrun, hdone⟩ := ih { s with pending := events, rdata := s.statusWord }
      (everyStepKeepsInvariant _ _ hinv hstep) hbusy rfl fun e he => hpolls e (.tail _ he)
    exact ⟨t, (run_succ_of_next hstep).trans hrun, hdone⟩

end Sys2Proof.Machine
end

/-! The engine's schedule, the resets, and which steps change STATUS (10_state.md R105 to R107; 40_control.md R402, R403,
R405; 70_reset_and_hazards.md R801 to R803, R830, R835). -/
section

namespace Sys2Proof.Machine

open State

/-! ## The engine's step -/

/-- Settles O4: a decoded word is read off its command's encoding by O1; the illegal ones evaluate. -/
theorem wordsOfTheFamiliesDecode : Obligations.WordsOfTheFamiliesDecode := by
  have hdecodes (x : Word) (i : Instr) (h : i.wf = true ∧ Sys2Proof.encode i = x) : Sys2Proof.decode x = .ok i :=
    (decodeInvertsEncode x i).mpr h
  refine ⟨?_, ?_, ?_, ?_, ?_, ?_, ?_, ?_, ?_, rfl, rfl, rfl⟩ <;> exact hdecodes _ _ ⟨rfl, rfl⟩

theorem engineStep_of_decode_ok {s : State} {i : Instr} (h : Sys2Proof.decode s.cmdl = .ok i) :
    engineStep s = exec i s := by
  rw [engineStep, h]

theorem step_engine {s : State} {rest : List Event} (hp : s.pending = .engine :: rest) (hbusy : s.busy = true) :
    step s = engineStep { s with pending := rest } := by
  simp only [step, nextMove, hp, engineMove, hbusy, if_true]

/-- Settles O5, by the engine's rule on a decoded word. -/
theorem stepRunsDecodedCommand : Obligations.StepRunsDecodedCommand := by
  intro s i
  refine ⟨fun rest hp hbusy hd => ?_, fun hp hbusy hd => ?_, fun x hd => ?_⟩
  · exact (step_engine hp hbusy).trans (engineStep_of_decode_ok hd)
  · simp only [step, nextMove, hp, engineMove, hbusy, if_true]
    exact engineStep_of_decode_ok hd
  · have hword : BitVec.ofNat 32 (x.toNat % 2 ^ 32) = x := by
      rw [Nat.mod_eq_of_lt x.isLt, BitVec.ofNat_toNat, BitVec.setWidth_eq]
    rw [withFetchWord, hword]
    exact (step_engine rfl rfl).trans (engineStep_of_decode_ok hd)

/-- Settles O6, by the engine's rule on an illegal word. -/
theorem illegalWordChangesNothingElse : Obligations.IllegalWordChangesNothingElse :=
  fun _ _ _ hp hbusy he => (step_engine hp hbusy).trans (engineStep_of_decode_error he)

/-- Settles O7: with BUSY = 0 the engine's move is to stay idle. -/
theorem idleEngineDoesNothing : Obligations.IdleEngineDoesNothing := by
  intro s hbusy
  constructor
  · intro hp
    simp [step, nextMove, hp, engineMove, hbusy]
  · intro rest hp
    simp [step, nextMove, hp, engineMove, hbusy]

/-! ## The resets -/

section
variable {s : State}

theorem spoiled_of_idle (h : s.busy = false) : s.spoiled = {} := if_pos h

theorem spoiled_of_illegal {e : DecodeError} (h : Sys2Proof.decode s.cmdl = .error e) : s.spoiled = {} := by
  rw [spoiled, h, ite_self]

theorem spoiled_of_running {i : Instr} (hbusy : s.busy = true) (h : Sys2Proof.decode s.cmdl = .ok i) :
    s.spoiled = spoiledBy i := by
  rw [spoiled, h, if_neg (by simp [hbusy])]

end

/-- The soft reset by what the aborted command spoils (70_reset_and_hazards.md R802, R803). -/
theorem softReset_of_spoiled {s : State} {sp : Spoiled} (h : s.spoiled = sp) :
    s.softReset =
      { resetWith s.params with
        symin := s.symin
        symout := if sp.symout then Memory.unknown else s.symout
        bytemem := if sp.bytemem then Memory.unknown else s.bytemem
        freq := if sp.freq then Memory.unknown else s.freq
        node := s.node, code := s.code, pending := s.pending, rdata := s.rdata, draws := s.draws } := by
  subst h
  rfl

/-- Settles O56: each command's row of R803's table. -/
theorem softResetKeepsMemories : Obligations.SoftResetKeepsMemories := by
  intro s rest v hp hbit after runs
  have hstep {sp : Spoiled} (h : s.spoiled = sp) : step s = .next (after
      (if sp.symout then Memory.unknown else s.symout) (if sp.bytemem then Memory.unknown else s.bytemem)
      (if sp.freq then Memory.unknown else s.freq)) := by
    rw [step_write_register (r := .ctrl) (.inr rfl) hp rfl, writeReg, writeCtrl, if_pos hbit,
      softReset_of_spoiled (s := { s with pending := rest }) h]
  have hruns {i : Instr} (h : runs i) : s.spoiled = spoiledBy i := spoiled_of_running h.1 h.2
  refine ⟨?_, ?_, ?_, fun h => hstep (hruns h), fun h => hstep (hruns h)⟩
  · rintro (hidle | ⟨e, he⟩ | ⟨i, hi, h⟩ | ⟨w, h⟩)
    · exact hstep (spoiled_of_idle hidle)
    · exact hstep (spoiled_of_illegal he)
    · have hrow : ∀ i ∈ [Instr.nop, .bwInit, .brInit, .brGet1, .treeBuild, .codeGen, .treeDeser], spoiledBy i = {} := by
        decide
      exact hstep ((hruns h).trans (hrow i hi))
    · exact hstep (hruns h)
  · rintro (⟨b, h⟩ | ⟨w, h⟩ | h | h | h) <;> exact hstep (hruns h)
  · rintro (h | h) <;> exact hstep (hruns h)

/-- Settles O57: the reset values are `resetWith`'s fields. -/
theorem powerOnResetValues : Obligations.PowerOnResetValues := by
  intro p s
  constructor
  · rintro rfl
    have hstatus : State.reset.statusWord = 0 := by decide
    exact ⟨rfl, hstatus, rfl, rfl, rfl, rfl, rfl, rfl, rfl, rfl, rfl, rfl, rfl, rfl, rfl, rfl, rfl, rfl, rfl,
      fun a => ⟨rfl, rfl, rfl, rfl⟩⟩
  · intro rest hp
    simp only [step, nextMove, hp]
    rfl

/-! ## STATUS -/

/-- The engine moves in this step (40_control.md R402; log 4). -/
def EngineMoves (s : State) : Prop := s.busy = true ∧ (s.pending = [] ∨ ∃ rest, s.pending = .engine :: rest)

/-- This step is a host write to an offset, of a word of a kind. -/
def Writes (s : State) (off : Nat) (p : Word → Prop) : Prop :=
  ∃ v rest, p v ∧ s.pending = .host ⟨off, 4, .write v⟩ :: rest

/-- This step is a reset, on power or by CTRL (70_reset_and_hazards.md R801, R802). -/
def Resets (s : State) : Prop :=
  (∃ rest, s.pending = .powerOn :: rest) ∨ Writes s 0x04 fun v => v.getLsbD 0 = true

/-- This step is a host access to the hazard range (70_reset_and_hazards.md R830). -/
def HazardAccess (s : State) : Prop :=
  s.busy = true ∧ ∃ a rest, s.pending = .host a :: rest ∧ 0x0C ≤ a.offset ∧ a.offset ≤ 0x54

/-- All that a step can do to the flags of STATUS. -/
inductive StatusChange (s t : State) : Prop
  | engine (moves : EngineMoves s) (busy : t.busy = false) (done : t.done = true) (haz : t.haz = s.haz)
  | reset (resets : Resets s) (busy : t.busy = false) (done : t.done = false) (haz : t.haz = false)
  | issue (idle : s.busy = false) (writes : Writes s 0x0C fun _ => True)
      (ecode : t.ecode = s.ecode) (haz : t.haz = s.haz) (done : t.done = false)
      (treeValid : t.treeValid = s.treeValid) (ctValid : t.ctValid = s.ctValid)
  | acknowledge (v : Word) (writes : Writes s 0x08 (· = v)) (busy : t.busy = s.busy)
      (done : t.done = (s.done && !v.getLsbD 1)) (ecode : t.ecode = s.ecode) (haz : t.haz = (s.haz && !v.getLsbD 3))
      (treeValid : t.treeValid = s.treeValid) (ctValid : t.ctValid = s.ctValid)
  | other (busy : t.busy = s.busy) (done : t.done = s.done) (ecode : t.ecode = s.ecode)
      (haz : t.haz = s.haz ∨ HazardAccess s ∧ t.haz = true)
      (treeValid : t.treeValid = s.treeValid) (ctValid : t.ctValid = s.ctValid)

/-- An engine step that ends leaves BUSY = 0, DONE = 1 and HAZ (60_exceptions.md R720; 40_control.md R405). -/
theorem engineStep_flags {s t : State} (h : engineStep s = .next t) :
    t.busy = false ∧ t.done = true ∧ t.haz = s.haz := by
  cases hd : Sys2Proof.decode s.cmdl with
  | error e =>
    cases (engineStep_of_decode_error hd).symm.trans h
    exact ⟨rfl, rfl, rfl⟩
  | ok i =>
    obtain ⟨hbusy, hdone, -, -, hhaz, -⟩ := completionKeepsHostState i s t ((engineStep_of_decode_ok hd).symm.trans h)
    exact ⟨hbusy, hdone, hhaz⟩

theorem statusChange_engine {s u t : State} (hm : EngineMoves s) (hhaz : u.haz = s.haz) (h : engineStep u = .next t) :
    StatusChange s t := by
  obtain ⟨hbusy, hdone, hhaz'⟩ := engineStep_flags h
  exact .engine hm hbusy hdone (hhaz'.trans hhaz)

section
variable {s : State} {rest : List Event} {off : Nat} {r : Reg} {v : Word}

theorem statusChange_read (hp : s.pending = .host ⟨off, 4, .read⟩ :: rest) (hr : Reg.ofOffset off = some r) :
    StatusChange s (hostRead r { s with pending := rest }) := by
  obtain ⟨-, -, hrange⟩ := ofOffset_bounds hr
  obtain ⟨x, h, m, d, heq, hset, hsame⟩ := hostRead_spec r { s with pending := rest }
  rw [heq]
  refine .other rfl rfl rfl ?_ rfl rfl
  by_cases hz : s.busy = true ∧ r.hazardous = true
  · obtain ⟨hbusy, hreg⟩ := hz
    cases h
    · exact .inl (Bool.eq_false_iff.mpr fun h => by cases hset h).symm
    · exact .inr ⟨⟨hbusy, _, rest, hp, hrange hreg⟩, rfl⟩
  · exact .inl (hsame hz)

/-- A write by the register's own rule: only CTRL, STATUS and CMD touch the flags. -/
theorem statusChange_writeReg (hp : s.pending = .host ⟨off, 4, .write v⟩ :: rest) (hr : Reg.ofOffset off = some r)
    (hz : s.busy = false ∨ r.hazardous = false) : StatusChange s (writeReg r v { s with pending := rest }) := by
  obtain ⟨hctrl, hstatus, hcmd⟩ := offset_of_reg hr
  cases r
  case ctrl =>
    obtain rfl := hctrl rfl
    rw [writeReg, writeCtrl]
    split
    · next hbit => exact .reset (.inr ⟨v, rest, hbit, hp⟩) rfl rfl rfl
    · exact .other rfl rfl rfl (.inl rfl) rfl rfl
  case status =>
    obtain rfl := hstatus rfl
    rw [writeReg, writeStatus_spec]
    exact .acknowledge v ⟨v, rest, rfl, hp⟩ rfl rfl rfl rfl rfl rfl
  case cmd =>
    obtain rfl := hcmd rfl
    have hidle : s.busy = false := hz.resolve_right (by decide)
    exact .issue hidle ⟨v, rest, trivial, hp⟩ rfl rfl rfl rfl rfl
  case mdata =>
    obtain ⟨si, so, bm, fr, d, heq, -⟩ := viewWrite_spec (View.ofMsel s.msel) s.maddr.toNat v { s with pending := rest }
    rw [writeReg, mdataWrite, heq]
    exact .other rfl rfl rfl (.inl rfl) rfl rfl
  all_goals exact .other rfl rfl rfl (.inl rfl) rfl rfl

theorem statusChange_write (hp : s.pending = .host ⟨off, 4, .write v⟩ :: rest) (hr : Reg.ofOffset off = some r) :
    StatusChange s (hostWrite r v { s with pending := rest }) := by
  obtain ⟨-, -, hrange⟩ := ofOffset_bounds hr
  by_cases hz : s.busy = true ∧ r.hazardous = true
  · obtain ⟨hbusy, hreg⟩ := hz
    rw [hostWrite, if_pos ⟨hbusy, hreg⟩]
    exact .other rfl rfl rfl (.inr ⟨⟨hbusy, _, rest, hp, hrange hreg⟩, rfl⟩) rfl rfl
  · have hnot : s.busy = false ∨ r.hazardous = false :=
      (not_and_or.mp hz).imp Bool.eq_false_iff.mpr Bool.eq_false_iff.mpr
    rw [hostWrite_of_no_hazard (s := { s with pending := rest }) hnot]
    exact statusChange_writeReg hp hr hnot

end

theorem statusChange_host {s t : State} {a : Access} {rest : List Event} (hp : s.pending = .host a :: rest)
    (h : hostAccess a { s with pending := rest } = .next t) : StatusChange s t := by
  obtain ⟨off, bytes, op⟩ := a
  rcases hostAccess_cases ⟨off, bytes, op⟩ { s with pending := rest } with
    ⟨r, hr⟩ | ⟨r, rfl, hr, rfl, hread⟩ | ⟨r, v, rfl, hr, rfl, hwrite⟩
  · cases hr.symm.trans h
  · cases hread.symm.trans h
    exact statusChange_read hp hr
  · cases hwrite.symm.trans h
    exact statusChange_write hp hr

theorem step_statusChange {s t : State} (h : step s = .next t) : StatusChange s t := by
  rcases step_cases s with ⟨hbusy, ⟨hp, hs⟩ | ⟨rest, hp, hs⟩⟩ | ⟨-, ⟨-, hs⟩ | ⟨rest, -, hs⟩⟩ | ⟨a, rest, hp, hs⟩ |
    ⟨rest, hp, hs⟩
  · exact statusChange_engine ⟨hbusy, .inl hp⟩ rfl (hs.symm.trans h)
  · exact statusChange_engine (u := { s with pending := rest }) ⟨hbusy, .inr ⟨rest, hp⟩⟩ rfl (hs.symm.trans h)
  · cases hs.symm.trans h
    exact .other rfl rfl rfl (.inl rfl) rfl rfl
  · cases hs.symm.trans h
    exact .other rfl rfl rfl (.inl rfl) rfl rfl
  · exact statusChange_host hp (hs.symm.trans h)
  · cases hs.symm.trans h
    exact .reset (.inl ⟨rest, hp⟩) rfl rfl rfl

/-- Settles O58, kind of step by kind of step. -/
theorem statusChangesOnlyAsStated : Obligations.StatusChangesOnlyAsStated := by
  intro s t hstep engineMoves writes resets issues
  cases step_statusChange hstep with
  | engine moves busy done haz =>
    have hm : engineMoves := moves
    simp_all
  | reset hreset busy done haz =>
    have hr : resets := hreset
    simp_all
  | issue idle hwrites ecode haz done treeValid ctValid =>
    have hi : issues := ⟨idle, hwrites⟩
    simp_all
  | acknowledge v hwrites busy done ecode haz treeValid ctValid =>
    obtain ⟨v, rest, rfl, hp⟩ := hwrites
    have hw {p : Word → Prop} (h : p v) : writes 0x08 p := ⟨v, rest, h, hp⟩
    have hdone (h : s.done = true) (h' : t.done = false) : writes 0x08 fun v => v.getLsbD 1 = true := hw (by simp_all)
    have hhaz (h : s.haz = true) (h' : t.haz = false) : writes 0x08 fun v => v.getLsbD 3 = true := hw (by simp_all)
    simp_all
  | other busy done ecode haz treeValid ctValid =>
    rcases haz with haz | ⟨⟨hbusy, haccess⟩, haz⟩ <;> simp_all

end Sys2Proof.Machine
end

/-! The reader and TREE_BUILD (41_bitio.md R423; 43_tree.md R481 to R485): reads of unwritten bytes, the errors of the
build, the tree it leaves, and that the build reads FREQ alone. -/
section

namespace Sys2Proof.Machine

open State

/-- Settles O19, by all that ReadBits can do inside the slice. -/
theorem readsOfUnwrittenBytesComplete : Obligations.ReadsOfUnwrittenBytesComplete := by
  intro s i n hget hfit
  have hn : n ≤ 32 := by
    rcases hget with ⟨-, rfl⟩ | ⟨w, hw, -, rfl⟩
    · exact Nat.succ_le_of_lt (by decide)
    · exact hw
  rcases readBits_cases n s with ⟨x, d, hread, hx, -⟩ | ⟨-, hpast⟩
  · have hword : (word x).toNat = x := word_toNat (hx.trans_le (Nat.pow_le_pow_right (by decide) hn))
    refine ⟨word x, d, hword.trans_lt hx, ?_⟩
    rw [exec_of_isGet hget, hread, Res.andThen_ok]
    rfl
  · exact absurd hfit hpast.not_ge

/-! ## The present symbols -/

namespace State

theorem mem_presentSymbols {s : State} (x : Symbol) : x.toNat ∈ s.presentSymbols ↔ s.freqAt x.toNat ≠ 0 := by
  rw [presentSymbols, List.mem_filter, List.mem_range, decide_eq_true_eq]
  exact and_iff_right x.isLt

/-- The leaves carry the present symbols. -/
theorem freqLeaves_map_symbol (s : State) :
    (s.freqLeaves.map fun c => BitVec.ofNat 16 c.1) = s.presentSymbols.map (BitVec.ofNat 16) := by
  rw [freqLeaves, List.map_map]
  rfl

theorem mem_freqLeaves_symbol {s : State} (x : Symbol) :
    x ∈ s.freqLeaves.map (fun c => BitVec.ofNat 16 c.1) ↔ s.freqAt x.toNat ≠ 0 := by
  rw [freqLeaves_map_symbol, ← mem_presentSymbols, List.mem_map]
  constructor
  · rintro ⟨i, hi, rfl⟩
    rwa [symbol_toNat (lt_of_mem_presentSymbols hi)]
  · exact fun hx => ⟨x.toNat, hx, by simp⟩

theorem nodup_freqLeaves_symbol (s : State) : (s.freqLeaves.map fun c => BitVec.ofNat 16 c.1).Nodup := by
  rw [freqLeaves_map_symbol]
  refine List.Nodup.map_on (fun i hi j hj h => ?_) (List.nodup_range.filter _)
  rw [← symbol_toNat (lt_of_mem_presentSymbols hi), ← symbol_toNat (lt_of_mem_presentSymbols hj), h]

theorem freqLeaves_eq_nil_iff {s : State} : s.freqLeaves = [] ↔ s.presentSymbols = [] := List.map_eq_nil_iff

/-- FREQ's contents alone give the leaves (43_tree.md R485). -/
theorem freqLeaves_congr {s u : State} (h : ∀ i, i < alphabetSize → u.freq.get? i = s.freq.get? i) :
    u.freqLeaves = s.freqLeaves := by
  have hat : ∀ i, i < alphabetSize → u.freqAt i = s.freqAt i := fun i hi => congrArg (Option.getD · 0) (h i hi)
  have hpresent : u.presentSymbols = s.presentSymbols :=
    List.filter_congr fun i hi => by rw [hat i (List.mem_range.mp hi)]
  rw [freqLeaves, freqLeaves, hpresent]
  exact List.map_congr_left fun i hi => by rw [hat i (lt_of_mem_presentSymbols hi)]

end State

/-! ## TREE_BUILD -/

/-- Settles O24: the two checks, on the present symbols and their counts. -/
theorem treeBuildErrors : Obligations.TreeBuildErrors := by
  intro s hwritten hwf
  have hscan : s.nonzeroFreq = (s.freqLeaves, s) := nonzeroFreq_written hwf hwritten
  refine ⟨fun hempty => ?_, fun hne hover => ?_⟩
  · have hraise : s.treeBuild = .raise .emptyInput s := by
      simp only [treeBuild, hscan, freqLeaves_eq_nil_iff.mpr hempty, List.length_nil, if_true]
    rw [exec_treeBuild, hraise, Res.andThen_raise, outcome_raise]
  · have hleaves : ¬ s.freqLeaves.length = 0 := mt (freqLeaves_eq_nil_iff.mp ∘ List.length_eq_zero_iff.mp) hne
    have hweight : totalWeight s.freqLeaves > maxTotalWeight := s.freqTotal_eq_totalWeight ▸ hover
    have hraise : s.treeBuild = .raise .weightOverflow s := by
      simp only [treeBuild, hscan, if_neg hleaves, if_pos hweight]
    rw [exec_treeBuild, hraise, Res.andThen_raise, outcome_raise]

/-- A TREE_BUILD that ends without error has passed both checks (43_tree.md R481). -/
theorem treeBuild_success {s t : State} (hwritten : s.freqWritten) (hwf : Memory.wf alphabetSize s.freq)
    (h : exec .treeBuild s = .next t) (hok : t.ecode = none) :
    s.freqLeaves ≠ [] ∧ totalWeight s.freqLeaves ≤ maxTotalWeight ∧
      t = { s.buildTree s.freqLeaves with
        res0 := word s.freqLeaves.length, res1 := word (2 * s.freqLeaves.length - 1), busy := false, done := true
        ecode := none } := by
  obtain ⟨hempty, hover⟩ := treeBuildErrors s hwritten hwf
  by_cases hne : s.presentSymbols = []
  · cases (hempty hne).symm.trans h
    cases hok
  · by_cases hweight : s.freqTotal ≤ 2 ^ 63 - 1
    · have hleaves := mt freqLeaves_eq_nil_iff.mp hne
      have hsum : totalWeight s.freqLeaves ≤ maxTotalWeight := s.freqTotal_eq_totalWeight ▸ hweight
      refine ⟨hleaves, hsum, ?_⟩
      have hexec := exec_treeBuild_of_ok (treeBuild_ok hwf hwritten hleaves hsum)
      exact Host.Outcome.next.inj (h.symm.trans hexec)
    · cases (hover hne (not_le.mp hweight)).symm.trans h
      cases hok

/-- Settles O23: the built tree carries the leaves' symbols, which are the present ones. -/
theorem treeBuildLeavesStrictTree : Obligations.TreeBuildLeavesStrictTree := by
  intro s t hwritten hwf hexec hok
  obtain ⟨hne, hweight, rfl⟩ := treeBuild_success hwritten hwf hexec hok
  obtain ⟨-, tr, -, htree, -, hperm⟩ := buildTree_treeIs s hne s.freqLeaves_length_le hweight
  generalize s.buildTree s.freqLeaves = u at htree
  refine ⟨tr, htree.congr ⟨rfl, rfl, rfl, rfl, rfl⟩,
    hperm.nodup_iff.mpr s.nodup_freqLeaves_symbol, fun x => ?_⟩
  rw [hperm.mem_iff, mem_freqLeaves_symbol]

/-! ## The build reads FREQ alone (43_tree.md R485) -/

/-- Two arenas agree below an index. -/
def AgreeBelow (n : Nat) (m m' : Memory NodeRec) : Prop := ∀ a, a < n → m.get? a = m'.get? a

theorem AgreeBelow.write {n : Nat} {m m' : Memory NodeRec} (h : AgreeBelow n m m') (r : NodeRec) :
    AgreeBelow (n + 1) (m.write n r) (m'.write n r) := by
  intro a ha
  rw [Memory.get?_write, Memory.get?_write]
  split
  · rfl
  · exact h a (by omega)

theorem takeMin_length (xs : List QueueNode) : ∀ x : QueueNode, (takeMin x xs).2.length = xs.length := by
  induction xs with
  | nil => exact fun _ => rfl
  | cons y ys ih =>
    intro x
    have hrest := ih y
    rw [takeMin]
    dsimp only
    split <;> simp [hrest]

theorem writeLeaves_agree (leaves : List (Nat × Weight)) (m m' : Memory NodeRec) :
    AgreeBelow leaves.length (writeLeaves m 0 leaves) (writeLeaves m' 0 leaves) := by
  intro a ha
  rw [writeLeaves_get, writeLeaves_get, if_pos a.zero_le, if_pos a.zero_le, Nat.sub_zero,
    List.getElem?_eq_getElem ha]
  rfl

/-- The merges never read the arena: they make the same nodes in any two that agree on the nodes made before. -/
theorem mergeNodes_agree (n : Nat) : ∀ {next : Nat} {m m' : Memory NodeRec} (x : QueueNode) (xs : List QueueNode),
    AgreeBelow next m m' → xs.length ≤ n →
    AgreeBelow (next + xs.length) (mergeNodes n m next x xs).1 (mergeNodes n m' next x xs).1 ∧
      (mergeNodes n m next x xs).2 = (mergeNodes n m' next x xs).2 := by
  induction n with
  | zero =>
    intro next m m' x xs h hlen
    obtain rfl := List.length_eq_zero_iff.mp (Nat.le_zero.mp hlen)
    exact ⟨h, rfl⟩
  | succ n ih =>
    intro next m m' x xs h hlen
    cases xs with
    | nil => exact ⟨h, rfl⟩
    | cons y ys =>
      have hmin := takeMin_length (y :: ys) x
      rw [mergeNodes, mergeNodes]
      split
      · next heq => simp [heq] at hmin
      · next a z zs heq =>
        rw [heq] at hmin
        have hrest := takeMin_length zs z
        simp only [List.length_cons] at hmin hlen ⊢
        have hround := ih ⟨a.w + (takeMin z zs).1.w, next⟩ (takeMin z zs).2
          (h.write (NodeRec.mkInternal (a.w + (takeMin z zs).1.w) a.index (takeMin z zs).1.index)) (by omega)
        rwa [hrest, show next + 1 + zs.length = next + (ys.length + 1) by omega] at hround

/-- Two builds from the same leaves make the same nodes and describe them alike. -/
theorem buildTree_agree {s u : State} {leaves : List (Nat × Weight)} (hne : leaves ≠ []) :
    AgreeBelow (s.buildTree leaves).nnodes.toNat (s.buildTree leaves).node (u.buildTree leaves).node ∧
      (s.buildTree leaves).root = (u.buildTree leaves).root ∧
      (s.buildTree leaves).nleaves = (u.buildTree leaves).nleaves ∧
      (s.buildTree leaves).nnodes = (u.buildTree leaves).nnodes := by
  have hqueue : (leafQueue 0 leaves).length = leaves.length := by
    rw [← List.length_map QueueNode.index, leafQueue_index, List.length_range']
  rw [buildTree, buildTree]
  split
  · next heq =>
    rw [heq] at hqueue
    exact absurd (List.length_eq_zero_iff.mp hqueue.symm) hne
  · next x xs heq =>
    rw [heq, List.length_cons] at hqueue
    obtain ⟨hnodes, hroot⟩ := mergeNodes_agree leaves.length x xs (writeLeaves_agree leaves s.node u.node) (by omega)
    rw [show leaves.length + xs.length = 2 * leaves.length - 1 by omega] at hnodes
    have hcount : (BitVec.ofNat 17 (2 * leaves.length - 1)).toNat ≤ 2 * leaves.length - 1 :=
      BitVec.toNat_ofNat _ _ ▸ Nat.mod_le _ _
    exact ⟨fun a ha => hnodes a (ha.trans_le hcount), congrArg (fun q : QueueNode => BitVec.ofNat 17 q.index) hroot, rfl, rfl⟩

/-- Settles O25: both runs see the same leaves, so both raise the same error or build the same nodes. -/
theorem treeBuildDependsOnFreqAlone : Obligations.TreeBuildDependsOnFreqAlone := by
  intro s1 s2 t1 t2 hwritten hwf1 hwf2 hsame h1 h2
  have hwritten2 : s2.freqWritten := fun i hi => by rw [hsame i hi]; exact hwritten i hi
  have hleaves : s2.freqLeaves = s1.freqLeaves := freqLeaves_congr hsame
  have hpresent : s2.presentSymbols = [] ↔ s1.presentSymbols = [] := by
    rw [← freqLeaves_eq_nil_iff, hleaves, freqLeaves_eq_nil_iff]
  have htotal : s2.freqTotal = s1.freqTotal := by
    rw [freqTotal_eq_totalWeight, hleaves, freqTotal_eq_totalWeight]
  obtain ⟨hempty1, hover1⟩ := treeBuildErrors s1 hwritten hwf1
  obtain ⟨hempty2, hover2⟩ := treeBuildErrors s2 hwritten2 hwf2
  by_cases hne : s1.presentSymbols = []
  · cases (hempty1 hne).symm.trans h1
    cases (hempty2 (hpresent.mpr hne)).symm.trans h2
    exact ⟨rfl, fun h => by cases h⟩
  · by_cases hweight : s1.freqTotal ≤ 2 ^ 63 - 1
    · have hsum : totalWeight s1.freqLeaves ≤ maxTotalWeight := s1.freqTotal_eq_totalWeight ▸ hweight
      have hnil : s1.freqLeaves ≠ [] := mt freqLeaves_eq_nil_iff.mp hne
      have hrun1 := exec_treeBuild_of_ok (treeBuild_ok hwf1 hwritten hnil hsum)
      have hrun2 := exec_treeBuild_of_ok (treeBuild_ok hwf2 hwritten2 (by rwa [hleaves]) (by rwa [hleaves]))
      rw [hleaves] at hrun2
      have hagree := buildTree_agree (s := s1) (u := s2) hnil
      generalize s1.buildTree s1.freqLeaves = u1 at hrun1 hagree
      generalize s2.buildTree s1.freqLeaves = u2 at hrun2 hagree
      obtain ⟨hnodes, hroot, hnleaves, hnnodes⟩ := hagree
      cases h1.symm.trans hrun1
      cases h2.symm.trans hrun2
      exact ⟨rfl, fun _ => ⟨hroot, hnleaves, hnnodes, hnodes⟩⟩
    · have hmore := not_le.mp hweight
      cases (hover1 hne hmore).symm.trans h1
      cases (hover2 (mt hpresent.mp hne) (hmore.trans_eq htotal.symm)).symm.trans h2
      exact ⟨rfl, fun h => by cases h⟩

end Sys2Proof.Machine
end

/-! The errors of CODE_GEN, TREE_SER, ENCODE and ENC_ALL (44_codetable.md R521, R524; 45_serdes.md R550, R552; 46_codec.md
R580, R615; 60_exceptions.md R711, R712). -/
section

namespace Sys2Proof.Machine

open State

/-- Settles O27: the check, and `codeGen_repeated`. -/
theorem codeGenErrors : Obligations.CodeGenErrors := by
  intro s
  refine ⟨fun hv => by rw [exec_codeGen_noTree hv, outcome_raise], fun tr hv htree hk hrep => ?_⟩
  obtain ⟨c, hraise⟩ := codeGen_repeated htree.holds hrep
  refine ⟨c, ?_⟩
  rw [exec_codeGen_of_holds hv htree.holds hk, hraise, Res.andThen_raise, outcome_raise]

/-- Settles O31: the check, and the fields before the first that does not fit (`appendAll_cases`). -/
theorem treeSerErrors : Obligations.TreeSerErrors := by
  intro s
  refine ⟨fun hv => by rw [exec_treeSer_noTree hv, outcome_raise], fun tr hp hw hv htree hk hover => ?_⟩
  rcases appendAll_cases hp hw (fields := tr.fields) with ⟨u, -, -, hfit⟩ | ⟨u, bs, hraise, happ, hstop⟩
  · rw [tr.fields_flatten, tr.pre_length] at hfit
    exact absurd hfit hover.not_ge
  · obtain ⟨only, hext, -, hout, -⟩ := happ
    obtain ⟨n, tl, m, rfl⟩ : ∃ n tl m, u = { s with bwNbits := n, bwTail := tl, bytemem := m } := ⟨_, _, _, only⟩
    refine ⟨n, tl, m, bs, ?_, hstop, hext, hout⟩
    rw [exec_treeSer_of_treeIs hv htree hk, hraise, Res.andThen_raise, outcome_raise]

/-! ## The encoders' checks -/

section
variable {s : State}

theorem encAllCheck_of_no_symbol (h : s.nsym = 0) : s.encAllCheck = some .emptyInput := if_pos (by rw [symbolCount, h]; rfl)

theorem encAllCheck_of_too_many (hne : s.nsym ≠ 0) (h : s.params.symCap < s.nsym.toNat) :
    s.encAllCheck = some .badArgument :=
  (if_neg fun hzero => hne (BitVec.eq_of_toNat_eq hzero)).trans (if_pos h)

theorem encodeCheck_of_encAllCheck {e : Err} (h : s.encAllCheck = some e) : s.encodeCheck = some e := by
  rw [encodeCheck, h]

/-- The encoders share their first two checks; a failed one changes nothing else. -/
theorem exec_encoder_of_check {i : Instr} {e : Err} (hi : i = .encode ∨ i = .encAll) (h : s.encAllCheck = some e) :
    exec i s = .next { s with busy := false, done := true, ecode := some e } := by
  rcases hi with rfl | rfl
  · rw [exec_encode_of_check (encodeCheck_of_encAllCheck h), outcome_raise]
  · rw [exec_encAll, encAllBody, h]
    exact outcome_containerResults_raise e s

end

/-- Settles O36, check by check. -/
theorem encodersCheckInOrder : Obligations.EncodersCheckInOrder := by
  intro s
  have hcheck (hne : s.nsym ≠ 0) (hcap : s.nsym.toNat ≤ s.params.symCap) : s.encAllCheck = none :=
    encAllCheck_eq_none.mpr ⟨Nat.pos_of_ne_zero fun hzero => hne (BitVec.eq_of_toNat_eq hzero), hcap⟩
  refine ⟨fun i hi => ⟨fun hzero => ?_, fun hne hmany => ?_⟩, fun hne hcap hv => ?_, fun hne hcap hv hct => ?_⟩
  · exact exec_encoder_of_check hi (encAllCheck_of_no_symbol hzero)
  · exact exec_encoder_of_check hi (encAllCheck_of_too_many hne hmany)
  · have hfail : s.encodeCheck = some .noTree := by
      simp only [encodeCheck, hcheck hne hcap, hv, if_true]
    rw [exec_encode_of_check hfail, outcome_raise]
  · have hfail : s.encodeCheck = some .noCodeTable := by
      simp only [encodeCheck, hcheck hne hcap, hv, hct, Bool.true_eq_false, if_false, if_true]
    rw [exec_encode_of_check hfail, outcome_raise]

/-! ## A symbol without a code -/

/-- Settles O37: the fields before the symbol all fit (`appendAll_ok`), and the loop goes on at the symbol without a
code. -/
theorem encodeStopsAtMissingCode : Obligations.EncodeStopsAtMissingCode := by
  intro s tr before x after hp hin hcap hv hct htree hk hcoded hmissing bits hfit
  have hpos : 0 < s.nsym.toNat := by rw [hin.1, List.length_append, List.length_cons]; omega
  have hget : s.symin.get? before.length = some x := by
    rw [hin.2 _ (by simp), List.getElem?_append_right le_rfl, Nat.sub_self, List.getElem?_cons_zero]
  have hbits : (tr.fields ++ [bitsOf 32 (before ++ x :: after).length] ++
      before.map fun y => (s.codeAt y.toNat).bits).flatten = bits := by
    simp only [List.flatten_append, tr.fields_flatten, List.flatten_singleton, bits, hin.1]
  have hw : s.initWriter.WriterOk := ⟨Nat.zero_le _, fun _ _ => BitVec.getLsbD_zero⟩
  obtain ⟨u, hu, ⟨only, hext, -, hout, -⟩⟩ := appendAll_ok (s := s.initWriter) hp hw
    (hbits.symm ▸ (Nat.zero_add _).trans_le hfit)
  rw [hbits] at hext
  obtain ⟨n, tl, m, rfl⟩ : ∃ n tl m, u = { s with bwNbits := n, bwTail := tl, bytemem := m } := ⟨_, _, _, only⟩
  have hmiss := encodeSymbols_missing (n := after.length) (s := { s with bwNbits := n, bwTail := tl, bytemem := m })
    hget hmissing
  refine ⟨n, tl, m, ?_, hext, by simpa [initWriter] using hout⟩
  rw [exec_encode_of_treeIs hpos (hin.1.trans_le hcap) hv hct htree hk, encodeBody_append htree.holds hin hcoded, hu,
    Res.andThen_ok, List.length_cons, hmiss, Res.andThen_raise,
    outcome_containerResults_raise]

end Sys2Proof.Machine
end

/-! DECODE reads its slice alone (46_codec.md R622): two runs over the same written slice make the same moves. -/
section

namespace Sys2Proof.Machine

open State

/-! ## Two runs side by side -/

/-- Two runs come to the same end: the same value in states related by R, or the same error. -/
def Res.Matches {α : Type} (R : α → State → State → Prop) : Res α → Res α → Prop
  | .ok a s, .ok b u => a = b ∧ R a s u
  | .raise e _, .raise f _ => e = f
  | _, _ => False

theorem Res.Matches.mono {α : Type} {R Q : α → State → State → Prop} {r r' : Res α} (h : r.Matches R r')
    (hRQ : ∀ a s u, R a s u → Q a s u) : r.Matches Q r' := by
  cases r <;> cases r'
  case ok.ok a s b u => exact ⟨h.1, hRQ a s u h.2⟩
  all_goals exact h

theorem Res.Matches.andThen {α β : Type} {R : α → State → State → Prop} {Q : β → State → State → Prop} {r r' : Res α}
    {k k' : α → State → Res β} (h : r.Matches R r') (hk : ∀ a s u, R a s u → (k a s).Matches Q (k' a u)) :
    (r.andThen k).Matches Q (r'.andThen k') := by
  cases r <;> cases r'
  case ok.ok a s b u =>
    obtain ⟨rfl, hR⟩ := h
    exact hk a s u hR
  case raise.raise => exact h
  all_goals exact h.elim

/-- Two readers stand at the same place of the same written slice. -/
structure SameSlice (s u : State) : Prop where
  pos : u.brPos = s.brPos
  limit : u.brLimit = s.brLimit
  written : ∀ k, k < s.brLimit.toNat → ∃ b, s.bytemem.bit k = some b ∧ u.bytemem.bit k = some b
  params : u.params = s.params

/-- Both runs have moved their cursors alike and changed nothing else. -/
def MovedAlike (s u s' u' : State) : Prop := ∃ p, s' = { s with brPos := p } ∧ u' = { u with brPos := p }

section
variable {s u : State}

theorem SameSlice.moved (h : SameSlice s u) (p : Word) : SameSlice { s with brPos := p } { u with brPos := p } :=
  ⟨rfl, h.limit, h.written, h.params⟩

theorem SameSlice.stays (h : SameSlice s u) : MovedAlike s u s u :=
  ⟨s.brPos, rfl, by rw [← h.pos]⟩

theorem readBit_matches (h : SameSlice s u) : s.readBit.Matches (fun _ => MovedAlike s u) u.readBit := by
  by_cases hpos : s.brPos.toNat < s.brLimit.toNat
  · obtain ⟨b, hs, hu⟩ := h.written _ hpos
    rw [readBit_ok hpos hs, readBit_ok (s := u) (b := b) (by rwa [h.pos, h.limit]) (by rwa [h.pos])]
    exact ⟨rfl, _, rfl, by rw [h.pos]⟩
  · rw [readBit_raise (not_lt.mp hpos), readBit_raise (by rw [h.pos, h.limit]; exact not_lt.mp hpos)]
    exact rfl

/-- The bits of a written slice, as both memories hold them. -/
theorem SameSlice.bits (h : SameSlice s u) {n : Nat} (hfit : s.brPos.toNat + n ≤ s.brLimit.toNat) :
    ∃ bs : Bits, bs.length = n ∧ s.bytemem.holds s.brPos.toNat bs ∧ u.bytemem.holds s.brPos.toNat bs := by
  have hbit (k : Nat) (hk : k < s.brLimit.toNat) :
      s.bytemem.bit k = some ((s.bytemem.bit k).getD false) ∧ u.bytemem.bit k = some ((s.bytemem.bit k).getD false) := by
    obtain ⟨b, hs, hu⟩ := h.written k hk
    rw [hs, hu]
    exact ⟨rfl, rfl⟩
  refine ⟨(List.range n).map fun j => (s.bytemem.bit (s.brPos.toNat + j)).getD false, by simp, fun j hj => ?_,
    fun j hj => ?_⟩ <;> simp only [List.length_map, List.length_range] at hj <;>
    rw [List.getElem?_map, List.getElem?_range hj]
  · exact (hbit _ (by omega)).1
  · exact (hbit _ (by omega)).2

theorem readBits_matches (h : SameSlice s u) (n : Nat) :
    (s.readBits n).Matches (fun _ => MovedAlike s u) (u.readBits n) := by
  by_cases hfit : s.brPos.toNat + n ≤ s.brLimit.toNat
  · obtain ⟨bs, rfl, hs, hu⟩ := h.bits hfit
    rw [readBits_ok hfit hs, readBits_ok (s := u) (by rwa [h.pos, h.limit]) (by rwa [h.pos])]
    exact ⟨rfl, _, rfl, by rw [h.pos]⟩
  · rw [readBits_raise (not_le.mp hfit), readBits_raise (by rw [h.pos, h.limit]; exact not_le.mp hfit)]
    exact rfl

end

/-! ## The tree -/

/-- The node a waiting Parse() call has allocated. -/
def Frame.index : Frame → Nat
  | .left i => i
  | .right i _ => i

/-- Two arenas agree on the nodes made so far: those below n that no waiting call has still to write. -/
def AgreeBut (n : Nat) (frames : List Frame) (m m' : Memory NodeRec) : Prop :=
  ∀ a, a < n → a ∉ frames.map Frame.index → m.get? a = m'.get? a

theorem AgreeBut.write {n : Nat} {frames : List Frame} {m m' : Memory NodeRec} (j : Nat) (r : NodeRec)
    (h : ∀ a, a < n → a ≠ j → a ∉ frames.map Frame.index → m.get? a = m'.get? a) :
    AgreeBut n frames (m.write j r) (m'.write j r) := by
  intro a ha hframes
  rw [Memory.get?_write, Memory.get?_write]
  split
  · rfl
  · next hne => exact h a ha hne hframes

/-- Returning an index reads no node: it writes the same ones in both runs. -/
theorem returnIndex_agree {n : Nat} (frames : List Frame) : ∀ {i : Nat} {s u : State},
    AgreeBut n frames s.node u.node →
    ∃ j rest nd nd', returnIndex i frames s = (j, rest, { s with node := nd }) ∧
      returnIndex i frames u = (j, rest, { u with node := nd' }) ∧ AgreeBut n rest nd nd' := by
  induction frames with
  | nil => exact fun {i s u} h => ⟨i, [], s.node, u.node, rfl, rfl, h⟩
  | cons f frames ih =>
    intro i s u h
    cases f with
    | left j => exact ⟨i, .right j i :: frames, s.node, u.node, rfl, rfl, h⟩
    | right j l =>
      exact ih (s := s.writeNode j (NodeRec.mkInternal 0 l i)) (u := u.writeNode j (NodeRec.mkInternal 0 l i))
        (AgreeBut.write j _ fun a ha hne hframes => h a ha (by simp [Frame.index, hne, hframes]))

/-- Parse() reads the slice alone: over the same slice it makes the same nodes. -/
theorem parse_matches (room : Nat) : ∀ {next k : Nat} {frames : List Frame} {s u : State}, SameSlice s u →
    AgreeBut next frames s.node u.node →
    (parse room next k frames s).Matches
      (fun rnk s' u' => SameSlice s' u' ∧ AgreeBelow rnk.2.1 s'.node u'.node) (parse room next k frames u) := by
  induction room with
  | zero =>
    intro next k frames s u h _
    rw [parse, parse]
    exact (readBit_matches h).andThen fun _ _ _ _ => rfl
  | succ room ih =>
    intro next k frames s u h hagree
    rw [parse, parse]
    refine (readBit_matches h).andThen fun b s1 u1 ⟨p, hs1, hu1⟩ => ?_
    subst hs1 hu1
    split
    · refine (readBits_matches (h.moved p) 16).andThen fun sym s2 u2 ⟨q, hs2, hu2⟩ => ?_
      subst hs2 hu2
      obtain ⟨j, rest, nd, nd', hs, hu, hrest⟩ := returnIndex_agree (n := next + 1) (i := next) frames
        (s := writeNode next (NodeRec.mkLeaf (BitVec.ofNat 16 sym) 0) { s with brPos := q })
        (u := writeNode next (NodeRec.mkLeaf (BitVec.ofNat 16 sym) 0) { u with brPos := q })
        (AgreeBut.write next _ fun a ha hne hframes => hagree a (by omega) hframes)
      have hslice : SameSlice { s with brPos := q, node := nd } { u with brPos := q, node := nd' } :=
        ⟨rfl, h.limit, h.written, h.params⟩
      rw [hs, hu]
      cases rest with
      | nil => exact ⟨rfl, hslice, fun a ha => hrest a ha (by simp)⟩
      | cons f fs => exact ih hslice hrest
    · refine ih (h.moved p) fun a ha hframes => ?_
      simp only [List.map_cons, Frame.index, List.mem_cons, not_or] at hframes
      exact hagree a (by omega) hframes.2

/-- What the symbols are decoded from: the same slice and the same tree. -/
def SameSource (s u : State) : Prop :=
  SameSlice s u ∧ u.root = s.root ∧ ∃ t : HTree, Holds s.nodeAt s.root.toNat t ∧ Holds u.nodeAt s.root.toNat t

/-- Both runs of TreeDeserBody() describe their trees alike, and the trees' nodes agree. -/
theorem treeDeser_agree {s u : State} (h : SameSlice s u) :
    s.treeDeser.Matches
      (fun _ s' u' => SameSlice s' u' ∧ u'.root = s'.root ∧ AgreeBelow s'.nnodes.toNat s'.node u'.node)
      u.treeDeser := by
  have hclear : SameSlice s.clearTree u.clearTree := ⟨h.pos, h.limit, h.written, h.params⟩
  refine (parse_matches nodeCap hclear fun a ha => absurd ha a.not_lt_zero).andThen fun rnk s' u' ⟨hslice, hagree⟩ => ?_
  obtain ⟨root, next, k⟩ := rnk
  have hcount : (BitVec.ofNat 17 next).toNat ≤ next := BitVec.toNat_ofNat _ _ ▸ Nat.mod_le _ _
  refine ⟨by rw [hslice.pos, h.pos], ⟨hslice.pos, hslice.limit, hslice.written, hslice.params⟩, rfl,
    fun a ha => hagree a (ha.trans_le hcount)⟩

theorem treeDeser_matches {s u : State} (h : SameSlice s u) (hpos : s.brPos.toNat ≤ s.brLimit.toNat) :
    s.treeDeser.Matches (fun _ => SameSource) u.treeDeser := by
  have hrun := treeDeser_agree h
  obtain ⟨nd, p, d, -, -, -, hraise | ⟨root, t, hholds, hperm, hk, hok⟩⟩ := s.treeDeser_spec hpos
  · rw [hraise] at hrun ⊢
    cases hu : u.treeDeser <;> rw [hu] at hrun <;> exact hrun
  · have htree : TreeIs _ t := treeIs_of_perm (s := { s with node := nd, brPos := p, draws := d }) hk hholds hperm
    rw [hok] at hrun ⊢
    cases hu : u.treeDeser <;> rw [hu] at hrun
    case raise => exact hrun
    case ok b u' =>
      obtain ⟨hvalue, hslice, hroot, hagree⟩ := hrun
      refine ⟨hvalue, hslice, hroot, t, htree.holds, (holds_congr t htree.holds fun i hi => ?_).1⟩
      exact congrArg (Option.getD · NodeRec.zero) (hagree i (htree.below i hi)).symm

/-! ## The symbols -/

theorem decodeSymbol_matches (t : HTree) : ∀ {left n n' : Nat} {s u : State}, SameSlice s u → Holds s.nodeAt n t →
    Holds u.nodeAt n' t → (s.decodeSymbol left n).Matches (fun _ => MovedAlike s u) (u.decodeSymbol left n') := by
  induction t with
  | leaf sym =>
    rintro left n n' s u h ⟨hleaf, hsym⟩ ⟨hleaf', hsym'⟩
    have hs : s.decodeSymbol left n = .ok sym s := by cases left <;> simp [decodeSymbol, hleaf, hsym]
    have hu : u.decodeSymbol left n' = .ok sym u := by cases left <;> simp [decodeSymbol, hleaf', hsym']
    rw [hs, hu]
    exact ⟨rfl, h.stays⟩
  | node l r ihl ihr =>
    rintro left n n' s u h ⟨hinner, hl, hr⟩ ⟨hinner', hl', hr'⟩
    cases left with
    | zero =>
      rw [decodeSymbol, decodeSymbol, hinner, hinner']
      exact rfl
    | succ left =>
      rw [decodeSymbol, decodeSymbol]
      simp only [hinner, hinner', Bool.false_eq_true, if_false]
      refine (readBit_matches h).andThen fun b s1 u1 ⟨p, hs1, hu1⟩ => ?_
      subst hs1 hu1
      have hmoved {n n' : Nat} (hrest : (decodeSymbol left n { s with brPos := p }).Matches
          (fun _ => MovedAlike { s with brPos := p } { u with brPos := p }) (decodeSymbol left n' { u with brPos := p })) :
          (decodeSymbol left n { s with brPos := p }).Matches (fun _ => MovedAlike s u)
            (decodeSymbol left n' { u with brPos := p }) := hrest.mono fun _ _ _ ⟨q, hs, hu⟩ => ⟨q, hs, hu⟩
      cases b with
      | false => exact hmoved (ihl (h.moved p) hl hl')
      | true => exact hmoved (ihr (h.moved p) hr hr')

theorem decodeSymbols_matches {t : HTree} (n : Nat) : ∀ {i : Nat} {s u : State}, SameSlice s u → u.root = s.root →
    Holds s.nodeAt s.root.toNat t → Holds u.nodeAt s.root.toNat t →
    (∀ j, j < i → u.symout.get? j = s.symout.get? j) →
    (s.decodeSymbols n i).Matches
      (fun _ s' u' => u'.brPos = s'.brPos ∧ ∀ j, j < i + n → u'.symout.get? j = s'.symout.get? j)
      (u.decodeSymbols n i) := by
  induction n with
  | zero => exact fun h _ _ _ hout => ⟨rfl, h.pos, hout⟩
  | succ n ih =>
    intro i s u h hroot hs hu hout
    have hleft : u.bitsLeft = s.bitsLeft := by rw [bitsLeft, bitsLeft, h.pos, h.limit]
    rw [decodeSymbols, decodeSymbols, hleft, hroot]
    refine (decodeSymbol_matches t h hs hu).andThen fun sym s' u' ⟨p, hs', hu'⟩ => ?_
    subst hs' hu'
    rw [show i + (n + 1) = i + 1 + n by omega]
    refine ih (s := writeSymout i sym { s with brPos := p }) (u := writeSymout i sym { u with brPos := p })
      ⟨rfl, h.limit, h.written, h.params⟩ hroot hs hu fun j hj => ?_
    show (u.symout.write i sym).get? j = (s.symout.write i sym).get? j
    rw [Memory.get?_write, Memory.get?_write]
    split
    · rfl
    · exact hout j (by omega)

theorem decodePayload_matches {s u : State} (h : SameSource s u) :
    s.decodePayload.Matches
      (fun _ s' u' => u'.outN = s'.outN ∧ ∀ j, j < s'.outN.toNat → u'.symout.get? j = s'.symout.get? j)
      u.decodePayload := by
  obtain ⟨hslice, hroot, t, hs, hu⟩ := h
  refine (readBits_matches hslice 32).andThen fun n s1 u1 ⟨p, hs1, hu1⟩ => ?_
  subst hs1 hu1
  by_cases hcap : n > s.params.symCap
  · rw [if_pos hcap, if_pos (show n > u.params.symCap by rwa [hslice.params])]
    exact rfl
  · rw [if_neg hcap, if_neg (show ¬ n > u.params.symCap by rwa [hslice.params])]
    have hloop := decodeSymbols_matches (t := t) n (hslice.moved p) hroot hs hu fun j hj => absurd hj j.not_lt_zero
    refine hloop.andThen fun _ s' u' ⟨hpos, hout⟩ => ?_
    refine ⟨by rw [hpos], rfl, fun j hj => hout j ?_⟩
    have hcount : (word n).toNat ≤ n := BitVec.toNat_ofNat _ _ ▸ Nat.mod_le _ _
    exact hj.trans_le (hcount.trans_eq (Nat.zero_add n).symm)

/-- The two runs of DECODE over the same written slice. -/
theorem decodeBody_matches {s u : State} (hparams : u.params = s.params) (hlen : u.brlen = s.brlen)
    (hslice : ∀ a, a < s.brlen.toNat → (s.bytemem.get? a).isSome ∧ u.bytemem.get? a = s.bytemem.get? a) :
    s.decodeBody.Matches
      (fun _ s' u' => u'.outN = s'.outN ∧ ∀ j, j < s'.outN.toNat → u'.symout.get? j = s'.symout.get? j)
      u.decodeBody := by
  by_cases hcap : s.brlen.toNat ≤ s.params.byteCap
  · have hstart : SameSlice s.decodeStart u.decodeStart := by
      refine ⟨rfl, by rw [decodeStart, decodeStart, hlen], fun k hk => ?_, hparams⟩
      have hlimit : (word (8 * s.brlen.toNat)).toNat ≤ 8 * s.brlen.toNat := BitVec.toNat_ofNat _ _ ▸ Nat.mod_le _ _
      obtain ⟨hwritten, hsame⟩ := hslice (k / 8) (by have := hk.trans_le hlimit; omega)
      obtain ⟨x, hx⟩ := Option.isSome_iff_exists.mp hwritten
      exact ⟨streamBit x k, congrArg (Option.map (streamBit · k)) hx,
        congrArg (Option.map (streamBit · k)) (hsame.trans hx)⟩
    rw [decodeBody_of_le hcap, decodeBody_of_le (by rwa [hlen, hparams])]
    exact (treeDeser_matches hstart (Nat.zero_le _)).andThen fun _ _ _ h => decodePayload_matches h
  · rw [decodeBody_of_gt (not_le.mp hcap), decodeBody_of_gt (by rw [hlen, hparams]; exact not_le.mp hcap)]
    exact rfl

theorem decodeBody_raise_outN {s t : State} {e : Err} (h : s.decodeBody = .raise e t) : t.outN = 0 := by
  obtain ⟨f, v, hv, hout, -⟩ | ⟨n, v, hv, -⟩ := decodeBody_cases s
  · cases hv.symm.trans h
    exact hout
  · cases hv.symm.trans h

/-- Settles O45: the two runs of DecodeBody() match, and an error delivers no symbol. -/
theorem decodeDependsOnSliceAlone : Obligations.DecodeDependsOnSliceAlone := by
  intro s1 s2 t1 t2 _ hparams hlen hslice h1 h2
  have hrun := decodeBody_matches hparams.symm hlen.symm hslice
  cases hr1 : s1.decodeBody <;> cases hr2 : s2.decodeBody <;> rw [hr1, hr2] at hrun
  case ok.ok nq u1 mq u2 =>
    obtain ⟨rfl, hout, hsym⟩ := hrun
    cases h1.symm.trans (exec_decode_of_ok hr1)
    cases h2.symm.trans (exec_decode_of_ok hr2)
    exact ⟨rfl, hout.symm, fun _ => ⟨rfl, rfl⟩, fun i hi => (hsym i hi).symm⟩
  case raise.raise e u1 f u2 =>
    cases (show e = f from hrun)
    cases h1.symm.trans (exec_decode_of_raise hr1)
    cases h2.symm.trans (exec_decode_of_raise hr2)
    have hout1 : u1.outN = 0 := decodeBody_raise_outN hr1
    have hout2 : u2.outN = 0 := decodeBody_raise_outN hr2
    refine ⟨rfl, hout1.trans hout2.symm, nofun, fun i hi => ?_⟩
    rw [show BitVec.toNat _ = 0 from congrArg BitVec.toNat hout1] at hi
    exact absurd hi i.not_lt_zero
  all_goals exact hrun.elim

end Sys2Proof.Machine
end

/-! ENC_ALL reads its input alone (46_codec.md R622): two runs on the same input build the same tree, so they write the same
container. -/
section

namespace Sys2Proof.Machine

open State

/-! ## What an arena, and a byte memory, determine -/

/-- An arena holds one tree at a node. -/
theorem holds_unique {node : Nat → NodeRec} (t : HTree) : ∀ {n : Nat} {t' : HTree}, Holds node n t → Holds node n t' →
    t = t' := by
  induction t with
  | leaf sym =>
    rintro n (sym' | ⟨l', r'⟩) ⟨hleaf, hsym⟩ h'
    · rw [← hsym, ← h'.2]
    · exact absurd hleaf (Bool.eq_false_iff.mp h'.1)
  | node l r ihl ihr =>
    rintro n (sym' | ⟨l', r'⟩) ⟨hinner, hl, hr⟩ h'
    · exact absurd h'.1 (Bool.eq_false_iff.mp hinner)
    · rw [ihl hl h'.2.1, ihr hr h'.2.2]

/-- Eight stream bits make a byte (00_scope.md R20). -/
theorem get?_eq_of_holds {m m' : Memory Byte} {bs : Bits} {a : Nat} (h : m.holds 0 bs) (h' : m'.holds 0 bs)
    (ha : 8 * a + 8 ≤ bs.length) : m.get? a = m'.get? a := by
  have hbit {m : Memory Byte} (h : m.holds 0 bs) {j : Nat} (hj : j < 8) :
      (m.get? a).map (fun x => x.getLsbD (7 - j)) = bs[8 * a + j]? := by
    rw [← h (8 * a + j) (by omega), Memory.bit, Nat.zero_add, show (8 * a + j) / 8 = a by omega]
    refine congrArg (Option.map · (m.get? a)) (funext fun x => ?_)
    rw [streamBit, show (8 * a + j) % 8 = j by omega]
  have hwritten {m : Memory Byte} (h : m.holds 0 bs) : ∃ x, m.get? a = some x := by
    have h0 := hbit h (j := 0) (by decide)
    rw [List.getElem?_eq_getElem (by omega)] at h0
    obtain ⟨x, hx, -⟩ := Option.map_eq_some_iff.mp h0
    exact ⟨x, hx⟩
  obtain ⟨x, hx⟩ := hwritten h
  obtain ⟨y, hy⟩ := hwritten h'
  rw [hx, hy, Option.some.injEq]
  refine BitVec.eq_of_getLsbD_eq fun i hi => ?_
  have hboth := (hbit h (j := 7 - i) (by omega)).trans (hbit h' (j := 7 - i) (by omega)).symm
  rwa [hx, hy, show 7 - (7 - i) = i by omega, Option.map_some, Option.map_some, Option.some.injEq] at hboth

/-! ## The tree of ENC_ALL -/

section
variable {s t : State} {syms : List Symbol} (hin : s.inputIs syms) (hne : syms ≠ [])
  (hcap : syms.length ≤ s.params.symCap)
include hin hne hcap

/-- The count and the build on written input: the merges of the present symbols by their counts (46_codec.md R615). -/
theorem encAllBuild_written : ∃ m : Memory Weight,
    (∀ x : Symbol, m.get? x.toNat = some (BitVec.ofNat 64 (syms.count x))) ∧ freqLeaves { s with freq := m } ≠ [] ∧
      ∃ km, s.encAllBuild = .ok km (buildTree (freqLeaves { s with freq := m }) { s with freq := m }) := by
  have hN : syms.length < 2 ^ 32 := hin.1 ▸ s.nsym.isLt
  obtain ⟨m, hm, hwf, hc⟩ := countSymbols_written hin
  have hwritten : freqWritten { s with freq := m } := freqWritten_of_counts hc
  have hleaves : freqLeaves { s with freq := m } ≠ [] := fun hnil => by
    have hsyms := freqLeaves_symbols (s := { s with freq := m }) (by omega) hc
    rw [hnil] at hsyms
    exact hne ((List.dedup_eq_nil syms).mp (List.nil_perm.mp hsyms))
  have hweight : totalWeight (freqLeaves { s with freq := m }) ≤ maxTotalWeight := by
    rw [totalWeight_freqLeaves (by omega) hc]
    unfold maxTotalWeight
    omega
  have hscan : nonzeroFreq { s with freq := m } = (freqLeaves { s with freq := m }, { s with freq := m }) :=
    nonzeroFreq_written hwf hwritten
  refine ⟨m, hc, hleaves, ?_⟩
  rw [encAllBuild, freqCount_of_le (hin.1 ▸ hcap), hm, hscan, Res.andThen_ok]
  exact ⟨_, treeBuild_ok hwf hwritten hleaves hweight⟩

/-- ENC_ALL's later bodies keep the tree. -/
theorem encAll_keeps_tree {km : Nat × Nat} {u : State} (hbuild : s.encAllBuild = .ok km u)
    (hexec : exec .encAll s = .next t) : t.node = u.node ∧ t.root = u.root ∧ t.nnodes = u.nnodes := by
  have hcheck : s.encAllCheck = none :=
    encAllCheck_eq_none.mpr ⟨hin.1 ▸ List.length_pos_of_ne_nil hne, hin.1.trans_le hcap⟩
  have hrest : s.encAllBody.Sat (fun _ w => w.node = u.node ∧ w.root = u.root ∧ w.nnodes = u.nnodes)
      (fun _ w => w.node = u.node ∧ w.root = u.root ∧ w.nnodes = u.nnodes) := by
    rw [encAllBody, hcheck]
    simp only
    rw [hbuild, Res.andThen_ok]
    refine Res.Sat.andThen (Q := fun _ v => v.node = u.node ∧ v.root = u.root ∧ v.nnodes = u.nnodes) ?_ fun _ v hv => ?_
    · refine (codeGen_sat _ u).mono (fun _ v hv => ?_) fun _ v hv => ?_
      · rw [hv.1]; exact ⟨rfl, rfl, rfl⟩
      · rw [hv.1]; exact ⟨rfl, rfl, rfl⟩
    · have hkeep {w : State} (hw : v.WriterOnly w) : w.node = u.node ∧ w.root = u.root ∧ w.nnodes = u.nnodes := by
        unfold WriterOnly at hw
        rw [hw]
        exact hv
      exact (encodeBody_sat _ v).mono (fun _ _ h => hkeep h) fun _ _ h => hkeep h.1
  rw [exec_encAll] at hexec
  cases hbody : s.encAllBody with
  | ok np w =>
    rw [hbody] at hrest hexec
    cases hexec
    exact hrest
  | raise e w =>
    rw [hbody] at hrest hexec
    cases hexec
    exact hrest

end

/-- Runs of ENC_ALL on the same input leave the same tree in NODE. -/
theorem encAll_tree_agree {s1 s2 t1 t2 : State} {syms : List Symbol} (h1 : s1.inputIs syms) (h2 : s2.inputIs syms)
    (hne : syms ≠ []) (hcap1 : syms.length ≤ s1.params.symCap) (hcap2 : syms.length ≤ s2.params.symCap)
    (hexec1 : exec .encAll s1 = .next t1) (hexec2 : exec .encAll s2 = .next t2) :
    AgreeBelow t1.nnodes.toNat t1.node t2.node ∧ t1.root = t2.root := by
  obtain ⟨m1, hc1, hleaves, km1, hbuild1⟩ := encAllBuild_written h1 hne hcap1
  obtain ⟨m2, hc2, -, km2, hbuild2⟩ := encAllBuild_written h2 hne hcap2
  have hsame : freqLeaves { s2 with freq := m2 } = freqLeaves { s1 with freq := m1 } := by
    refine freqLeaves_congr fun i hi => ?_
    rw [← symbol_toNat hi]
    exact (hc2 _).trans (hc1 _).symm
  rw [hsame] at hbuild2
  have hagree := buildTree_agree (s := { s1 with freq := m1 }) (u := { s2 with freq := m2 }) hleaves
  obtain ⟨hnode1, hroot1, hcount1⟩ := encAll_keeps_tree h1 hne hcap1 hbuild1 hexec1
  obtain ⟨hnode2, hroot2, -⟩ := encAll_keeps_tree h2 hne hcap2 hbuild2 hexec2
  obtain ⟨hnodes, hroot, -, -⟩ := hagree
  rw [hnode1, hnode2, hcount1, hroot1, hroot2]
  exact ⟨hnodes, hroot⟩

/-- Two states whose NODE entries agree hold the same current tree. -/
theorem treeIs_unique {t1 t2 : State} {tr1 tr2 : HTree} (h1 : t1.TreeIs tr1) (h2 : t2.TreeIs tr2)
    (hnodes : AgreeBelow t1.nnodes.toNat t1.node t2.node) (hroot : t1.root = t2.root) : tr1 = tr2 := by
  have hboth := (holds_congr (node' := t2.nodeAt) tr1 h1.holds fun i hi =>
    congrArg (Option.getD · NodeRec.zero) (hnodes i (h1.below i hi)).symm).1
  rw [hroot] at hboth
  exact holds_unique tr1 hboth h2.holds

/-- Two code tables of one tree give its symbols the same codes. -/
theorem codes_unique {t1 t2 : State} {tr : HTree} (h1 : t1.CodesAre tr) (h2 : t2.CodesAre tr) {x : Symbol}
    (hx : x ∈ tr.paths.map Prod.fst) : t1.codeAt x.toNat = t2.codeAt x.toNat := by
  obtain ⟨c, hc, rfl⟩ := List.mem_map.mp hx
  rw [h1.present c hc, h2.present c hc]

/-- Settles O44: both runs make one tree, so one container, which fits in both or in neither. -/
theorem encAllDependsOnInputAlone : Obligations.EncAllDependsOnInputAlone := by
  intro s1 s2 t1 t2 syms hp hparams h1 h2 hexec1 hexec2
  obtain ⟨hchecks1, -⟩ := encodersCheckInOrder s1
  obtain ⟨hchecks2, -⟩ := encodersCheckInOrder s2
  obtain ⟨hempty1, hmany1⟩ := hchecks1 .encAll (.inr rfl)
  obtain ⟨hempty2, hmany2⟩ := hchecks2 .encAll (.inr rfl)
  have hnsym : s2.nsym = s1.nsym := BitVec.eq_of_toNat_eq (h2.1.trans h1.1.symm)
  by_cases hzero : s1.nsym = 0
  · cases hexec1.symm.trans (hempty1 hzero)
    cases hexec2.symm.trans (hempty2 (hnsym.trans hzero))
    exact ⟨rfl, nofun⟩
  by_cases hmany : s1.params.symCap < s1.nsym.toNat
  · cases hexec1.symm.trans (hmany1 hzero hmany)
    cases hexec2.symm.trans (hmany2 (hnsym ▸ hzero) (by rwa [← hparams, hnsym]))
    exact ⟨rfl, nofun⟩
  have hne : syms ≠ [] := by
    rintro rfl
    exact hzero (BitVec.eq_of_toNat_eq h1.1)
  have hcap1 : syms.length ≤ s1.params.symCap := h1.1 ▸ not_lt.mp hmany
  have hcap2 : syms.length ≤ s2.params.symCap := hparams ▸ hcap1
  obtain ⟨u1, tr, he1, -, -, htree1, hcodes1, hmem, -, -, -, -, -, -, hfit1, hover1⟩ :=
    encAllWritesContainer s1 syms hp h1 hne hcap1
  obtain ⟨u2, tr2, he2, -, -, htree2, hcodes2, -, -, -, -, -, -, -, hfit2, hover2⟩ :=
    encAllWritesContainer s2 syms (hparams ▸ hp) h2 hne hcap2
  cases he1.symm.trans hexec1
  cases he2.symm.trans hexec2
  obtain ⟨hnodes, hroot⟩ := encAll_tree_agree h1 h2 hne hcap1 hcap2 he1 he2
  obtain rfl := treeIs_unique htree1 htree2 hnodes hroot
  have hcodes : syms.map (fun x => (t2.codeAt x.toNat).bits) = syms.map fun x => (t1.codeAt x.toNat).bits :=
    List.map_congr_left fun x hx => by rw [codes_unique hcodes1 hcodes2 ((hmem x).mpr hx)]
  rw [hcodes] at hfit2 hover2
  rw [← hparams] at hfit2 hover2
  generalize containerBits tr _ = bits at hfit1 hfit2 hover1 hover2
  by_cases hfit : bits.length ≤ 8 * s1.params.byteCap
  · obtain ⟨hok1, hholds1, hres01, hres11, -⟩ := hfit1 hfit
    obtain ⟨hok2, hholds2, hres02, hres12, -⟩ := hfit2 hfit
    refine ⟨hok1.trans hok2.symm, fun _ => ⟨hres01.trans hres02.symm, hres11.trans hres12.symm, fun a ha => ?_⟩⟩
    have hcount : (word ((bits.length + padTo8 bits.length) / 8)).toNat ≤ (bits.length + padTo8 bits.length) / 8 :=
      BitVec.toNat_ofNat _ _ ▸ Nat.mod_le _ _
    refine get?_eq_of_holds hholds1 hholds2 ?_
    rw [List.length_append, List.length_replicate]
    have := (hres01 ▸ ha).trans_le hcount
    omega
  · obtain ⟨hover1, -⟩ := hover1 (not_le.mp hfit)
    obtain ⟨hover2, -⟩ := hover2 (not_le.mp hfit)
    exact ⟨hover1.trans hover2.symm, fun hok => absurd (hover1.symm.trans hok) nofun⟩

end Sys2Proof.Machine
end
